-- ==== Sys2Proof/Word.lean ====
section
/-! DEFINITION. The two word types of the engine: a 32-bit register value (00_scope.md R13, 10_state.md R20) and a byte of data
memory (20_memory.md R61). Counts, lengths, bit offsets and all arithmetic inside the commands are unbounded naturals (R13, R151)
and stay `Nat`. -/

namespace Sys2Proof

/-- A register value (R13). -/
abbrev Word := BitVec 32

/-- A byte of data memory (R61). -/
abbrev Byte := BitVec 8

/-- A natural number as a register value. The rules show that it fits wherever a command stores one (R151). -/
abbrev word (n : Nat) : Word := BitVec.ofNat 32 n

/-- A natural number as a byte. -/
abbrev byte (n : Nat) : Byte := BitVec.ofNat 8 n

end Sys2Proof
end

