-- ==== Sys2Proof/Syntax.lean ====
section
/-! DEFINITION. The commands of the engine: one constructor for each row of spec/opcode_table.json (30_encoding.md R92). The only
operands a command word carries are the two flag bits (R90, R91), and a constructor has exactly the flags its row allows. -/

namespace Sys2Proof

/-- A legal command (R92). -/
inductive Instr where
  /-- `NOP`, OP 0x00 (40_control.md R148). -/
  | nop
  /-- `BITS.PUT`, OP 0x10, flag `R` (41_bitstream.md R169). -/
  | bitsPut (reverse : Bool)
  /-- `BITS.GET`, OP 0x11, flag `R` (R170). -/
  | bitsGet (reverse : Bool)
  /-- `LZ77.TOKENIZE`, OP 0x20 (42_match_finder.md R192). -/
  | lz77Tokenize
  /-- `HUFF.BUILD_FREQ`, OP 0x30 (43_huffman.md R221). -/
  | huffBuildFreq
  /-- `HUFF.BUILD_LENGTHS`, OP 0x31 (R222). -/
  | huffBuildLengths
  /-- `HUFF.ENCODE_SYM`, OP 0x32 (R223). -/
  | huffEncodeSym
  /-- `HUFF.DECODE_SYM`, OP 0x33 (R224). -/
  | huffDecodeSym
  /-- `TREE.WRITE`, OP 0x34 (R225). -/
  | treeWrite
  /-- `TREE.READ`, OP 0x35 (R226). -/
  | treeRead
  /-- `DEFLATE.RAW`, OP 0x40 (44_deflate.md R264). -/
  | deflateRaw
  /-- `INFLATE.RAW`, OP 0x41 (R265). -/
  | inflateRaw
  /-- `ZLIB.COMPRESS`, OP 0x50 (45_zlib_adler.md R286). -/
  | zlibCompress
  /-- `ZLIB.DECOMPRESS`, OP 0x51, flag `I` (R287). -/
  | zlibDecompress (ignoreAdler : Bool)
  /-- `ADLER32`, OP 0x52 (R288). -/
  | adler32
  /-- `ADAM7.GEOMETRY`, OP 0x60 (46_adam7.md R307). -/
  | adam7Geometry
  /-- `ADAM7.INTERLACE`, OP 0x61 (R308). -/
  | adam7Interlace
  /-- `ADAM7.DEINTERLACE`, OP 0x62 (R309). -/
  | adam7Deinterlace
  deriving DecidableEq, Repr

end Sys2Proof
end

