-- ==== Sys2Proof/WellFormed.lean ====
section
/-! DEFINITION. Which command words are legal (30_encoding.md R93), from the opcode map of R92. The constructors of `Instr` carry
only the flags their row allows, so a term of `Instr` has no field that could be out of range, and well-formedness is a property
of the WORD. -/

namespace Sys2Proof

/-- A row of the opcode map (R92): the opcode and which of the two flags it allows. -/
structure OpRow where
  op : Nat
  allowsI : Bool
  allowsR : Bool
  deriving DecidableEq, Repr

/-- The opcode map (R92). -/
def opcodeMap : List OpRow :=
  [⟨0x00, false, false⟩, ⟨0x10, false, true⟩, ⟨0x11, false, true⟩, ⟨0x20, false, false⟩, ⟨0x30, false, false⟩,
   ⟨0x31, false, false⟩, ⟨0x32, false, false⟩, ⟨0x33, false, false⟩, ⟨0x34, false, false⟩, ⟨0x35, false, false⟩] ++
  [⟨0x40, false, false⟩, ⟨0x41, false, false⟩, ⟨0x50, false, false⟩, ⟨0x51, true, false⟩, ⟨0x52, false, false⟩,
   ⟨0x60, false, false⟩, ⟨0x61, false, false⟩, ⟨0x62, false, false⟩]

/-- `OP`, bits 7:0 (R90). -/
def opOf (w : Word) : Nat := (w.extractLsb' 0 8).toNat

/-- `IGNORE_ADLER`, bit 8 (R90). -/
def flagI (w : Word) : Bool := w.getLsbD 8

/-- `REVERSE`, bit 9 (R90). -/
def flagR (w : Word) : Bool := w.getLsbD 9

/-- Bits 31:10 are 0 (R90). -/
def reservedClear (w : Word) : Bool := w.extractLsb' 10 22 == 0#22

/-- `OP` stands in the map (R93). -/
def opListed (w : Word) : Bool := opcodeMap.any fun r => r.op == opOf w

/-- Every flag that is set is allowed by some row of the word's `OP` (R93). -/
def flagsAllowed (w : Word) : Bool :=
  opcodeMap.any fun r => r.op == opOf w && (!flagI w || r.allowsI) && (!flagR w || r.allowsR)

/-- A legal command word: the complement of R93's illegal words. -/
def wordLegal (w : Word) : Bool := reservedClear w && opListed w && flagsAllowed w

/-- A command's fields are in range: its flags are Booleans and every constructor has only the flags its row allows (R92), so
every term is well-formed. -/
def Instr.wellFormed (_ : Instr) : Bool := true

end Sys2Proof
end

