-- ==== Sys2Proof/Decode.lean ====
section
/-! DEFINITION. The decoder of command words, total on all 2^32 words and rejecting by name, and the encoder, both from the opcode
map of 30_encoding.md R92. -/

namespace Sys2Proof

/-- Why a command word is illegal (R93). The engine reports `ERR_BAD_OP` for each of the three (40_control.md R146). -/
inductive DecodeError where
  /-- A bit of 31:10 is 1. -/
  | reservedBits
  /-- `OP` is not in the opcode map. -/
  | unlistedOp
  /-- `I` or `R` is 1 with an opcode that does not allow it. -/
  | flagNotAllowed
  deriving DecidableEq, Repr

/-- A command that allows neither flag (R92). -/
def decodePlain (i r : Bool) (x : Instr) : Except DecodeError Instr :=
  if i || r then .error .flagNotAllowed else .ok x

/-- A command that allows `R` only (R92). -/
def decodeR (i r : Bool) (x : Bool → Instr) : Except DecodeError Instr :=
  if i then .error .flagNotAllowed else .ok (x r)

/-- A command that allows `I` only (R92). -/
def decodeI (i r : Bool) (x : Bool → Instr) : Except DecodeError Instr :=
  if r then .error .flagNotAllowed else .ok (x i)

/-- The opcode map, read from the opcode (R92). -/
def decodeOp (op : Nat) (i r : Bool) : Except DecodeError Instr :=
  match op with
  | 0x00 => decodePlain i r .nop
  | 0x10 => decodeR i r .bitsPut
  | 0x11 => decodeR i r .bitsGet
  | 0x20 => decodePlain i r .lz77Tokenize
  | 0x30 => decodePlain i r .huffBuildFreq
  | 0x31 => decodePlain i r .huffBuildLengths
  | 0x32 => decodePlain i r .huffEncodeSym
  | 0x33 => decodePlain i r .huffDecodeSym
  | 0x34 => decodePlain i r .treeWrite
  | 0x35 => decodePlain i r .treeRead
  | 0x40 => decodePlain i r .deflateRaw
  | 0x41 => decodePlain i r .inflateRaw
  | 0x50 => decodePlain i r .zlibCompress
  | 0x51 => decodeI i r .zlibDecompress
  | 0x52 => decodePlain i r .adler32
  | 0x60 => decodePlain i r .adam7Geometry
  | 0x61 => decodePlain i r .adam7Interlace
  | 0x62 => decodePlain i r .adam7Deinterlace
  | _ => .error .unlistedOp

/-- The command a word stands for, or why it is illegal (R92, R93). -/
def decode (w : Word) : Except DecodeError Instr :=
  if reservedClear w then decodeOp (opOf w) (flagI w) (flagR w) else .error .reservedBits

/-- The bits that select a command are `{22'b0, R, I, OP}` (R92). -/
def encodeWord (op : Nat) (i r : Bool) : Word :=
  word (op + (if i then 2 ^ 8 else 0) + (if r then 2 ^ 9 else 0))

/-- The command word of a command (R92). -/
def encode : Instr → Word
  | .nop => encodeWord 0x00 false false
  | .bitsPut r => encodeWord 0x10 false r
  | .bitsGet r => encodeWord 0x11 false r
  | .lz77Tokenize => encodeWord 0x20 false false
  | .huffBuildFreq => encodeWord 0x30 false false
  | .huffBuildLengths => encodeWord 0x31 false false
  | .huffEncodeSym => encodeWord 0x32 false false
  | .huffDecodeSym => encodeWord 0x33 false false
  | .treeWrite => encodeWord 0x34 false false
  | .treeRead => encodeWord 0x35 false false
  | .deflateRaw => encodeWord 0x40 false false
  | .inflateRaw => encodeWord 0x41 false false
  | .zlibCompress => encodeWord 0x50 false false
  | .zlibDecompress i => encodeWord 0x51 i false
  | .adler32 => encodeWord 0x52 false false
  | .adam7Geometry => encodeWord 0x60 false false
  | .adam7Interlace => encodeWord 0x61 false false
  | .adam7Deinterlace => encodeWord 0x62 false false

/-- What the decoder reads from a table word of `nbits` bits (30_encoding.md R90: every command word is one 32-bit word, so a
longer one is no command word; the bits above `nbits` are 0). -/
def decodeTableWord (nbits w : Nat) : Option Instr :=
  if nbits ≤ 32 then (decode (word (w % 2 ^ nbits))).toOption else none

end Sys2Proof
end

