-- ==== Sys2Proof/Config.lean ====
section
/-! DEFINITION. The implementation parameters of 00_scope.md R11 and R12 at the values the spec gives them, and the free values:
opaque constants with no body, one draw for each value the spec marks UNSPECIFIED (R19). The two platform parameters `REG_BASE`
and `BUS_OK` are left open by R12 and stand in State as platform data. -/

namespace Sys2Proof.Config

/-- `2^ADDR_W`, the number of bytes of data memory (R12, R60). -/
def addrSpace : Nat := 2 ^ 32

/-- `WINDOW_MAX` (R11). -/
def windowMax : Nat := 32768

/-- `MAX_MATCH` (R11): longest match, and the cap of a zero run. -/
def maxMatch : Nat := 258

/-- `MIN_PAIR` (R11): the shortest length/distance pair. -/
def minPair : Nat := 3

/-- `STORED_MAX` (R11): most bytes in one stored block. -/
def storedMax : Nat := 65535

/-- `MAX_CHAIN(W)` (R11): chain nodes visited per position. -/
def maxChain (w : Nat) : Nat := if 8192 ≤ w then w else w / 8

/-- `DYN_BLOCK(n)` (R11): the input chunk of a dynamic block. -/
def dynBlock (n : Nat) : Nat := max 65536 (min 262144 (n / 8 + 8))

/-- `LL_MAXBITS` (R11). -/
def llMaxBits : Nat := 15

/-- `D_MAXBITS` (R11). -/
def dMaxBits : Nat := 15

/-- `CL_MAXBITS` (R11). -/
def clMaxBits : Nat := 7

/-- `HASH_BITS` (R12, decision D8). -/
def hashBits : Nat := 16

/-- `MAX_LAZY(W)` (R12, decision D9). -/
def maxLazy (w : Nat) : Nat := if 8192 ≤ w then 258 else 64

/-- `LAZY_GAIN` (R12, decision D10). -/
def lazyGain : Nat := 0

/-- `FAR3_LIMIT` (R12, decision D11). -/
def far3Limit : Nat := 4096

/-- `DEGENERATE_DIST_OK` (R12, R212, decision D13). -/
def degenerateDistOk : Bool := false

/-- `ADAM7_BIT_ORDER = MSB_FIRST` (R12, R306, decision D14). -/
def adam7MsbFirst : Bool := true

/-- `ZLIB_CINFO` (R12, decision D15). -/
def zlibCinfo : Nat := 7

/-- `ZLIB_FLEVEL` (R12, decision D15). -/
def zlibFlevel : Nat := 0

/-- FREE VALUE (R19): word number `item` of draw number `draw`. Nothing in Lean can evaluate it. -/
opaque freeWord (draw item : Nat) : Word

/-- FREE VALUE (log 10): what a 32-bit register holds for a bit count of 2^32 or above. It depends on the count alone, so that a
command's outcome is a function of its word, registers and memory (40_control.md R145). Nothing in Lean can evaluate it. -/
opaque freeCount (count : Nat) : Word

/-- FREE VALUE (R19): byte number `item` of draw number `draw`. Nothing in Lean can evaluate it. -/
opaque freeByte (draw item : Nat) : Byte

end Sys2Proof.Config
end

