-- ==== Sys2Proof/Machine/Tab.lean ====
section
/-! DEFINITION. A sparse table from naturals to values, as plain data: a binary tree in which key 0 is the root, an odd key `2k+1`
lies under the left subtree at `k` and an even key `2k+2` under the right subtree at `k`. The match finder's tables
(10_state.md R45), byte buffers and bit buffers are held in it. An absent key stands for the table's initial entry. -/

namespace Sys2Proof.Machine

/-- A sparse table. -/
inductive Tab (α : Type) where
  | nil
  | node (val : Option α) (odd even : Tab α)
  deriving DecidableEq, Repr, Inhabited

/-- The entry at a key, `none` where none was set. -/
def Tab.get {α : Type} : Tab α → Nat → Option α
  | .nil, _ => none
  | .node v odd even, k =>
    if k = 0 then v else if k % 2 = 1 then odd.get (k / 2) else even.get (k / 2 - 1)

/-- `set` with the recursion's fuel spelt out; `k + 1` levels are always enough. -/
def Tab.put {α : Type} : Nat → Tab α → Nat → Option α → Tab α
  | 0, t, _, _ => t
  | fuel + 1, .nil, k, x =>
    if k = 0 then .node x .nil .nil
    else if k % 2 = 1 then .node none (Tab.put fuel .nil (k / 2) x) .nil
    else .node none .nil (Tab.put fuel .nil (k / 2 - 1) x)
  | fuel + 1, .node v odd even, k, x =>
    if k = 0 then .node x odd even
    else if k % 2 = 1 then .node v (Tab.put fuel odd (k / 2) x) even
    else .node v odd (Tab.put fuel even (k / 2 - 1) x)

/-- The table with the entry at one key replaced (`none` removes it). -/
def Tab.set {α : Type} (t : Tab α) (k : Nat) (x : Option α) : Tab α := Tab.put (k + 1) t k x

end Sys2Proof.Machine
end

