-- ==== Sys2Proof/Machine/State.lean ====
section
/-! DEFINITION. The state of the engine and its surroundings as plain data: the register bank of 10_state.md R20, the status flags
(R24), the latched command context (R49), the hidden working tables (R45 to R47), data memory (20_memory.md R61), the platform
(00_scope.md R12), and the agenda of outside events. Also the reasons a step can stop, and the state after reset (R50). -/

namespace Sys2Proof.Machine

/-- The errors of 60_exceptions.md R320, by name. Every other nonzero 8-bit code is never produced. -/
inductive ErrCode where
  | badOp | badArg | windowRange | windowPow2 | cfgBtype | addr | overlap | bus | dstFull | imgTooLarge
  | zlibFcheck | zlibMethod | zlibFdict | btype | nlen | codeLengths | repeatNoPrev | repeatOverrun | noEobLength
  | invalidCode | distTooFar | adlerMismatch | eobZero | alphabetTooLarge | trunc | noEob
  deriving DecidableEq, Repr, Inhabited

/-- `STATUS` (R24), held by its fields; the reserved bits read 0 and have no storage. `errCode` is `none` for `ERR_NONE`. -/
structure Status where
  busy : Bool
  done : Bool
  error : Bool
  overrun : Bool
  errCode : Option ErrCode
  deriving DecidableEq, Repr, Inhabited

/-- The registers of R20 that hold a value of their own. `ID` and `VERSION` are constants (R21, R22) and `STATUS` is held as
`Status`. The registers with reserved fields (`IRQ_EN`, `MATCH`, `MODE`, `IMG_BPP`) hold the whole word, their reserved bits 0. -/
structure Regs where
  cmd : Word
  irqEn : Word
  window : Word
  matchCfg : Word
  mode : Word
  srcAddr : Word
  srcLen : Word
  dstAddr : Word
  dstCap : Word
  dstLen : Word
  auxAddr : Word
  arg0 : Word
  arg1 : Word
  arg2 : Word
  result0 : Word
  result1 : Word
  adler : Word
  srcBitpos : Word
  dstBitpos : Word
  imgW : Word
  imgH : Word
  imgBpp : Word
  errInfo : Word
  passW : Vector Word 7
  passH : Vector Word 7
  fstart : Vector Word 8
  pstart : Vector Word 8
  ustart : Vector Word 8
  deriving DecidableEq, Repr, Inhabited

/-- The names of the registers of R20. -/
inductive Reg where
  | id | version | cmd | status | irqEn | window | matchCfg | mode | srcAddr | srcLen | dstAddr | dstCap | dstLen | auxAddr
  | arg0 | arg1 | arg2 | result0 | result1 | adler | srcBitpos | dstBitpos | imgW | imgH | imgBpp | errInfo
  | passW (p : Fin 7) | passH (p : Fin 7) | fstart (i : Fin 8) | pstart (i : Fin 8) | ustart (i : Fin 8)
  deriving DecidableEq, Repr

/-- A register, or the whole Adam7 bank, that a command's rule lists under *Writes*. -/
inductive WReg where
  | dstLen | result0 | result1 | adler | srcBitpos | dstBitpos | adam7
  deriving DecidableEq, Repr

/-- The match-finder tables (R45). An absent entry is the one `HashInit` sets (42_match_finder.md R180): −1 in `HEAD`, `VAL` and
`HEADZ`, the slot itself in `CHAIN` and `CHAINZ`, 0 in `ZEROS`. -/
structure MatchTables where
  head : Tab Nat
  chain : Tab Nat
  val : Tab Nat
  zeros : Tab Nat
  headz : Tab Nat
  chainz : Tab Nat
  deriving DecidableEq, Repr, Inhabited

/-- The decode table of one code (43_huffman.md R213): the longest length, the number of codes of each length `0 .. maxLen`, and
the used symbols in increasing order of length, then symbol. -/
structure DecodeTable where
  maxLen : Nat
  counts : List Nat
  sorted : List Nat
  deriving DecidableEq, Repr, Inhabited

/-- The Huffman working tables (R46). -/
structure HuffTables where
  llLens : List Nat
  dLens : List Nat
  clLens : List Nat
  llCodes : List Nat
  dCodes : List Nat
  clCodes : List Nat
  llDecode : DecodeTable
  dDecode : DecodeTable
  clDecode : DecodeTable
  deriving DecidableEq, Repr, Inhabited

/-- The states of a stream decode (R47, 44_deflate.md R250). -/
inductive Phase where
  | readingBlockHeader | stored | fixedHuffman | dynamicHuffman | blockDone | streamDone
  deriving DecidableEq, Repr, Inhabited

/-- The codec sequencing state (R47): its phase, the input bit cursor and the number of output bytes produced. -/
structure CodecState where
  phase : Phase
  bitCursor : Nat
  produced : Nat
  deriving DecidableEq, Repr, Inhabited

/-- The hidden working state (R45 to R47). A command is one transition (40_control.md R142) that creates the working state it
needs at its start (70_reset_and_hazards.md R365), so this holds what stands in it BETWEEN commands. -/
structure Hidden where
  matchTables : MatchTables
  huffTables : HuffTables
  codec : CodecState
  deriving DecidableEq, Repr, Inhabited

end Sys2Proof.Machine

namespace Sys2Proof.Config

/-- FREE VALUE (R19, R45, R46, R362): the hidden state of draw number `draw`. Nothing in Lean can evaluate it. -/
opaque freeHidden (draw : Nat) : Sys2Proof.Machine.Hidden

end Sys2Proof.Config

namespace Sys2Proof.Machine

/-- Data memory (20_memory.md R61) as (address, byte) pairs: addresses strictly rising, no entry equal to what an unlisted address
reads as (`Memory.Wf`). -/
abbrev Memory := List Host.Cell

/-- What the platform fixes (00_scope.md R12): `REG_BASE`, and `BUS_OK` given as the address ranges `[lo, hi)` on which it is
false. Every predicate on the 2^32 addresses is such a list. -/
structure Platform where
  regBase : Word
  busHoles : List (Nat × Nat)
  deriving DecidableEq, Repr, Inhabited

/-- A move of the outside world, or the moment at which the engine makes its own transition. -/
inductive Event where
  /-- A host read of `size` bytes in register space (R60, R72). -/
  | regRead (addr : Word) (size : Nat)
  /-- A host write of `size` bytes in register space (R60, R72). -/
  | regWrite (addr : Word) (size : Nat) (value : Word)
  /-- A host read of one byte of data memory (R73). -/
  | memRead (addr : Nat)
  /-- A write of one byte of data memory by the host, another bus master or another engine instance (R73, R81). -/
  | memWrite (addr : Nat) (value : Byte)
  /-- The engine's transition (40_control.md R142) happens now, if a command is running. -/
  | complete
  /-- Reset (70_reset_and_hazards.md R360). -/
  | reset
  deriving DecidableEq, Repr

/-- What the host's last access got. -/
inductive Response where
  | none
  | word (value : Word)
  | byte (value : Byte)
  | written
  /-- The bus error response of 20_memory.md R72. -/
  | busError
  deriving DecidableEq, Repr, Inhabited

structure State where
  /-- The register bank (R20). -/
  regs : Regs
  /-- `STATUS` (R24). -/
  status : Status
  /-- The latched command context (R49): a copy of the bank, with the command word, that exists only while `BUSY = 1`. -/
  latched : Option Regs
  /-- Data memory (R61). -/
  mem : Memory
  /-- The hidden working state (R45 to R47). -/
  hidden : Hidden
  /-- The model's field: what the platform fixes (R12). Constant. -/
  platform : Platform
  /-- The model's field: the events to come, first one next. -/
  agenda : List Event
  /-- The model's field: what the host's last access got. -/
  resp : Response
  /-- The model's field: how many draws of free values were taken so far. -/
  draws : Nat
  deriving DecidableEq, Repr

/-- Where a step stops with a fault. No command of the engine ever faults: an error is a completion (60_exceptions.md R323). -/
inductive Fault where
  /-- Raised by a host access to data memory at an address of 2^32 or above, which does not exist (20_memory.md R60). Safe. -/
  | noSuchAddress
  deriving DecidableEq, Repr

/-- Where the model has no next state. -/
inductive Refusal where
  /-- Raised by exec's arm for an instruction with no meaning. Safe. -/
  | notModelled (mnemonic : String)
  /-- Raised by a write to a byte of a running command's region by another agent: 70_reset_and_hazards.md R370 makes it a host
  duty and 00_scope.md R19 gives a model no such move. Safe. -/
  | hostDutyBroken
  /-- Raised by a host access in register space outside the 512 bytes of this engine's bank (20_memory.md R60): another device's.
  Safe. -/
  | outsideRegisterBank
  deriving DecidableEq, Repr

/-- The registers after reset (R20, R50, 70_reset_and_hazards.md R361). -/
def Regs.reset : Regs where
  cmd := 0x00000000
  irqEn := 0x00000000
  window := 0x00000800
  matchCfg := 0x00800003
  mode := 0x0000000E
  srcAddr := 0x00000000
  srcLen := 0x00000000
  dstAddr := 0x00000000
  dstCap := 0x00000000
  dstLen := 0x00000000
  auxAddr := 0x00000000
  arg0 := 0x00000000
  arg1 := 0x00000000
  arg2 := 0x00000000
  result0 := 0x00000000
  result1 := 0x00000000
  adler := 0x00000001
  srcBitpos := 0x00000000
  dstBitpos := 0x00000000
  imgW := 0x00000000
  imgH := 0x00000000
  imgBpp := 0x00000000
  errInfo := 0x00000000
  passW := Vector.replicate 7 0
  passH := Vector.replicate 7 0
  fstart := Vector.replicate 8 0
  pstart := Vector.replicate 8 0
  ustart := Vector.replicate 8 0

/-- `STATUS` after reset: 0 (R20, R44). -/
def Status.reset : Status := ⟨false, false, false, false, none⟩

/-- The initial match-finder tables (42_match_finder.md R180): every entry absent. -/
def MatchTables.init : MatchTables := ⟨.nil, .nil, .nil, .nil, .nil, .nil⟩

/-- DESIGN CHOICE (log 3): the spec leaves the hidden state after reset UNSPECIFIED (R362); the model names empty tables. -/
def Hidden.reset : Hidden :=
  ⟨.init, ⟨[], [], [], [], [], [], ⟨0, [], []⟩, ⟨0, [], []⟩, ⟨0, [], []⟩⟩, ⟨.readingBlockHeader, 0, 0⟩⟩

/-- The machine right after reset (R50, R360, R361), nothing loaded and no event to come. The platform (log 4) and the model's
own fields (log 1, log 5) are DESIGN CHOICES. -/
def State.reset : State where
  regs := .reset
  status := .reset
  latched := none
  mem := []
  hidden := .reset
  platform := ⟨0, []⟩
  agenda := []
  resp := .none
  draws := 0

end Sys2Proof.Machine
end

