-- ==== Sys2Proof/Machine/Flags.lean ====
section
/-! DEFINITION. Every flag the engine has: the fields of `STATUS` (10_state.md R24, R44), the error codes of 60_exceptions.md R320,
and the interrupt output (R328). No command sets an arithmetic flag (R44). -/

namespace Sys2Proof.Machine

/-- The 8-bit code of an error (R320). -/
def ErrCode.code : ErrCode → BitVec 8
  | .badOp => 0x01
  | .badArg => 0x02
  | .windowRange => 0x03
  | .windowPow2 => 0x04
  | .cfgBtype => 0x05
  | .addr => 0x06
  | .overlap => 0x07
  | .bus => 0x08
  | .dstFull => 0x09
  | .imgTooLarge => 0x0A
  | .zlibFcheck => 0x10
  | .zlibMethod => 0x11
  | .zlibFdict => 0x12
  | .btype => 0x13
  | .nlen => 0x14
  | .codeLengths => 0x15
  | .repeatNoPrev => 0x16
  | .repeatOverrun => 0x17
  | .noEobLength => 0x18
  | .invalidCode => 0x19
  | .distTooFar => 0x1A
  | .adlerMismatch => 0x1B
  | .eobZero => 0x20
  | .alphabetTooLarge => 0x21
  | .trunc => 0x30
  | .noEob => 0x31

/-- `STATUS.ERR_CODE` (R24, R320): 0 is `ERR_NONE`. -/
def Status.code (st : Status) : BitVec 8 :=
  match st.errCode with
  | none => 0x00
  | some e => e.code

/-- The class of an error, `code >> 4` (R320, R322). -/
def ErrCode.class (e : ErrCode) : Nat := e.code.toNat / 16

/-- The 32-bit value a read of `STATUS` gives (R24): `BUSY` 0, `DONE` 1, `ERROR` 2, `OVERRUN` 3, `ERR_CODE` 15:8, the rest 0. -/
def Status.toWord (st : Status) : Word :=
  word (st.busy.toNat + 2 * st.done.toNat + 4 * st.error.toNat + 8 * st.overrun.toNat + 256 * st.code.toNat)

/-- A host write of `STATUS` (R24): a 1 in bit 1 clears `DONE`, a 1 in bit 3 clears `OVERRUN`, nothing else changes. -/
def Status.writeOneToClear (st : Status) (v : Word) : Status :=
  { st with done := st.done && !v.getLsbD 1, overrun := st.overrun && !v.getLsbD 3 }

/-- The flags at acceptance (40_control.md R140): `OVERRUN` keeps its value. -/
def Status.accepted (st : Status) : Status :=
  { st with busy := true, done := false, error := false, errCode := none }

/-- The flags at a successful completion (R143). -/
def Status.succeeded (st : Status) : Status :=
  { st with busy := false, done := true, error := false, errCode := none }

/-- The flags at a failing completion with error code `e` (R144). -/
def Status.failed (st : Status) (e : ErrCode) : Status :=
  { st with busy := false, done := true, error := true, errCode := some e }

/-- A host write of a register it may not write while busy (R327). -/
def Status.overran (st : Status) : Status := { st with overrun := true }

/-- `IRQ_EN.DONE_IE` (R25). -/
def Regs.doneIe (r : Regs) : Bool := r.irqEn.getLsbD 0

/-- `IRQ_EN.OVERRUN_IE` (R25). -/
def Regs.overrunIe (r : Regs) : Bool := r.irqEn.getLsbD 1

/-- The level-sensitive interrupt output (R328), a wire recomputed from the four bits it depends on. -/
def State.irq (s : State) : Bool :=
  (s.status.done && s.regs.doneIe) || (s.status.overrun && s.regs.overrunIe)

end Sys2Proof.Machine
end

