-- ==== Sys2Proof/Machine/Ops.lean ====
section
/-! DEFINITION. The named operations: data memory (20_memory.md R61), the registers (10_state.md R20 to R43), acceptance of a
command (40_control.md R140), its successful completion (R143), and its failing completion, which is this engine's taking of an
exception (R144, 60_exceptions.md R323). There is no return from an error (R326): acceptance and the W1C write clear its report. -/

namespace Sys2Proof.Machine

/-! ## Data memory -/

/-- What a byte of memory that nothing has written reads as. DESIGN CHOICE (log 2): the spec gives no power-on contents. -/
def Memory.unlisted : Byte := 0x00

/-- The canonical form: addresses strictly rising, inside the space (R60), no entry equal to what an unlisted address reads as. -/
abbrev Memory.Wf (m : Memory) : Prop :=
  m.Pairwise (fun a b => a.1 < b.1) ∧ ∀ c ∈ m, c.1 < Config.addrSpace ∧ c.2 ≠ Memory.unlisted

/-- `M[a]` (R61). -/
def Memory.read (m : Memory) (a : Nat) : Byte :=
  match m.find? (fun c => c.1 == a) with
  | some c => c.2
  | none => Memory.unlisted

/-- `MemRead(a, n)` (R61): little-endian. -/
def Memory.readLE (m : Memory) (a : Nat) : Nat → Nat
  | 0 => 0
  | n + 1 => (m.read a).toNat + 256 * Memory.readLE m (a + 1) n

/-- The cells of the bytes `bs` at `a, a+1, …`: those inside the space that differ from what an unlisted address reads as. -/
def Memory.cells (a : Nat) : List Byte → Memory
  | [] => []
  | b :: bs =>
    if a < Config.addrSpace && b != Memory.unlisted then (a, b) :: Memory.cells (a + 1) bs else Memory.cells (a + 1) bs

/-- The bytes `bs` written at `a, a+1, …`, in canonical form. The space has no byte at 2^32 or above (R60). -/
def Memory.writeBytes (m : Memory) (a : Nat) (bs : List Byte) : Memory :=
  m.filter (fun c => c.1 < a) ++ Memory.cells a bs ++ m.filter (fun c => a + bs.length ≤ c.1)

/-- One byte written (R61). -/
def Memory.write (m : Memory) (a : Nat) (b : Byte) : Memory := m.writeBytes a [b]

/-- The `n` bytes of `v`, little-endian (R61). -/
def bytesLE (v : Nat) : Nat → List Byte
  | 0 => []
  | n + 1 => byte v :: bytesLE (v / 256) n

/-- `MemWrite(a, n, v)` (R61). -/
def Memory.writeLE (m : Memory) (a n v : Nat) : Memory := m.writeBytes a (bytesLE v n)

/-- A byte buffer of a command: byte `k` of a region (00_scope.md R14). -/
abbrev Buf := Tab Byte

/-- `B[k]`. -/
def Buf.byte (b : Buf) (k : Nat) : Byte := (Tab.get b k).getD Memory.unlisted

/-- The region of `len` bytes at `base` as a buffer: `Buf.byte k` is `M[base + k]` for `k < len`. -/
def Memory.region (m : Memory) (base len : Nat) : Buf :=
  m.foldr (fun c t => if base ≤ c.1 && c.1 < base + len then Tab.set t (c.1 - base) (some c.2) else t) .nil

/-- The `len` bytes at `base`, in address order. -/
def Memory.bytes (m : Memory) (base len : Nat) : List Byte :=
  let b := m.region base len
  (List.range len).map b.byte

/-- A byte with bit `i` replaced (41_bitstream.md R168). -/
def setBit (v : Byte) (i : Nat) (b : Bool) : Byte :=
  (v &&& ~~~(1#8 <<< i)) ||| (if b then 1#8 <<< i else 0#8)

/-- `PutBitRMW` (R168) at bit offset `bp` of the buffer at `base`, for each bit in order. -/
def Memory.putBitsRMW (m : Memory) (base : Nat) : Nat → List Bool → Memory
  | _, [] => m
  | bp, b :: bs =>
    Memory.putBitsRMW (m.write (base + bp / 8) (setBit (m.read (base + bp / 8)) (bp % 8) b)) base (bp + 1) bs

/-! ## Registers -/

/-- `ID` (R21). -/
def idValue : Word := 0x44434531

/-- `VERSION` (R22). -/
def versionValue : Word := 0x00000007

/-- The bits of `IRQ_EN` that are stored (R25). -/
def irqEnMask : Word := 0x00000003

/-- The bits of `MATCH` that are stored (R28): 8:0 and 24:16. -/
def matchMask : Word := 0x01FF01FF

/-- The bits of `MODE` that are stored (R29). -/
def modeMask : Word := 0x0000000F

/-- The bits of `IMG_BPP` that are stored (R38). -/
def imgBppMask : Word := 0x0000007F

/-- The registers at offsets `0x000` to `0x064` of the bank, in order (R20). -/
def bankNames : List Reg :=
  [.id, .version, .cmd, .status, .irqEn, .window, .matchCfg, .mode, .srcAddr, .srcLen, .dstAddr, .dstCap, .dstLen, .auxAddr, .arg0,
   .arg1, .arg2, .result0, .result1, .adler, .srcBitpos, .dstBitpos, .imgW, .imgH, .imgBpp, .errInfo]

/-- The register at an aligned offset of the bank (R20), `none` at a reserved offset. -/
def regAt (off : Nat) : Option Reg :=
  let n := off / 4
  if n < 26 then bankNames[n]?
  else if h : 32 ≤ n ∧ n < 39 then some (.passW ⟨n - 32, by omega⟩)
  else if h : 40 ≤ n ∧ n < 47 then some (.passH ⟨n - 40, by omega⟩)
  else if h : 48 ≤ n ∧ n < 56 then some (.fstart ⟨n - 48, by omega⟩)
  else if h : 56 ≤ n ∧ n < 64 then some (.pstart ⟨n - 56, by omega⟩)
  else if h : 64 ≤ n ∧ n < 72 then some (.ustart ⟨n - 64, by omega⟩)
  else none

/-- The stored value of a register (R20 to R40). -/
def State.readReg (s : State) : Reg → Word
  | .id => idValue
  | .version => versionValue
  | .cmd => s.regs.cmd
  | .status => s.status.toWord
  | .irqEn => s.regs.irqEn
  | .window => s.regs.window
  | .matchCfg => s.regs.matchCfg
  | .mode => s.regs.mode
  | .srcAddr => s.regs.srcAddr
  | .srcLen => s.regs.srcLen
  | .dstAddr => s.regs.dstAddr
  | .dstCap => s.regs.dstCap
  | .dstLen => s.regs.dstLen
  | .auxAddr => s.regs.auxAddr
  | .arg0 => s.regs.arg0
  | .arg1 => s.regs.arg1
  | .arg2 => s.regs.arg2
  | .result0 => s.regs.result0
  | .result1 => s.regs.result1
  | .adler => s.regs.adler
  | .srcBitpos => s.regs.srcBitpos
  | .dstBitpos => s.regs.dstBitpos
  | .imgW => s.regs.imgW
  | .imgH => s.regs.imgH
  | .imgBpp => s.regs.imgBpp
  | .errInfo => s.regs.errInfo
  | .passW p => s.regs.passW[p]
  | .passH p => s.regs.passH[p]
  | .fstart i => s.regs.fstart[i]
  | .pstart i => s.regs.pstart[i]
  | .ustart i => s.regs.ustart[i]

/-- The read/write registers (R20) other than `CMD`, whose idle write starts a command, and `IRQ_EN`, which is writable while
busy. -/
def Reg.isSetting : Reg → Bool
  | .window | .matchCfg | .mode | .srcAddr | .srcLen | .dstAddr | .dstCap | .auxAddr | .arg0 | .arg1 | .arg2 | .adler
  | .srcBitpos | .dstBitpos | .imgW | .imgH | .imgBpp => true
  | .id | .version | .cmd | .status | .irqEn | .dstLen | .result0 | .result1 | .errInfo | .passW _ | .passH _ | .fstart _
  | .pstart _ | .ustart _ => false

/-- The store of a host write to a read/write register, its reserved fields staying 0 (R27 to R38, R41). A register a host write
does not store to is unchanged. -/
def Regs.store (r : Regs) (reg : Reg) (v : Word) : Regs :=
  match reg with
  | .window => { r with window := v }
  | .matchCfg => { r with matchCfg := v &&& matchMask }
  | .mode => { r with mode := v &&& modeMask }
  | .srcAddr => { r with srcAddr := v }
  | .srcLen => { r with srcLen := v }
  | .dstAddr => { r with dstAddr := v }
  | .dstCap => { r with dstCap := v }
  | .auxAddr => { r with auxAddr := v }
  | .arg0 => { r with arg0 := v }
  | .arg1 => { r with arg1 := v }
  | .arg2 => { r with arg2 := v }
  | .adler => { r with adler := v }
  | .srcBitpos => { r with srcBitpos := v }
  | .dstBitpos => { r with dstBitpos := v }
  | .imgW => { r with imgW := v }
  | .imgH => { r with imgH := v }
  | .imgBpp => { r with imgBpp := v &&& imgBppMask }
  | .irqEn => { r with irqEn := v &&& irqEnMask }
  | .cmd => { r with cmd := v }
  | .id | .version | .status | .dstLen | .result0 | .result1 | .errInfo | .passW _ | .passH _ | .fstart _ | .pstart _
  | .ustart _ => r

/-! ## The command lifecycle -/

/-- Acceptance of the word `w` (40_control.md R140), with the latching of R49 and R141. -/
def State.accept (s : State) (w : Word) : State :=
  { s with regs := s.regs.store .cmd w, status := s.status.accepted, latched := some (s.regs.store .cmd w) }

/-- The registers a command executes on (R141): the copy latched at acceptance. -/
def State.operands (s : State) : Regs := s.latched.getD s.regs

/-- Successful completion (R143) with the command's register and memory writes already made in `r` and `m`. The hidden state is
then UNSPECIFIED (R45, R46) and the latched copy gone (R49). -/
def State.succeed (s : State) (r : Regs) (m : Memory) : State :=
  { s with
    regs := { r with errInfo := 0 }
    status := s.status.succeeded
    latched := none
    mem := m
    hidden := Config.freeHidden s.draws
    draws := s.draws + 1 }

/-- A register that is UNSPECIFIED (R144) when the command lists it under *Writes*. -/
def freeIf (ws : List WReg) (w : WReg) (draw item : Nat) (old : Word) : Word :=
  if w ∈ ws then Config.freeWord draw item else old

/-- A register array of the Adam7 bank that is UNSPECIFIED (R144) when the command lists the bank under *Writes*. -/
def freeVectorIf {n : Nat} (ws : List WReg) (draw first : Nat) (old : Vector Word n) : Vector Word n :=
  if WReg.adam7 ∈ ws then Vector.ofFn fun i => Config.freeWord draw (first + i.val) else old

/-- The registers listed in `ws` UNSPECIFIED, and `ERR_INFO` UNSPECIFIED (R144, R39): item 0 of the draw is `ERR_INFO`, items 1 to
6 the registers, items 7 to 44 the Adam7 bank. -/
def Regs.free (r : Regs) (ws : List WReg) (draw : Nat) : Regs :=
  { r with
    errInfo := Config.freeWord draw 0
    dstLen := freeIf ws .dstLen draw 1 r.dstLen
    result0 := freeIf ws .result0 draw 2 r.result0
    result1 := freeIf ws .result1 draw 3 r.result1
    adler := freeIf ws .adler draw 4 r.adler
    srcBitpos := freeIf ws .srcBitpos draw 5 r.srcBitpos
    dstBitpos := freeIf ws .dstBitpos draw 6 r.dstBitpos
    passW := freeVectorIf ws draw 7 r.passW
    passH := freeVectorIf ws draw 14 r.passH
    fstart := freeVectorIf ws draw 21 r.fstart
    pstart := freeVectorIf ws draw 29 r.pstart
    ustart := freeVectorIf ws draw 37 r.ustart }

/-- A region of data memory (20_memory.md R62). -/
structure Region where
  base : Nat
  len : Nat
  deriving DecidableEq, Repr

/-- The region covers the byte at `a` (R62). -/
def Region.covers (r : Region) (a : Nat) : Bool := r.base ≤ a && a < r.base + r.len

/-- Every byte of a region UNSPECIFIED (R69, R363). -/
def Memory.free (m : Memory) (r : Region) (draw : Nat) : Memory :=
  m.writeBytes r.base ((List.range r.len).map (Config.freeByte draw))

/-- Failing completion with error code `e` (R144): THE operation that takes an error. `ws` are the registers and `dst` the region
left UNSPECIFIED, both empty for a pre-check failure (60_exceptions.md R324). -/
def State.fail (s : State) (e : ErrCode) (ws : List WReg) (dst : Option Region) : State :=
  { s with
    regs := s.regs.free ws s.draws
    status := s.status.failed e
    latched := none
    mem := match dst with
      | some r => s.mem.free r s.draws
      | none => s.mem
    hidden := Config.freeHidden s.draws
    draws := s.draws + 1 }

/-- Reset (70_reset_and_hazards.md R360, R361). `dst` is the DST region of the command it abandons, whose bytes become UNSPECIFIED
(R363). The hidden state is UNSPECIFIED (R362). Data memory, the platform and the events to come are outside the engine. -/
def State.resetEngine (s : State) (dst : Option Region) : State :=
  { s with
    regs := .reset
    status := .reset
    latched := none
    mem := match dst with
      | some r => s.mem.free r s.draws
      | none => s.mem
    hidden := Config.freeHidden s.draws
    draws := s.draws + 1 }

/-- A bit count stored to a 32-bit register. DESIGN CHOICE (log 10): the bit count of a whole-stream command can exceed 2^32 − 1
(buffers of 512 MB and more), where R151 says that no result wraps and no rule states what the register then holds: a FREE VALUE that
depends on the count alone, so equal counts are stored as equal values (R145, 44_deflate.md R266). -/
def storeCount (n : Nat) : Word := if n < 2 ^ 32 then word n else Config.freeCount n

/-- A check that raises `e` when `c` holds. -/
def failIf (c : Prop) [Decidable c] (e : ErrCode) : Except ErrCode Unit :=
  if c then .error e else .ok ()

end Sys2Proof.Machine
end

