-- ==== Sys2Proof/Machine/Operands.lean ====
section
/-! DEFINITION. The operands of the commands: register fields as naturals (30_encoding.md R91), the regions each command uses (R92),
the registers each lists under *Writes*, the pre-checks (40_control.md R147, 20_memory.md R63 to R65), and the frame every command
runs in (R142 to R144). -/

namespace Sys2Proof.Machine

/-! ## Register fields -/

/-- `MATCH.MIN_MATCH`, bits 8:0 (10_state.md R28). -/
def Regs.minMatch (r : Regs) : Nat := (r.matchCfg.extractLsb' 0 9).toNat

/-- `MATCH.NICE_MATCH`, bits 24:16 (R28). -/
def Regs.niceMatch (r : Regs) : Nat := (r.matchCfg.extractLsb' 16 9).toNat

/-- `MODE.BTYPE`, bits 1:0 (R29). -/
def Regs.btype (r : Regs) : Nat := (r.mode.extractLsb' 0 2).toNat

/-- `MODE.USE_LZ77`, bit 2 (R29). -/
def Regs.useLz77 (r : Regs) : Bool := r.mode.getLsbD 2

/-- `MODE.LAZY`, bit 3 (R29). -/
def Regs.lazyMatching (r : Regs) : Bool := r.mode.getLsbD 3

/-- `IMG_BPP.BPP`, bits 6:0 (R38). -/
def Regs.bpp (r : Regs) : Nat := (r.imgBpp.extractLsb' 0 7).toNat

/-! ## Regions -/

/-- `SRC` (20_memory.md R62). -/
def Regs.src (r : Regs) : Region := ⟨r.srcAddr.toNat, r.srcLen.toNat⟩

/-- `DST` (R62). -/
def Regs.dst (r : Regs) : Region := ⟨r.dstAddr.toNat, r.dstCap.toNat⟩

/-- `AUX` with the command's `AUX_LEN` (R62). -/
def Regs.aux (r : Regs) (len : Nat) : Region := ⟨r.auxAddr.toNat, len⟩

/-- The commands that use `SRC` (30_encoding.md R92). -/
def usesSrc : Instr → Bool
  | .bitsGet _ | .lz77Tokenize | .huffBuildFreq | .huffBuildLengths | .huffDecodeSym | .treeRead | .deflateRaw | .inflateRaw
  | .zlibCompress | .zlibDecompress _ | .adler32 | .adam7Interlace | .adam7Deinterlace => true
  | .nop | .bitsPut _ | .huffEncodeSym | .treeWrite | .adam7Geometry => false

/-- The commands that use `DST` (R92). -/
def usesDst : Instr → Bool
  | .bitsPut _ | .lz77Tokenize | .huffBuildFreq | .huffBuildLengths | .huffEncodeSym | .treeWrite | .treeRead | .deflateRaw
  | .inflateRaw | .zlibCompress | .zlibDecompress _ | .adam7Interlace | .adam7Deinterlace => true
  | .nop | .bitsGet _ | .huffDecodeSym | .adler32 | .adam7Geometry => false

/-- `AUX_LEN` of the commands that use `AUX` (R92). -/
def auxLen (r : Regs) : Instr → Option Nat
  | .huffEncodeSym | .huffDecodeSym => some r.arg1.toNat
  | .treeWrite => some (r.arg0.toNat + r.arg1.toNat)
  | .nop | .bitsPut _ | .bitsGet _ | .lz77Tokenize | .huffBuildFreq | .huffBuildLengths | .treeRead | .deflateRaw | .inflateRaw
  | .zlibCompress | .zlibDecompress _ | .adler32 | .adam7Geometry | .adam7Interlace | .adam7Deinterlace => none

/-- The `SRC` region, when the command uses it. -/
def srcRegion (i : Instr) (r : Regs) : Option Region := if usesSrc i then some r.src else none

/-- The `AUX` region, when the command uses it. -/
def auxRegion (i : Instr) (r : Regs) : Option Region := (auxLen r i).map r.aux

/-- The `DST` region, when the command uses it. -/
def dstRegion (i : Instr) (r : Regs) : Option Region := if usesDst i then some r.dst else none

/-- The regions a command reads only. -/
def inputRegions (i : Instr) (r : Regs) : List Region := (srcRegion i r).toList ++ (auxRegion i r).toList

/-- The regions a command uses, in the order SRC, AUX, DST (R63). -/
def usedRegions (i : Instr) (r : Regs) : List Region := inputRegions i r ++ (dstRegion i r).toList

/-- The registers a command lists under *Writes* (its rule). -/
def writesOf : Instr → List WReg
  | .nop => []
  | .bitsPut _ => [.dstBitpos, .dstLen]
  | .bitsGet _ => [.result0, .srcBitpos]
  | .lz77Tokenize => [.result0, .dstLen]
  | .huffBuildFreq => [.result0, .dstLen]
  | .huffBuildLengths => [.result0, .result1, .dstLen]
  | .huffEncodeSym => [.dstBitpos, .dstLen, .result0, .result1]
  | .huffDecodeSym => [.result0, .result1, .srcBitpos]
  | .treeWrite => [.dstBitpos, .dstLen, .result0, .result1]
  | .treeRead => [.result0, .result1, .srcBitpos, .dstLen]
  | .deflateRaw => [.result0, .result1, .dstLen]
  | .inflateRaw => [.result0, .result1, .dstLen]
  | .zlibCompress => [.result0, .result1, .adler, .dstLen]
  | .zlibDecompress _ => [.result0, .result1, .adler, .dstLen]
  | .adler32 => [.adler]
  | .adam7Geometry => [.adam7, .result0, .result1]
  | .adam7Interlace => [.adam7, .dstLen]
  | .adam7Deinterlace => [.adam7, .dstLen]

/-! ## Pre-checks -/

/-- `BUS_OK(a)` (00_scope.md R12, 20_memory.md R64). -/
def Platform.busOk (p : Platform) (a : Nat) : Bool := !p.busHoles.any fun h => h.1 ≤ a && a < h.2

/-- The address check fails for a region (R63): it wraps past the top of data memory. -/
def Region.wraps (r : Region) : Bool := 0 < r.len && Config.addrSpace < r.base + r.len

/-- The bus check fails for a region (R64): one of its bytes lies in a range where `BUS_OK` is false. -/
def Region.hitsHole (r : Region) (p : Platform) : Bool :=
  p.busHoles.any fun h => max r.base h.1 < min (r.base + r.len) h.2

/-- Two regions share a byte (R65). -/
def Region.shares (r q : Region) : Bool := max r.base q.base < min (r.base + r.len) (q.base + q.len)

/-- The address, bus and overlap checks (R63 to R65; steps 4 to 6 of 40_control.md R147). -/
def regionChecks (i : Instr) (r : Regs) (p : Platform) : Except ErrCode Unit := do
  failIf ((usedRegions i r).any (·.wraps)) .addr
  failIf ((usedRegions i r).any (·.hitsHole p)) .bus
  failIf ((dstRegion i r).toList.any fun d => (inputRegions i r).any d.shares) .overlap

/-- The setting checks of `WINDOW` (10_state.md R27): first the range, then the power of two. -/
def windowChecks (r : Regs) : Except ErrCode Unit := do
  failIf (r.window.toNat = 0 ∨ Config.windowMax < r.window.toNat) .windowRange
  failIf (¬ (List.range 16).any (fun k => 2 ^ k == r.window.toNat)) .windowPow2

/-- The setting checks of the compressing commands (40_control.md R147 step 3). -/
def compressChecks (r : Regs) : Except ErrCode Unit := do
  windowChecks r
  failIf (r.btype = 3) .cfgBtype

/-! ## The frame of a command -/

/-- One command (R142 to R144, R147): the checks of its rule that come before the region checks (`args`), the region checks, and
then its execution. A failure of the first two is a pre-check failure, which leaves the listed registers and DST as they are; a
failure of the third leaves them UNSPECIFIED. -/
def runCommand (i : Instr) (s : State) (args : Except ErrCode Unit) (body : Unit → Except ErrCode (Regs × Memory)) :
    Host.Outcome State Fault Refusal :=
  match args.bind fun _ => regionChecks i s.operands s.platform with
  | .error e => .next (s.fail e [] none)
  | .ok _ =>
    match body () with
    | .error e => .next (s.fail e (writesOf i) (dstRegion i s.operands))
    | .ok (r, m) => .next (s.succeed r m)

end Sys2Proof.Machine
end

