-- ==== Sys2Proof/Machine/Bus.lean ====
section
/-! DEFINITION. The outside world's moves: host accesses to the register bank (10_state.md R20 to R43, 20_memory.md R72), accesses to
data memory by agents other than the engine (R73, R80, 70_reset_and_hazards.md R370), and reset (R360 to R363). -/

namespace Sys2Proof.Machine

/-- The command that is running (40_control.md R140, R141): `none` when idle or when the accepted word is illegal. -/
def State.running (s : State) : Option Instr :=
  if s.status.busy then (decode s.operands.cmd).toOption else none

/-- The regions of the running command (20_memory.md R62). -/
def State.runningRegions (s : State) : List Region :=
  match s.running with
  | some i => usedRegions i s.operands
  | none => []

/-- The DST region of the running command. -/
def State.runningDst (s : State) : Option Region := s.running.bind fun i => dstRegion i s.operands

/-- The place of an address in the register bank (20_memory.md R60), `none` outside its 512 bytes. DESIGN CHOICE (log 17): whether an
access is one to the bank (R72) goes by its start address alone, so one that starts below `REG_BASE` and reaches into the bank is
another device's. DESIGN CHOICE (log 19): a register-space address, and so `REG_BASE`, has 32 bits, and the bank does not wrap past
`2^32 - 1`. -/
def State.bankOffset (s : State) (addr : Word) : Option Nat :=
  let base := s.platform.regBase.toNat
  if base ≤ addr.toNat ∧ addr.toNat < base + 512 then some (addr.toNat - base) else none

/-- An aligned 32-bit access (20_memory.md R72). -/
def alignedWordAccess (off size : Nat) : Bool := size == 4 && off % 4 == 0

/-- The item of *Writes* a register belongs to. -/
def Reg.writes : Reg → Option WReg
  | .dstLen => some .dstLen
  | .result0 => some .result0
  | .result1 => some .result1
  | .adler => some .adler
  | .srcBitpos => some .srcBitpos
  | .dstBitpos => some .dstBitpos
  | .passW _ | .passH _ | .fstart _ | .pstart _ | .ustart _ => some .adam7
  | .id | .version | .cmd | .status | .irqEn | .window | .matchCfg | .mode | .srcAddr | .srcLen | .dstAddr | .dstCap
  | .auxAddr | .arg0 | .arg1 | .arg2 | .imgW | .imgH | .imgBpp | .errInfo => none

/-- The running command lists this register under *Writes* (70_reset_and_hazards.md R371). -/
def State.inFlight (s : State) (reg : Reg) : Bool :=
  match s.running, reg.writes with
  | some i, some w => decide (w ∈ writesOf i)
  | _, _ => false

/-- The host got `resp` and took a free value. -/
def State.respondFree (s : State) (resp : Response) : State := { s with resp := resp, draws := s.draws + 1 }

/-- A host read of a register (10_state.md R41, R43, 70_reset_and_hazards.md R371): a reserved offset reads 0, and a register the
running command lists under *Writes* reads a free value. -/
def State.hostReadReg (s : State) (reg : Option Reg) : State :=
  match reg with
  | none => { s with resp := .word 0 }
  | some reg =>
    if s.inFlight reg then s.respondFree (.word (Config.freeWord s.draws 0)) else { s with resp := .word (s.readReg reg) }

/-- A host write of a register (10_state.md R23 to R42, 60_exceptions.md R327). -/
def State.hostWriteReg (s : State) (reg : Option Reg) (v : Word) : State :=
  match reg with
  | none => s
  | some .status => { s with status := s.status.writeOneToClear v }
  | some .irqEn => { s with regs := s.regs.store .irqEn v }
  | some .cmd => if s.status.busy then { s with status := s.status.overran } else s.accept v
  | some reg =>
    if reg.isSetting then
      if s.status.busy then { s with status := s.status.overran } else { s with regs := s.regs.store reg v }
    else s

/-- A host read in register space (20_memory.md R72). -/
def hostRead (s : State) (addr : Word) (size : Nat) : Host.Outcome State Fault Refusal :=
  match s.bankOffset addr with
  | none => .refused .outsideRegisterBank
  | some off =>
    if alignedWordAccess off size then .next (s.hostReadReg (regAt off)) else .next { s with resp := .busError }

/-- A host write in register space (20_memory.md R72). -/
def hostWrite (s : State) (addr : Word) (size : Nat) (v : Word) : Host.Outcome State Fault Refusal :=
  match s.bankOffset addr with
  | none => .refused .outsideRegisterBank
  | some off =>
    if alignedWordAccess off size then .next { s.hostWriteReg (regAt off) v with resp := .written }
    else .next { s with resp := .busError }

/-- A host read of a byte of data memory (20_memory.md R73): a DST byte of the running command reads a free value (R80). DESIGN CHOICE
(log 20): `BUS_OK` (R64) is about the engine's accesses alone, and a host reads a byte where it is false as any other. -/
def memRead (s : State) (a : Nat) : Host.Outcome State Fault Refusal :=
  if Config.addrSpace ≤ a then .fault .noSuchAddress
  else if s.runningDst.any (·.covers a) then .next (s.respondFree (.byte (Config.freeByte s.draws 0)))
  else .next { s with resp := .byte (s.mem.read a) }

/-- A write of a byte of data memory by another agent (20_memory.md R73). A byte of the running command's regions may not be
written (70_reset_and_hazards.md R370 item 1). DESIGN CHOICE (log 20): a byte where `BUS_OK` is false is written as any other. -/
def memWrite (s : State) (a : Nat) (b : Byte) : Host.Outcome State Fault Refusal :=
  if Config.addrSpace ≤ a then .fault .noSuchAddress
  else if s.runningRegions.any (·.covers a) then .refused .hostDutyBroken
  else .next { s with mem := s.mem.write a b, resp := .written }

/-- Reset (70_reset_and_hazards.md R360 to R363). -/
def resetEvent (s : State) : Host.Outcome State Fault Refusal := .next { s.resetEngine s.runningDst with resp := .none }

end Sys2Proof.Machine
end

