-- ==== Sys2Proof/Machine/Bits.lean ====
section
/-! DEFINITION. Bit-stream I/O (41_bitstream.md): the reader, the two writers, and the commands `BITS.PUT` and `BITS.GET`. -/

namespace Sys2Proof.Machine

/-! ## Bit sequences -/

/-- The `count` low bits of `v`, bit 0 first (30_encoding.md R96, R166). -/
def lsbBits (v count : Nat) : List Bool := (List.range count).map v.testBit

/-- The `count` low bits of `v`, bit `count-1` first (R97, R166). -/
def msbBits (v count : Nat) : List Bool := (List.range count).map fun i => v.testBit (count - 1 - i)

/-- The value of a field read LSB-first (R162). -/
def lsbValue : List Bool → Nat
  | [] => 0
  | b :: bs => b.toNat + 2 * lsbValue bs

/-- The value of a field read MSB-first (R163). -/
def msbValue (bs : List Bool) : Nat := bs.foldl (fun v b => 2 * v + b.toNat) 0

/-- Bits packed LSB-first into bytes (00_scope.md R15), the last byte filled with 0 bits. -/
def packBits : List Bool → List Byte
  | [] => []
  | b0 :: b1 :: b2 :: b3 :: b4 :: b5 :: b6 :: b7 :: rest => byte (lsbValue [b0, b1, b2, b3, b4, b5, b6, b7]) :: packBits rest
  | bs => [byte (lsbValue bs)]

/-! ## Reading -/

/-- A bit reader (R160): a buffer, the number of readable bits, and the bit cursor. -/
structure Reader where
  buf : Buf
  limit : Nat
  bp : Nat
  deriving DecidableEq, Repr

/-- `BIT(B, bp)` (00_scope.md R15). -/
def Buf.bit (b : Buf) (bp : Nat) : Bool := (Buf.byte b (bp / 8)).getLsbD (bp % 8)

/-- `GetBit` (R161). -/
def getBit (r : Reader) : Except ErrCode (Bool × Reader) :=
  if r.limit ≤ r.bp then .error .trunc else .ok (Buf.bit r.buf r.bp, { r with bp := r.bp + 1 })

/-- `count` calls of `GetBit`, in order. -/
def takeBits : Nat → Reader → Except ErrCode (List Bool × Reader)
  | 0, r => .ok ([], r)
  | n + 1, r => do
    let (b, r) ← getBit r
    let (bs, r) ← takeBits n r
    .ok (b :: bs, r)

/-- The bits of a fixed-width field: the whole-field check, then the bits (R162). -/
def fieldBits (r : Reader) (count : Nat) : Except ErrCode (List Bool × Reader) := do
  failIf (r.limit < r.bp + count ∧ 0 < count) .trunc
  takeBits count r

/-- `GetBits` (R162). -/
def getBits (r : Reader) (count : Nat) : Except ErrCode (Nat × Reader) := do
  let (bs, r) ← fieldBits r count
  .ok (lsbValue bs, r)

/-- `GetBitsRev` (R163). -/
def getBitsRev (r : Reader) (count : Nat) : Except ErrCode (Nat × Reader) := do
  let (bs, r) ← fieldBits r count
  .ok (msbValue bs, r)

/-- `AlignReader` (R164): it never fails. -/
def alignReader (r : Reader) : Reader := { r with bp := (r.bp + 7) / 8 * 8 }

/-! ## Writing, append mode -/

/-- A fresh output stream (R165): the bits written so far, last one first, their number `bp`, and the capacity in bytes. -/
structure Writer where
  rev : List Bool
  bp : Nat
  cap : Nat
  deriving DecidableEq, Repr

/-- `PutBit` (R165): a bit that would start a byte at or past the capacity fails. -/
def putBit (w : Writer) (b : Bool) : Except ErrCode Writer :=
  if w.bp % 8 = 0 ∧ w.cap ≤ w.bp / 8 then .error .dstFull else .ok { w with rev := b :: w.rev, bp := w.bp + 1 }

/-- `PutBit` of each bit in order. -/
def putAll (w : Writer) : List Bool → Except ErrCode Writer
  | [] => .ok w
  | b :: bs => do
    let w ← putBit w b
    putAll w bs

/-- `PutBits` (R166). -/
def putBits (w : Writer) (v count : Nat) : Except ErrCode Writer := putAll w (lsbBits v count)

/-- `PutBitsRev` (R166). -/
def putBitsRev (w : Writer) (v count : Nat) : Except ErrCode Writer := putAll w (msbBits v count)

/-- `AlignWriter` (R167): 0 bits up to the next byte boundary. -/
def alignWriter (w : Writer) : Except ErrCode Writer := putAll w (List.replicate ((8 - w.bp % 8) % 8) false)

/-- The bytes produced: `ceil(bp / 8)` of them, the bits above `bp` 0 (R165). -/
def Writer.bytes (w : Writer) : List Byte := packBits w.rev.reverse

/-- The append-mode writer on `DST` (R165). -/
def Regs.writer (r : Regs) : Writer := ⟨[], 0, r.dstCap.toNat⟩

/-! ## Cursors in registers -/

/-- `LIMIT_W` (R168). -/
def Regs.limitW (r : Regs) : Nat := min (8 * r.dstCap.toNat) (2 ^ 32 - 1)

/-- The reader of a command whose cursor is `SRC_BITPOS` (R160). -/
def Regs.cursorReader (r : Regs) (m : Memory) : Reader :=
  ⟨m.region r.srcAddr.toNat r.srcLen.toNat, min (8 * r.srcLen.toNat) (2 ^ 32 - 1), r.srcBitpos.toNat⟩

/-- The final-cursor check of a bit-writing command that has `count` bits to write (R168): a size precondition, made before the
command's execution errors (40_control.md R147, 60_exceptions.md R321 item 9). -/
def cursorCheck (r : Regs) (count : Nat) : Except ErrCode Unit := failIf (r.limitW < r.dstBitpos.toNat + count) .dstFull

/-- What a bit-writing command does with its bits (20_memory.md R68, R168) after that check: the bits written read-modify-write at
`DST_BITPOS`, the cursor advanced, and `DST_LEN` set. -/
def putAtCursor (r : Regs) (regs : Regs) (m : Memory) (bits : List Bool) : Regs × Memory :=
  let stop := r.dstBitpos.toNat + bits.length
  ({ regs with dstBitpos := word stop, dstLen := word ((stop + 7) / 8) }, m.putBitsRMW r.dstAddr.toNat r.dstBitpos.toNat bits)

/-! ## Commands -/

/-- `BITS.PUT` (R169). -/
def execBitsPut (reverse : Bool) (s : State) : Host.Outcome State Fault Refusal :=
  let r := s.operands
  runCommand (.bitsPut reverse) s (failIf (32 < r.arg1.toNat) .badArg) fun _ => do
    cursorCheck r r.arg1.toNat
    .ok (putAtCursor r s.regs s.mem
      (if reverse then msbBits r.arg0.toNat r.arg1.toNat else lsbBits r.arg0.toNat r.arg1.toNat))

/-- `BITS.GET` (R170). Its check (b) is the command's own: it also fails a zero-width read when the cursor is past the limit. -/
def execBitsGet (reverse : Bool) (s : State) : Host.Outcome State Fault Refusal :=
  let r := s.operands
  runCommand (.bitsGet reverse) s (failIf (32 < r.arg1.toNat) .badArg) fun _ => do
    failIf ((r.cursorReader s.mem).limit < r.srcBitpos.toNat + r.arg1.toNat) .trunc
    let (v, rd) ← if reverse then getBitsRev (r.cursorReader s.mem) r.arg1.toNat else getBits (r.cursorReader s.mem) r.arg1.toNat
    .ok ({ s.regs with result0 := word v, srcBitpos := word rd.bp }, s.mem)

end Sys2Proof.Machine
end

