-- ==== Sys2Proof/Machine/Adam7.lean ====
section
/-! DEFINITION. Adam7 (46_adam7.md): the pass geometry, the pixel mapping, and the commands `ADAM7.GEOMETRY`, `ADAM7.INTERLACE` and
`ADAM7.DEINTERLACE`. -/

namespace Sys2Proof.Machine

/-! ## Geometry -/

/-- A row of the pass table (R300). -/
structure Pass where
  sx : Nat
  sy : Nat
  dx : Nat
  dy : Nat
  deriving DecidableEq, Repr

/-- The pass table (R300). -/
def adam7Passes : List Pass :=
  [⟨0, 0, 8, 8⟩, ⟨4, 0, 8, 8⟩, ⟨0, 4, 4, 8⟩, ⟨2, 0, 4, 4⟩, ⟨0, 2, 2, 4⟩, ⟨1, 0, 2, 2⟩, ⟨0, 1, 1, 2⟩]

/-- The sizes of a pass of a `w × h` image (R301): both 0 when either is 0. -/
def Pass.size (p : Pass) (w h : Nat) : Nat × Nat :=
  let w' := (w + p.dx - p.sx - 1) / p.dx
  let h' := (h + p.dy - p.sy - 1) / p.dy
  if w' = 0 ∨ h' = 0 then (0, 0) else (w', h')

/-- `ceil(k / 8)`: the bytes of `k` bits. -/
def bytesOfBits (k : Nat) : Nat := (k + 7) / 8

/-- The bytes a pass of size `(w, h)` takes in the filtered layout (R302). -/
def filteredBytes (b : Nat) (sz : Nat × Nat) : Nat :=
  if 0 < sz.1 ∧ 0 < sz.2 then sz.2 * (1 + bytesOfBits (sz.1 * b)) else 0

/-- The bytes a pass takes in the padded layout (R302). -/
def paddedBytes (b : Nat) (sz : Nat × Nat) : Nat := sz.2 * bytesOfBits (sz.1 * b)

/-- The bytes a pass takes in the unpadded layout (R302). -/
def unpaddedBytes (b : Nat) (sz : Nat × Nat) : Nat := bytesOfBits (sz.1 * sz.2 * b)

/-- The running offsets of consecutive sizes, from `start` on (R302). -/
def offsets (start : Nat) : List Nat → List Nat
  | [] => [start]
  | n :: ns => start :: offsets (start + n) ns

/-- The geometry of an image (R301, R302). -/
structure Geometry where
  sizes : List (Nat × Nat)
  fstart : List Nat
  pstart : List Nat
  ustart : List Nat
  deriving DecidableEq, Repr

/-- The geometry of a `w × h` image of `b` bits per pixel (R301, R302). -/
def geometry (w h b : Nat) : Geometry :=
  let sizes := adam7Passes.map fun p => p.size w h
  ⟨sizes, offsets 0 (sizes.map (filteredBytes b)), offsets 0 (sizes.map (paddedBytes b)), offsets 0 (sizes.map (unpaddedBytes b))⟩

/-- The bytes of the full image (R303). -/
def fullBytes (w h b : Nat) : Nat := bytesOfBits (w * h * b)

/-- The bytes of the reduced images, `USTART[7]` (R302). -/
def reducedBytes (w h b : Nat) : Nat := (geometry w h b).ustart.getD 7 0

/-- The registers with the Adam7 bank of an image (10_state.md R40, R302). -/
def Regs.withGeometry (r : Regs) (g : Geometry) : Regs :=
  { r with
    passW := Vector.ofFn fun i => word (g.sizes.getD i.val (0, 0)).1
    passH := Vector.ofFn fun i => word (g.sizes.getD i.val (0, 0)).2
    fstart := Vector.ofFn fun i => word (g.fstart.getD i.val 0)
    pstart := Vector.ofFn fun i => word (g.pstart.getD i.val 0)
    ustart := Vector.ofFn fun i => word (g.ustart.getD i.val 0) }

/-! ## Pixel mapping -/

/-- The image bits of every pixel of a pass, in the order of R308: for each the bit in the full image (R303, R305) and the bit in
the reduced images (R304), the pass starting at byte `ustart`. -/
def passPairs (p : Pass) (w b ustart : Nat) (sz : Nat × Nat) : List (Nat × Nat) :=
  (List.range sz.2).flatMap fun j => (List.range sz.1).flatMap fun i => (List.range b).map fun k =>
    (((p.sy + j * p.dy) * w + (p.sx + i * p.dx)) * b + k, 8 * ustart + (j * sz.1 + i) * b + k)

/-- The pairs of all seven passes (R305). -/
def pixelPairs (w h b : Nat) : List (Nat × Nat) :=
  let g := geometry w h b
  (List.range 7).flatMap fun p =>
    passPairs (adam7Passes.getD p ⟨0, 0, 1, 1⟩) w b (g.ustart.getD p 0) (g.sizes.getD p (0, 0))

/-- The place in its byte of image bit `k` (R306): the parameter `ADAM7_BIT_ORDER`. -/
def imageBitIndex (k : Nat) : Nat := if Config.adam7MsbFirst then 7 - k % 8 else k % 8

/-- Image bit `k` of a buffer (R306, `RBIT` of 00_scope.md R15). -/
def imageBit (b : Buf) (k : Nat) : Bool := (Buf.byte b (k / 8)).getLsbD (imageBitIndex k)

/-- The bits of an image being written: those no pixel covers are 0 (R306). -/
abbrev BitTab := Tab Bool

/-- Image bit `k` of an image being written. -/
def BitTab.bit (t : BitTab) (k : Nat) : Bool := (Tab.get t k).getD false

/-- Each pair `(from, to)` copies image bit `from` of the source to image bit `to`, in order. -/
def copyImage (src : Buf) (t : BitTab) : List (Nat × Nat) → BitTab
  | [] => t
  | p :: ps => copyImage src (Tab.set t p.2 (some (imageBit src p.1))) ps

/-- Byte `n` of an image being written (R306). -/
def imageByte (t : BitTab) (n : Nat) : Byte :=
  byte (((List.range 8).map fun k => if BitTab.bit t (8 * n + k) then 2 ^ imageBitIndex (8 * n + k) else 0).sum)

/-- The first `n` bytes of an image being written. -/
def imageBytes (t : BitTab) (n : Nat) : List Byte := (List.range n).map (imageByte t)

/-! ## Commands -/

/-- The legal depths (R312). -/
def legalBpp : List Nat := [1, 2, 3, 4, 5, 6, 7, 8, 16, 24, 32, 40, 48, 56, 64]

/-- The argument checks of the three commands (R312). -/
def adam7Checks (r : Regs) : Except ErrCode Unit := do
  failIf (r.bpp ∉ legalBpp) .badArg
  failIf (2 ^ 32 - 1 < (geometry r.imgW.toNat r.imgH.toNat r.bpp).fstart.getD 7 0) .imgTooLarge

/-- `ADAM7.GEOMETRY` (R307). -/
def execAdam7Geometry (s : State) : Host.Outcome State Fault Refusal :=
  let r := s.operands
  let w := r.imgW.toNat
  let h := r.imgH.toNat
  runCommand .adam7Geometry s (adam7Checks r) fun _ =>
    .ok ({ s.regs.withGeometry (geometry w h r.bpp) with
        result0 := word (reducedBytes w h r.bpp)
        result1 := word (fullBytes w h r.bpp) }, s.mem)

/-- `ADAM7.INTERLACE` (R308). -/
def execAdam7Interlace (s : State) : Host.Outcome State Fault Refusal :=
  let r := s.operands
  let w := r.imgW.toNat
  let h := r.imgH.toNat
  runCommand .adam7Interlace s (adam7Checks r) fun _ => do
    failIf (r.srcLen.toNat < fullBytes w h r.bpp) .trunc
    failIf (r.dstCap.toNat < reducedBytes w h r.bpp) .dstFull
    let t := copyImage (s.mem.region r.srcAddr.toNat r.srcLen.toNat) .nil (pixelPairs w h r.bpp)
    .ok ({ s.regs.withGeometry (geometry w h r.bpp) with dstLen := word (reducedBytes w h r.bpp) },
      s.mem.writeBytes r.dstAddr.toNat (imageBytes t (reducedBytes w h r.bpp)))

/-- `ADAM7.DEINTERLACE` (R309): the inverse copy. -/
def execAdam7Deinterlace (s : State) : Host.Outcome State Fault Refusal :=
  let r := s.operands
  let w := r.imgW.toNat
  let h := r.imgH.toNat
  runCommand .adam7Deinterlace s (adam7Checks r) fun _ => do
    failIf (r.srcLen.toNat < reducedBytes w h r.bpp) .trunc
    failIf (r.dstCap.toNat < fullBytes w h r.bpp) .dstFull
    let t := copyImage (s.mem.region r.srcAddr.toNat r.srcLen.toNat) .nil
      ((pixelPairs w h r.bpp).map fun p => (p.2, p.1))
    .ok ({ s.regs.withGeometry (geometry w h r.bpp) with dstLen := word (fullBytes w h r.bpp) },
      s.mem.writeBytes r.dstAddr.toNat (imageBytes t (fullBytes w h r.bpp)))

end Sys2Proof.Machine
end

