-- ==== Sys2Proof/Machine/Control.lean ====
section
/-! DEFINITION. The control family: `NOP` (40_control.md R148), and what an illegal command word does (R146). -/

namespace Sys2Proof.Machine

/-- `NOP` (R148): nothing but the lifecycle. -/
def execNop (s : State) : Host.Outcome State Fault Refusal :=
  runCommand .nop s (.ok ()) fun _ => .ok (s.regs, s.mem)

/-- An illegal command word (R146, 30_encoding.md R93): it completes with `ERR_BAD_OP` and no other effect. -/
def illegalWord (s : State) : Host.Outcome State Fault Refusal :=
  .next (s.fail .badOp [] none)

end Sys2Proof.Machine
end

