-- ==== Sys2Proof/Machine/Huffman.lean ====
section
/-! DEFINITION. The canonical Huffman coder (43_huffman.md): codes from lengths, symbol decoding, lengths from frequencies by
package-merge, the run-length coding of length tables, the dynamic header, and the six commands `HUFF.*` and `TREE.*`. A code is
its list of lengths, 0 for an unused symbol (R210). -/

namespace Sys2Proof.Machine

/-! ## Codes from lengths -/

/-- `bl_count[b]` (30_encoding.md R117): the number of codes of length `b`, 0 for `b = 0`. -/
def blCount (len : List Nat) (b : Nat) : Nat := if b = 0 then 0 else len.count b

/-- `next_code[b]` before any symbol is numbered (R117): the first code of length `b`. -/
def firstCode (len : List Nat) : Nat → Nat
  | 0 => 0
  | b + 1 => (firstCode len b + blCount len b) * 2

/-- `code_of[s]` (R117): the first code of the symbol's length plus the number of smaller symbols of that length; 0 for a symbol
without a code. -/
def codeOf (len : List Nat) (s : Nat) : Nat :=
  let l := len.getD s 0
  if l = 0 then 0 else firstCode len l + (len.take s).count l

/-- `Codes(len)` (R210): the code value of each symbol. -/
def codes (len : List Nat) : List Nat := (List.range len.length).map (codeOf len)

/-- `K(len, m)` (R211). -/
def kraft (len : List Nat) (m : Nat) : Nat := (len.map fun l => if l = 0 then 0 else 2 ^ (m - l)).sum

/-- `Complete(len, m)` (R211). -/
def complete (len : List Nat) (m : Nat) : Bool := len.all (· ≤ m) && kraft len m == 2 ^ m

/-- `PrefixFree(len, m)` (R211). -/
def prefixFree (len : List Nat) (m : Nat) : Bool := len.all (· ≤ m) && kraft len m ≤ 2 ^ m

/-- `Degenerate(len)` (R212): no nonzero length, or exactly one and it is 1. -/
def degenerate (len : List Nat) : Bool := len.filter (· ≠ 0) == [] || len.filter (· ≠ 0) == [1]

/-- `max(len)`, 0 for an empty table (R213). -/
def maxLength (len : List Nat) : Nat := len.foldl max 0

/-- The decode table of a code (R213). -/
def DecodeTable.ofLengths (len : List Nat) : DecodeTable where
  maxLen := maxLength len
  counts := (List.range (maxLength len + 1)).map len.count
  sorted := (List.range' 1 (maxLength len)).flatMap fun b => (List.range len.length).filter fun s => len.getD s 0 == b

/-- The loop of R213: `left` lengths are still to be tried, the next one is `b`. -/
def decodeWalk (t : DecodeTable) : Nat → Nat → Nat → Nat → Nat → Reader → Except ErrCode ((Nat × Nat) × Reader)
  | 0, _, _, _, _, _ => .error .invalidCode
  | left + 1, b, code, first, index, r =>
    if r.limit ≤ r.bp then .error .noEob
    else do
      let (bit, r) ← getBit r
      let code := code + bit.toNat
      let count := t.counts.getD b 0
      if code - first < count then .ok ((t.sorted.getD (index + (code - first)) 0, b), r)
      else decodeWalk t left (b + 1) (2 * code) (2 * (first + count)) (index + count) r

/-- `DecodeSymbol` (R213): the symbol, and the length of its code. -/
def decodeSymbol (t : DecodeTable) (r : Reader) : Except ErrCode ((Nat × Nat) × Reader) := decodeWalk t t.maxLen 1 0 0 0 r

/-! ## Codes from frequencies -/

/-- A leaf or a package (R214): its weight, and its leaf occurrences. -/
structure Item where
  weight : Nat
  syms : List Nat
  deriving DecidableEq, Repr

/-- Insertion into a list in increasing order of `(freq, symbol)`; the symbols come in increasing order, so a new leaf goes before
the first one of greater or equal weight when inserted from the right. -/
def insertLeaf (x : Item) : List Item → List Item
  | [] => [x]
  | y :: ys => if x.weight ≤ y.weight then x :: y :: ys else y :: insertLeaf x ys

/-- `leaves` (R214): the used symbols in increasing order of `(freq[s], s)`. -/
def leaves (freq : List Nat) : List Item :=
  (((List.range freq.length).filter fun s => freq.getD s 0 ≠ 0).map fun s => Item.mk (freq.getD s 0) [s]).foldr insertLeaf []

/-- `package` of consecutive pairs (R214); an odd item out is dropped. -/
def packages : List Item → List Item
  | a :: b :: rest => ⟨a.weight + b.weight, a.syms ++ b.syms⟩ :: packages rest
  | _ => []

/-- One leaf merged into the packages, then the merge of the other leaves: on equal weight the leaf comes first (R214). -/
def mergeLeaf (x : Item) (others : List Item → List Item) : List Item → List Item
  | [] => x :: others []
  | y :: ys => if x.weight ≤ y.weight then x :: others (y :: ys) else y :: mergeLeaf x others ys

/-- The merge of the leaves with the packages in increasing weight (R214). -/
def mergeItems : List Item → List Item → List Item
  | [], ps => ps
  | x :: xs, ps => mergeLeaf x (mergeItems xs) ps

/-- `cur` after `k` rounds (R214). -/
def rounds (ls : List Item) : Nat → List Item
  | 0 => ls
  | k + 1 => mergeItems ls (packages (rounds ls k))

/-- `Special(P)` (R215) for an alphabet of `n` symbols with at most one used. -/
def specialLengths (n : Nat) (used : List Nat) : List Nat :=
  let s := used.headD 0
  (List.range n).map fun k => if k = s ∨ (k = 1 ∧ s = 0) ∨ (k = 0 ∧ s ≠ 0) then 1 else 0

/-- `LengthsFromFrequencies(freq, m)` (R214): the parameter `TREE_BUILDER`, package-merge. -/
def lengthsFromFrequencies (freq : List Nat) (m : Nat) : Except ErrCode (List Nat) :=
  let ls := leaves freq
  let n := ls.length
  if n ≤ 1 then .ok (specialLengths freq.length (ls.flatMap (·.syms)))
  else if 2 ^ m < n then .error .alphabetTooLarge
  else
    let occ := ((rounds ls (m - 1)).take (2 * n - 2)).flatMap (·.syms)
    .ok ((List.range freq.length).map occ.count)

/-- A value of the parameter `TREE_BUILDER` (00_scope.md R12, R217): code lengths from frequencies and a length limit. -/
abbrev TreeBuilder := List Nat → Nat → Except ErrCode (List Nat)

/-- `1 +` the largest symbol with a nonzero length, 0 for none (R216). -/
def usedLength (len : List Nat) : Nat := (len.reverse.dropWhile (· == 0)).length

/-- `BuildFromFrequencies(freq, minCodes, m)` (R216): the lengths and `numcodes`. -/
def buildFromFrequencies (build : TreeBuilder) (freq : List Nat) (minCodes m : Nat) : Except ErrCode (List Nat × Nat) := do
  let len ← build freq m
  .ok (len, max minCodes (usedLength len))

/-! ## Code-length serialization -/

/-- The order of the code-length-code lengths (30_encoding.md R105). -/
def clOrder : List Nat := [16, 17, 18, 0, 8, 7, 9, 6, 10, 5, 11, 4, 12, 3, 13, 2, 14, 1, 15]

/-- The loop of `RleCodeLengths` (R218): each pass takes at least one length off the front. -/
def rleLoop : Nat → List Nat → List (Nat × Nat)
  | 0, _ => []
  | _, [] => []
  | fuel + 1, x :: xs =>
    let j := (xs.takeWhile (· == x)).length
    if x = 0 ∧ 2 ≤ j then
      if j + 1 ≤ 10 then (17, j + 1 - 3) :: rleLoop fuel (xs.drop j)
      else (18, min (j + 1) 138 - 11) :: rleLoop fuel (xs.drop (min (j + 1) 138 - 1))
    else if 3 ≤ j then
      (x, 0) :: List.replicate (j / 6) (16, 3) ++
        (if 3 ≤ j % 6 then (16, j % 6 - 3) :: rleLoop fuel (xs.drop j) else rleLoop fuel (xs.drop (j - j % 6)))
    else (x, 0) :: rleLoop fuel xs

/-- `RleCodeLengths(L)` (R218): the (symbol, extra) pairs; the extra value of a symbol below 16 is not used. -/
def rleCodeLengths (l : List Nat) : List (Nat × Nat) := rleLoop l.length l

/-- The number of extra bits of a code-length symbol (30_encoding.md R106). -/
def clExtraBits (c : Nat) : Nat := if c = 16 then 2 else if c = 17 then 3 else if c = 18 then 7 else 0

/-- `ncl` of R219: from 19 down while above 4 and the last transmitted length is 0. -/
def trimCl (cl : List Nat) : Nat → Nat
  | 0 => 0
  | n + 1 => if 4 < n + 1 ∧ cl.getD (clOrder.getD n 0) 0 = 0 then trimCl cl n else n + 1

/-- The bits `WriteDynamicHeader(LL, DL)` writes, in order, and `ncl` (R219), for any `TREE_BUILDER`. -/
def dynamicHeaderWith (build : TreeBuilder) (ll dl : List Nat) : Except ErrCode (List Bool × Nat) := do
  let rle := rleCodeLengths (ll ++ dl)
  let syms := rle.map (·.1)
  let (cl, _) ← buildFromFrequencies build ((List.range 19).map syms.count) 19 Config.clMaxBits
  let ncl := trimCl cl 19
  let counts := lsbBits (ll.length - 257) 5 ++ lsbBits (dl.length - 1) 5 ++ lsbBits (ncl - 4) 4
  let lens := (List.range ncl).flatMap fun i => lsbBits (cl.getD (clOrder.getD i 0) 0) 3
  let body := rle.flatMap fun p => msbBits (codeOf cl p.1) (cl.getD p.1 0) ++ lsbBits p.2 (clExtraBits p.1)
  .ok (counts ++ lens ++ body, ncl)

/-- The same with the spec's `TREE_BUILDER` (R214, log 6). -/
def dynamicHeader : List Nat → List Nat → Except ErrCode (List Bool × Nat) := dynamicHeaderWith lengthsFromFrequencies

/-- The code-length-code lengths of a header (R220): `n` fields of 3 bits in `CL_ORDER`, the rest 0. -/
def readClLengths : Nat → List Nat → List Nat → Reader → Except ErrCode (List Nat × Reader)
  | 0, _, cl, r => .ok (cl, r)
  | _, [], cl, r => .ok (cl, r)
  | n + 1, c :: order, cl, r => do
    let (v, r) ← getBits r 3
    readClLengths n order (cl.set c v) r

/-- The repeat of R220: `n` copies of `v`, failing when the table is full. -/
def appendRun (total v : Nat) : Nat → List Nat → Except ErrCode (List Nat)
  | 0, lens => .ok lens
  | n + 1, lens => if total ≤ lens.length then .error .repeatOverrun else appendRun total v n (lens ++ [v])

/-- The length loop of R220; each pass adds at least one length, so `total` passes are enough (log 9). -/
def readLengths (t : DecodeTable) (total : Nat) : Nat → List Nat → Reader → Except ErrCode (List Nat × Reader)
  | 0, lens, r => .ok (lens, r)
  | fuel + 1, lens, r =>
    if total ≤ lens.length then .ok (lens, r)
    else do
      let ((c, _), r) ← decodeSymbol t r
      if c ≤ 15 then readLengths t total fuel (lens ++ [c]) r
      else if c = 16 then do
        failIf (lens = []) .repeatNoPrev
        let (e, r) ← getBits r 2
        let lens ← appendRun total (lens.getLastD 0) (3 + e) lens
        readLengths t total fuel lens r
      else if c = 17 then do
        let (e, r) ← getBits r 3
        let lens ← appendRun total 0 (3 + e) lens
        readLengths t total fuel lens r
      else do
        let (e, r) ← getBits r 7
        let lens ← appendRun total 0 (11 + e) lens
        readLengths t total fuel lens r

/-- A list padded with zeros to `n` entries (R220). -/
def padTo (n : Nat) (l : List Nat) : List Nat := l ++ List.replicate (n - l.length) 0

/-- What a dynamic header transmits (R220). -/
structure Header where
  hlit : Nat
  hdist : Nat
  ll : List Nat
  dl : List Nat
  deriving DecidableEq, Repr

/-- `ReadDynamicHeader` (R220), for a value of the parameter `DEGENERATE_DIST_OK` (R212). -/
def readDynamicHeader (degenerateOk : Bool) (r : Reader) : Except ErrCode (Header × Reader) := do
  let (a, r) ← getBits r 5
  let (b, r) ← getBits r 5
  let (c, r) ← getBits r 4
  let hlit := a + 257
  let hdist := b + 1
  let (cl, r) ← readClLengths (c + 4) clOrder (List.replicate 19 0) r
  failIf (¬ complete cl Config.clMaxBits) .codeLengths
  let (lens, r) ← readLengths (DecodeTable.ofLengths cl) (hlit + hdist) (hlit + hdist) [] r
  let ll := padTo 288 (lens.take hlit)
  let dl := padTo 32 (lens.drop hlit)
  failIf (ll.getD 256 0 = 0) .noEobLength
  failIf (¬ complete ll Config.llMaxBits) .codeLengths
  failIf (¬ complete dl Config.dMaxBits ∧ ¬ (degenerateOk ∧ degenerate dl)) .codeLengths
  .ok (⟨hlit, hdist, ll, dl⟩, r)

/-! ## Commands -/

/-- A byte table of `n` entries as numbers (20_memory.md R76). -/
def Memory.byteTable (m : Memory) (base n : Nat) : List Nat := (m.bytes base n).map (·.toNat)

/-- A word table of `n` entries (20_memory.md R78). -/
def Memory.wordTable (m : Memory) (base n : Nat) : List Nat := (List.range n).map fun s => m.readLE (base + 4 * s) 4

/-- The check of `maxBits` (R221 to R224): `ARG2` in 1..15. -/
def maxBitsCheck (r : Regs) : Except ErrCode Unit := failIf (r.arg2.toNat < 1 ∨ 15 < r.arg2.toNat) .badArg

/-- `HUFF.BUILD_FREQ` (R221). -/
def execHuffBuildFreq (s : State) : Host.Outcome State Fault Refusal :=
  let r := s.operands
  let n := r.arg1.toNat
  runCommand .huffBuildFreq s
    (do
      failIf (n < 2 ∨ 288 < n) .badArg
      maxBitsCheck r
      failIf (n < r.arg0.toNat) .badArg)
    fun _ => do
      failIf (r.srcLen.toNat < 4 * n) .trunc
      failIf (r.dstCap.toNat < n) .dstFull
      let (len, numcodes) ← buildFromFrequencies lengthsFromFrequencies (s.mem.wordTable r.srcAddr.toNat n) r.arg0.toNat r.arg2.toNat
      .ok ({ s.regs with result0 := word numcodes, dstLen := word n }, s.mem.writeBytes r.dstAddr.toNat (len.map byte))

/-- `HUFF.BUILD_LENGTHS` (R222). -/
def execHuffBuildLengths (s : State) : Host.Outcome State Fault Refusal :=
  let r := s.operands
  let n := r.srcLen.toNat
  runCommand .huffBuildLengths s
    (do
      failIf (n < 1 ∨ 288 < n) .badArg
      maxBitsCheck r)
    fun _ => do
      failIf (r.dstCap.toNat < 2 * n) .dstFull
      let len := s.mem.byteTable r.srcAddr.toNat n
      failIf (¬ complete len r.arg2.toNat) .codeLengths
      .ok ({ s.regs with
          result0 := word (len.countP (· ≠ 0))
          result1 := word (maxLength len)
          dstLen := word (2 * n) },
        s.mem.writeBytes r.dstAddr.toNat ((codes len).flatMap fun c => bytesLE c 2))

/-- `HUFF.ENCODE_SYM` (R223). The final-cursor check stands before the execution errors (60_exceptions.md R321 item 9), on the
symbol's length; DEDUCED (log 18): also in a table that is no code, and on 0 bits for a symbol with no code. -/
def execHuffEncodeSym (s : State) : Host.Outcome State Fault Refusal :=
  let r := s.operands
  let n := r.arg1.toNat
  let sym := r.arg0.toNat
  runCommand .huffEncodeSym s
    (do
      failIf (n < 1 ∨ 288 < n) .badArg
      maxBitsCheck r
      failIf (n ≤ sym) .badArg)
    fun _ => do
      let len := s.mem.byteTable r.auxAddr.toNat n
      let l := len.getD sym 0
      cursorCheck r l
      failIf (¬ prefixFree len r.arg2.toNat) .codeLengths
      failIf (l = 0) .invalidCode
      let c := codeOf len sym
      .ok (putAtCursor r { s.regs with result0 := word c, result1 := word l } s.mem (msbBits c l))

/-- `HUFF.DECODE_SYM` (R224). -/
def execHuffDecodeSym (s : State) : Host.Outcome State Fault Refusal :=
  let r := s.operands
  let n := r.arg1.toNat
  runCommand .huffDecodeSym s
    (do
      failIf (n < 1 ∨ 288 < n) .badArg
      maxBitsCheck r)
    fun _ => do
      let len := s.mem.byteTable r.auxAddr.toNat n
      failIf (¬ prefixFree len r.arg2.toNat) .codeLengths
      let ((sym, l), rd) ← decodeSymbol (DecodeTable.ofLengths len) (r.cursorReader s.mem)
      .ok ({ s.regs with result0 := word sym, result1 := word l, srcBitpos := word rd.bp }, s.mem)

/-- The bits of the header `TREE.WRITE` has to write (R225): those of `WriteDynamicHeader`, which needs every length in 0 to 15
(R219). DEDUCED (log 18): with a longer one there is no header, and so 0 bits. -/
def headerSize (ll dl : List Nat) : Nat :=
  if (ll ++ dl).all (· ≤ 15) then
    match dynamicHeader ll dl with
    | .ok p => p.1.length
    | .error _ => 0
  else 0

/-- `TREE.WRITE` (R225). The final-cursor check stands before the execution errors (60_exceptions.md R321 item 9). -/
def execTreeWrite (s : State) : Host.Outcome State Fault Refusal :=
  let r := s.operands
  let nll := r.arg0.toNat
  let nd := r.arg1.toNat
  runCommand .treeWrite s
    (do
      failIf (nll < 257 ∨ 288 < nll) .badArg
      failIf (nd < 1 ∨ 32 < nd) .badArg)
    fun _ => do
      let lens := s.mem.byteTable r.auxAddr.toNat (nll + nd)
      cursorCheck r (headerSize (lens.take nll) (lens.drop nll))
      failIf (¬ lens.all (· ≤ 15)) .codeLengths
      let (bits, ncl) ← dynamicHeader (lens.take nll) (lens.drop nll)
      .ok (putAtCursor r { s.regs with result0 := word bits.length, result1 := word ncl } s.mem bits)

/-- `TREE.READ` (R226). -/
def execTreeRead (s : State) : Host.Outcome State Fault Refusal :=
  let r := s.operands
  runCommand .treeRead s (.ok ()) fun _ => do
    failIf (r.dstCap.toNat < 320) .dstFull
    let (h, rd) ← readDynamicHeader Config.degenerateDistOk (r.cursorReader s.mem)
    .ok ({ s.regs with
        result0 := word h.hlit
        result1 := word h.hdist
        srcBitpos := word rd.bp
        dstLen := word 320 },
      s.mem.writeBytes r.dstAddr.toNat ((h.ll ++ h.dl).map byte))

end Sys2Proof.Machine
end

