-- ==== Sys2Proof/Machine/MatchFinder.lean ====
section
/-! DEFINITION. The LZ77 match finder (42_match_finder.md): the hash state, the chain walk, the tokenizer with lazy matching, and the
command `LZ77.TOKENIZE`. -/

namespace Sys2Proof.Machine

/-! ## Length and distance codes (30_encoding.md R109 to R112) -/

/-- `LEN_BASE` of the length codes 257..285 (R109). -/
def lenBase : List Nat :=
  [3, 4, 5, 6, 7, 8, 9, 10, 11, 13, 15, 17, 19, 23, 27] ++ [31, 35, 43, 51, 59, 67, 83, 99, 115, 131, 163, 195, 227, 258]

/-- `LEN_EXTRA` (R109). -/
def lenExtra : List Nat := [0, 0, 0, 0, 0, 0, 0, 0, 1, 1, 1, 1, 2, 2, 2] ++ [2, 3, 3, 3, 3, 4, 4, 4, 4, 5, 5, 5, 5, 0]

/-- `DIST_BASE` of the distance codes 0..29 (R110). -/
def distBase : List Nat :=
  [1, 2, 3, 4, 5, 7, 9, 13, 17, 25, 33, 49, 65, 97, 129] ++
    [193, 257, 385, 513, 769, 1025, 1537, 2049, 3073, 4097, 6145, 8193, 12289, 16385, 24577]

/-- `DIST_EXTRA` (R110). -/
def distExtra : List Nat := [0, 0, 0, 0, 1, 1, 2, 2, 3, 3, 4, 4, 5, 5, 6] ++ [6, 7, 7, 8, 8, 9, 9, 10, 10, 11, 11, 12, 12, 13, 13]

/-- The largest index whose base is at most `v`, in a rising table (R111, R112). -/
def largestIndex (bases : List Nat) (v : Nat) : Nat := (bases.filter (· ≤ v)).length - 1

/-- `PairTokens(length, offset)` (R190): length code, extra length, distance code, extra distance. -/
def pairTokens (length offset : Nat) : List Nat :=
  let i := largestIndex lenBase length
  let d := largestIndex distBase offset
  [257 + i, length - lenBase.getD i 0, d, offset - distBase.getD d 0]

/-! ## Hash state -/

/-- The parameters of the match finder that 40_control.md R145 names (00_scope.md R12): `HASH_FN` on the bytes
`D[pos .. min(pos + 3, end))` (R181), `MAX_LAZY`, `LAZY_GAIN` and `FAR3_LIMIT`. -/
structure FinderParams where
  hashFn : List Nat → Nat
  maxLazy : Nat → Nat
  lazyGain : Nat
  far3Limit : Nat

/-- The spec's `HASH_FN` (R181): the shift-xor of three bytes, and the short form near the end of a block. -/
def shiftXorHash : List Nat → Nat
  | [a, b, c] => a ^^^ (b <<< 4) ^^^ (c <<< 8)
  | bs => bs.foldr (fun b h => b ^^^ (h <<< 8)) 0

/-- The spec's values of the parameters (00_scope.md R12, log 6). -/
def specFinder : FinderParams := ⟨shiftXorHash, Config.maxLazy, Config.lazyGain, Config.far3Limit⟩

/-- What the tokenizer reads: the input `D`, the end of the block (`end`), the settings, and the parameters. -/
structure Finder where
  data : Buf
  stop : Nat
  window : Nat
  minMatch : Nat
  nice : Nat
  lazyMatching : Bool
  par : FinderParams

/-- `D[k]` as a number. -/
def Finder.at (c : Finder) (k : Nat) : Nat := (Buf.byte c.data k).toNat

/-- `Hash(pos)` (R181): `HASH_FN` of the bytes `D[pos .. min(pos + 3, end))`, `HASH_BITS` bits of it. -/
def Finder.hash (c : Finder) (pos : Nat) : Nat :=
  c.par.hashFn ((List.range' pos (min 3 (c.stop - pos))).map c.at) % 2 ^ Config.hashBits

/-- The number of zero bytes from `pos` on, at most `fuel` of them. -/
def Finder.zerosFrom (c : Finder) : Nat → Nat → Nat
  | 0, _ => 0
  | fuel + 1, pos => if c.at pos = 0 then 1 + Finder.zerosFrom c fuel (pos + 1) else 0

/-- `min(end, pos + 258)`: the last position a match or zero run at `pos` may reach (R182, R184). -/
def Finder.lastPos (c : Finder) (pos : Nat) : Nat := min c.stop (pos + Config.maxMatch)

/-- `ZeroRun(pos)` (R182). -/
def Finder.zeroRun (c : Finder) (pos : Nat) : Nat := c.zerosFrom (c.lastPos pos - pos) pos

/-- `CHAIN[s]`; an unset slot links to itself (R180). -/
def MatchTables.chainAt (t : MatchTables) (s : Nat) : Nat := (t.chain.get s).getD s

/-- `CHAINZ[s]`; an unset slot links to itself (R180). -/
def MatchTables.chainzAt (t : MatchTables) (s : Nat) : Nat := (t.chainz.get s).getD s

/-- `ZEROS[s]`; 0 when unset (R180). -/
def MatchTables.zerosAt (t : MatchTables) (s : Nat) : Nat := (t.zeros.get s).getD 0

/-- The window slot `pos & (W − 1)` for a power of two `W` (00_scope.md R18). -/
def Finder.slot (c : Finder) (pos : Nat) : Nat := pos % c.window

/-- `Insert(pos)` (R183). Where a head is −1 the link of the slot keeps its old value. -/
def Finder.insert (c : Finder) (t : MatchTables) (pos : Nat) : MatchTables :=
  let wpos := c.slot pos
  let hv := c.hash pos
  let nz := c.zeroRun pos
  { val := t.val.set wpos (some hv)
    chain := match t.head.get hv with
      | some h => t.chain.set wpos (some h)
      | none => t.chain
    head := t.head.set hv (some wpos)
    zeros := t.zeros.set wpos (some nz)
    chainz := match t.headz.get nz with
      | some h => t.chainz.set wpos (some h)
      | none => t.chainz
    headz := t.headz.set nz (some wpos) }

/-- `Insert` of `count` positions from `pos` on (R191). -/
def Finder.insertMany (c : Finder) : Nat → MatchTables → Nat → MatchTables
  | 0, t, _ => t
  | n + 1, t, pos => Finder.insertMany c n (c.insert t pos) (pos + 1)

/-! ## Match search -/

/-- The comparison loop of R184: `f` and `b` advance while `f` is not the last position and the bytes agree; the result is the
final `f`. -/
def Finder.extend (c : Finder) : Nat → Nat → Nat → Nat
  | 0, f, _ => f
  | fuel + 1, f, b => if c.at b = c.at f then Finder.extend c fuel (f + 1) (b + 1) else f

/-- The length of the match at `pos` with the candidate slot `hashpos` at distance `off`, its known zeros skipped (R184). -/
def Finder.candidate (c : Finder) (t : MatchTables) (pos nz hashpos off : Nat) : Nat :=
  let skip := if 3 ≤ nz then min (t.zerosAt hashpos) nz else 0
  c.extend (c.lastPos pos - (pos + skip)) (pos + skip) (pos - off + skip) - pos

/-- The circular distance from the candidate slot to the current one (R184). -/
def Finder.distance (c : Finder) (wpos hashpos : Nat) : Nat :=
  if hashpos ≤ wpos then wpos - hashpos else wpos + c.window - hashpos

/-- The chain walk of R184, with the number of nodes it may still visit. Its exits are those of R185. -/
def Finder.walk (c : Finder) (t : MatchTables) (pos wpos hv nz : Nat) : Nat → Nat → Nat → Nat × Nat → Nat × Nat
  | 0, _, _, best => best
  | nodes + 1, hashpos, prevOff, best =>
    let off := c.distance wpos hashpos
    if off < prevOff then best
    else
      let len := if 0 < off then c.candidate t pos nz hashpos off else 0
      let better := decide (best.1 < len)
      let best' := if better then (len, off) else best
      if better && c.nice ≤ len then best'
      else if hashpos = t.chainAt hashpos then best'
      else if 3 ≤ nz ∧ nz < best'.1 then
        let next := t.chainzAt hashpos
        if t.zerosAt next ≠ nz then best' else Finder.walk c t pos wpos hv nz nodes next off best'
      else
        let next := t.chainAt hashpos
        if t.val.get next ≠ some hv then best' else Finder.walk c t pos wpos hv nz nodes next off best'

/-- `FindMatch(pos)` (R184), on the tables right after `Insert(pos)`: the length and the offset, `(0, 0)` for no match. -/
def Finder.findMatch (c : Finder) (t : MatchTables) (pos : Nat) : Nat × Nat :=
  let wpos := c.slot pos
  c.walk t pos wpos (c.hash pos) (c.zeroRun pos) (Config.maxChain c.window) (t.chainAt wpos) 0 (0, 0)

/-! ## Tokenizing -/

/-- `EmitAsLiteral(length, offset)` (R189). -/
def Finder.emitAsLiteral (c : Finder) (length offset : Nat) : Bool :=
  length < Config.minPair || length < c.minMatch || (length == 3 && c.par.far3Limit < offset)

/-- The state of the loop of R187: the tables, the position, the deferred match (`lazy`, `lazylen`, `lazyoff`), and the tokens so
far, last one first. -/
structure TokLoop where
  tables : MatchTables
  pos : Nat
  deferred : Option (Nat × Nat)
  rev : List Nat
  deriving DecidableEq, Repr

/-- The end of the loop body of R187: a literal, or a pair and the insertion of the rest of its bytes (R191). -/
def Finder.emit (c : Finder) (t : MatchTables) (pos length offset : Nat) (rev : List Nat) : TokLoop :=
  if c.emitAsLiteral length offset then ⟨t, pos + 1, none, c.at pos :: rev⟩
  else ⟨c.insertMany (length - 1) t (pos + 1), pos + length, none, (pairTokens length offset).reverse ++ rev⟩

/-- One pass of the loop of R187, with the lazy matching of R188. -/
def Finder.pass (c : Finder) (st : TokLoop) : TokLoop :=
  let pos := st.pos
  let t := c.insert st.tables pos
  let m := c.findMatch t pos
  match c.lazyMatching, st.deferred with
  | true, none =>
    if 3 ≤ m.1 ∧ m.1 < c.par.maxLazy c.window then ⟨t, pos + 1, some m, st.rev⟩ else c.emit t pos m.1 m.2 st.rev
  | true, some d =>
    if d.1 + c.par.lazyGain < m.1 then c.emit t pos m.1 m.2 (c.at (pos - 1) :: st.rev)
    else
      let t' := { t with head := t.head.set (c.hash pos) none, headz := t.headz.set (c.zeroRun pos) none }
      c.emit t' (pos - 1) d.1 d.2 st.rev
  | false, _ => c.emit t pos m.1 m.2 st.rev

/-- The loop of R187, `while pos < end`, with the number of passes spelt out. -/
def Finder.loop (c : Finder) : Nat → TokLoop → TokLoop
  | 0, st => st
  | fuel + 1, st => if st.pos < c.stop then Finder.loop c fuel (c.pass st) else st

/-- `TokenizeBlock(start, end)` with `USE_LZ77 = 1` (R187): the tokens, and the tables for the next block. Every two passes move
the position on by at least one, so twice the block's length is enough passes (log 9). -/
def Finder.tokenize (c : Finder) (t : MatchTables) (start : Nat) : List Nat × MatchTables :=
  let st := c.loop (2 * (c.stop - start)) ⟨t, start, none, []⟩
  (st.rev.reverse, st.tables)

/-- `LiteralTokens(start, end)` (R193). -/
def literalTokens (data : Buf) (start stop : Nat) : List Nat :=
  (List.range' start (stop - start)).map fun k => (Buf.byte data k).toNat

/-- The finder of a command for the block that ends at `stop` (42_match_finder.md, notation; R28). -/
def Regs.finder (r : Regs) (par : FinderParams) (data : Buf) (stop : Nat) : Finder :=
  ⟨data, stop, r.window.toNat, r.minMatch, min r.niceMatch Config.maxMatch, r.lazyMatching, par⟩

/-- `TokenizeBlock(start, end)` (R187, R193) for any values of the parameters. With `USE_LZ77 = 0` the tables are not touched. -/
def tokenizeWith (par : FinderParams) (r : Regs) (data : Buf) (t : MatchTables) (start stop : Nat) : List Nat × MatchTables :=
  if r.useLz77 then (r.finder par data stop).tokenize t start else (literalTokens data start stop, t)

/-- `TokenizeBlock(start, end)` at the spec's values of the parameters. -/
def tokenizeBlock : Regs → Buf → MatchTables → Nat → Nat → List Nat × MatchTables := tokenizeWith specFinder

/-! ## Command -/

/-- `LZ77.TOKENIZE` (R192). -/
def execLz77Tokenize (s : State) : Host.Outcome State Fault Refusal :=
  let r := s.operands
  runCommand .lz77Tokenize s (windowChecks r) fun _ => do
    let toks := (tokenizeBlock r (s.mem.region r.srcAddr.toNat r.srcLen.toNat) .init 0 r.srcLen.toNat).1
    failIf (r.dstCap.toNat < 2 * toks.length) .dstFull
    .ok ({ s.regs with result0 := word toks.length, dstLen := word (2 * toks.length) },
      s.mem.writeBytes r.dstAddr.toNat (toks.flatMap fun v => bytesLE v 2))

end Sys2Proof.Machine
end

