-- ==== Sys2Proof/Machine/Deflate.lean ====
section
/-! DEFINITION. The DEFLATE block codec (44_deflate.md): the three block encoders, the stream encoder, the stream decoder, and the
commands `DEFLATE.RAW` and `INFLATE.RAW`. -/

namespace Sys2Proof.Machine

/-! ## Fixed codes -/

/-- The fixed literal/length code lengths (30_encoding.md R101). -/
def fixedLL : List Nat :=
  List.replicate 144 8 ++ List.replicate 112 9 ++ List.replicate 24 7 ++ List.replicate 8 8

/-- The fixed distance code lengths (R103): 30 symbols of length 5. -/
def fixedD : List Nat := List.replicate 30 5

/-! ## Encoder -/

/-- The parameters on which the encoder's bytes depend (40_control.md R145): those of the match finder, and `TREE_BUILDER`. -/
structure EncoderParams where
  finder : FinderParams
  build : TreeBuilder

/-- The spec's values of the parameters (00_scope.md R12, log 6). -/
def specEncoder : EncoderParams := ⟨specFinder, lengthsFromFrequencies⟩

/-- `StoredBlock(bytes, final)` (R252). -/
def storedBlock (w : Writer) (bytes : List Byte) (final : Bool) : Except ErrCode Writer := do
  let w ← putBits w final.toNat 1
  let w ← putBits w 0 2
  let w ← alignWriter w
  let w ← putBits w bytes.length 16
  let w ← putBits w (bytes.length ^^^ 0xFFFF) 16
  putAll w (bytes.flatMap fun b => lsbBits b.toNat 8)

/-- A code as a table of (code, length), looked up by symbol. -/
abbrev CodeTable := List (Nat × Nat)

/-- The code of a length table (43_huffman.md R210). -/
def codeTable (len : List Nat) : CodeTable := (codes len).zip len

/-- The bits of a symbol's code, MSB-first (R97). -/
def symbolBits (t : CodeTable) (s : Nat) : List Bool :=
  let p := t.getD s (0, 0)
  msbBits p.1 p.2

/-- The bits of `WriteTokens(toks, LL, DL)` (R255), on the token stream of 30_encoding.md R113. -/
def tokenBits (ll dl : CodeTable) : List Nat → List Bool
  | [] => []
  | c :: rest =>
    if c < 257 then symbolBits ll c ++ tokenBits ll dl rest
    else
      match rest with
      | el :: d :: ed :: rest =>
        symbolBits ll c ++ lsbBits el (lenExtra.getD (c - 257) 0) ++ symbolBits dl d ++ lsbBits ed (distExtra.getD d 0) ++
          tokenBits ll dl rest
      | _ => []

/-- The literal/length symbols and the distance codes of a token stream, in order (R254). -/
def tokenSymbols : List Nat → List Nat × List Nat
  | [] => ([], [])
  | c :: rest =>
    if c < 257 then
      let p := tokenSymbols rest
      (c :: p.1, p.2)
    else
      match rest with
      | _ :: d :: _ :: rest =>
        let p := tokenSymbols rest
        (c :: p.1, d :: p.2)
      | _ => ([], [])

/-- `FixedBlock(toks, final)` (R253). -/
def fixedBlock (w : Writer) (toks : List Nat) (final : Bool) : Except ErrCode Writer := do
  let w ← putBits w final.toNat 1
  let w ← putBits w 1 2
  let w ← putAll w (tokenBits (codeTable fixedLL) (codeTable fixedD) toks)
  putAll w (symbolBits (codeTable fixedLL) 256)

/-- `DynamicBlock(toks, final)` (R254, R256). -/
def dynamicBlock (build : TreeBuilder) (w : Writer) (toks : List Nat) (final : Bool) : Except ErrCode Writer := do
  let syms := tokenSymbols toks
  let fq := ((List.range 286).map syms.1.count).set 256 1
  let fd := (List.range 30).map syms.2.count
  let (ll, nll) ← buildFromFrequencies build fq 257 Config.llMaxBits
  let (dl, nd) ← buildFromFrequencies build fd 2 Config.dMaxBits
  failIf (ll.getD 256 0 = 0) .eobZero
  let w ← putBits w final.toNat 1
  let w ← putBits w 2 2
  let (header, _) ← dynamicHeaderWith build (ll.take nll) (dl.take nd)
  let w ← putAll w header
  let w ← putAll w (tokenBits (codeTable ll) (codeTable dl) toks)
  putAll w (symbolBits (codeTable ll) 256)

/-- `ceil(n / k)`. -/
def ceilDiv (n k : Nat) : Nat := (n + k - 1) / k

/-- The stored blocks of R251, from the block number `i` on. -/
def storedBlocks (data : Buf) (n nb : Nat) : List Nat → Writer → Except ErrCode Writer
  | [], w => .ok w
  | i :: is, w => do
    let start := Config.storedMax * i
    let len := min n (Config.storedMax * (i + 1)) - start
    let w ← storedBlock w ((List.range' start len).map (Buf.byte data)) (i + 1 == nb)
    storedBlocks data n nb is w

/-- The Huffman blocks of R251, from the block number `i` on: one hash state serves all of them (42_match_finder.md R180). -/
def huffmanBlocks (p : EncoderParams) (r : Regs) (data : Buf) (n bs nb : Nat) :
    List Nat → MatchTables → Writer → Except ErrCode Writer
  | [], _, w => .ok w
  | i :: is, t, w => do
    let (toks, t) := tokenizeWith p.finder r data t (bs * i) (min n (bs * (i + 1)))
    let w ← if r.btype = 1 then fixedBlock w toks (i + 1 == nb) else dynamicBlock p.build w toks (i + 1 == nb)
    huffmanBlocks p r data n bs nb is t w

/-- The number of input bytes of a block (R251): 65535 stored, the whole input fixed, `DYN_BLOCK(n)` dynamic. -/
def blockSize (btype n : Nat) : Nat :=
  if btype = 0 then Config.storedMax else if btype = 1 then n else Config.dynBlock n

/-- The number of blocks (R251, R267). -/
def blockCount (btype n : Nat) : Nat := if btype = 1 then 1 else max 1 (ceilDiv n (blockSize btype n))

/-- `EncodeStream(D)` (R251) for any values of the parameters: the writer after the stream, and the number of blocks. -/
def encodeStreamWith (p : EncoderParams) (r : Regs) (data : Buf) (n : Nat) (w : Writer) : Except ErrCode (Writer × Nat) := do
  let nb := blockCount r.btype n
  let w ←
    if r.btype = 0 then storedBlocks data n nb (List.range nb) w
    else huffmanBlocks p r data n (blockSize r.btype n) nb (List.range nb) .init w
  .ok (w, nb)

/-- `EncodeStream(D)` at the spec's values of the parameters. -/
def encodeStream : Regs → Buf → Nat → Writer → Except ErrCode (Writer × Nat) := encodeStreamWith specEncoder

/-! ## Decoder -/

/-- The output of a decode (R257, R263): the bytes so far, last one first, and `DST_CAP`. -/
structure Out where
  rev : List Byte
  cap : Nat
  deriving DecidableEq, Repr

/-- `Append(b)` (R263). -/
def Out.append (o : Out) (b : Byte) : Except ErrCode Out :=
  if o.cap ≤ o.rev.length then .error .dstFull else .ok { o with rev := b :: o.rev }

/-- The output bytes in order. -/
def Out.bytes (o : Out) : List Byte := o.rev.reverse

/-- `repeat L times: Append(GetBits(8))` (R259). -/
def copyStored : Nat → Reader → Out → Except ErrCode (Reader × Out)
  | 0, r, o => .ok (r, o)
  | n + 1, r, o => do
    let (v, r) ← getBits r 8
    let o ← o.append (byte v)
    copyStored n r o

/-- `StoredDecode()` (R259). -/
def storedDecode (r : Reader) (o : Out) : Except ErrCode (Reader × Out) := do
  let r := alignReader r
  let (l, r) ← getBits r 16
  let (nl, r) ← getBits r 16
  failIf (nl ≠ l ^^^ 0xFFFF) .nlen
  failIf (r.limit < r.bp + 8 * l) .trunc
  copyStored l r o

/-- `repeat length times: Append(out[|out| − dist])` (R262), one byte at a time (70_reset_and_hazards.md R373). -/
def copyBytes (dist : Nat) : Nat → Out → Except ErrCode Out
  | 0, o => .ok o
  | n + 1, o => do
    let o ← o.append (o.rev.getD (dist - 1) 0)
    copyBytes dist n o

/-- The back-reference copy (R262). -/
def copyMatch (length dist : Nat) (o : Out) : Except ErrCode Out := do
  failIf (o.rev.length < dist) .distTooFar
  copyBytes dist length o

/-- The length and distance of a pair whose length code is `s` (R261). -/
def readPair (dl : DecodeTable) (s : Nat) (r : Reader) : Except ErrCode ((Nat × Nat) × Reader) := do
  let (e, r) ← getBits r (lenExtra.getD (s - 257) 0)
  let ((d, _), r) ← decodeSymbol dl r
  failIf (30 ≤ d) .invalidCode
  let (ed, r) ← getBits r (distExtra.getD d 0)
  .ok ((lenBase.getD (s - 257) 0 + e, distBase.getD d 0 + ed), r)

/-- `HuffmanDecode(LL, DL)` (R260), with the number of passes spelt out: every pass reads at least one bit, so one more than the
bits left is enough (log 9). -/
def huffmanDecode (ll dl : DecodeTable) : Nat → Reader → Out → Except ErrCode (Reader × Out)
  | 0, _, _ => .error .noEob
  | fuel + 1, r, o => do
    let ((s, _), r) ← decodeSymbol ll r
    if s ≤ 255 then do
      let o ← o.append (byte s)
      huffmanDecode ll dl fuel r o
    else if s = 256 then .ok (r, o)
    else if s ≤ 285 then do
      let ((length, dist), r) ← readPair dl s r
      let o ← copyMatch length dist o
      huffmanDecode ll dl fuel r o
    else .error .invalidCode

/-- The bits left, plus one: enough passes for a loop that reads at least one bit in each. -/
def Reader.passes (r : Reader) : Nat := r.limit - r.bp + 1

/-- The body of a block of type `btype` (R257). -/
def decodeBlock (btype : Nat) (r : Reader) (o : Out) : Except ErrCode (Reader × Out) := do
  failIf (btype = 3) .btype
  if btype = 0 then storedDecode r o
  else if btype = 1 then huffmanDecode (.ofLengths fixedLL) (.ofLengths fixedD) r.passes r o
  else do
    let (h, r) ← readDynamicHeader Config.degenerateDistOk r
    huffmanDecode (.ofLengths h.ll) (.ofLengths h.dl) r.passes r o

/-- The loop of `DecodeStream` (R257), with `nb` blocks decoded so far; every block reads at least 3 bits (log 9). -/
def decodeBlocks : Nat → Nat → Reader → Out → Except ErrCode (Nat × Reader × Out)
  | 0, _, _, _ => .error .trunc
  | fuel + 1, nb, r, o => do
    let (bfinal, r) ← getBits r 1
    let (btype, r) ← getBits r 2
    let (r, o) ← decodeBlock btype r o
    if bfinal = 1 then .ok (nb + 1, r, o) else decodeBlocks fuel (nb + 1) r o

/-- `DecodeStream(reader)` (R257): the number of blocks, the reader after the stream, and the output. -/
def decodeStream (r : Reader) (o : Out) : Except ErrCode (Nat × Reader × Out) := decodeBlocks r.passes 0 r o

/-! ## Commands -/

/-- `DEFLATE.RAW` (R264). -/
def execDeflateRaw (s : State) : Host.Outcome State Fault Refusal :=
  let r := s.operands
  runCommand .deflateRaw s (compressChecks r) fun _ => do
    let (w, nb) ← encodeStream r (s.mem.region r.srcAddr.toNat r.srcLen.toNat) r.srcLen.toNat r.writer
    .ok ({ s.regs with
        result0 := storeCount w.bp
        result1 := word nb
        dstLen := word (ceilDiv w.bp 8) },
      s.mem.writeBytes r.dstAddr.toNat w.bytes)

/-- `INFLATE.RAW` (R265). -/
def execInflateRaw (s : State) : Host.Outcome State Fault Refusal :=
  let r := s.operands
  runCommand .inflateRaw s (.ok ()) fun _ => do
    let reader := Reader.mk (s.mem.region r.srcAddr.toNat r.srcLen.toNat) (8 * r.srcLen.toNat) 0
    let (nb, rd, o) ← decodeStream reader ⟨[], r.dstCap.toNat⟩
    .ok ({ s.regs with
        result0 := storeCount rd.bp
        result1 := word nb
        dstLen := word o.rev.length },
      s.mem.writeBytes r.dstAddr.toNat o.bytes)

end Sys2Proof.Machine
end

