-- ==== Sys2Proof/Machine/Zlib.lean ====
section
/-! DEFINITION. The zlib container and Adler-32 (45_zlib_adler.md): the checksum, the wrap and unwrap procedures, and the commands
`ZLIB.COMPRESS`, `ZLIB.DECOMPRESS` and `ADLER32`. -/

namespace Sys2Proof.Machine

/-- The modulus of Adler-32 (R280). -/
def adlerModulus : Nat := 65521

/-- One byte of Adler-32 on the halves `(s1, s2)` (R280). -/
def adlerByte (h : Nat × Nat) (b : Byte) : Nat × Nat :=
  let s1 := (h.1 + b.toNat) % adlerModulus
  (s1, (h.2 + s1) % adlerModulus)

/-- `AdlerUpdate(a, D)` (R280). -/
def adlerUpdate (a : Word) (data : List Byte) : Word :=
  let h := data.foldl adlerByte (a.toNat % 2 ^ 16, a.toNat / 2 ^ 16)
  word (h.2 * 2 ^ 16 + h.1)

/-- `Adler32(D)` (R280). -/
def adler32 (data : List Byte) : Word := adlerUpdate 1 data

/-- `CMF` as the encoder writes it (R281): `CINFO` above method 8. -/
def zlibCmf : Nat := Config.zlibCinfo * 16 + 8

/-- `FLG` as the encoder writes it (R281, 30_encoding.md R98): `FLEVEL`, `FDICT = 0`, and the `FCHECK` that makes the header a
multiple of 31. -/
def zlibFlg : Nat :=
  let base := Config.zlibFlevel * 64
  base + (31 - (zlibCmf * 256 + base) % 31) % 31

/-- `ZlibEncode(D)` (R282): the writer after the trailer, the bits of the deflate stream, the number of blocks and the checksum. -/
def zlibEncode (r : Regs) (data : Buf) (n : Nat) (w : Writer) : Except ErrCode (Writer × Nat × Nat × Word) := do
  let w ← putBits w zlibCmf 8
  let w ← putBits w zlibFlg 8
  let (w, nb) ← encodeStream r data n w
  let bits := w.bp - 16
  let w ← alignWriter w
  let a := adler32 ((List.range n).map (Buf.byte data))
  let w ← putBits w (a.toNat / 2 ^ 24 % 256) 8
  let w ← putBits w (a.toNat / 2 ^ 16 % 256) 8
  let w ← putBits w (a.toNat / 2 ^ 8 % 256) 8
  let w ← putBits w (a.toNat % 256) 8
  .ok (w, bits, nb, a)

/-- The header checks of a decode, in order (R283). -/
def zlibHeaderChecks (cmf flg : Nat) : Except ErrCode Unit := do
  failIf ((cmf * 256 + flg) % 31 ≠ 0) .zlibFcheck
  failIf (cmf % 16 ≠ 8 ∨ 7 < cmf / 16) .zlibMethod
  failIf (flg.testBit 5) .zlibFdict

/-- The trailer `T`: the last four bytes of the `n`-byte source, most significant first (R284). -/
def zlibTrailer (src : Buf) (n : Nat) : Word :=
  word ((Buf.byte src (n - 4)).toNat * 2 ^ 24 + (Buf.byte src (n - 3)).toNat * 2 ^ 16 + (Buf.byte src (n - 2)).toNat * 2 ^ 8 +
    (Buf.byte src (n - 1)).toNat)

/-- `ZLIB.COMPRESS` (R286). -/
def execZlibCompress (s : State) : Host.Outcome State Fault Refusal :=
  let r := s.operands
  runCommand .zlibCompress s (compressChecks r) fun _ => do
    let (w, bits, nb, a) ← zlibEncode r (s.mem.region r.srcAddr.toNat r.srcLen.toNat) r.srcLen.toNat r.writer
    .ok ({ s.regs with
        result0 := storeCount bits
        result1 := word nb
        adler := a
        dstLen := word (2 + ceilDiv bits 8 + 4) },
      s.mem.writeBytes r.dstAddr.toNat w.bytes)

/-- `ZLIB.DECOMPRESS` (R287). -/
def execZlibDecompress (ignoreAdler : Bool) (s : State) : Host.Outcome State Fault Refusal :=
  let r := s.operands
  let n := r.srcLen.toNat
  runCommand (.zlibDecompress ignoreAdler) s (.ok ()) fun _ => do
    failIf (n < 6) .trunc
    let src := s.mem.region r.srcAddr.toNat n
    zlibHeaderChecks (Buf.byte src 0).toNat (Buf.byte src 1).toNat
    let body := Reader.mk (s.mem.region (r.srcAddr.toNat + 2) (n - 6)) (8 * (n - 6)) 0
    let (_, rd, o) ← decodeStream body ⟨[], r.dstCap.toNat⟩
    let t := zlibTrailer src n
    let a := adler32 o.bytes
    failIf (ignoreAdler = false ∧ a ≠ t) .adlerMismatch
    .ok ({ s.regs with
        result0 := t
        result1 := storeCount rd.bp
        adler := a
        dstLen := word o.rev.length },
      s.mem.writeBytes r.dstAddr.toNat o.bytes)

/-- `ADLER32` (R288). -/
def execAdler32 (s : State) : Host.Outcome State Fault Refusal :=
  let r := s.operands
  runCommand .adler32 s (.ok ()) fun _ =>
    .ok ({ s.regs with adler := adlerUpdate r.adler (s.mem.bytes r.srcAddr.toNat r.srcLen.toNat) }, s.mem)

end Sys2Proof.Machine
end

