-- ==== Sys2Proof/Machine/Dispatch.lean ====
section
/-! DEFINITION. One arm per command: its meaning. -/

namespace Sys2Proof.Machine

def exec (i : Instr) (s : State) : Host.Outcome State Fault Refusal :=
  match i with
  | .nop => Sys2Proof.Machine.execNop s
  | .bitsPut reverse => Sys2Proof.Machine.execBitsPut reverse s
  | .bitsGet reverse => Sys2Proof.Machine.execBitsGet reverse s
  | .lz77Tokenize => Sys2Proof.Machine.execLz77Tokenize s
  | .huffBuildFreq => Sys2Proof.Machine.execHuffBuildFreq s
  | .huffBuildLengths => Sys2Proof.Machine.execHuffBuildLengths s
  | .huffEncodeSym => Sys2Proof.Machine.execHuffEncodeSym s
  | .huffDecodeSym => Sys2Proof.Machine.execHuffDecodeSym s
  | .treeWrite => Sys2Proof.Machine.execTreeWrite s
  | .treeRead => Sys2Proof.Machine.execTreeRead s
  | .deflateRaw => Sys2Proof.Machine.execDeflateRaw s
  | .inflateRaw => Sys2Proof.Machine.execInflateRaw s
  | .zlibCompress => Sys2Proof.Machine.execZlibCompress s
  | .zlibDecompress ignoreAdler => Sys2Proof.Machine.execZlibDecompress ignoreAdler s
  | .adler32 => Sys2Proof.Machine.execAdler32 s
  | .adam7Geometry => Sys2Proof.Machine.execAdam7Geometry s
  | .adam7Interlace => Sys2Proof.Machine.execAdam7Interlace s
  | .adam7Deinterlace => Sys2Proof.Machine.execAdam7Deinterlace s

end Sys2Proof.Machine
end

