-- ==== Sys2Proof/Machine/Engine.lean ====
section
/-! DEFINITION. The engine's own transition (40_control.md R142), and one event of the agenda. -/

namespace Sys2Proof.Machine

/-- The engine's transition (R142): it runs the accepted command, or completes an illegal word with `ERR_BAD_OP` (R146). An idle
engine changes nothing (60_exceptions.md R334). -/
def engineTurn (s : State) : Host.Outcome State Fault Refusal :=
  if s.status.busy then
    match decode s.operands.cmd with
    | .ok i => exec i s
    | .error _ => illegalWord s
  else .next s

/-- One event. -/
def perform (e : Event) (s : State) : Host.Outcome State Fault Refusal :=
  match e with
  | .regRead addr size => hostRead s addr size
  | .regWrite addr size v => hostWrite s addr size v
  | .memRead a => memRead s a
  | .memWrite a b => memWrite s a b
  | .complete => engineTurn s
  | .reset => resetEvent s

/-- The events to come are those after the first. -/
def State.popEvent (s : State) : State := { s with agenda := s.agenda.tail }

/-- The state in which the word `w` has just been accepted and the engine's transition comes next. -/
def State.withCommand (s : State) (w : Word) : State :=
  { s.accept w with agenda := match s.agenda with
      | [] => []
      | events => .complete :: events }

end Sys2Proof.Machine
end

