-- ==== Sys2Proof/Machine/Step.lean ====
section
/-! DEFINITION. One step: the next event of the agenda, or, when no event is to come, the engine's transition (40_control.md R142,
70_reset_and_hazards.md R372). -/

namespace Sys2Proof.Machine

/-- One step of the machine. -/
def step (s : State) : Host.Outcome State Fault Refusal :=
  match s.agenda with
  | [] => engineTurn s
  | e :: _ => perform e s.popEvent

/-- `s` with the command word `w` accepted and its execution next (log 8): the engine fetches no instruction from memory, its
word is the value latched from `CMD` (10_state.md R26, 20_memory.md R84). -/
def State.withFetchWord (s : State) (nbits w : Nat) : State := s.withCommand (word (w % 2 ^ nbits))

end Sys2Proof.Machine
end

