-- ==== Sys2Proof/Safety.lean ====
section
/-! DEFINITION. What counts as a safe state and a safe command, in the terms the statements use: the invariant of the machine, the
conditions under which a command's pre-checks pass (20_memory.md R63 to R65), bits of data memory, and what a token stream means
(42_match_finder.md R195). -/

namespace Sys2Proof.Machine

/-- The machine's invariant: memory in canonical form, reserved fields 0 (10_state.md R25, R28, R29, R38), the latched copy there
exactly while busy and equal to the bank but for `IRQ_EN` (R42, R49), and the report flags as R24 and 40_control.md R140 say. -/
structure State.Inv (s : State) : Prop where
  memWf : Memory.Wf s.mem
  irqEnReserved : s.regs.irqEn &&& ~~~irqEnMask = 0
  matchReserved : s.regs.matchCfg &&& ~~~matchMask = 0
  modeReserved : s.regs.mode &&& ~~~modeMask = 0
  imgBppReserved : s.regs.imgBpp &&& ~~~imgBppMask = 0
  latchedWhileBusy : s.latched.isSome = s.status.busy
  latchedIsBank : ∀ l, s.latched = some l → { l with irqEn := s.regs.irqEn } = s.regs
  errorHasCode : s.status.error = s.status.errCode.isSome
  busyReport : s.status.busy = true → s.status.done = false ∧ s.status.error = false

/-- The pre-checks of the regions pass (R63 to R65): no used region wraps, the bus takes every byte of every used region, and DST
shares no byte with a region the command reads. -/
structure RegionsOk (i : Instr) (s : State) : Prop where
  noWrap : ∀ r ∈ usedRegions i s.operands, r.len = 0 ∨ r.base + r.len ≤ 2 ^ 32
  busOk : ∀ r ∈ usedRegions i s.operands, ∀ a, r.covers a = true → s.platform.busOk a = true
  disjoint : ∀ d ∈ dstRegion i s.operands, ∀ q ∈ inputRegions i s.operands, ∀ a, ¬ (d.covers a = true ∧ q.covers a = true)

/-- `WINDOW` is a power of two in 1..32768 (10_state.md R27). -/
def WindowLegal (r : Regs) : Prop := ∃ k, k ≤ 15 ∧ r.window.toNat = 2 ^ k

/-- Bit `k` of the buffer at `base`, LSB-first (00_scope.md R15). -/
def memBit (m : Memory) (base k : Nat) : Bool := (m.read (base + k / 8)).getLsbD (k % 8)

/-- Image bit `k` of the buffer at `base`, MSB-first (46_adam7.md R306). -/
def memImageBit (m : Memory) (base k : Nat) : Bool := (m.read (base + k / 8)).getLsbD (7 - k % 8)

/-- A byte list as a buffer: byte `k` of the buffer is entry `k` of the list. -/
def bufOfBytes (l : List Byte) : Buf := l.zipIdx.foldl (fun t p => Tab.set t p.2 (some p.1)) .nil

/-- A reader over a bit list packed into bytes, at its first bit. -/
def readerOfBits (l : List Bool) : Reader := ⟨bufOfBytes (packBits l), l.length, 0⟩

/-- `length` bytes appended, each a copy of the byte `dist` back (R195). -/
def replayCopy (dist : Nat) : Nat → List Byte → List Byte
  | 0, out => out
  | n + 1, out => replayCopy dist n (out ++ [out.getD (out.length - dist) 0])

/-- The replay of a token stream (R195) over the output so far, `none` unless every entry is one of 30_encoding.md R113 and every
distance is at most `maxDist` and reaches no further back than the output. -/
def replayTokens (maxDist : Nat) : List Nat → List Byte → Option (List Byte)
  | [], out => some out
  | c :: rest, out =>
    if c < 256 then replayTokens maxDist rest (out ++ [byte c])
    else
      match rest with
      | el :: d :: ed :: rest =>
        let dist := distBase.getD d 0 + ed
        if 257 ≤ c ∧ c ≤ 285 ∧ d ≤ 29 ∧ el < 2 ^ lenExtra.getD (c - 257) 0 ∧ ed < 2 ^ distExtra.getD d 0 ∧
            dist ≤ maxDist ∧ dist ≤ out.length then
          replayTokens maxDist rest (replayCopy dist (lenBase.getD (c - 257) 0 + el) out)
        else none
      | _ => none

/-- An error that only a pre-check raises (40_control.md R147 steps 1 to 6). -/
def ErrCode.isPreCheck : ErrCode → Bool
  | .badOp | .badArg | .imgTooLarge | .windowRange | .windowPow2 | .cfgBtype | .addr | .bus | .overlap => true
  | .dstFull | .zlibFcheck | .zlibMethod | .zlibFdict | .btype | .nlen | .codeLengths | .repeatNoPrev | .repeatOverrun
  | .noEobLength | .invalidCode | .distTooFar | .adlerMismatch | .eobZero | .alphabetTooLarge | .trunc | .noEob => false

/-- The registers each command's rule lists under *Writes* (40_control.md R148, 41_bitstream.md R169 and R170, 42_match_finder.md
R192, 43_huffman.md R221 to R226, 44_deflate.md R264 and R265, 45_zlib_adler.md R286 to R288, 46_adam7.md R307 to R309), written
out register by register. -/
def mayWrite (i : Instr) (reg : Reg) : Bool :=
  match i with
  | .nop => false
  | .bitsPut _ => [.dstBitpos, .dstLen].contains reg
  | .bitsGet _ => [.result0, .srcBitpos].contains reg
  | .lz77Tokenize | .huffBuildFreq => [.result0, .dstLen].contains reg
  | .huffBuildLengths | .deflateRaw | .inflateRaw => [.result0, .result1, .dstLen].contains reg
  | .huffEncodeSym | .treeWrite => [.dstBitpos, .dstLen, .result0, .result1].contains reg
  | .huffDecodeSym => [.result0, .result1, .srcBitpos].contains reg
  | .treeRead => [.result0, .result1, .srcBitpos, .dstLen].contains reg
  | .zlibCompress | .zlibDecompress _ => [.result0, .result1, .adler, .dstLen].contains reg
  | .adler32 => [.adler].contains reg
  | .adam7Geometry => isAdam7Bank reg || [.result0, .result1].contains reg
  | .adam7Interlace | .adam7Deinterlace => isAdam7Bank reg || [.dstLen].contains reg
where
  /-- A register of the Adam7 bank (10_state.md R40). -/
  isAdam7Bank : Reg → Bool
    | .passW _ | .passH _ | .fstart _ | .pstart _ | .ustart _ => true
    | _ => false

/-- The commands with no DST region (30_encoding.md R92). -/
def hasNoDst (i : Instr) : Bool :=
  match i with
  | .nop | .bitsGet _ | .huffDecodeSym | .adler32 | .adam7Geometry => true
  | _ => false

/-- The value of each register right after reset (10_state.md R20). -/
def resetValue : Reg → Word
  | .id => 0x44434531
  | .version => 0x00000007
  | .window => 0x00000800
  | .matchCfg => 0x00800003
  | .mode => 0x0000000E
  | .adler => 0x00000001
  | _ => 0x00000000

/-- The offset of each register in the bank, as R20 lists it. -/
def offsetOf : Reg → Nat
  | .passW p => 0x080 + 4 * p.val
  | .passH p => 0x0A0 + 4 * p.val
  | .fstart i => 0x0C0 + 4 * i.val
  | .pstart i => 0x0E0 + 4 * i.val
  | .ustart i => 0x100 + 4 * i.val
  | reg => 4 * bankNames.idxOf reg

/-- The reserved aligned offsets of the bank (R20): 0x068–0x07C, 0x09C, 0x0BC, 0x120–0x1FC. -/
def reservedOffset (off : Nat) : Prop :=
  (0x068 ≤ off ∧ off ≤ 0x07C) ∨ off = 0x09C ∨ off = 0x0BC ∨ (0x120 ≤ off ∧ off ≤ 0x1FC)

/-- The read/write registers of R20 other than `CMD` and `IRQ_EN`: the settings and operands a host loads while idle. -/
def settings : List Reg :=
  [.window, .matchCfg, .mode, .srcAddr, .srcLen, .dstAddr, .dstCap, .auxAddr, .arg0, .arg1, .arg2, .adler, .srcBitpos, .dstBitpos,
   .imgW, .imgH, .imgBpp]

/-- The bits of a setting register that a write stores (10_state.md R27 to R38); the other bits are reserved. -/
def storedBits : Reg → Word
  | .matchCfg => 0x01FF01FF
  | .mode => 0x0000000F
  | .imgBpp => 0x0000007F
  | _ => 0xFFFFFFFF

/-- The read-only registers of R20 other than `STATUS`. -/
def isReadOnly : Reg → Bool
  | .id | .version | .dstLen | .result0 | .result1 | .errInfo | .passW _ | .passH _ | .fstart _ | .pstart _ | .ustart _ => true
  | _ => false

/-- An event that no state refuses: an access inside the bank, a read inside data memory, a completion or a reset. -/
def Event.neverRefused (s : State) : Event → Prop
  | .regRead addr _ | .regWrite addr _ _ => (s.bankOffset addr).isSome = true
  | .memRead a => a < 2 ^ 32
  | .memWrite _ _ => False
  | .complete | .reset => True

/-- The bytes of memory at `base, base + 1, …`. -/
def bytesAt (m : Memory) (base len : Nat) : List Byte := (List.range len).map fun k => m.read (base + k)

/-- The bits `bits` stand in the buffer at `base` from bit offset `bp` on, LSB-first. -/
def bitsStandAt (m : Memory) (base bp : Nat) (bits : List Bool) : Prop :=
  ∀ k, (h : k < bits.length) → memBit m base (bp + k) = bits[k]

/-- The loop over lengths of 30_encoding.md R117 as the rule writes it: `next_code[0 .. maxbits]` before any symbol is numbered. -/
def nextCodes (len : List Nat) (maxbits : Nat) : List Nat :=
  ((List.range maxbits).foldl (fun st b => ((st.1 + blCount len b) * 2, st.2 ++ [(st.1 + blCount len b) * 2])) (0, [0])).2

/-- The loop over symbols of R117 as the rule writes it: each used symbol takes `next_code` of its length, which then goes up by
one; 0 for a symbol without a code. -/
def assignCodes : List Nat → List Nat → List Nat
  | _, [] => []
  | next, l :: ls =>
    if l = 0 then 0 :: assignCodes next ls else next.getD l 0 :: assignCodes (next.set l (next.getD l 0 + 1)) ls

/-- The canonical code of a length table (R117). -/
def canonicalCodes (len : List Nat) : List Nat := assignCodes (nextCodes len (maxLength len)) len

/-- Kraft's sum of a length table, in units of `2^-m` (43_huffman.md R211). -/
def kraftSum (len : List Nat) (m : Nat) : Nat := (len.map fun l => if l = 0 then 0 else 2 ^ (m - l)).sum

/-- Pass `p + 1` of the pass table (46_adam7.md R300). -/
def passOf (p : Fin 7) : Pass := adam7Passes.getD p.val ⟨0, 0, 1, 1⟩

/-- The size of pass `p + 1` (R301). -/
def passSize (w h : Nat) (p : Fin 7) : Nat × Nat := (passOf p).size w h

/-- `FSTART[7]` (R302): the size of the filtered layout. -/
def filteredTotal (w h b : Nat) : Nat := (adam7Passes.map fun p => filteredBytes b (p.size w h)).sum

/-- The image bit, in the full image, of bit `k` of pixel `(i, j)` of pass `p + 1` (R303, R305). -/
def fullBit (w b : Nat) (p : Fin 7) (i j k : Nat) : Nat :=
  (((passOf p).sy + j * (passOf p).dy) * w + ((passOf p).sx + i * (passOf p).dx)) * b + k

/-- The image bit, in the reduced images, of bit `k` of pixel `(i, j)` of pass `p + 1` (R304). -/
def reducedBit (w h b : Nat) (p : Fin 7) (i j k : Nat) : Nat :=
  8 * (geometry w h b).ustart.getD p.val 0 + (j * (passSize w h p).1 + i) * b + k

/-- Some pixel covers this image bit of the reduced images (R304, R306). -/
def reducedBitCovered (w h b n : Nat) : Prop :=
  ∃ p i j k, i < (passSize w h p).1 ∧ j < (passSize w h p).2 ∧ k < b ∧ n = reducedBit w h b p i j k

/-- Every check of the three Adam7 commands before the region checks passes (R312). -/
def Adam7Legal (r : Regs) : Prop := r.bpp ∈ legalBpp ∧ filteredTotal r.imgW.toNat r.imgH.toNat r.bpp < 2 ^ 32

/-! ## Checks and regions, command by command, as the rules list them -/

/-- Every check of the command's rule that comes before the region checks passes (40_control.md R147 steps 2 and 3). -/
def ArgsOk (i : Instr) (r : Regs) : Prop :=
  match i with
  | .nop | .treeRead | .inflateRaw | .zlibDecompress _ | .adler32 => True
  | .bitsPut _ | .bitsGet _ => r.arg1.toNat ≤ 32
  | .lz77Tokenize => WindowLegal r
  | .huffBuildFreq =>
    2 ≤ r.arg1.toNat ∧ r.arg1.toNat ≤ 288 ∧ 1 ≤ r.arg2.toNat ∧ r.arg2.toNat ≤ 15 ∧ r.arg0.toNat ≤ r.arg1.toNat
  | .huffBuildLengths => 1 ≤ r.srcLen.toNat ∧ r.srcLen.toNat ≤ 288 ∧ 1 ≤ r.arg2.toNat ∧ r.arg2.toNat ≤ 15
  | .huffEncodeSym =>
    1 ≤ r.arg1.toNat ∧ r.arg1.toNat ≤ 288 ∧ 1 ≤ r.arg2.toNat ∧ r.arg2.toNat ≤ 15 ∧ r.arg0.toNat < r.arg1.toNat
  | .huffDecodeSym => 1 ≤ r.arg1.toNat ∧ r.arg1.toNat ≤ 288 ∧ 1 ≤ r.arg2.toNat ∧ r.arg2.toNat ≤ 15
  | .treeWrite => 257 ≤ r.arg0.toNat ∧ r.arg0.toNat ≤ 288 ∧ 1 ≤ r.arg1.toNat ∧ r.arg1.toNat ≤ 32
  | .deflateRaw | .zlibCompress => WindowLegal r ∧ r.mode.toNat % 4 ≠ 3
  | .adam7Geometry | .adam7Interlace | .adam7Deinterlace => Adam7Legal r

/-- The regions the command reads only, SRC then AUX, written out from the map of 30_encoding.md R92. -/
def ruleInputs (i : Instr) (r : Regs) : List Region :=
  match i with
  | .nop | .bitsPut _ | .adam7Geometry => []
  | .bitsGet _ | .lz77Tokenize | .huffBuildFreq | .huffBuildLengths | .treeRead | .deflateRaw | .inflateRaw | .zlibCompress
  | .zlibDecompress _ | .adler32 | .adam7Interlace | .adam7Deinterlace => [⟨r.srcAddr.toNat, r.srcLen.toNat⟩]
  | .huffEncodeSym => [⟨r.auxAddr.toNat, r.arg1.toNat⟩]
  | .huffDecodeSym => [⟨r.srcAddr.toNat, r.srcLen.toNat⟩, ⟨r.auxAddr.toNat, r.arg1.toNat⟩]
  | .treeWrite => [⟨r.auxAddr.toNat, r.arg0.toNat + r.arg1.toNat⟩]

/-- The region the command writes, when it has one, from the map of R92. -/
def ruleDst (i : Instr) (r : Regs) : List Region := if hasNoDst i then [] else [⟨r.dstAddr.toNat, r.dstCap.toNat⟩]

/-! ## What any tree builder must do -/

/-- The requirements of 43_huffman.md R217 on a value of the parameter `TREE_BUILDER`. -/
def LegalBuilder (build : TreeBuilder) : Prop :=
  ∀ (freq : List Nat) (m : Nat), 2 ≤ freq.length → 1 ≤ m → m ≤ 15 →
    (∀ len, build freq m = .ok len → len.length = freq.length ∧ (∀ l ∈ len, l ≤ m) ∧ kraftSum len m = 2 ^ m ∧
      2 ≤ (len.filter (· ≠ 0)).length ∧ ∀ k < freq.length, freq.getD k 0 ≠ 0 → len.getD k 0 ≠ 0) ∧
    ∀ e, build freq m = .error e → e = .alphabetTooLarge ∧ 2 ^ m < (freq.filter (· ≠ 0)).length

/-! ## Malformed streams -/

/-- The bits of a symbol's canonical code (30_encoding.md R97, R117). -/
def codeBits (len : List Nat) (s : Nat) : List Bool := msbBits ((canonicalCodes len).getD s 0) (len.getD s 0)

/-- No symbol's code is a prefix of these bits. -/
def NoCode (len : List Nat) (bits : List Bool) : Prop := ∀ s, len.getD s 0 ≠ 0 → ¬ codeBits len s <+: bits

/-- The first fields of a dynamic header (43_huffman.md R220): the two counts, and the 3-bit fields of the code-length code, their
number in front of them. -/
def headerFields (hlit hdist : Nat) (fields : List Nat) : List Bool :=
  lsbBits (hlit - 257) 5 ++ lsbBits (hdist - 1) 5 ++ lsbBits (fields.length - 4) 4 ++ fields.flatMap fun x => lsbBits x 3

/-- The counts and the fields are ones a header can hold (30_encoding.md R104). -/
def FieldsLegal (hlit hdist : Nat) (fields : List Nat) : Prop :=
  257 ≤ hlit ∧ hlit ≤ 288 ∧ 1 ≤ hdist ∧ hdist ≤ 32 ∧ 4 ≤ fields.length ∧ fields.length ≤ 19 ∧ ∀ x ∈ fields, x < 8

/-- The code-length code that the fields give: symbol `CL_ORDER[i]` has the length of field `i`, the others 0 (R105). -/
def clLengths (fields : List Nat) : List Nat := (List.range 19).map fun c => fields.getD (clOrder.idxOf c) 0

/-- The bits of code-length symbols with their extra values (R106). -/
def pairBits (cl : List Nat) (ps : List (Nat × Nat)) : List Bool :=
  ps.flatMap fun p => codeBits cl p.1 ++ lsbBits p.2 (clExtraBits p.1)

/-- Every symbol has a code, every extra value fits its field, and the first symbol is no repeat of a previous length. -/
def PairsLegal (cl : List Nat) (ps : List (Nat × Nat)) : Prop :=
  (∀ p ∈ ps, cl.getD p.1 0 ≠ 0 ∧ p.2 < 2 ^ clExtraBits p.1) ∧ ∀ p ∈ ps.head?, p.1 ≠ 16

/-- The code lengths one code-length symbol adds (R106). -/
def expandPair (lens : List Nat) (p : Nat × Nat) : List Nat :=
  lens ++
    (if p.1 ≤ 15 then [p.1] else if p.1 = 16 then List.replicate (3 + p.2) (lens.getLastD 0)
    else if p.1 = 17 then List.replicate (3 + p.2) 0 else List.replicate (11 + p.2) 0)

/-- The code lengths that code-length symbols give (R106). -/
def expandPairs (ps : List (Nat × Nat)) : List Nat := ps.foldl expandPair []

/-- `HeaderError ends bits e`: reading a dynamic header (43_huffman.md R220) off `bits` fails with `e`. Where `ends` is true the input
ends with these bits; otherwise any bits may follow. -/
inductive HeaderError : Bool → List Bool → ErrCode → Prop
  /-- The input ends inside the fixed-width fields. -/
  | fieldCut {hlit hdist : Nat} {fields : List Nat} {bits : List Bool} (legal : FieldsLegal hlit hdist fields)
      (cut : bits <+: headerFields hlit hdist fields) (short : bits.length < (headerFields hlit hdist fields).length) :
      HeaderError true bits .trunc
  /-- The code-length code is not complete. -/
  | clCode {ends : Bool} {hlit hdist : Nat} {fields : List Nat} (legal : FieldsLegal hlit hdist fields)
      (bad : kraftSum (clLengths fields) 7 ≠ 2 ^ 7) : HeaderError ends (headerFields hlit hdist fields) .codeLengths
  /-- Symbol 16 comes first. -/
  | noPrevious {ends : Bool} {hlit hdist : Nat} {fields : List Nat} (legal : FieldsLegal hlit hdist fields)
      (ok : kraftSum (clLengths fields) 7 = 2 ^ 7) (used : (clLengths fields).getD 16 0 ≠ 0) :
      HeaderError ends (headerFields hlit hdist fields ++ codeBits (clLengths fields) 16) .repeatNoPrev
  /-- A repeat runs past the last length. -/
  | overrun {ends : Bool} {hlit hdist : Nat} {fields : List Nat} {ps : List (Nat × Nat)} {p : Nat × Nat}
      (legal : FieldsLegal hlit hdist fields) (ok : kraftSum (clLengths fields) 7 = 2 ^ 7)
      (pairs : PairsLegal (clLengths fields) (ps ++ [p])) (before : (expandPairs ps).length < hlit + hdist)
      (after : hlit + hdist < (expandPairs (ps ++ [p])).length) :
      HeaderError ends (headerFields hlit hdist fields ++ pairBits (clLengths fields) (ps ++ [p])) .repeatOverrun
  /-- The input ends inside a code-length symbol's code. -/
  | codeCut {hlit hdist : Nat} {fields : List Nat} {ps : List (Nat × Nat)} {rest : List Bool}
      (legal : FieldsLegal hlit hdist fields) (ok : kraftSum (clLengths fields) 7 = 2 ^ 7)
      (pairs : PairsLegal (clLengths fields) ps) (before : (expandPairs ps).length < hlit + hdist)
      (none : NoCode (clLengths fields) rest) :
      HeaderError true (headerFields hlit hdist fields ++ pairBits (clLengths fields) ps ++ rest) .noEob
  /-- The input ends inside a repeat's extra bits. -/
  | extraCut {hlit hdist : Nat} {fields : List Nat} {ps : List (Nat × Nat)} {p : Nat × Nat} {rest : List Bool}
      (legal : FieldsLegal hlit hdist fields) (ok : kraftSum (clLengths fields) 7 = 2 ^ 7)
      (pairs : PairsLegal (clLengths fields) (ps ++ [p])) (before : (expandPairs ps).length < hlit + hdist)
      (short : rest.length < clExtraBits p.1) :
      HeaderError true
        (headerFields hlit hdist fields ++ pairBits (clLengths fields) ps ++ codeBits (clLengths fields) p.1 ++ rest) .trunc
  /-- Symbol 256 has length 0. -/
  | noEobLength {ends : Bool} {hlit hdist : Nat} {fields : List Nat} {ps : List (Nat × Nat)}
      (legal : FieldsLegal hlit hdist fields) (ok : kraftSum (clLengths fields) 7 = 2 ^ 7)
      (pairs : PairsLegal (clLengths fields) ps) (all : (expandPairs ps).length = hlit + hdist)
      (eob : (expandPairs ps).getD 256 0 = 0) :
      HeaderError ends (headerFields hlit hdist fields ++ pairBits (clLengths fields) ps) .noEobLength
  /-- The literal/length code or the distance code is not complete. -/
  | dataCode {ends : Bool} {hlit hdist : Nat} {fields : List Nat} {ps : List (Nat × Nat)}
      (legal : FieldsLegal hlit hdist fields) (ok : kraftSum (clLengths fields) 7 = 2 ^ 7)
      (pairs : PairsLegal (clLengths fields) ps) (all : (expandPairs ps).length = hlit + hdist)
      (eob : (expandPairs ps).getD 256 0 ≠ 0)
      (bad : kraftSum ((expandPairs ps).take hlit) 15 ≠ 2 ^ 15 ∨ kraftSum ((expandPairs ps).drop hlit) 15 ≠ 2 ^ 15) :
      HeaderError ends (headerFields hlit hdist fields ++ pairBits (clLengths fields) ps) .codeLengths

/-! ## Well-formed streams -/

/-- `HeaderBits bits ll dl`: `bits` are a dynamic header that passes every check of 43_huffman.md R220, whichever run lengths it
chooses, and `ll` and `dl` the tables it transmits. -/
inductive HeaderBits : List Bool → List Nat → List Nat → Prop
  | mk {hlit hdist : Nat} {fields : List Nat} {ps : List (Nat × Nat)} (legal : FieldsLegal hlit hdist fields)
      (ok : kraftSum (clLengths fields) 7 = 2 ^ 7) (pairs : PairsLegal (clLengths fields) ps)
      (all : (expandPairs ps).length = hlit + hdist) (eob : (expandPairs ps).getD 256 0 ≠ 0)
      (llOk : kraftSum ((expandPairs ps).take hlit) 15 = 2 ^ 15) (dlOk : kraftSum ((expandPairs ps).drop hlit) 15 = 2 ^ 15) :
      HeaderBits (headerFields hlit hdist fields ++ pairBits (clLengths fields) ps) ((expandPairs ps).take hlit)
        ((expandPairs ps).drop hlit)

/-- `BlockStart final bits ll dl`: a Huffman block's header bits, with the two codes of its data (30_encoding.md R99, R101, R103,
R104). -/
inductive BlockStart : Bool → List Bool → List Nat → List Nat → Prop
  | fixed (final : Bool) : BlockStart final [final, true, false] fixedLL fixedD
  | dynamic (final : Bool) {bits : List Bool} {ll dl : List Nat} (header : HeaderBits bits ll dl) :
      BlockStart final ([final, false, true] ++ bits) ll dl

/-- Every symbol of the tokens has a code in these tables. -/
def TokensCoded (ll dl : List Nat) (toks : List Nat) : Prop :=
  (∀ c ∈ (tokenSymbols toks).1, ll.getD c 0 ≠ 0) ∧ ∀ d ∈ (tokenSymbols toks).2, dl.getD d 0 ≠ 0

/-- `BlockBits final pos out bits out'`: `bits`, at bit offset `pos` of a stream, are a whole block (44_deflate.md R257 to R262), and
it takes the output from `out` to `out'`. The padding of a stored block may hold any bits (30_encoding.md R115). -/
inductive BlockBits (final : Bool) (pos : Nat) (out : List Byte) : List Bool → List Byte → Prop
  | stored {pad : List Bool} {data : List Byte} (padded : pad.length = (8 - (pos + 3) % 8) % 8) (size : data.length < 65536) :
      BlockBits final pos out
        ([final, false, false] ++ pad ++ lsbBits data.length 16 ++ lsbBits (65535 - data.length) 16 ++
          data.flatMap fun b => lsbBits b.toNat 8)
        (out ++ data)
  | huffman {start : List Bool} {ll dl toks : List Nat} {out' : List Byte} (begins : BlockStart final start ll dl)
      (coded : TokensCoded ll dl toks) (replay : replayTokens 32768 toks out = some out') :
      BlockBits final pos out (start ++ tokenBits (codeTable ll) (codeTable dl) toks ++ codeBits ll 256) out'

/-- `StreamBits pos out bits nb out'`: `bits`, at bit offset `pos`, are `nb` whole blocks, the last one and no other final, and they
take the output from `out` to `out'` (R257). -/
inductive StreamBits : Nat → List Byte → List Bool → Nat → List Byte → Prop
  | last {pos : Nat} {out out' : List Byte} {bits : List Bool} (block : BlockBits true pos out bits out') :
      StreamBits pos out bits 1 out'
  | more {pos nb : Nat} {out mid out' : List Byte} {bits rest : List Bool} (block : BlockBits false pos out bits mid)
      (after : StreamBits (pos + bits.length) mid rest nb out') : StreamBits pos out (bits ++ rest) (nb + 1) out'

/-! ## Malformed blocks -/

/-- `BlockData bits ll dl out`: a Huffman block's header and whole tokens of its data, which so far give the output
`out`; its code tables. -/
def BlockData (bits : List Bool) (ll dl : List Nat) (out : List Byte) : Prop :=
  ∃ final start toks, BlockStart final start ll dl ∧ bits = start ++ tokenBits (codeTable ll) (codeTable dl) toks ∧
    TokensCoded ll dl toks ∧ replayTokens 32768 toks [] = some out

/-- The bits of a length code with its extra value (30_encoding.md R107). -/
def lengthBits (ll : List Nat) (c el : Nat) : List Bool := codeBits ll c ++ lsbBits el (lenExtra.getD (c - 257) 0)

/-- A length code (R109) with a code and an extra value that fits. -/
def LengthLegal (ll : List Nat) (c el : Nat) : Prop :=
  257 ≤ c ∧ c ≤ 285 ∧ ll.getD c 0 ≠ 0 ∧ el < 2 ^ lenExtra.getD (c - 257) 0

/-- A distance code (R110) with a code and an extra value that fits. -/
def DistLegal (dl : List Nat) (d ed : Nat) : Prop := d ≤ 29 ∧ dl.getD d 0 ≠ 0 ∧ ed < 2 ^ distExtra.getD d 0

/-- `BlockError cap ends bits e`: decoding a Huffman block off `bits` into `cap` bytes fails with `e` (44_deflate.md R257, R260 to
R263). Where `ends` is true the input ends with these bits; otherwise any bits may follow. -/
inductive BlockError (cap : Nat) : Bool → List Bool → ErrCode → Prop
  /-- The dynamic header fails. -/
  | header {ends : Bool} {bits : List Bool} {e : ErrCode} (final : Bool) (h : HeaderError ends bits e) :
      BlockError cap ends ([final, false, true] ++ bits) e
  /-- A literal finds the output full. -/
  | literalFull {ends : Bool} {bits : List Bool} {ll dl : List Nat} {out : List Byte} {c : Nat} (data : BlockData bits ll dl out)
      (full : out.length = cap) (literal : c ≤ 255) (used : ll.getD c 0 ≠ 0) :
      BlockError cap ends (bits ++ codeBits ll c) .dstFull
  /-- Symbol 286 or 287. -/
  | symbol {ends : Bool} {bits : List Bool} {ll dl : List Nat} {out : List Byte} {c : Nat} (data : BlockData bits ll dl out)
      (fits : out.length ≤ cap) (bad : c = 286 ∨ c = 287) (used : ll.getD c 0 ≠ 0) :
      BlockError cap ends (bits ++ codeBits ll c) .invalidCode
  /-- Distance symbol 30 or 31. -/
  | distSymbol {ends : Bool} {bits : List Bool} {ll dl : List Nat} {out : List Byte} {c el d : Nat}
      (data : BlockData bits ll dl out) (fits : out.length ≤ cap) (len : LengthLegal ll c el) (bad : d = 30 ∨ d = 31)
      (used : dl.getD d 0 ≠ 0) : BlockError cap ends (bits ++ lengthBits ll c el ++ codeBits dl d) .invalidCode
  /-- Distance bits that are no code. -/
  | distPattern {ends : Bool} {bits rest : List Bool} {ll dl : List Nat} {out : List Byte} {c el : Nat}
      (data : BlockData bits ll dl out) (fits : out.length ≤ cap) (len : LengthLegal ll c el) (none : NoCode dl rest)
      (whole : ∀ l ∈ dl, l ≤ rest.length) : BlockError cap ends (bits ++ lengthBits ll c el ++ rest) .invalidCode
  /-- A distance past the start of the output. -/
  | tooFar {ends : Bool} {bits : List Bool} {ll dl : List Nat} {out : List Byte} {c el d ed : Nat}
      (data : BlockData bits ll dl out) (fits : out.length ≤ cap) (len : LengthLegal ll c el) (dist : DistLegal dl d ed)
      (far : out.length < distBase.getD d 0 + ed) :
      BlockError cap ends (bits ++ lengthBits ll c el ++ codeBits dl d ++ lsbBits ed (distExtra.getD d 0)) .distTooFar
  /-- A copy finds the output full. -/
  | copyFull {ends : Bool} {bits : List Bool} {ll dl : List Nat} {out : List Byte} {c el d ed : Nat}
      (data : BlockData bits ll dl out) (fits : out.length ≤ cap) (len : LengthLegal ll c el) (dist : DistLegal dl d ed)
      (near : distBase.getD d 0 + ed ≤ out.length) (full : cap < out.length + (lenBase.getD (c - 257) 0 + el)) :
      BlockError cap ends (bits ++ lengthBits ll c el ++ codeBits dl d ++ lsbBits ed (distExtra.getD d 0)) .dstFull
  /-- The input ends inside, or before, a literal/length code. -/
  | codeCut {bits rest : List Bool} {ll dl : List Nat} {out : List Byte} (data : BlockData bits ll dl out)
      (fits : out.length ≤ cap) (none : NoCode ll rest) :
      BlockError cap true (bits ++ rest) .noEob
  /-- The input ends inside a length's extra bits. -/
  | lengthCut {bits rest : List Bool} {ll dl : List Nat} {out : List Byte} {c el : Nat} (data : BlockData bits ll dl out)
      (fits : out.length ≤ cap) (len : LengthLegal ll c el) (short : rest.length < lenExtra.getD (c - 257) 0) :
      BlockError cap true (bits ++ codeBits ll c ++ rest) .trunc
  /-- The input ends inside a distance code. -/
  | distCut {bits rest : List Bool} {ll dl : List Nat} {out : List Byte} {c el : Nat} (data : BlockData bits ll dl out)
      (fits : out.length ≤ cap) (len : LengthLegal ll c el) (none : NoCode dl rest) (short : ∃ l ∈ dl, rest.length < l) :
      BlockError cap true (bits ++ lengthBits ll c el ++ rest) .noEob
  /-- The input ends inside a distance's extra bits. -/
  | distExtraCut {bits rest : List Bool} {ll dl : List Nat} {out : List Byte} {c el d ed : Nat} (data : BlockData bits ll dl out)
      (fits : out.length ≤ cap) (len : LengthLegal ll c el) (dist : DistLegal dl d ed)
      (short : rest.length < distExtra.getD d 0) :
      BlockError cap true (bits ++ lengthBits ll c el ++ codeBits dl d ++ rest) .trunc

end Sys2Proof.Machine
end

