-- ==== Sys2Proof/Certificates/Slice0/Obligations.lean ====
section
/-! DEFINITION. The statements for the provers. In each, `s.operands` are the registers a command executes on (40_control.md R141),
`s.succeed r m` is the successful completion that leaves the bank `r` with `ERR_INFO` 0 and memory `m` (R143), and `s.fail e ws dst`
is the failing completion with error code `e` that leaves the registers `ws` and the region `dst` as free values (R144). An equation
`exec i s = .next (s.succeed { s.regs with … } m)` therefore also says that every register it does not name keeps its value. -/

open Sys2Proof Sys2Proof.Machine

/-! ## Encoding -/

/-- 30_encoding.md R92 and the *Encoding* line of each command's rule: every command word, written out. -/
def Obligations.CommandWordsDecode : Prop :=
  decode 0x00000000 = .ok .nop ∧ decode 0x00000010 = .ok (.bitsPut false) ∧ decode 0x00000210 = .ok (.bitsPut true) ∧
  decode 0x00000011 = .ok (.bitsGet false) ∧ decode 0x00000211 = .ok (.bitsGet true) ∧ decode 0x00000020 = .ok .lz77Tokenize ∧
  decode 0x00000030 = .ok .huffBuildFreq ∧ decode 0x00000031 = .ok .huffBuildLengths ∧
  decode 0x00000032 = .ok .huffEncodeSym ∧ decode 0x00000033 = .ok .huffDecodeSym ∧ decode 0x00000034 = .ok .treeWrite ∧
  decode 0x00000035 = .ok .treeRead ∧ decode 0x00000040 = .ok .deflateRaw ∧ decode 0x00000041 = .ok .inflateRaw ∧
  decode 0x00000050 = .ok .zlibCompress ∧ decode 0x00000051 = .ok (.zlibDecompress false) ∧
  decode 0x00000151 = .ok (.zlibDecompress true) ∧ decode 0x00000052 = .ok .adler32 ∧ decode 0x00000060 = .ok .adam7Geometry ∧
  decode 0x00000061 = .ok .adam7Interlace ∧ decode 0x00000062 = .ok .adam7Deinterlace

/-- R90, R92, R93: a word decodes to a command exactly when it is that command's encoding, so decode of encode is the command
again, every word has at most one meaning, and every other word is rejected. -/
def Obligations.DecodeExactlyTheEncodedWords : Prop :=
  ∀ (w : Word) (i : Instr), decode w = .ok i ↔ w = encode i

/-- R93, 40_control.md R146: a word is illegal exactly when a bit of 31:10 is 1, its `OP` is not in the map, or `I` or `R` is 1 with
an opcode that does not allow it; the engine completes an accepted illegal word with `ERR_BAD_OP`, reads and writes no memory and
changes no register but `ERR_INFO`. -/
def Obligations.IllegalWordsCompleteWithBadOp : Prop :=
  ∀ w : Word,
    ((∃ e, decode w = .error e) ↔
      w.toNat / 2 ^ 10 ≠ 0 ∨
      w.toNat % 256 ∉ [0x00, 0x10, 0x11, 0x20, 0x30, 0x31, 0x32, 0x33, 0x34, 0x35, 0x40, 0x41, 0x50, 0x51, 0x52, 0x60, 0x61, 0x62] ∨
      (w.getLsbD 8 = true ∧ w.toNat % 256 ≠ 0x51) ∨
      (w.getLsbD 9 = true ∧ w.toNat % 256 ≠ 0x10 ∧ w.toNat % 256 ≠ 0x11)) ∧
    ∀ (s : State) (e : DecodeError), s.status.busy = true → s.operands.cmd = w → decode w = .error e →
      ∃ t, engineTurn s = .next t ∧ t.status = s.status.failed .badOp ∧ t.mem = s.mem ∧
        (∀ reg, reg ≠ .status → reg ≠ .errInfo → t.readReg reg = s.readReg reg) ∧ t.latched = none

/-- R101, R103: the lengths of the two fixed tables, and the codes the canonical assignment gives them; a five-bit distance pattern
`11110` or `11111` is no code, and decoding it fails after its fifth bit. -/
def Obligations.FixedCodesAreCanonical : Prop :=
  (∀ s : Fin 144, fixedLL.getD s.val 0 = 8 ∧ (canonicalCodes fixedLL).getD s.val 0 = 0x30 + s.val) ∧
  (∀ s : Fin 112, fixedLL.getD (144 + s.val) 0 = 9 ∧ (canonicalCodes fixedLL).getD (144 + s.val) 0 = 0x190 + s.val) ∧
  (∀ s : Fin 24, fixedLL.getD (256 + s.val) 0 = 7 ∧ (canonicalCodes fixedLL).getD (256 + s.val) 0 = s.val) ∧
  (∀ s : Fin 8, fixedLL.getD (280 + s.val) 0 = 8 ∧ (canonicalCodes fixedLL).getD (280 + s.val) 0 = 0xC0 + s.val) ∧
  (∀ s : Fin 30, fixedD.getD s.val 0 = 5 ∧ (canonicalCodes fixedD).getD s.val 0 = s.val) ∧
  fixedLL.length = 288 ∧ fixedD.length = 30 ∧
  (∀ b : Bool, decodeSymbol (.ofLengths fixedD) (readerOfBits [true, true, true, true, b]) = .error .invalidCode) ∧
  decodeSymbol (.ofLengths fixedD) (readerOfBits [true, true, true, true]) = .error .noEob

/-- R117: the code values the commands use are those of the rule's two loops; and the rule's example. -/
def Obligations.CodesFollowTheCanonicalAssignment : Prop :=
  (∀ len : List Nat, codes len = canonicalCodes len) ∧
  codes [3, 3, 3, 3, 3, 2, 4, 4] = [0b010, 0b011, 0b100, 0b101, 0b110, 0b00, 0b1110, 0b1111]

/-! ## The lifecycle and the register bank -/

/-- 40_control.md R142, 60_exceptions.md R334, 70_reset_and_hazards.md R372, and the model's agenda (log 1): with no event to come,
or with the engine's transition as the next event, a step executes the accepted command; an idle engine changes nothing; any other
event is performed. A word placed by `withFetchWord` (log 8) is executed by the very next step. -/
def Obligations.StepRunsTheAcceptedCommand : Prop :=
  (∀ (s : State) (i : Instr), s.status.busy = true → decode s.operands.cmd = .ok i →
    (s.agenda = [] → step s = exec i s) ∧
    ∀ rest, s.agenda = .complete :: rest → step s = exec i { s with agenda := rest }) ∧
  (∀ s : State, s.status.busy = false → s.agenda = [] → step s = .next s) ∧
  (∀ (s : State) (e : Event) (rest : List Event), s.agenda = e :: rest → step s = perform e { s with agenda := rest }) ∧
  ∀ (s : State) (w : Word) (i : Instr), decode w = .ok i → step (s.withFetchWord 32 w.toNat) = exec i (s.accept w)

/-- R140: a write of `CMD` is accepted while idle, with exactly these effects, and is not accepted while busy. -/
def Obligations.CmdWriteIsAcceptedExactlyWhileIdle : Prop :=
  ∀ (s : State) (addr w : Word), s.bankOffset addr = some 0x008 →
    (s.status.busy = false → ∃ t, hostWrite s addr 4 w = .next t ∧
      t.readReg .cmd = w ∧ (∀ reg, reg ≠ .cmd → reg ≠ .status → t.readReg reg = s.readReg reg) ∧
      t.status = ⟨true, false, false, s.status.overrun, none⟩ ∧ t.latched = some t.regs ∧ t.mem = s.mem ∧
      t.irq = (s.status.overrun && s.regs.overrunIe)) ∧
    (s.status.busy = true → ∃ t, hostWrite s addr 4 w = .next t ∧
      t.regs = s.regs ∧ t.latched = s.latched ∧ t.status = { s.status with overrun := true } ∧ t.mem = s.mem)

/-- 10_state.md R27 to R38: while idle, a write of a setting or operand register stores its bits, its reserved bits read 0, and no
other register and no memory changes. `IRQ_EN` (R25) is written so while idle and while busy. -/
def Obligations.SettingWritesStoreTheirBits : Prop :=
  ∀ (s : State) (addr v : Word) (reg : Reg), s.bankOffset addr = some (offsetOf reg) →
    (reg ∈ settings → s.status.busy = false → ∃ t, hostWrite s addr 4 v = .next t ∧ t.readReg reg = v &&& storedBits reg ∧
      (∀ q, q ≠ reg → t.readReg q = s.readReg q) ∧ t.mem = s.mem ∧ t.status = s.status) ∧
    (reg = .irqEn → ∃ t, hostWrite s addr 4 v = .next t ∧ t.readReg .irqEn = v &&& 0x00000003 ∧
      (∀ q, q ≠ .irqEn → t.readReg q = s.readReg q) ∧ t.mem = s.mem ∧ t.status = s.status ∧ t.latched = s.latched)

/-- R42, 60_exceptions.md R327: while busy, a write of `CMD` or of a read/write register other than `IRQ_EN` changes nothing but
`OVERRUN`, which it sets; completion and acceptance keep `OVERRUN`; a W1C write of bit 3 and reset clear it, and nothing else does. -/
def Obligations.WritesWhileBusySetOverrun : Prop :=
  (∀ (s : State) (addr v : Word) (reg : Reg), s.status.busy = true → reg = .cmd ∨ reg ∈ settings →
    s.bankOffset addr = some (offsetOf reg) → ∃ t, hostWrite s addr 4 v = .next t ∧
      t.status = { s.status with overrun := true } ∧ t.regs = s.regs ∧ t.latched = s.latched ∧ t.mem = s.mem) ∧
  (∀ (i : Instr) (s : State), ∃ t, exec i s = .next t ∧ t.status.overrun = s.status.overrun) ∧
  (∀ (s : State) (w : Word), (s.accept w).status.overrun = s.status.overrun) ∧
  (∀ (s : State) (addr v : Word), s.bankOffset addr = some 0x00C → ∃ t, hostWrite s addr 4 v = .next t ∧
    t.status.overrun = (s.status.overrun && !v.getLsbD 3)) ∧
  (∀ s : State, ∃ t, resetEvent s = .next t ∧ t.status.overrun = false) ∧
  ∀ (s t : State) (e : Event), perform e s = .next t → s.status.overrun = true → t.status.overrun = false →
    e = .reset ∨ ∃ addr v, e = .regWrite addr 4 v ∧ s.bankOffset addr = some 0x00C ∧ v.getLsbD 3 = true

/-- R24, 60_exceptions.md R320: the layout of `STATUS`, its W1C write, and the number of each error. -/
def Obligations.StatusLayoutAndWriteOneToClear : Prop :=
  (ErrCode.badOp.code = 0x01 ∧ ErrCode.badArg.code = 0x02 ∧ ErrCode.windowRange.code = 0x03 ∧ ErrCode.windowPow2.code = 0x04 ∧
    ErrCode.cfgBtype.code = 0x05 ∧ ErrCode.addr.code = 0x06 ∧ ErrCode.overlap.code = 0x07 ∧ ErrCode.bus.code = 0x08 ∧
    ErrCode.dstFull.code = 0x09 ∧ ErrCode.imgTooLarge.code = 0x0A ∧ ErrCode.zlibFcheck.code = 0x10 ∧
    ErrCode.zlibMethod.code = 0x11 ∧ ErrCode.zlibFdict.code = 0x12 ∧ ErrCode.btype.code = 0x13 ∧ ErrCode.nlen.code = 0x14 ∧
    ErrCode.codeLengths.code = 0x15 ∧ ErrCode.repeatNoPrev.code = 0x16 ∧ ErrCode.repeatOverrun.code = 0x17 ∧
    ErrCode.noEobLength.code = 0x18 ∧ ErrCode.invalidCode.code = 0x19 ∧ ErrCode.distTooFar.code = 0x1A ∧
    ErrCode.adlerMismatch.code = 0x1B ∧ ErrCode.eobZero.code = 0x20 ∧ ErrCode.alphabetTooLarge.code = 0x21 ∧
    ErrCode.trunc.code = 0x30 ∧ ErrCode.noEob.code = 0x31) ∧
  (∀ s : State, s.status.errCode = none → s.status.code = 0x00) ∧
  (∀ (s : State) (e : ErrCode), s.status.errCode = some e → s.status.code = e.code) ∧
  ∀ s : State,
    ((s.readReg .status).getLsbD 0 = s.status.busy ∧ (s.readReg .status).getLsbD 1 = s.status.done ∧
      (s.readReg .status).getLsbD 2 = s.status.error ∧ (s.readReg .status).getLsbD 3 = s.status.overrun ∧
      (s.readReg .status).extractLsb' 4 4 = 0 ∧ (s.readReg .status).extractLsb' 8 8 = s.status.code ∧
      (s.readReg .status).extractLsb' 16 16 = 0) ∧
    ∀ addr v : Word, s.bankOffset addr = some 0x00C → ∃ t, hostWrite s addr 4 v = .next t ∧
      (∀ k, (t.readReg .status).getLsbD k =
        ((s.readReg .status).getLsbD k && !((k == 1 || k == 3) && v.getLsbD k))) ∧
      t.regs = s.regs ∧ t.mem = s.mem ∧ t.latched = s.latched

/-- R328: the interrupt output is the function of the four bits that the rule gives, in every state, so it is recomputed with
them. -/
def Obligations.InterruptFollowsItsFourBits : Prop :=
  ∀ s : State, s.irq =
    (((s.readReg .status).getLsbD 1 && (s.readReg .irqEn).getLsbD 0) ||
      ((s.readReg .status).getLsbD 3 && (s.readReg .irqEn).getLsbD 1))

/-- 10_state.md R21, R22, R41: `ID` and `VERSION` read their constants at all times; a reserved offset reads 0; a write to a
reserved offset or to a read-only register changes nothing; a write to a register with reserved or read-only fields does what the
same write with 0 in those fields does. -/
def Obligations.ReservedAndReadOnlyAccesses : Prop :=
  (∀ (s : State) (addr : Word), s.bankOffset addr = some 0x000 →
    hostRead s addr 4 = .next { s with resp := .word 0x44434531 }) ∧
  (∀ (s : State) (addr : Word), s.bankOffset addr = some 0x004 →
    hostRead s addr 4 = .next { s with resp := .word 0x00000007 }) ∧
  (∀ (s : State) (addr v : Word) (off : Nat), s.bankOffset addr = some off → off % 4 = 0 → reservedOffset off →
    hostRead s addr 4 = .next { s with resp := .word 0 } ∧ hostWrite s addr 4 v = .next { s with resp := .written }) ∧
  (∀ (s : State) (addr v : Word) (reg : Reg), s.bankOffset addr = some (offsetOf reg) → isReadOnly reg = true →
    hostWrite s addr 4 v = .next { s with resp := .written }) ∧
  ∀ (s : State) (addr v : Word), ∀ reg ∈ [(Reg.status, (0x0000000A : Word)), (.irqEn, 0x00000003), (.matchCfg, 0x01FF01FF),
      (.mode, 0x0000000F), (.imgBpp, 0x0000007F)],
    s.bankOffset addr = some (offsetOf reg.1) → hostWrite s addr 4 v = hostWrite s addr 4 (v &&& reg.2)

/-- 10_state.md R43, 70_reset_and_hazards.md R371: a register read changes nothing but the host's own response (and the model's
count of draws); while idle it gives the register; while a command runs it gives the register unless the command lists it under
*Writes*, and then a free value (log 5); while the accepted word is an illegal one, which lists nothing, it gives the register.
`STATUS` shows `BUSY = 1`, `DONE = 0`, `ERROR = 0` and `ERR_CODE = 0` while busy, in a state of the invariant. 20_memory.md R72: an access
that is not an aligned 32-bit one gets a bus error and changes no engine state; that one which starts in the last bytes of the bank
and reaches past it is an access to the bank is the model's choice (log 17, DESIGN CHOICE). -/
def Obligations.RegisterReadsHaveNoSideEffect : Prop :=
  (∀ (s : State) (addr : Word) (reg : Reg), s.bankOffset addr = some (offsetOf reg) → ∃ t, hostRead s addr 4 = .next t ∧
    t.regs = s.regs ∧ t.status = s.status ∧ t.latched = s.latched ∧ t.mem = s.mem ∧ t.hidden = s.hidden ∧ t.agenda = s.agenda ∧
    (s.status.busy = false → t.resp = .word (s.readReg reg)) ∧
    (∀ e, s.status.busy = true → decode s.operands.cmd = .error e → t.resp = .word (s.readReg reg)) ∧
    ∀ i, s.status.busy = true → decode s.operands.cmd = .ok i →
      t.resp = .word (if mayWrite i reg then Config.freeWord s.draws 0 else s.readReg reg)) ∧
  (∀ s : State, s.Inv → s.status.busy = true → (s.readReg .status).getLsbD 0 = true ∧ (s.readReg .status).getLsbD 1 = false ∧
    (s.readReg .status).getLsbD 2 = false ∧ (s.readReg .status).extractLsb' 8 8 = 0) ∧
  ∀ (s : State) (addr v : Word) (off size : Nat), s.bankOffset addr = some off → size ≠ 4 ∨ off % 4 ≠ 0 →
    hostRead s addr size = .next { s with resp := .busError } ∧ hostWrite s addr size v = .next { s with resp := .busError }

/-- 20_memory.md R73, R80, 70_reset_and_hazards.md R370: outside the running command's regions another agent's write lands and
changes no other byte, and a read gives the byte; inside them a write is no move of the model (log 7), and a read of a DST byte gives
a free value (log 5). That this holds of a byte where `BUS_OK` is false too is the model's choice (log 20, DESIGN CHOICE). -/
def Obligations.DataMemoryAccessesByOthers : Prop :=
  ∀ (s : State) (a : Nat) (b : Byte), a < 2 ^ 32 →
    ((∀ r ∈ s.runningRegions, r.covers a = false) → ∃ t, memWrite s a b = .next t ∧ t.mem.read a = b ∧
      (∀ x, x ≠ a → t.mem.read x = s.mem.read x) ∧ t.regs = s.regs ∧ t.status = s.status ∧ t.latched = s.latched) ∧
    (∀ r ∈ s.runningRegions, r.covers a = true → memWrite s a b = .refused .hostDutyBroken) ∧
    ((∀ r ∈ s.runningDst, r.covers a = false) → memRead s a = .next { s with resp := .byte (s.mem.read a) }) ∧
    ∀ r ∈ s.runningDst, r.covers a = true →
      memRead s a = .next { s with resp := .byte (Config.freeByte s.draws 0), draws := s.draws + 1 }

/-- R361, 10_state.md R50: after reset, from whatever state, and in the state the machine starts in, every register holds its reset
value. -/
def Obligations.ResetGivesEveryRegisterItsValue : Prop :=
  (∀ (s : State) (reg : Reg), ∃ t, resetEvent s = .next t ∧ t.readReg reg = resetValue reg) ∧
  ∀ reg : Reg, State.reset.readReg reg = resetValue reg

/-- R363: reset abandons the running command and reports no completion; the registers take their reset values; every byte of the
command's DST region becomes a free value (log 5); no other byte of memory changes. The model's readings, not the spec's words: the
whole region is freed even where a pre-check would fail, an illegal word has no region, a region that wraps stops at 2^32 (log 15,
DEDUCED), and no latched copy is left (log 3, DESIGN CHOICE). -/
def Obligations.ResetAbandonsTheCommand : Prop :=
  (∀ s : State, s.running = none → ∃ t, resetEvent s = .next t ∧ t.mem = s.mem) ∧
  ∀ (s : State) (i : Instr), s.status.busy = true → decode s.operands.cmd = .ok i → ∃ t, resetEvent s = .next t ∧
    t.status = ⟨false, false, false, false, none⟩ ∧ t.irq = false ∧ t.latched = none ∧
    (∀ reg, t.readReg reg = resetValue reg) ∧
    (∀ d ∈ dstRegion i s.operands, ∀ k < d.len, d.base + k < 2 ^ 32 →
      t.mem.read (d.base + k) = Config.freeByte s.draws k) ∧
    ∀ a, (∀ d ∈ dstRegion i s.operands, d.covers a = false) → t.mem.read a = s.mem.read a

/-- 40_control.md R141, 10_state.md R42: while a command is busy, no host access and no other agent changes the registers it
executes on or a byte of its regions. -/
def Obligations.OperandsStayStableWhileBusy : Prop :=
  ∀ (s t : State) (e : Event), s.status.busy = true → s.latched.isSome = true → e ≠ .complete → e ≠ .reset →
    perform e s = .next t →
      t.status.busy = true ∧ t.operands = s.operands ∧ t.running = s.running ∧
      ∀ r ∈ s.runningRegions, ∀ a, r.covers a = true → t.mem.read a = s.mem.read a

/-! ## What every command does -/

/-- R143, R144, 60_exceptions.md R323: every command completes, in every state; `DONE` is set, `BUSY` cleared, `OVERRUN` kept, and
`ERROR` set exactly when an error code is reported; `ERR_INFO` is 0 after success; the latched copy is gone; the interrupt line
follows; nothing outside the engine but memory changes. -/
def Obligations.EveryCommandCompletes : Prop :=
  ∀ (i : Instr) (s : State), ∃ t, exec i s = .next t ∧
    t.status.busy = false ∧ t.status.done = true ∧ t.status.overrun = s.status.overrun ∧
    t.status.error = t.status.errCode.isSome ∧ (t.status.error = false → t.regs.errInfo = 0) ∧ t.latched = none ∧
    t.irq = (s.regs.doneIe || (s.status.overrun && s.regs.overrunIe)) ∧
    t.platform = s.platform ∧ t.agenda = s.agenda ∧ t.resp = s.resp

/-- R143, R144: a register that a command's rule does not list under *Writes* keeps its value, whatever the outcome (`STATUS` and
`ERR_INFO` belong to every completion). -/
def Obligations.UnlistedRegistersKeepTheirValues : Prop :=
  ∀ (i : Instr) (s : State), ∃ t, exec i s = .next t ∧
    ∀ reg, reg ≠ .status → reg ≠ .errInfo → mayWrite i reg = false → t.readReg reg = s.readReg reg

/-- 20_memory.md R66: a command writes memory only inside its DST region, whatever its outcome, and a command with no DST region
writes none. -/
def Obligations.CommandsWriteOnlyTheirDst : Prop :=
  ∀ (i : Instr) (s : State), ∃ t, exec i s = .next t ∧
    (hasNoDst i = true → t.mem = s.mem) ∧
    ∀ a, ¬ (s.operands.dstAddr.toNat ≤ a ∧ a < s.operands.dstAddr.toNat + s.operands.dstCap.toNat) → t.mem.read a = s.mem.read a

/-- R67: on success a byte-producing command leaves every byte outside `DST_ADDR .. DST_ADDR + DST_LEN - 1` as it was, and
`DST_LEN` is at most `DST_CAP`. -/
def Obligations.BytesPastDstLenAreKept : Prop :=
  ∀ (i : Instr) (s : State),
    i ∈ [.lz77Tokenize, .huffBuildFreq, .huffBuildLengths, .treeRead, .deflateRaw, .inflateRaw, .zlibCompress,
      .zlibDecompress false, .zlibDecompress true, .adam7Interlace, .adam7Deinterlace] →
    ∃ t, exec i s = .next t ∧ (t.status.error = false →
      t.regs.dstLen.toNat ≤ s.operands.dstCap.toNat ∧
      ∀ a, (a < s.operands.dstAddr.toNat ∨ s.operands.dstAddr.toNat + t.regs.dstLen.toNat ≤ a) → t.mem.read a = s.mem.read a)

/-- R324, R144: a failure found by the pre-checks changes no register but `STATUS` and `ERR_INFO`, and no memory. -/
def Obligations.PreCheckFailuresArePrecise : Prop :=
  ∀ (i : Instr) (s : State), ∃ t, exec i s = .next t ∧
    ∀ e, t.status.errCode = some e → e.isPreCheck = true →
      t.mem = s.mem ∧ ∀ reg, reg ≠ .status → reg ≠ .errInfo → t.readReg reg = s.readReg reg

/-- R63 to R65, R147: every command whose earlier checks pass reports `ERR_ADDR`, then `ERR_BUS`, then `ERR_OVERLAP`, each exactly
under its condition on the regions that 30_encoding.md R92 gives it, AUX among them; and a command reports one of the three only
under its condition. -/
def Obligations.RegionChecksInOrder : Prop :=
  (∀ (i : Instr) (s : State), ArgsOk i s.operands →
    let reads := ruleInputs i s.operands
    let dst := ruleDst i s.operands
    let wraps := ∃ r ∈ reads ++ dst, 0 < r.len ∧ 2 ^ 32 < r.base + r.len
    let hole := ∃ r ∈ reads ++ dst, ∃ a, r.covers a = true ∧ s.platform.busOk a = false
    let shared := ∃ d ∈ dst, ∃ r ∈ reads, ∃ a, r.covers a = true ∧ d.covers a = true
    (wraps → exec i s = .next (s.fail .addr [] none)) ∧
    (¬ wraps → hole → exec i s = .next (s.fail .bus [] none)) ∧
    (¬ wraps → ¬ hole → shared → exec i s = .next (s.fail .overlap [] none)) ∧
    (¬ wraps → ¬ hole → ¬ shared → RegionsOk i s ∧ ∃ t, exec i s = .next t ∧
      t.status.errCode ≠ some .addr ∧ t.status.errCode ≠ some .bus ∧ t.status.errCode ≠ some .overlap)) ∧
  ∀ (i : Instr) (s : State), ∃ t, exec i s = .next t ∧
    (t.status.errCode = some .addr → ∃ r ∈ usedRegions i s.operands, 0 < r.len ∧ 2 ^ 32 < r.base + r.len) ∧
    (t.status.errCode = some .bus → ∃ r ∈ usedRegions i s.operands, ∃ a, r.covers a = true ∧ s.platform.busOk a = false) ∧
    (t.status.errCode = some .overlap →
      ∃ d ∈ dstRegion i s.operands, ∃ q ∈ inputRegions i s.operands, ∃ a, d.covers a = true ∧ q.covers a = true)

/-- R147, R321, 42_match_finder.md R192, 44_deflate.md R264, 45_zlib_adler.md R286: the commands that use the window report the first
failing setting check, in the order range, power of two and, for the two compressing commands, block type, before any region check;
`LZ77.TOKENIZE` makes its two checks whatever `MODE` holds. -/
def Obligations.CompressionSettingChecksInOrder : Prop :=
  (∀ (i : Instr) (s : State), i = .lz77Tokenize ∨ i = .deflateRaw ∨ i = .zlibCompress →
    let w := s.operands.window.toNat
    ((w = 0 ∨ 32768 < w) → exec i s = .next (s.fail .windowRange [] none)) ∧
    (0 < w → w ≤ 32768 → (∀ k, w ≠ 2 ^ k) → exec i s = .next (s.fail .windowPow2 [] none)) ∧
    (WindowLegal s.operands → s.operands.mode.toNat % 4 = 3 → i ≠ .lz77Tokenize →
      exec i s = .next (s.fail .cfgBtype [] none))) ∧
  ∀ (i : Instr) (s : State),
    i = .lz77Tokenize ∨ (i = .deflateRaw ∨ i = .zlibCompress) ∧ s.operands.mode.toNat % 4 ≠ 3 → WindowLegal s.operands →
    ∃ t, exec i s = .next t ∧
      t.status.errCode ≠ some .windowRange ∧ t.status.errCode ≠ some .windowPow2 ∧ t.status.errCode ≠ some .cfgBtype

/-- 70_reset_and_hazards.md R372, R142: whatever register accesses, memory reads, completions and resets come first, after them the
engine has completed: one step per event and one more leave it idle. The number of steps is the model's choice, not a latency of the
spec: the events to come are a list, and an empty list completes a busy engine (log 1, DESIGN CHOICE). -/
def Obligations.EveryRunEndsIdle : Prop :=
  ∀ s : State,
    (∀ e ∈ s.agenda, e.neverRefused s) →
    ∃ t : State, Host.Core.run Sys2Proof.core (s.agenda.length + 1) s = .next t ∧ t.status.busy = false ∧ t.agenda = []

/-- R362, R365: no command reads the hidden state it finds. -/
def Obligations.HiddenStateNeverReachesAResult : Prop :=
  ∀ (i : Instr) (s : State) (h : Hidden), exec i { s with hidden := h } = exec i s

/-- R50, R361, 10_state.md R49: the machine's invariant holds after reset. That no latched copy exists after reset is the model's
choice (log 3, DESIGN CHOICE: it follows R49, while R50 calls the latched context UNSPECIFIED). -/
def Obligations.InvariantHoldsAtReset : Prop := State.reset.Inv

/-- Every step keeps the machine's invariant: memory in canonical form, reserved fields 0, the latched copy exactly while busy and
equal to the bank but for `IRQ_EN`, `ERROR` exactly with an error code, `DONE` and `ERROR` clear while busy. -/
def Obligations.StepKeepsTheInvariant : Prop :=
  ∀ s t : State, s.Inv → step s = .next t → t.Inv

/-- 40_control.md R148: `NOP` has no effect but the lifecycle, its only word is 0, and the rule's example. -/
def Obligations.NopHasNoEffectButTheLifecycle : Prop :=
  (∀ s : State, exec .nop s = .next (s.succeed s.regs s.mem)) ∧
  (∀ w : Word, w.toNat % 256 = 0 → (decode w = .ok .nop ↔ w = 0) ∧ (w ≠ 0 → ∃ e, decode w = .error e)) ∧
  ∀ s : State, s.status.toWord = 0x00001506 → ∃ t, exec .nop (s.accept 0) = .next t ∧ t.readReg .status = 0x00000002

/-! ## Bit-stream I/O -/

/-- 41_bitstream.md R169: `BITS.PUT` writes exactly its bits, in the order the flag says, and its failures. -/
def Obligations.BitsPutWritesItsField : Prop :=
  ∀ (reverse : Bool) (s : State),
    let r := s.operands
    let v := r.arg0.toNat
    let n := r.arg1.toNat
    let bp := r.dstBitpos.toNat
    let base := r.dstAddr.toNat
    (32 < n → exec (.bitsPut reverse) s = .next (s.fail .badArg [] none)) ∧
    (n ≤ 32 → RegionsOk (.bitsPut reverse) s → min (8 * r.dstCap.toNat) (2 ^ 32 - 1) < bp + n →
      exec (.bitsPut reverse) s = .next (s.fail .dstFull [.dstBitpos, .dstLen] (some r.dst))) ∧
    (n ≤ 32 → RegionsOk (.bitsPut reverse) s → bp + n ≤ min (8 * r.dstCap.toNat) (2 ^ 32 - 1) →
      ∃ m, exec (.bitsPut reverse) s =
          .next (s.succeed { s.regs with dstBitpos := word (bp + n), dstLen := word ((bp + n + 7) / 8) } m) ∧
        (∀ k < n, memBit m base (bp + k) = v.testBit (if reverse then n - 1 - k else k)) ∧
        (∀ k, k < bp ∨ bp + n ≤ k → memBit m base k = memBit s.mem base k) ∧
        ∀ a < base, m.read a = s.mem.read a)

/-- R170: `BITS.GET` reads exactly its bits, in the order the flag says, and its failures. That a read of no bits fails when its
cursor is past the limit is the model's reading of check (b) (log 11, DEDUCED). -/
def Obligations.BitsGetReadsItsField : Prop :=
  ∀ (reverse : Bool) (s : State),
    let r := s.operands
    let n := r.arg1.toNat
    let bp := r.srcBitpos.toNat
    (32 < n → exec (.bitsGet reverse) s = .next (s.fail .badArg [] none)) ∧
    (n ≤ 32 → RegionsOk (.bitsGet reverse) s → min (8 * r.srcLen.toNat) (2 ^ 32 - 1) < bp + n →
      exec (.bitsGet reverse) s = .next (s.fail .trunc [.result0, .srcBitpos] none)) ∧
    (n ≤ 32 → RegionsOk (.bitsGet reverse) s → bp + n ≤ min (8 * r.srcLen.toNat) (2 ^ 32 - 1) →
      ∃ v < 2 ^ n, exec (.bitsGet reverse) s =
          .next (s.succeed { s.regs with result0 := word v, srcBitpos := word (bp + n) } s.mem) ∧
        ∀ k < n, v.testBit (if reverse then n - 1 - k else k) = memBit s.mem r.srcAddr.toNat (bp + k))

/-- R171: what was put is got back, by the commands and by the primitives. -/
def Obligations.PutThenGetRoundTrip : Prop :=
  (∀ (reverse : Bool) (s t u : State),
    let n := s.operands.arg1.toNat
    let bp := s.operands.dstBitpos.toNat
    exec (.bitsPut reverse) s = .next t → t.status.error = false →
    u.operands.arg1 = s.operands.arg1 → u.operands.srcBitpos = s.operands.dstBitpos →
    (bp + n + 7) / 8 ≤ u.operands.srcLen.toNat →
    (∀ j < (bp + n + 7) / 8, u.mem.read (u.operands.srcAddr.toNat + j) = t.mem.read (s.operands.dstAddr.toNat + j)) →
    RegionsOk (.bitsGet reverse) u →
    ∃ x, exec (.bitsGet reverse) u = .next x ∧ x.status = u.status.succeeded ∧
      x.regs.result0.toNat = s.operands.arg0.toNat % 2 ^ n ∧ x.regs.srcBitpos.toNat = bp + n) ∧
  (∀ (v n : Nat) (w w' : Writer), w.bp = w.rev.length → putBits w v n = .ok w' →
    ∃ rd, getBits ⟨bufOfBytes w'.bytes, 8 * w'.bytes.length, w.bp⟩ n = .ok (v % 2 ^ n, rd) ∧ rd.bp = w'.bp) ∧
  ∀ (v n : Nat) (w w' : Writer), w.bp = w.rev.length → putBitsRev w v n = .ok w' →
    ∃ rd, getBitsRev ⟨bufOfBytes w'.bytes, 8 * w'.bytes.length, w.bp⟩ n = .ok (v % 2 ^ n, rd) ∧ rd.bp = w'.bp

/-! ## The match finder -/

/-- 42_match_finder.md R192, R194, R195: `LZ77.TOKENIZE` writes the tokens of its input, or fails with `ERR_DST_FULL` when they do not
fit, and 8/3 of the input's length is always room enough; for every value of the parameters the tokens replay to the input with every
distance at most `WINDOW - 1` and inside the output so far. -/
def Obligations.TokenStreamReplaysToTheInput : Prop :=
  ∀ s : State,
    let r := s.operands
    let n := r.srcLen.toNat
    let base := r.dstAddr.toNat
    let data := bytesAt s.mem r.srcAddr.toNat n
    let toks := (tokenizeBlock r (bufOfBytes data) .init 0 n).1
    WindowLegal r →
    (∀ par : FinderParams,
      replayTokens (r.window.toNat - 1) (tokenizeWith par r (bufOfBytes data) .init 0 n).1 [] = some data) ∧
    3 * toks.length ≤ 4 * n ∧ replayTokens (r.window.toNat - 1) toks [] = some data ∧
    (RegionsOk .lz77Tokenize s →
      (2 * toks.length ≤ r.dstCap.toNat → ∃ m, exec .lz77Tokenize s =
          .next (s.succeed { s.regs with result0 := word toks.length, dstLen := word (2 * toks.length) } m) ∧
        (∀ k, (h : k < toks.length) → m.readLE (base + 2 * k) 2 = toks[k]) ∧
        ∀ a, a < base ∨ base + 2 * toks.length ≤ a → m.read a = s.mem.read a) ∧
      (r.dstCap.toNat < 2 * toks.length → exec .lz77Tokenize s = .next (s.fail .dstFull [.result0, .dstLen] (some r.dst))))

/-- R193, R185, R192: with `USE_LZ77 = 0`, or a window below 8, the tokens are the input bytes widened to 16 bits; and a token
stream that does not fit fails with `ERR_DST_FULL`. -/
def Obligations.LiteralOnlyTokenStream : Prop :=
  ∀ s : State,
    let r := s.operands
    let n := r.srcLen.toNat
    let base := r.dstAddr.toNat
    WindowLegal r → RegionsOk .lz77Tokenize s → r.useLz77 = false ∨ r.window.toNat < 8 →
    (2 * n ≤ r.dstCap.toNat → ∃ m, exec .lz77Tokenize s =
        .next (s.succeed { s.regs with result0 := word n, dstLen := word (2 * n) } m) ∧
      (∀ k < n, m.readLE (base + 2 * k) 2 = (s.mem.read (r.srcAddr.toNat + k)).toNat) ∧
      ∀ a, a < base ∨ base + 2 * n ≤ a → m.read a = s.mem.read a) ∧
    (r.dstCap.toNat < 2 * n → exec .lz77Tokenize s = .next (s.fail .dstFull [.result0, .dstLen] (some r.dst)))

/-- R182: the zero run at a position is exact, and ends at the end of the block or after 258 bytes. -/
def Obligations.ZeroRunIsExact : Prop :=
  ∀ (c : Finder) (pos : Nat), pos ≤ c.stop →
    (∀ k < c.zeroRun pos, Buf.byte c.data (pos + k) = 0) ∧ pos + c.zeroRun pos ≤ min c.stop (pos + 258) ∧
    (pos + c.zeroRun pos < min c.stop (pos + 258) → Buf.byte c.data (pos + c.zeroRun pos) ≠ 0)

/-! ## Huffman coding -/

/-- 43_huffman.md R221, R214, R216: the checks of `HUFF.BUILD_FREQ` in their order; it completes when at most `2^m` symbols are used;
the lengths it writes form a complete code of at most `m` bits (Kraft's equality), every symbol with a nonzero frequency gets a code,
and no other does when two or more are used; `RESULT0` is `max(minCodes, 1 + the largest symbol with a code)`. With more used symbols
it fails. -/
def Obligations.BuildFreqWritesACompleteCode : Prop :=
  ∀ s : State,
    let r := s.operands
    let n := r.arg1.toNat
    let m := r.arg2.toNat
    let freq := fun k => s.mem.readLE (r.srcAddr.toNat + 4 * k) 4
    let used := ((List.range n).filter fun k => freq k ≠ 0).length
    let legal := 2 ≤ n ∧ n ≤ 288 ∧ 1 ≤ m ∧ m ≤ 15 ∧ r.arg0.toNat ≤ n
    let failed := fun e => exec .huffBuildFreq s = .next (s.fail e [.result0, .dstLen] (some r.dst))
    (¬ legal → exec .huffBuildFreq s = .next (s.fail .badArg [] none)) ∧
    (legal → RegionsOk .huffBuildFreq s →
      (r.srcLen.toNat < 4 * n → failed .trunc) ∧
      (4 * n ≤ r.srcLen.toNat → r.dstCap.toNat < n → failed .dstFull) ∧
      (4 * n ≤ r.srcLen.toNat → n ≤ r.dstCap.toNat → used ≤ 2 ^ m → ∃ (len : List Nat) (num : Nat) (mem : Memory),
        exec .huffBuildFreq s = .next (s.succeed { s.regs with result0 := word num, dstLen := word n } mem) ∧
        len.length = n ∧ (∀ k, (h : k < n) → (mem.read (r.dstAddr.toNat + k)).toNat = len.getD k 0) ∧
        (∀ a, a < r.dstAddr.toNat ∨ r.dstAddr.toNat + n ≤ a → mem.read a = s.mem.read a) ∧
        kraftSum len m = 2 ^ m ∧ (∀ l ∈ len, l ≤ m) ∧ (∀ k < n, freq k ≠ 0 → len.getD k 0 ≠ 0) ∧
        (2 ≤ used → ∀ k < n, freq k = 0 → len.getD k 0 = 0) ∧
        r.arg0.toNat ≤ num ∧ num ≤ n ∧ (∀ k, num ≤ k → len.getD k 0 = 0) ∧
        (num = r.arg0.toNat ∨ len.getD (num - 1) 0 ≠ 0)) ∧
      (4 * n ≤ r.srcLen.toNat → n ≤ r.dstCap.toNat → 2 ^ m < used → failed .alphabetTooLarge))

/-- R227: for at most `2^m` used symbols the builder's lengths are complete, and every symbol with a code decodes from the bits of
its code. -/
def Obligations.BuiltCodesAreCompleteAndDecode : Prop :=
  ∀ (freq : List Nat) (m : Nat), 2 ≤ freq.length → 1 ≤ m → m ≤ 15 → (freq.filter (· ≠ 0)).length ≤ 2 ^ m →
    ∃ len, lengthsFromFrequencies freq m = .ok len ∧ len.length = freq.length ∧ complete len m = true ∧
      ∀ k, len.getD k 0 ≠ 0 →
        ∃ rd, decodeSymbol (DecodeTable.ofLengths len) (readerOfBits (msbBits ((canonicalCodes len).getD k 0) (len.getD k 0))) =
            .ok ((k, len.getD k 0), rd) ∧ rd.bp = len.getD k 0

/-- R222, R211: the checks of `HUFF.BUILD_LENGTHS` in their order; it completes exactly on complete codes of at most `m` bits, and
writes the canonical code of every symbol as a 16-bit word. -/
def Obligations.BuildLengthsWritesTheCanonicalCode : Prop :=
  ∀ s : State,
    let r := s.operands
    let n := r.srcLen.toNat
    let m := r.arg2.toNat
    let len := (bytesAt s.mem r.srcAddr.toNat n).map (·.toNat)
    let legal := 1 ≤ n ∧ n ≤ 288 ∧ 1 ≤ m ∧ m ≤ 15
    let failed := fun e => exec .huffBuildLengths s = .next (s.fail e [.result0, .result1, .dstLen] (some r.dst))
    (¬ legal → exec .huffBuildLengths s = .next (s.fail .badArg [] none)) ∧
    (legal → RegionsOk .huffBuildLengths s →
      (r.dstCap.toNat < 2 * n → failed .dstFull) ∧
      (2 * n ≤ r.dstCap.toNat → (∀ l ∈ len, l ≤ m) → kraftSum len m = 2 ^ m → ∃ mem, exec .huffBuildLengths s =
          .next (s.succeed { s.regs with
            result0 := word (len.countP (· ≠ 0)), result1 := word (maxLength len), dstLen := word (2 * n) } mem) ∧
        (∀ k < n, mem.readLE (r.dstAddr.toNat + 2 * k) 2 = (canonicalCodes len).getD k 0) ∧
        ∀ a, a < r.dstAddr.toNat ∨ r.dstAddr.toNat + 2 * n ≤ a → mem.read a = s.mem.read a) ∧
      (2 * n ≤ r.dstCap.toNat → ¬ ((∀ l ∈ len, l ≤ m) ∧ kraftSum len m = 2 ^ m) → failed .codeLengths))

/-- R223: `HUFF.ENCODE_SYM` completes on a prefix-free table and a symbol with a code that fits, and writes the canonical code,
most significant bit first, at the cursor; its argument checks; and its failures after the pre-checks, the final-cursor check before
the execution errors, as 60_exceptions.md R321 item 9 ranks it. That the check is made on the symbol's length also in a table that is
no code, and on 0 bits for a symbol with no code, is the model's reading (log 18, DEDUCED). -/
def Obligations.EncodeSymWritesTheCode : Prop :=
  ∀ s : State,
    let r := s.operands
    let n := r.arg1.toNat
    let m := r.arg2.toNat
    let len := (bytesAt s.mem r.auxAddr.toNat n).map (·.toNat)
    let l := len.getD r.arg0.toNat 0
    let c := (canonicalCodes len).getD r.arg0.toNat 0
    let bp := r.dstBitpos.toNat
    let base := r.dstAddr.toNat
    let prefixFreeTable := (∀ x ∈ len, x ≤ m) ∧ kraftSum len m ≤ 2 ^ m
    let failed := fun e => exec .huffEncodeSym s = .next (s.fail e [.dstBitpos, .dstLen, .result0, .result1] (some r.dst))
    let legal := 1 ≤ n ∧ n ≤ 288 ∧ 1 ≤ m ∧ m ≤ 15 ∧ r.arg0.toNat < n
    (¬ legal → exec .huffEncodeSym s = .next (s.fail .badArg [] none)) ∧
    (legal → RegionsOk .huffEncodeSym s →
      (min (8 * r.dstCap.toNat) (2 ^ 32 - 1) < bp + l → failed .dstFull) ∧
      (bp + l ≤ min (8 * r.dstCap.toNat) (2 ^ 32 - 1) → ¬ prefixFreeTable → failed .codeLengths) ∧
      (bp + l ≤ min (8 * r.dstCap.toNat) (2 ^ 32 - 1) → prefixFreeTable → l = 0 → failed .invalidCode) ∧
      (bp + l ≤ min (8 * r.dstCap.toNat) (2 ^ 32 - 1) → prefixFreeTable → l ≠ 0 →
        ∃ mem, exec .huffEncodeSym s =
            .next (s.succeed { s.regs with
              result0 := word c, result1 := word l, dstBitpos := word (bp + l), dstLen := word ((bp + l + 7) / 8) } mem) ∧
          bitsStandAt mem base bp (msbBits c l) ∧ (∀ k, k < bp ∨ bp + l ≤ k → memBit mem base k = memBit s.mem base k) ∧
          ∀ a < base, mem.read a = s.mem.read a))

/-- R224, R213: the argument checks of `HUFF.DECODE_SYM`; it completes on a prefix-free table when the bits at the cursor are the code
of a symbol, and gives that symbol and its length; otherwise it fails: with `ERR_CODE_LENGTHS` on a table that is not prefix-free,
with `ERR_INVALID_CODE` when the longest length of bits is there and no code stands at the cursor, or when there is no code at all,
and with `ERR_NO_EOB` when the input ends before a code is found. -/
def Obligations.DecodeSymReadsTheCode : Prop :=
  ∀ s : State,
    let r := s.operands
    let n := r.arg1.toNat
    let m := r.arg2.toNat
    let len := (bytesAt s.mem r.auxAddr.toNat n).map (·.toNat)
    let bp := r.srcBitpos.toNat
    let limit := min (8 * r.srcLen.toNat) (2 ^ 32 - 1)
    let failed := fun e => exec .huffDecodeSym s = .next (s.fail e [.result0, .result1, .srcBitpos] none)
    let stands := fun k => len.getD k 0 ≠ 0 ∧ bp + len.getD k 0 ≤ limit ∧
      bitsStandAt s.mem r.srcAddr.toNat bp (msbBits ((canonicalCodes len).getD k 0) (len.getD k 0))
    let legal := 1 ≤ n ∧ n ≤ 288 ∧ 1 ≤ m ∧ m ≤ 15
    (¬ legal → exec .huffDecodeSym s = .next (s.fail .badArg [] none)) ∧
    (legal → RegionsOk .huffDecodeSym s →
      (¬ ((∀ x ∈ len, x ≤ m) ∧ kraftSum len m ≤ 2 ^ m) → failed .codeLengths) ∧
      ((∀ x ∈ len, x ≤ m) → kraftSum len m ≤ 2 ^ m →
        (∀ k, stands k → exec .huffDecodeSym s =
          .next (s.succeed { s.regs with
            result0 := word k, result1 := word (len.getD k 0), srcBitpos := word (bp + len.getD k 0) } s.mem)) ∧
        ((∀ x ∈ len, x = 0) → failed .invalidCode) ∧
        ((∀ k, ¬ stands k) → (∀ x ∈ len, bp + x ≤ limit) → failed .invalidCode) ∧
        ((∀ k, ¬ stands k) → (∃ x ∈ len, x ≠ 0 ∧ limit < bp + x) → failed .noEob)))

/-- R225, R219: the argument checks of `TREE.WRITE`; a cursor past the limit fails with `ERR_DST_FULL` before the execution errors
(60_exceptions.md R321 item 9), and a length above 15 after it (that there is then no header to count is the model's reading: log 18,
DEDUCED); with no such length the header is at most 4551 bits and starts with `nll - 257`, `nd - 1` and `ncl - 4` as LSB-first fields,
and the command completes exactly when it fits, with `RESULT0` its length in bits and `RESULT1` `ncl`. What the header means is the
round trip below. -/
def Obligations.TreeWriteWritesAHeader : Prop :=
  ∀ s : State,
    let r := s.operands
    let nll := r.arg0.toNat
    let nd := r.arg1.toNat
    let lens := (bytesAt s.mem r.auxAddr.toNat (nll + nd)).map (·.toNat)
    let bp := r.dstBitpos.toNat
    let base := r.dstAddr.toNat
    let limit := min (8 * r.dstCap.toNat) (2 ^ 32 - 1)
    let failed := fun e => exec .treeWrite s = .next (s.fail e [.dstBitpos, .dstLen, .result0, .result1] (some r.dst))
    let legal := 257 ≤ nll ∧ nll ≤ 288 ∧ 1 ≤ nd ∧ nd ≤ 32
    (¬ legal → exec .treeWrite s = .next (s.fail .badArg [] none)) ∧
    (legal → RegionsOk .treeWrite s →
      (limit < bp → failed .dstFull) ∧
      (bp ≤ limit → (∃ l ∈ lens, 15 < l) → failed .codeLengths) ∧
      ((∀ l ∈ lens, l ≤ 15) → ∃ (bits : List Bool) (ncl : Nat),
        dynamicHeader (lens.take nll) (lens.drop nll) = .ok (bits, ncl) ∧ bits.length ≤ 4551 ∧ 4 ≤ ncl ∧ ncl ≤ 19 ∧
        bits.take 14 = lsbBits (nll - 257) 5 ++ lsbBits (nd - 1) 5 ++ lsbBits (ncl - 4) 4 ∧
        (limit < bp + bits.length → failed .dstFull) ∧
        (bp + bits.length ≤ limit → ∃ mem : Memory,
          exec .treeWrite s =
            .next (s.succeed { s.regs with
              result0 := word bits.length, result1 := word ncl, dstBitpos := word (bp + bits.length),
              dstLen := word ((bp + bits.length + 7) / 8) } mem) ∧
          bitsStandAt mem base bp bits ∧
          (∀ k, k < bp ∨ bp + bits.length ≤ k → memBit mem base k = memBit s.mem base k) ∧
          ∀ a < base, mem.read a = s.mem.read a)))

/-- R226, R220: when the header that `WriteDynamicHeader` gives for two complete length tables stands at the cursor, `TREE.READ`
completes, and writes the tables padded with zeros; and so it does on every header that passes the checks of R220, whichever run
lengths it chooses and whatever its number of lengths. A destination below 320 bytes fails, and so does a malformed header or one
that is cut short, with the error of R220. -/
def Obligations.TreeReadReadsAWrittenHeader : Prop :=
  (∀ (s : State) (ll dl : List Nat) (bits : List Bool) (ncl : Nat),
    let r := s.operands
    257 ≤ ll.length → ll.length ≤ 288 → 1 ≤ dl.length → dl.length ≤ 32 → (∀ l ∈ ll ++ dl, l ≤ 15) →
    ll.getD 256 0 ≠ 0 → kraftSum ll 15 = 2 ^ 15 → kraftSum dl 15 = 2 ^ 15 → dynamicHeader ll dl = .ok (bits, ncl) →
    bitsStandAt s.mem r.srcAddr.toNat r.srcBitpos.toNat bits →
    r.srcBitpos.toNat + bits.length ≤ min (8 * r.srcLen.toNat) (2 ^ 32 - 1) → RegionsOk .treeRead s → 320 ≤ r.dstCap.toNat →
    ∃ mem, exec .treeRead s =
        .next (s.succeed { s.regs with
          result0 := word ll.length, result1 := word dl.length, srcBitpos := word (r.srcBitpos.toNat + bits.length),
          dstLen := word 320 } mem) ∧
      (∀ k < 288, (mem.read (r.dstAddr.toNat + k)).toNat = ll.getD k 0) ∧
      (∀ k < 32, (mem.read (r.dstAddr.toNat + 288 + k)).toNat = dl.getD k 0) ∧
      ∀ a, a < r.dstAddr.toNat ∨ r.dstAddr.toNat + 320 ≤ a → mem.read a = s.mem.read a) ∧
  ∀ s : State,
    let r := s.operands
    let bp := r.srcBitpos.toNat
    let limit := min (8 * r.srcLen.toNat) (2 ^ 32 - 1)
    let failed := fun e => exec .treeRead s = .next (s.fail e [.result0, .result1, .srcBitpos, .dstLen] (some r.dst))
    RegionsOk .treeRead s →
    (r.dstCap.toNat < 320 → failed .dstFull) ∧
    (∀ bits ll dl, HeaderBits bits ll dl → 320 ≤ r.dstCap.toNat → bitsStandAt s.mem r.srcAddr.toNat bp bits →
      bp + bits.length ≤ limit → ∃ mem, exec .treeRead s =
          .next (s.succeed { s.regs with
            result0 := word ll.length, result1 := word dl.length, srcBitpos := word (bp + bits.length), dstLen := word 320 } mem) ∧
        (∀ k < 288, (mem.read (r.dstAddr.toNat + k)).toNat = ll.getD k 0) ∧
        (∀ k < 32, (mem.read (r.dstAddr.toNat + 288 + k)).toNat = dl.getD k 0) ∧
        ∀ a, a < r.dstAddr.toNat ∨ r.dstAddr.toNat + 320 ≤ a → mem.read a = s.mem.read a) ∧
    ∀ ends bits e, HeaderError ends bits e → 320 ≤ r.dstCap.toNat → bitsStandAt s.mem r.srcAddr.toNat bp bits →
      bp + bits.length ≤ limit → (ends = true → bp + bits.length = limit) → failed e

/-- R228: reading a written header gives back its tables, padded with zeros, and succeeds exactly when they pass the checks of
R220. -/
def Obligations.DynamicHeaderRoundTrip : Prop :=
  ∀ ll dl : List Nat, 257 ≤ ll.length → ll.length ≤ 288 → 1 ≤ dl.length → dl.length ≤ 32 → (∀ l ∈ ll ++ dl, l ≤ 15) →
    ∃ bits ncl, dynamicHeader ll dl = .ok (bits, ncl) ∧
      (∀ h rd, readDynamicHeader Config.degenerateDistOk (readerOfBits bits) = .ok (h, rd) →
        h.hlit = ll.length ∧ h.hdist = dl.length ∧ h.ll = ll ++ List.replicate (288 - ll.length) 0 ∧
        h.dl = dl ++ List.replicate (32 - dl.length) 0 ∧ rd.bp = bits.length) ∧
      ((∃ p, readDynamicHeader Config.degenerateDistOk (readerOfBits bits) = .ok p) ↔
        ll.getD 256 0 ≠ 0 ∧ kraftSum ll 15 = 2 ^ 15 ∧ kraftSum dl 15 = 2 ^ 15)

/-! ## The block codec -/

/-- 44_deflate.md R251, R252, R264, R267: with `BTYPE = 0`, `DEFLATE.RAW` writes `max(1, ceil(n / 65535))` stored blocks in exactly
`n + 5·nb` bytes, each with its header, `LEN`, `NLEN` and data, the last one final; it completes exactly when they fit. `RESULT0` is
the length in bits where it fits 32 bits (log 10). -/
def Obligations.StoredStreamLayout : Prop :=
  ∀ s : State,
    let r := s.operands
    let n := r.srcLen.toNat
    let base := r.dstAddr.toNat
    let nb := max 1 ((n + 65534) / 65535)
    WindowLegal r → r.mode.toNat % 4 = 0 → RegionsOk .deflateRaw s →
    (n + 5 * nb ≤ r.dstCap.toNat → ∃ (bits : Word) (m : Memory),
      exec .deflateRaw s =
        .next (s.succeed { s.regs with result0 := bits, result1 := word nb, dstLen := word (n + 5 * nb) } m) ∧
      (8 * (n + 5 * nb) < 2 ^ 32 → bits.toNat = 8 * (n + 5 * nb)) ∧
      (∀ i < nb,
        let l := min n (65535 * (i + 1)) - 65535 * i
        (m.read (base + 65540 * i)).toNat = (if i + 1 = nb then 1 else 0) ∧
        m.readLE (base + 65540 * i + 1) 2 = l ∧ m.readLE (base + 65540 * i + 3) 2 = 65535 - l ∧
        ∀ k < l, m.read (base + 65540 * i + 5 + k) = s.mem.read (r.srcAddr.toNat + 65535 * i + k)) ∧
      ∀ a, a < base ∨ base + (n + 5 * nb) ≤ a → m.read a = s.mem.read a) ∧
    (r.dstCap.toNat < n + 5 * nb →
      exec .deflateRaw s = .next (s.fail .dstFull [.result0, .result1, .dstLen] (some r.dst)))

/-- R264, R266, R267: with legal settings and regions, `DEFLATE.RAW` fails only with `ERR_DST_FULL`; with
`2n + 600·(n / 65535 + 1)` bytes of room it completes, for every block type; and its number of blocks is as R267 says. `RESULT0` is the length in
bits where it fits 32 bits (log 10). -/
def Obligations.DeflateCompletesGivenRoom : Prop :=
  ∀ s : State,
    let r := s.operands
    let n := r.srcLen.toNat
    let btype := r.mode.toNat % 4
    let nb := if btype = 0 then max 1 ((n + 65534) / 65535) else if btype = 1 then 1
      else max 1 ((n + max 65536 (min 262144 (n / 8 + 8)) - 1) / max 65536 (min 262144 (n / 8 + 8)))
    WindowLegal r → btype ≠ 3 → RegionsOk .deflateRaw s →
    ((∃ (bits len : Word) (m : Memory),
        exec .deflateRaw s = .next (s.succeed { s.regs with result0 := bits, result1 := word nb, dstLen := len } m)) ∨
      exec .deflateRaw s = .next (s.fail .dstFull [.result0, .result1, .dstLen] (some r.dst))) ∧
    (2 * n + 600 * (n / 65535 + 1) ≤ r.dstCap.toNat → ∃ (bits len : Word) (m : Memory),
      exec .deflateRaw s = .next (s.succeed { s.regs with result0 := bits, result1 := word nb, dstLen := len } m) ∧
      len.toNat ≤ 2 * n + 600 * (n / 65535 + 1) ∧
      (8 * len.toNat < 2 ^ 32 → len.toNat = (bits.toNat + 7) / 8) ∧
      ∀ a, a < r.dstAddr.toNat ∨ r.dstAddr.toNat + len.toNat ≤ a → m.read a = s.mem.read a)

/-- R265, R257 to R263: when SRC starts with a stream the encoder gives for some input and some legal settings, `INFLATE.RAW`
completes with that input, the stream's length in bits (where it fits 32 bits, log 10) and its number of blocks; and so it does when
SRC starts with any well-formed stream, one the encoder never writes among them: blocks of mixed types, any dynamic header R220
accepts, every length code and distance up to 32768, a copy that reaches into an earlier block, any padding bits. -/
def Obligations.InflateDecodesEncodedStreams : Prop :=
  (∀ (s : State) (r : Regs) (cap : Nat) (data : List Byte) (w : Writer) (nb : Nat),
    let n := data.length
    let out := s.operands.dstAddr.toNat
    WindowLegal r → r.mode.toNat % 4 ≠ 3 → encodeStream r (bufOfBytes data) n ⟨[], 0, cap⟩ = .ok (w, nb) →
    w.bytes.length ≤ s.operands.srcLen.toNat → bytesAt s.mem s.operands.srcAddr.toNat w.bytes.length = w.bytes →
    n ≤ s.operands.dstCap.toNat → RegionsOk .inflateRaw s →
    ∃ (bits : Word) (m : Memory),
      exec .inflateRaw s = .next (s.succeed { s.regs with result0 := bits, result1 := word nb, dstLen := word n } m) ∧
      (w.bp < 2 ^ 32 → bits.toNat = w.bp) ∧ bytesAt m out n = data ∧
      ∀ a, a < out ∨ out + n ≤ a → m.read a = s.mem.read a) ∧
  ∀ (s : State) (bits : List Bool) (nb : Nat) (data : List Byte),
    let n := data.length
    let out := s.operands.dstAddr.toNat
    StreamBits 0 [] bits nb data → bitsStandAt s.mem s.operands.srcAddr.toNat 0 bits →
    bits.length ≤ 8 * s.operands.srcLen.toNat → n ≤ s.operands.dstCap.toNat → RegionsOk .inflateRaw s →
    ∃ m : Memory,
      exec .inflateRaw s =
        .next (s.succeed { s.regs with result0 := storeCount bits.length, result1 := word nb, dstLen := word n } m) ∧
      (bits.length < 2 ^ 32 → storeCount bits.length = word bits.length) ∧ bytesAt m out n = data ∧
      ∀ a, a < out ∨ out + n ≤ a → m.read a = s.mem.read a

/-- R266: whatever `DEFLATE.RAW` writes, `INFLATE.RAW` decodes back to the input, with the same `RESULT0` and `RESULT1`; and for every
value of the parameters (40_control.md R145; a tree builder as 43_huffman.md R217 requires) a stream of the encoder decodes to its
input, with the same number of bits and of blocks, and the encoder fails only for want of room. -/
def Obligations.DeflateInflateRoundTrip : Prop :=
  (∀ s t u : State,
    let n := s.operands.srcLen.toNat
    let len := t.regs.dstLen.toNat
    let out := u.operands.dstAddr.toNat
    exec .deflateRaw s = .next t → t.status.error = false →
    u.operands.srcLen = t.regs.dstLen → n ≤ u.operands.dstCap.toNat → RegionsOk .inflateRaw u →
    bytesAt u.mem u.operands.srcAddr.toNat len = bytesAt t.mem s.operands.dstAddr.toNat len →
    ∃ m : Memory,
      exec .inflateRaw u =
        .next (u.succeed { u.regs with
          result0 := t.regs.result0, result1 := t.regs.result1, dstLen := s.operands.srcLen } m) ∧
      bytesAt m out n = bytesAt s.mem s.operands.srcAddr.toNat n) ∧
  ∀ (p : EncoderParams) (r : Regs) (cap : Nat) (data : List Byte), LegalBuilder p.build → WindowLegal r → r.mode.toNat % 4 ≠ 3 →
    (∀ w nb, encodeStreamWith p r (bufOfBytes data) data.length ⟨[], 0, cap⟩ = .ok (w, nb) →
      ∃ rd o, decodeStream ⟨bufOfBytes w.bytes, 8 * w.bytes.length, 0⟩ ⟨[], data.length⟩ = .ok (nb, rd, o) ∧
        rd.bp = w.bp ∧ o.bytes = data) ∧
    ∀ e, encodeStreamWith p r (bufOfBytes data) data.length ⟨[], 0, cap⟩ = .error e → e = .dstFull

/-- R257 to R263, R220, R265, 30_encoding.md R114: how `INFLATE.RAW` fails on a first block that is malformed, cut short or too long
for the destination: an empty source, the reserved type, a stored block, and a Huffman block, where `BlockError` lists what its bits
are and the error they give. -/
def Obligations.InflateRejectsAMalformedFirstBlock : Prop :=
  ∀ s : State,
    let r := s.operands
    let base := r.srcAddr.toNat
    let n := r.srcLen.toNat
    let stored := memBit s.mem base 1 = false ∧ memBit s.mem base 2 = false
    let len := s.mem.readLE (base + 1) 2
    let nlen := s.mem.readLE (base + 3) 2
    let failed := fun e => exec .inflateRaw s = .next (s.fail e [.result0, .result1, .dstLen] (some r.dst))
    RegionsOk .inflateRaw s →
    (n = 0 → failed .trunc) ∧
    (0 < n → memBit s.mem base 1 = true → memBit s.mem base 2 = true → failed .btype) ∧
    (0 < n → stored → n < 5 → failed .trunc) ∧
    (5 ≤ n → stored → nlen ≠ 65535 - len → failed .nlen) ∧
    (5 ≤ n → stored → nlen = 65535 - len → n < 5 + len → failed .trunc) ∧
    (5 ≤ n → stored → nlen = 65535 - len → 5 + len ≤ n → r.dstCap.toNat < len → failed .dstFull) ∧
    ∀ ends bits e, BlockError r.dstCap.toNat ends bits e → bitsStandAt s.mem base 0 bits → bits.length ≤ 8 * n →
      (ends = true → bits.length = 8 * n) → failed e

/-- R262, 70_reset_and_hazards.md R373: the back-reference copy appends `length` bytes, each equal to the byte `dist` before it, also
when `dist < length`; it fails when the distance reaches before the output, or when the output is full. -/
def Obligations.BackReferenceCopiesByteByByte : Prop :=
  ∀ (length dist : Nat) (o : Out), 1 ≤ dist → 1 ≤ length →
    (o.rev.length < dist → copyMatch length dist o = .error .distTooFar) ∧
    (dist ≤ o.rev.length → o.rev.length ≤ o.cap → o.cap < o.rev.length + length → copyMatch length dist o = .error .dstFull) ∧
    (dist ≤ o.rev.length → o.rev.length + length ≤ o.cap → ∃ p, copyMatch length dist o = .ok p ∧ p.cap = o.cap ∧
      p.bytes.length = o.bytes.length + length ∧ p.bytes.take o.bytes.length = o.bytes ∧
      ∀ k < length, p.bytes.getD (o.bytes.length + k) 0 = p.bytes.getD (o.bytes.length + k - dist) 0)

/-! ## The zlib container and Adler-32 -/

/-- 45_zlib_adler.md R281, R282, R286: with legal settings and regions `ZLIB.COMPRESS` writes `78 01`, the deflate stream of the input
and the big-endian checksum of the input, which it also leaves in `ADLER`, with the stream's number of bits (log 10) and of blocks in
`RESULT0` and `RESULT1`; it completes exactly when header, stream and trailer fit in `DST_CAP` bytes, whatever room the stream was
sized with, and otherwise fails with `ERR_DST_FULL`; and `2n + 600·(n / 65535 + 1) + 6` bytes are always room enough. -/
def Obligations.ZlibCompressWrapsTheStream : Prop :=
  ∀ s : State,
    let r := s.operands
    let n := r.srcLen.toNat
    let base := r.dstAddr.toNat
    let data := bytesAt s.mem r.srcAddr.toNat n
    let a := adler32 data
    let trailer := [a.extractLsb' 24 8, a.extractLsb' 16 8, a.extractLsb' 8 8, a.extractLsb' 0 8]
    let completes := ∃ (w body : Writer) (nb : Nat) (m : Memory),
      zlibEncode r (bufOfBytes data) n r.writer = .ok (w, body.bp, nb, a) ∧
      encodeStream r (bufOfBytes data) n ⟨[], 0, r.dstCap.toNat - 6⟩ = .ok (body, nb) ∧
      w.bytes = [0x78, 0x01] ++ body.bytes ++ trailer ∧ w.bytes.length ≤ r.dstCap.toNat ∧
      exec .zlibCompress s =
        .next (s.succeed { s.regs with
          result0 := storeCount body.bp, result1 := word nb, adler := a, dstLen := word w.bytes.length } m) ∧
      (body.bp < 2 ^ 32 → storeCount body.bp = word body.bp) ∧ bytesAt m base w.bytes.length = w.bytes ∧
      ∀ x, x < base ∨ base + w.bytes.length ≤ x → m.read x = s.mem.read x
    let fails := zlibEncode r (bufOfBytes data) n r.writer = .error .dstFull ∧
      exec .zlibCompress s = .next (s.fail .dstFull [.result0, .result1, .adler, .dstLen] (some r.dst))
    WindowLegal r → r.mode.toNat % 4 ≠ 3 → RegionsOk .zlibCompress s →
    (2 * n + 600 * (n / 65535 + 1) + 6 ≤ r.dstCap.toNat → completes) ∧ (completes ∨ fails) ∧
    ∀ cap body nb, encodeStream r (bufOfBytes data) n ⟨[], 0, cap⟩ = .ok (body, nb) →
      (2 + body.bytes.length + 4 ≤ r.dstCap.toNat → completes) ∧ (r.dstCap.toNat < 2 + body.bytes.length + 4 → fails)

/-- R284, R285, R287: when SRC is a zlib stream the encoder gives, but for its last four bytes, `ZLIB.DECOMPRESS` completes with the
input, its checksum in `ADLER` and the trailer in `RESULT0`, if the trailer is the checksum or the check is disabled; otherwise it
fails with `ERR_ADLER`. The same holds of every header R283 accepts, followed by any well-formed stream, bytes no one reads, and the
trailer in the last four bytes; and where `INFLATE.RAW` fails on a body, `ZLIB.DECOMPRESS` fails with the same error. `RESULT1` is the
stream's number of bits where that fits 32 bits, and for a longer stream a free value of the count (log 10, DESIGN CHOICE). -/
def Obligations.ZlibDecompressChecksTheTrailer : Prop :=
  (∀ (ignoreAdler : Bool) (s : State) (r : Regs) (cap : Nat) (data : List Byte) (w : Writer) (bits nb : Nat) (a : Word),
    let n := data.length
    let len := w.bytes.length
    let src := s.operands.srcAddr.toNat
    let out := s.operands.dstAddr.toNat
    let trailer := (s.mem.read (src + len - 4)).toNat * 2 ^ 24 + (s.mem.read (src + len - 3)).toNat * 2 ^ 16 +
      (s.mem.read (src + len - 2)).toNat * 2 ^ 8 + (s.mem.read (src + len - 1)).toNat
    WindowLegal r → r.mode.toNat % 4 ≠ 3 → zlibEncode r (bufOfBytes data) n ⟨[], 0, cap⟩ = .ok (w, bits, nb, a) →
    s.operands.srcLen.toNat = len → bytesAt s.mem src (len - 4) = w.bytes.take (len - 4) →
    n ≤ s.operands.dstCap.toNat → RegionsOk (.zlibDecompress ignoreAdler) s →
    (ignoreAdler = true ∨ trailer = (adler32 data).toNat → ∃ (b : Word) (m : Memory),
      exec (.zlibDecompress ignoreAdler) s =
        .next (s.succeed { s.regs with result0 := word trailer, result1 := b, adler := adler32 data, dstLen := word n } m) ∧
      (bits < 2 ^ 32 → b.toNat = bits) ∧ bytesAt m out n = data ∧ ∀ x, x < out ∨ out + n ≤ x → m.read x = s.mem.read x) ∧
    (ignoreAdler = false → trailer ≠ (adler32 data).toNat →
      exec (.zlibDecompress ignoreAdler) s =
        .next (s.fail .adlerMismatch [.result0, .result1, .adler, .dstLen] (some s.operands.dst)))) ∧
  (∀ (ignoreAdler : Bool) (s : State) (bits : List Bool) (nb : Nat) (data : List Byte),
    let n := data.length
    let len := s.operands.srcLen.toNat
    let src := s.operands.srcAddr.toNat
    let out := s.operands.dstAddr.toNat
    let cmf := (s.mem.read src).toNat
    let flg := (s.mem.read (src + 1)).toNat
    let trailer := (s.mem.read (src + len - 4)).toNat * 2 ^ 24 + (s.mem.read (src + len - 3)).toNat * 2 ^ 16 +
      (s.mem.read (src + len - 2)).toNat * 2 ^ 8 + (s.mem.read (src + len - 1)).toNat
    RegionsOk (.zlibDecompress ignoreAdler) s → (cmf * 256 + flg) % 31 = 0 → cmf % 16 = 8 → cmf / 16 ≤ 7 → flg / 32 % 2 = 0 →
    StreamBits 0 [] bits nb data → bitsStandAt s.mem (src + 2) 0 bits → bits.length + 48 ≤ 8 * len → n ≤ s.operands.dstCap.toNat →
    (ignoreAdler = true ∨ trailer = (adler32 data).toNat → ∃ m : Memory,
      exec (.zlibDecompress ignoreAdler) s =
        .next (s.succeed { s.regs with
          result0 := word trailer, result1 := storeCount bits.length, adler := adler32 data, dstLen := word n } m) ∧
      (bits.length < 2 ^ 32 → storeCount bits.length = word bits.length) ∧ bytesAt m out n = data ∧
      ∀ x, x < out ∨ out + n ≤ x → m.read x = s.mem.read x) ∧
    (ignoreAdler = false → trailer ≠ (adler32 data).toNat →
      exec (.zlibDecompress ignoreAdler) s =
        .next (s.fail .adlerMismatch [.result0, .result1, .adler, .dstLen] (some s.operands.dst)))) ∧
  ∀ (ignoreAdler : Bool) (s u : State) (e : ErrCode),
    let src := s.operands.srcAddr.toNat
    let cmf := (s.mem.read src).toNat
    let flg := (s.mem.read (src + 1)).toNat
    let len := u.operands.srcLen.toNat
    RegionsOk (.zlibDecompress ignoreAdler) s → (cmf * 256 + flg) % 31 = 0 → cmf % 16 = 8 → cmf / 16 ≤ 7 → flg / 32 % 2 = 0 →
    s.operands.srcLen.toNat = len + 6 → u.operands.dstCap = s.operands.dstCap →
    bytesAt u.mem u.operands.srcAddr.toNat len = bytesAt s.mem (src + 2) len → RegionsOk .inflateRaw u →
    exec .inflateRaw u = .next (u.fail e [.result0, .result1, .dstLen] (some u.operands.dst)) →
    exec (.zlibDecompress ignoreAdler) s =
      .next (s.fail e [.result0, .result1, .adler, .dstLen] (some s.operands.dst))

/-- R283, R284: the header checks of `ZLIB.DECOMPRESS`, in their order, after the length check. -/
def Obligations.ZlibHeaderChecksInOrder : Prop :=
  ∀ (ignoreAdler : Bool) (s : State),
    let cmf := (s.mem.read s.operands.srcAddr.toNat).toNat
    let flg := (s.mem.read (s.operands.srcAddr.toNat + 1)).toNat
    let n := s.operands.srcLen.toNat
    let failed := fun e => exec (.zlibDecompress ignoreAdler) s =
      .next (s.fail e [.result0, .result1, .adler, .dstLen] (some s.operands.dst))
    RegionsOk (.zlibDecompress ignoreAdler) s →
    (n < 6 → failed .trunc) ∧
    (6 ≤ n → (cmf * 256 + flg) % 31 ≠ 0 → failed .zlibFcheck) ∧
    (6 ≤ n → (cmf * 256 + flg) % 31 = 0 → cmf % 16 ≠ 8 ∨ 7 < cmf / 16 → failed .zlibMethod) ∧
    (6 ≤ n → (cmf * 256 + flg) % 31 = 0 → cmf % 16 = 8 → cmf / 16 ≤ 7 → flg / 32 % 2 = 1 → failed .zlibFdict) ∧
    (6 ≤ n → (cmf * 256 + flg) % 31 = 0 → cmf % 16 = 8 → cmf / 16 ≤ 7 → flg / 32 % 2 = 0 →
      ∃ t, exec (.zlibDecompress ignoreAdler) s = .next t ∧ t.status.errCode ≠ some .zlibFcheck ∧
        t.status.errCode ≠ some .zlibMethod ∧ t.status.errCode ≠ some .zlibFdict)

/-- R280: Adler-32 byte by byte, its start value, its reduction of both halves from the first byte on, and its composition. -/
def Obligations.AdlerUpdateByteByByte : Prop :=
  (∀ a : Word, adlerUpdate a [] = a) ∧
  (∀ (a : Word) (b : Byte) (data : List Byte),
    let s1 := (a.toNat % 65536 + b.toNat) % 65521
    let s2 := (a.toNat / 65536 + s1) % 65521
    adlerUpdate a (b :: data) = adlerUpdate (word (s2 * 65536 + s1)) data) ∧
  (∀ data : List Byte, adler32 data = adlerUpdate 1 data) ∧
  ∀ (a : Word) (x y : List Byte), adlerUpdate (adlerUpdate a x) y = adlerUpdate a (x ++ y)

/-- R288: `ADLER32` continues the checksum in `ADLER` over SRC, and its only failures are those of its region; an empty
SRC leaves it as it is. -/
def Obligations.AdlerCommandContinuesTheChecksum : Prop :=
  decode 0x00000052 = .ok .adler32 ∧
  ∀ s : State,
    let r := s.operands
    (RegionsOk .adler32 s →
      exec .adler32 s =
        .next (s.succeed { s.regs with adler := adlerUpdate r.adler (bytesAt s.mem r.srcAddr.toNat r.srcLen.toNat) } s.mem)) ∧
    (0 < r.srcLen.toNat → 2 ^ 32 < r.srcAddr.toNat + r.srcLen.toNat → exec .adler32 s = .next (s.fail .addr [] none)) ∧
    (r.srcAddr.toNat + r.srcLen.toNat ≤ 2 ^ 32 → (∃ a, r.src.covers a = true ∧ s.platform.busOk a = false) →
      exec .adler32 s = .next (s.fail .bus [] none)) ∧
    (r.srcLen = 0 → exec .adler32 s = .next (s.succeed { s.regs with adler := r.adler } s.mem))

/-! ## Adam7 -/

/-- 46_adam7.md R300 to R303, R307: on legal arguments `ADAM7.GEOMETRY` completes and leaves in the bank the pass sizes of R301 and
the running offsets of R302, and in `RESULT0` and `RESULT1` the sizes of the reduced and the full image. -/
def Obligations.GeometryFillsTheBank : Prop :=
  ∀ s : State,
    let r := s.operands
    let w := r.imgW.toNat
    let h := r.imgH.toNat
    let b := r.bpp
    Adam7Legal r →
    ∃ t, exec .adam7Geometry s = .next t ∧ t.status = s.status.succeeded ∧ t.mem = s.mem ∧
      (∀ p : Fin 7,
        let q := [(0, 0, 8, 8), (4, 0, 8, 8), (0, 4, 4, 8), (2, 0, 4, 4), (0, 2, 2, 4), (1, 0, 2, 2), (0, 1, 1, 2)].getD p.val
          ((0, 0, 1, 1) : Nat × Nat × Nat × Nat)
        let w' := (w + q.2.2.1 - q.1 - 1) / q.2.2.1
        let h' := (h + q.2.2.2 - q.2.1 - 1) / q.2.2.2
        let pw := (t.readReg (.passW p)).toNat
        let ph := (t.readReg (.passH p)).toNat
        pw = (if w' = 0 ∨ h' = 0 then 0 else w') ∧ ph = (if w' = 0 ∨ h' = 0 then 0 else h') ∧
        (t.readReg (.fstart p.succ)).toNat = (t.readReg (.fstart p.castSucc)).toNat +
          (if 0 < pw ∧ 0 < ph then ph * (1 + (pw * b + 7) / 8) else 0) ∧
        (t.readReg (.pstart p.succ)).toNat = (t.readReg (.pstart p.castSucc)).toNat + ph * ((pw * b + 7) / 8) ∧
        (t.readReg (.ustart p.succ)).toNat = (t.readReg (.ustart p.castSucc)).toNat + (pw * ph * b + 7) / 8) ∧
      t.readReg (.fstart 0) = 0 ∧ t.readReg (.pstart 0) = 0 ∧ t.readReg (.ustart 0) = 0 ∧
      t.readReg .result0 = t.readReg (.ustart 7) ∧ (t.readReg .result1).toNat = (w * h * b + 7) / 8

/-- R310: every pixel of the image is in exactly one pass, at exactly one place, and every pixel of a pass is in the image. -/
def Obligations.PassesPartitionTheImage : Prop :=
  ∀ w h : Nat,
    (∀ x y, x < w → y < h → ∃! q : Fin 7 × Nat × Nat,
      q.2.1 < (passSize w h q.1).1 ∧ q.2.2 < (passSize w h q.1).2 ∧
      x = (passOf q.1).sx + q.2.1 * (passOf q.1).dx ∧ y = (passOf q.1).sy + q.2.2 * (passOf q.1).dy) ∧
    ∀ (p : Fin 7) (i j : Nat), i < (passSize w h p).1 → j < (passSize w h p).2 →
      (passOf p).sx + i * (passOf p).dx < w ∧ (passOf p).sy + j * (passOf p).dy < h

/-- R308, R303 to R306: on legal arguments and buffers long enough, `ADAM7.INTERLACE` completes: every bit of every pixel goes to
its place in the reduced images, the uncovered bits are 0, and the bank and `DST_LEN` are as the geometry says; a short source and a
short destination fail. -/
def Obligations.InterlaceGathersEveryPixel : Prop :=
  ∀ s : State,
    let r := s.operands
    let w := r.imgW.toNat
    let h := r.imgH.toNat
    let b := r.bpp
    let base := r.dstAddr.toNat
    let reduced := (geometry w h b).ustart.getD 7 0
    let full := (w * h * b + 7) / 8
    let failed := fun e => exec .adam7Interlace s = .next (s.fail e [.adam7, .dstLen] (some r.dst))
    Adam7Legal r → RegionsOk .adam7Interlace s →
    (r.srcLen.toNat < full → failed .trunc) ∧
    (full ≤ r.srcLen.toNat → r.dstCap.toNat < reduced → failed .dstFull) ∧
    (full ≤ r.srcLen.toNat → reduced ≤ r.dstCap.toNat → ∃ m,
      exec .adam7Interlace s =
        .next (s.succeed { s.regs.withGeometry (geometry w h b) with dstLen := word reduced } m) ∧
      (∀ (p : Fin 7) (i j k : Nat), i < (passSize w h p).1 → j < (passSize w h p).2 → k < b →
        memImageBit m base (reducedBit w h b p i j k) = memImageBit s.mem r.srcAddr.toNat (fullBit w b p i j k)) ∧
      (∀ n < 8 * reduced, ¬ reducedBitCovered w h b n → memImageBit m base n = false) ∧
      ∀ a, a < base ∨ base + reduced ≤ a → m.read a = s.mem.read a)

/-- R309: on legal arguments and buffers long enough, `ADAM7.DEINTERLACE` completes with the inverse copy: every bit of every
reduced pixel goes to its place in the full image, and the bits above the last pixel are 0; a short source and a short destination
fail. -/
def Obligations.DeinterlaceScattersEveryPixel : Prop :=
  ∀ s : State,
    let r := s.operands
    let w := r.imgW.toNat
    let h := r.imgH.toNat
    let b := r.bpp
    let base := r.dstAddr.toNat
    let reduced := (geometry w h b).ustart.getD 7 0
    let full := (w * h * b + 7) / 8
    let failed := fun e => exec .adam7Deinterlace s = .next (s.fail e [.adam7, .dstLen] (some r.dst))
    Adam7Legal r → RegionsOk .adam7Deinterlace s →
    (r.srcLen.toNat < reduced → failed .trunc) ∧
    (reduced ≤ r.srcLen.toNat → r.dstCap.toNat < full → failed .dstFull) ∧
    (reduced ≤ r.srcLen.toNat → full ≤ r.dstCap.toNat → ∃ m,
      exec .adam7Deinterlace s = .next (s.succeed { s.regs.withGeometry (geometry w h b) with dstLen := word full } m) ∧
      (∀ (p : Fin 7) (i j k : Nat), i < (passSize w h p).1 → j < (passSize w h p).2 → k < b →
        memImageBit m base (fullBit w b p i j k) = memImageBit s.mem r.srcAddr.toNat (reducedBit w h b p i j k)) ∧
      (∀ n, w * h * b ≤ n → n < 8 * full → memImageBit m base n = false) ∧
      ∀ a, a < base ∨ base + full ≤ a → m.read a = s.mem.read a)

/-- R311: de-interlacing an interlaced image gives the image back with the bits above it 0; and interlacing a de-interlaced buffer
gives that buffer back when its pad bits are 0. -/
def Obligations.InterlaceRoundTrips : Prop :=
  ∀ s t u : State,
    let r := s.operands
    let w := r.imgW.toNat
    let h := r.imgH.toNat
    let b := r.bpp
    let reduced := (geometry w h b).ustart.getD 7 0
    let full := (w * h * b + 7) / 8
    let src := r.srcAddr.toNat
    let out := u.operands.dstAddr.toNat
    u.operands.imgW = r.imgW → u.operands.imgH = r.imgH → u.operands.bpp = b → t.status.error = false →
    (exec .adam7Interlace s = .next t →
      reduced ≤ u.operands.srcLen.toNat → full ≤ u.operands.dstCap.toNat → RegionsOk .adam7Deinterlace u →
      bytesAt u.mem u.operands.srcAddr.toNat reduced = bytesAt t.mem r.dstAddr.toNat reduced →
      ∃ x, exec .adam7Deinterlace u = .next x ∧ x.status = u.status.succeeded ∧
        (∀ k < w * h * b, memImageBit x.mem out k = memImageBit s.mem src k) ∧
        ∀ k, w * h * b ≤ k → k < 8 * full → memImageBit x.mem out k = false) ∧
    (exec .adam7Deinterlace s = .next t →
      (∀ k < 8 * reduced, ¬ reducedBitCovered w h b k → memImageBit s.mem src k = false) →
      full ≤ u.operands.srcLen.toNat → reduced ≤ u.operands.dstCap.toNat → RegionsOk .adam7Interlace u →
      bytesAt u.mem u.operands.srcAddr.toNat full = bytesAt t.mem r.dstAddr.toNat full →
      ∃ x, exec .adam7Interlace u = .next x ∧ x.status = u.status.succeeded ∧
        ∀ k < 8 * reduced, memImageBit x.mem out k = memImageBit s.mem src k)

/-- R312: the argument checks of the three Adam7 commands in their order, before the region checks, and the chain of sizes that
makes every size and offset fit 32 bits when they pass. -/
def Obligations.AdamSevenArgumentChecks : Prop :=
  (∀ (i : Instr) (s : State), i ∈ [.adam7Geometry, .adam7Interlace, .adam7Deinterlace] →
    let r := s.operands
    (r.bpp ∉ [1, 2, 3, 4, 5, 6, 7, 8, 16, 24, 32, 40, 48, 56, 64] → exec i s = .next (s.fail .badArg [] none)) ∧
    (r.bpp ∈ [1, 2, 3, 4, 5, 6, 7, 8, 16, 24, 32, 40, 48, 56, 64] →
      2 ^ 32 - 1 < (geometry r.imgW.toNat r.imgH.toNat r.bpp).fstart.getD 7 0 →
      exec i s = .next (s.fail .imgTooLarge [] none)) ∧
    (Adam7Legal r → ∃ t, exec i s = .next t ∧ t.status.errCode ≠ some .badArg ∧ t.status.errCode ≠ some .imgTooLarge)) ∧
  ∀ w h b : Nat,
    let g := geometry w h b
    (w * h * b + 7) / 8 ≤ g.ustart.getD 7 0 ∧ g.ustart.getD 7 0 ≤ g.pstart.getD 7 0 ∧ g.pstart.getD 7 0 ≤ g.fstart.getD 7 0 ∧
    g.fstart.getD 7 0 = filteredTotal w h b ∧
    ∀ k < 8, g.ustart.getD k 0 ≤ g.ustart.getD 7 0 ∧ g.pstart.getD k 0 ≤ g.pstart.getD 7 0 ∧ g.fstart.getD k 0 ≤ g.fstart.getD 7 0
end

