-- ==== Sys2Proof/Laws/State.lean ====
section
/-! SUPPORT. One lemma for each field and each update of the state, the status and the registers, so that no proof unfolds a record
update. -/

namespace Sys2Proof.Machine

section
variable (s : State) (st : Status) (r : Regs) (w v : Word) (m : Memory) (e : ErrCode) (ws : List WReg) (dst : Option Region)
  (resp : Response) (draw : Nat) (g : Geometry) (i : Instr)

/-! ## Status -/

@[simp] theorem Status.accepted_busy : (st.accepted).busy = true := rfl
@[simp] theorem Status.accepted_done : (st.accepted).done = false := rfl
@[simp] theorem Status.accepted_error : (st.accepted).error = false := rfl
@[simp] theorem Status.accepted_overrun : (st.accepted).overrun = st.overrun := rfl
@[simp] theorem Status.accepted_errCode : (st.accepted).errCode = none := rfl
@[simp] theorem Status.succeeded_busy : (st.succeeded).busy = false := rfl
@[simp] theorem Status.succeeded_done : (st.succeeded).done = true := rfl
@[simp] theorem Status.succeeded_error : (st.succeeded).error = false := rfl
@[simp] theorem Status.succeeded_overrun : (st.succeeded).overrun = st.overrun := rfl
@[simp] theorem Status.succeeded_errCode : (st.succeeded).errCode = none := rfl
@[simp] theorem Status.failed_busy : (st.failed e).busy = false := rfl
@[simp] theorem Status.failed_done : (st.failed e).done = true := rfl
@[simp] theorem Status.failed_error : (st.failed e).error = true := rfl
@[simp] theorem Status.failed_overrun : (st.failed e).overrun = st.overrun := rfl
@[simp] theorem Status.failed_errCode : (st.failed e).errCode = some e := rfl
@[simp] theorem Status.overran_busy : (st.overran).busy = st.busy := rfl
@[simp] theorem Status.overran_done : (st.overran).done = st.done := rfl
@[simp] theorem Status.overran_error : (st.overran).error = st.error := rfl
@[simp] theorem Status.overran_overrun : (st.overran).overrun = true := rfl
@[simp] theorem Status.overran_errCode : (st.overran).errCode = st.errCode := rfl
@[simp] theorem Status.writeOneToClear_busy : (st.writeOneToClear v).busy = st.busy := rfl
@[simp] theorem Status.writeOneToClear_done : (st.writeOneToClear v).done = (st.done && !v.getLsbD 1) := rfl
@[simp] theorem Status.writeOneToClear_error : (st.writeOneToClear v).error = st.error := rfl
@[simp] theorem Status.writeOneToClear_overrun : (st.writeOneToClear v).overrun = (st.overrun && !v.getLsbD 3) := rfl
@[simp] theorem Status.writeOneToClear_errCode : (st.writeOneToClear v).errCode = st.errCode := rfl

/-! ## State -/

@[simp] theorem State.accept_regs : (s.accept w).regs = s.regs.store .cmd w := rfl
@[simp] theorem State.accept_status : (s.accept w).status = s.status.accepted := rfl
@[simp] theorem State.accept_latched : (s.accept w).latched = some (s.regs.store .cmd w) := rfl
@[simp] theorem State.accept_mem : (s.accept w).mem = s.mem := rfl
@[simp] theorem State.accept_hidden : (s.accept w).hidden = s.hidden := rfl
@[simp] theorem State.accept_platform : (s.accept w).platform = s.platform := rfl
@[simp] theorem State.accept_agenda : (s.accept w).agenda = s.agenda := rfl
@[simp] theorem State.accept_resp : (s.accept w).resp = s.resp := rfl
@[simp] theorem State.accept_draws : (s.accept w).draws = s.draws := rfl
@[simp] theorem State.succeed_regs : (s.succeed r m).regs = { r with errInfo := 0 } := rfl
@[simp] theorem State.succeed_status : (s.succeed r m).status = s.status.succeeded := rfl
@[simp] theorem State.succeed_latched : (s.succeed r m).latched = none := rfl
@[simp] theorem State.succeed_mem : (s.succeed r m).mem = m := rfl
@[simp] theorem State.succeed_hidden : (s.succeed r m).hidden = Config.freeHidden s.draws := rfl
@[simp] theorem State.succeed_platform : (s.succeed r m).platform = s.platform := rfl
@[simp] theorem State.succeed_agenda : (s.succeed r m).agenda = s.agenda := rfl
@[simp] theorem State.succeed_resp : (s.succeed r m).resp = s.resp := rfl
@[simp] theorem State.succeed_draws : (s.succeed r m).draws = s.draws + 1 := rfl
@[simp] theorem State.fail_regs : (s.fail e ws dst).regs = s.regs.free ws s.draws := rfl
@[simp] theorem State.fail_status : (s.fail e ws dst).status = s.status.failed e := rfl
@[simp] theorem State.fail_latched : (s.fail e ws dst).latched = none := rfl
@[simp] theorem State.fail_hidden : (s.fail e ws dst).hidden = Config.freeHidden s.draws := rfl
@[simp] theorem State.fail_platform : (s.fail e ws dst).platform = s.platform := rfl
@[simp] theorem State.fail_agenda : (s.fail e ws dst).agenda = s.agenda := rfl
@[simp] theorem State.fail_resp : (s.fail e ws dst).resp = s.resp := rfl
@[simp] theorem State.fail_draws : (s.fail e ws dst).draws = s.draws + 1 := rfl
@[simp] theorem State.resetEngine_regs : (s.resetEngine dst).regs = Regs.reset := rfl
@[simp] theorem State.resetEngine_status : (s.resetEngine dst).status = Status.reset := rfl
@[simp] theorem State.resetEngine_latched : (s.resetEngine dst).latched = none := rfl
@[simp] theorem State.resetEngine_hidden : (s.resetEngine dst).hidden = Config.freeHidden s.draws := rfl
@[simp] theorem State.resetEngine_platform : (s.resetEngine dst).platform = s.platform := rfl
@[simp] theorem State.resetEngine_agenda : (s.resetEngine dst).agenda = s.agenda := rfl
@[simp] theorem State.resetEngine_resp : (s.resetEngine dst).resp = s.resp := rfl
@[simp] theorem State.resetEngine_draws : (s.resetEngine dst).draws = s.draws + 1 := rfl
@[simp] theorem State.respondFree_regs : (s.respondFree resp).regs = s.regs := rfl
@[simp] theorem State.respondFree_status : (s.respondFree resp).status = s.status := rfl
@[simp] theorem State.respondFree_latched : (s.respondFree resp).latched = s.latched := rfl
@[simp] theorem State.respondFree_mem : (s.respondFree resp).mem = s.mem := rfl
@[simp] theorem State.respondFree_hidden : (s.respondFree resp).hidden = s.hidden := rfl
@[simp] theorem State.respondFree_platform : (s.respondFree resp).platform = s.platform := rfl
@[simp] theorem State.respondFree_agenda : (s.respondFree resp).agenda = s.agenda := rfl
@[simp] theorem State.respondFree_resp : (s.respondFree resp).resp = resp := rfl
@[simp] theorem State.respondFree_draws : (s.respondFree resp).draws = s.draws + 1 := rfl
@[simp] theorem State.popEvent_regs : (s.popEvent).regs = s.regs := rfl
@[simp] theorem State.popEvent_status : (s.popEvent).status = s.status := rfl
@[simp] theorem State.popEvent_latched : (s.popEvent).latched = s.latched := rfl
@[simp] theorem State.popEvent_mem : (s.popEvent).mem = s.mem := rfl
@[simp] theorem State.popEvent_hidden : (s.popEvent).hidden = s.hidden := rfl
@[simp] theorem State.popEvent_platform : (s.popEvent).platform = s.platform := rfl
@[simp] theorem State.popEvent_agenda : (s.popEvent).agenda = s.agenda.tail := rfl
@[simp] theorem State.popEvent_resp : (s.popEvent).resp = s.resp := rfl
@[simp] theorem State.popEvent_draws : (s.popEvent).draws = s.draws := rfl
@[simp] theorem State.withCommand_regs : (s.withCommand w).regs = s.regs.store .cmd w := rfl
@[simp] theorem State.withCommand_status : (s.withCommand w).status = s.status.accepted := rfl
@[simp] theorem State.withCommand_latched : (s.withCommand w).latched = some (s.regs.store .cmd w) := rfl
@[simp] theorem State.withCommand_mem : (s.withCommand w).mem = s.mem := rfl
@[simp] theorem State.withCommand_hidden : (s.withCommand w).hidden = s.hidden := rfl
@[simp] theorem State.withCommand_platform : (s.withCommand w).platform = s.platform := rfl
@[simp] theorem State.withCommand_resp : (s.withCommand w).resp = s.resp := rfl
@[simp] theorem State.withCommand_draws : (s.withCommand w).draws = s.draws := rfl

@[simp] theorem State.fail_mem_none : (s.fail e ws none).mem = s.mem := rfl
@[simp] theorem State.fail_mem_some (d : Region) : (s.fail e ws (some d)).mem = s.mem.free d s.draws := rfl
@[simp] theorem State.resetEngine_mem_none : (s.resetEngine none).mem = s.mem := rfl
@[simp] theorem State.resetEngine_mem_some (d : Region) : (s.resetEngine (some d)).mem = s.mem.free d s.draws := rfl
theorem State.operands_latched {l : Regs} (h : s.latched = some l) : s.operands = l := by simp [State.operands, h]
theorem State.operands_idle (h : s.latched = none) : s.operands = s.regs := by simp [State.operands, h]
@[simp] theorem State.accept_operands : (s.accept w).operands = s.regs.store .cmd w := rfl
@[simp] theorem State.withCommand_operands : (s.withCommand w).operands = s.regs.store .cmd w := rfl
@[simp] theorem State.succeed_operands : (s.succeed r m).operands = (s.succeed r m).regs := rfl
@[simp] theorem State.fail_operands : (s.fail e ws dst).operands = (s.fail e ws dst).regs := rfl
@[simp] theorem State.popEvent_operands : s.popEvent.operands = s.operands := rfl

/-! ## Registers -/

@[simp] theorem Regs.free_cmd : (r.free ws draw).cmd = r.cmd := rfl
@[simp] theorem Regs.free_irqEn : (r.free ws draw).irqEn = r.irqEn := rfl
@[simp] theorem Regs.free_window : (r.free ws draw).window = r.window := rfl
@[simp] theorem Regs.free_matchCfg : (r.free ws draw).matchCfg = r.matchCfg := rfl
@[simp] theorem Regs.free_mode : (r.free ws draw).mode = r.mode := rfl
@[simp] theorem Regs.free_srcAddr : (r.free ws draw).srcAddr = r.srcAddr := rfl
@[simp] theorem Regs.free_srcLen : (r.free ws draw).srcLen = r.srcLen := rfl
@[simp] theorem Regs.free_dstAddr : (r.free ws draw).dstAddr = r.dstAddr := rfl
@[simp] theorem Regs.free_dstCap : (r.free ws draw).dstCap = r.dstCap := rfl
@[simp] theorem Regs.free_dstLen : (r.free ws draw).dstLen = freeIf ws .dstLen draw 1 r.dstLen := rfl
@[simp] theorem Regs.free_auxAddr : (r.free ws draw).auxAddr = r.auxAddr := rfl
@[simp] theorem Regs.free_arg0 : (r.free ws draw).arg0 = r.arg0 := rfl
@[simp] theorem Regs.free_arg1 : (r.free ws draw).arg1 = r.arg1 := rfl
@[simp] theorem Regs.free_arg2 : (r.free ws draw).arg2 = r.arg2 := rfl
@[simp] theorem Regs.free_result0 : (r.free ws draw).result0 = freeIf ws .result0 draw 2 r.result0 := rfl
@[simp] theorem Regs.free_result1 : (r.free ws draw).result1 = freeIf ws .result1 draw 3 r.result1 := rfl
@[simp] theorem Regs.free_adler : (r.free ws draw).adler = freeIf ws .adler draw 4 r.adler := rfl
@[simp] theorem Regs.free_srcBitpos : (r.free ws draw).srcBitpos = freeIf ws .srcBitpos draw 5 r.srcBitpos := rfl
@[simp] theorem Regs.free_dstBitpos : (r.free ws draw).dstBitpos = freeIf ws .dstBitpos draw 6 r.dstBitpos := rfl
@[simp] theorem Regs.free_imgW : (r.free ws draw).imgW = r.imgW := rfl
@[simp] theorem Regs.free_imgH : (r.free ws draw).imgH = r.imgH := rfl
@[simp] theorem Regs.free_imgBpp : (r.free ws draw).imgBpp = r.imgBpp := rfl
@[simp] theorem Regs.free_errInfo : (r.free ws draw).errInfo = Config.freeWord draw 0 := rfl
@[simp] theorem Regs.free_passW : (r.free ws draw).passW = freeVectorIf ws draw 7 r.passW := rfl
@[simp] theorem Regs.free_passH : (r.free ws draw).passH = freeVectorIf ws draw 14 r.passH := rfl
@[simp] theorem Regs.free_fstart : (r.free ws draw).fstart = freeVectorIf ws draw 21 r.fstart := rfl
@[simp] theorem Regs.free_pstart : (r.free ws draw).pstart = freeVectorIf ws draw 29 r.pstart := rfl
@[simp] theorem Regs.free_ustart : (r.free ws draw).ustart = freeVectorIf ws draw 37 r.ustart := rfl
@[simp] theorem Regs.withGeometry_cmd : (r.withGeometry g).cmd = r.cmd := rfl
@[simp] theorem Regs.withGeometry_irqEn : (r.withGeometry g).irqEn = r.irqEn := rfl
@[simp] theorem Regs.withGeometry_window : (r.withGeometry g).window = r.window := rfl
@[simp] theorem Regs.withGeometry_matchCfg : (r.withGeometry g).matchCfg = r.matchCfg := rfl
@[simp] theorem Regs.withGeometry_mode : (r.withGeometry g).mode = r.mode := rfl
@[simp] theorem Regs.withGeometry_srcAddr : (r.withGeometry g).srcAddr = r.srcAddr := rfl
@[simp] theorem Regs.withGeometry_srcLen : (r.withGeometry g).srcLen = r.srcLen := rfl
@[simp] theorem Regs.withGeometry_dstAddr : (r.withGeometry g).dstAddr = r.dstAddr := rfl
@[simp] theorem Regs.withGeometry_dstCap : (r.withGeometry g).dstCap = r.dstCap := rfl
@[simp] theorem Regs.withGeometry_dstLen : (r.withGeometry g).dstLen = r.dstLen := rfl
@[simp] theorem Regs.withGeometry_auxAddr : (r.withGeometry g).auxAddr = r.auxAddr := rfl
@[simp] theorem Regs.withGeometry_arg0 : (r.withGeometry g).arg0 = r.arg0 := rfl
@[simp] theorem Regs.withGeometry_arg1 : (r.withGeometry g).arg1 = r.arg1 := rfl
@[simp] theorem Regs.withGeometry_arg2 : (r.withGeometry g).arg2 = r.arg2 := rfl
@[simp] theorem Regs.withGeometry_result0 : (r.withGeometry g).result0 = r.result0 := rfl
@[simp] theorem Regs.withGeometry_result1 : (r.withGeometry g).result1 = r.result1 := rfl
@[simp] theorem Regs.withGeometry_adler : (r.withGeometry g).adler = r.adler := rfl
@[simp] theorem Regs.withGeometry_srcBitpos : (r.withGeometry g).srcBitpos = r.srcBitpos := rfl
@[simp] theorem Regs.withGeometry_dstBitpos : (r.withGeometry g).dstBitpos = r.dstBitpos := rfl
@[simp] theorem Regs.withGeometry_imgW : (r.withGeometry g).imgW = r.imgW := rfl
@[simp] theorem Regs.withGeometry_imgH : (r.withGeometry g).imgH = r.imgH := rfl
@[simp] theorem Regs.withGeometry_imgBpp : (r.withGeometry g).imgBpp = r.imgBpp := rfl
@[simp] theorem Regs.withGeometry_errInfo : (r.withGeometry g).errInfo = r.errInfo := rfl
@[simp] theorem Regs.withGeometry_passW : (r.withGeometry g).passW = Vector.ofFn fun i => word (g.sizes.getD i.val (0, 0)).1 := rfl
@[simp] theorem Regs.withGeometry_passH : (r.withGeometry g).passH = Vector.ofFn fun i => word (g.sizes.getD i.val (0, 0)).2 := rfl
@[simp] theorem Regs.withGeometry_fstart : (r.withGeometry g).fstart = Vector.ofFn fun i => word (g.fstart.getD i.val 0) := rfl
@[simp] theorem Regs.withGeometry_pstart : (r.withGeometry g).pstart = Vector.ofFn fun i => word (g.pstart.getD i.val 0) := rfl
@[simp] theorem Regs.withGeometry_ustart : (r.withGeometry g).ustart = Vector.ofFn fun i => word (g.ustart.getD i.val 0) := rfl
@[simp] theorem Regs.store_window : r.store .window v = { r with window := v } := rfl
@[simp] theorem Regs.store_matchCfg : r.store .matchCfg v = { r with matchCfg := v &&& matchMask } := rfl
@[simp] theorem Regs.store_mode : r.store .mode v = { r with mode := v &&& modeMask } := rfl
@[simp] theorem Regs.store_srcAddr : r.store .srcAddr v = { r with srcAddr := v } := rfl
@[simp] theorem Regs.store_srcLen : r.store .srcLen v = { r with srcLen := v } := rfl
@[simp] theorem Regs.store_dstAddr : r.store .dstAddr v = { r with dstAddr := v } := rfl
@[simp] theorem Regs.store_dstCap : r.store .dstCap v = { r with dstCap := v } := rfl
@[simp] theorem Regs.store_auxAddr : r.store .auxAddr v = { r with auxAddr := v } := rfl
@[simp] theorem Regs.store_arg0 : r.store .arg0 v = { r with arg0 := v } := rfl
@[simp] theorem Regs.store_arg1 : r.store .arg1 v = { r with arg1 := v } := rfl
@[simp] theorem Regs.store_arg2 : r.store .arg2 v = { r with arg2 := v } := rfl
@[simp] theorem Regs.store_adler : r.store .adler v = { r with adler := v } := rfl
@[simp] theorem Regs.store_srcBitpos : r.store .srcBitpos v = { r with srcBitpos := v } := rfl
@[simp] theorem Regs.store_dstBitpos : r.store .dstBitpos v = { r with dstBitpos := v } := rfl
@[simp] theorem Regs.store_imgW : r.store .imgW v = { r with imgW := v } := rfl
@[simp] theorem Regs.store_imgH : r.store .imgH v = { r with imgH := v } := rfl
@[simp] theorem Regs.store_imgBpp : r.store .imgBpp v = { r with imgBpp := v &&& imgBppMask } := rfl
@[simp] theorem Regs.store_irqEn : r.store .irqEn v = { r with irqEn := v &&& irqEnMask } := rfl
@[simp] theorem Regs.store_cmd : r.store .cmd v = { r with cmd := v } := rfl

@[simp] theorem freeIf_listed {x : WReg} (h : x ∈ ws) (item : Nat) (old : Word) :
    freeIf ws x draw item old = Config.freeWord draw item := by simp [freeIf, h]
@[simp] theorem freeIf_unlisted {x : WReg} (h : x ∉ ws) (item : Nat) (old : Word) : freeIf ws x draw item old = old := by
  simp [freeIf, h]
@[simp] theorem freeVectorIf_unlisted {n : Nat} (h : WReg.adam7 ∉ ws) (first : Nat) (old : Vector Word n) :
    freeVectorIf ws draw first old = old := by simp [freeVectorIf, h]

end

end Sys2Proof.Machine
end

