-- ==== Sys2Proof/Laws/Command.lean ====
section
/-! SUPPORT. What a command can do, said once: its three outcomes, and that it always answers a next state; what its check
combinators answer. -/

namespace Sys2Proof.Machine

/-! ## Checks -/

@[simp] theorem failIf_of_true {c : Prop} [Decidable c] (e : ErrCode) (h : c) : failIf c e = .error e := if_pos h

@[simp] theorem failIf_of_false {c : Prop} [Decidable c] (e : ErrCode) (h : ¬ c) : failIf c e = .ok () := if_neg h

theorem failIf_eq_ok {c : Prop} [Decidable c] {e : ErrCode} {u : Unit} : failIf c e = .ok u ↔ ¬ c := by
  unfold failIf
  split <;> simp_all

theorem failIf_eq_error {c : Prop} [Decidable c] {e f : ErrCode} : failIf c e = .error f ↔ c ∧ e = f := by
  unfold failIf
  split <;> simp_all

/-- A sequence of steps succeeds exactly when both parts do. -/
theorem bind_eq_ok {α β : Type} {x : Except ErrCode α} {f : α → Except ErrCode β} {b : β} :
    (x >>= f) = .ok b ↔ ∃ a, x = .ok a ∧ f a = .ok b := by
  cases x <;> simp [bind, Except.bind]

/-- A sequence of steps fails in its first part or in its second. -/
theorem bind_eq_error {α β : Type} {x : Except ErrCode α} {f : α → Except ErrCode β} {e : ErrCode} :
    (x >>= f) = .error e ↔ x = .error e ∨ ∃ a, x = .ok a ∧ f a = .error e := by
  cases x <;> simp [bind, Except.bind]

/-- A check followed by more steps succeeds exactly when the check passes and they succeed. -/
theorem check_then_eq_ok {α : Type} {c : Prop} [Decidable c] {e : ErrCode} {f : Unit → Except ErrCode α} {a : α} :
    (failIf c e >>= f) = .ok a ↔ ¬ c ∧ f () = .ok a := by
  unfold failIf
  split <;> simp_all [bind, Except.bind]

/-- A check followed by more steps fails in the check, or passes it and fails later. -/
theorem check_then_eq_error {α : Type} {c : Prop} [Decidable c] {e g : ErrCode} {f : Unit → Except ErrCode α} :
    (failIf c e >>= f) = .error g ↔ (c ∧ e = g) ∨ (¬ c ∧ f () = .error g) := by
  unfold failIf
  split <;> simp_all [bind, Except.bind]

/-! ## The frame of a command -/

/-- All pre-checks of a command: its own arguments, then its regions. -/
theorem preChecks_eq_ok {i : Instr} {s : State} {args : Except ErrCode Unit} :
    (args.bind fun _ => regionChecks i s.operands s.platform) = .ok () ↔
      args = .ok () ∧ regionChecks i s.operands s.platform = .ok () := by
  cases args <;> simp [Except.bind]

/-- The three outcomes of a command: a pre-check failure, a later failure, or success. -/
theorem runCommand_cases (i : Instr) (s : State) (args : Except ErrCode Unit)
    (body : Unit → Except ErrCode (Regs × Memory)) :
    (∃ e, (args.bind fun _ => regionChecks i s.operands s.platform) = .error e ∧
      runCommand i s args body = .next (s.fail e [] none)) ∨
    (args = .ok () ∧ regionChecks i s.operands s.platform = .ok () ∧
      ((∃ e, body () = .error e ∧ runCommand i s args body = .next (s.fail e (writesOf i) (dstRegion i s.operands))) ∨
        ∃ r m, body () = .ok (r, m) ∧ runCommand i s args body = .next (s.succeed r m))) := by
  cases h : args.bind fun _ => regionChecks i s.operands s.platform with
  | error e => exact .inl ⟨e, rfl, by simp [runCommand, h]⟩
  | ok u =>
    obtain ⟨ha, hr⟩ := preChecks_eq_ok.1 h
    refine .inr ⟨ha, hr, ?_⟩
    cases hb : body () with
    | error e => exact .inl ⟨e, rfl, by simp [runCommand, h, hb]⟩
    | ok p => exact .inr ⟨p.1, p.2, rfl, by simp [runCommand, h, hb]⟩

/-- A command whose checks pass and whose execution succeeds. -/
theorem runCommand_success {i : Instr} {s : State} {args : Except ErrCode Unit}
    {body : Unit → Except ErrCode (Regs × Memory)} {r : Regs} {m : Memory} (ha : args = .ok ())
    (hr : regionChecks i s.operands s.platform = .ok ()) (hb : body () = .ok (r, m)) :
    runCommand i s args body = .next (s.succeed r m) := by
  simp [runCommand, ha, hr, hb, Except.bind]

/-- A command that fails one of its pre-checks. -/
theorem runCommand_preCheck {i : Instr} {s : State} {args : Except ErrCode Unit}
    {body : Unit → Except ErrCode (Regs × Memory)} {e : ErrCode}
    (h : (args.bind fun _ => regionChecks i s.operands s.platform) = .error e) :
    runCommand i s args body = .next (s.fail e [] none) := by
  simp [runCommand, h]

/-- A command that fails after its pre-checks. -/
theorem runCommand_failure {i : Instr} {s : State} {args : Except ErrCode Unit}
    {body : Unit → Except ErrCode (Regs × Memory)} {e : ErrCode} (ha : args = .ok ())
    (hr : regionChecks i s.operands s.platform = .ok ()) (hb : body () = .error e) :
    runCommand i s args body = .next (s.fail e (writesOf i) (dstRegion i s.operands)) := by
  simp [runCommand, ha, hr, hb, Except.bind]

/-- Every command is `runCommand` of its own checks and its own execution. -/
theorem exec_eq_runCommand (i : Instr) (s : State) : ∃ args body, exec i s = runCommand i s args body := by
  cases i <;> unfold exec
  · unfold execNop; exact ⟨_, _, rfl⟩
  · unfold execBitsPut; exact ⟨_, _, rfl⟩
  · unfold execBitsGet; exact ⟨_, _, rfl⟩
  · unfold execLz77Tokenize; exact ⟨_, _, rfl⟩
  · unfold execHuffBuildFreq; exact ⟨_, _, rfl⟩
  · unfold execHuffBuildLengths; exact ⟨_, _, rfl⟩
  · unfold execHuffEncodeSym; exact ⟨_, _, rfl⟩
  · unfold execHuffDecodeSym; exact ⟨_, _, rfl⟩
  · unfold execTreeWrite; exact ⟨_, _, rfl⟩
  · unfold execTreeRead; exact ⟨_, _, rfl⟩
  · unfold execDeflateRaw; exact ⟨_, _, rfl⟩
  · unfold execInflateRaw; exact ⟨_, _, rfl⟩
  · unfold execZlibCompress; exact ⟨_, _, rfl⟩
  · unfold execZlibDecompress; exact ⟨_, _, rfl⟩
  · unfold execAdler32; exact ⟨_, _, rfl⟩
  · unfold execAdam7Geometry; exact ⟨_, _, rfl⟩
  · unfold execAdam7Interlace; exact ⟨_, _, rfl⟩
  · unfold execAdam7Deinterlace; exact ⟨_, _, rfl⟩

/-- Every command answers a next state. -/
theorem exec_next (i : Instr) (s : State) : ∃ t, exec i s = .next t := by
  obtain ⟨args, body, h⟩ := exec_eq_runCommand i s
  rw [h]
  rcases runCommand_cases i s args body with ⟨e, -, h⟩ | ⟨-, -, ⟨e, -, h⟩ | ⟨r, m, -, h⟩⟩ <;> exact ⟨_, h⟩

end Sys2Proof.Machine
end

