-- ==== Sys2Proof/Laws/Checks.lean ====
section
/-! SUPPORT. What the pre-checks say, in terms of addresses: a region that hits a hole has a byte the bus does not take, two regions
that share have a common byte, and all region checks pass exactly when `RegionsOk` holds; the window checks pass exactly when
`WindowLegal` holds. -/

namespace Sys2Proof.Machine

theorem Region.wraps_eq_false {r : Region} : r.wraps = false ↔ r.len = 0 ∨ r.base + r.len ≤ 2 ^ 32 := by
  rw [Region.wraps, Bool.and_eq_false_iff, decide_eq_false_iff_not, decide_eq_false_iff_not, Config.addrSpace]
  omega

theorem Region.covers_iff {r : Region} {a : Nat} : r.covers a = true ↔ r.base ≤ a ∧ a < r.base + r.len := by
  simp [Region.covers]

theorem Platform.busOk_iff {p : Platform} {a : Nat} : p.busOk a = true ↔ ∀ h ∈ p.busHoles, ¬ (h.1 ≤ a ∧ a < h.2) := by
  simp [Platform.busOk]

/-- A region hits a hole exactly when the bus does not take one of its bytes. -/
theorem Region.hitsHole_iff {r : Region} {p : Platform} :
    r.hitsHole p = true ↔ ∃ a, r.covers a = true ∧ p.busOk a = false := by
  simp only [Region.hitsHole, Platform.busOk, List.any_eq_true, decide_eq_true_eq, Region.covers_iff, Bool.not_eq_false',
    Bool.and_eq_true]
  constructor
  · rintro ⟨h, hm, hlt⟩
    exact ⟨max r.base h.1, by omega, h, hm, by omega, by omega⟩
  · rintro ⟨a, ha, h, hm, h1, h2⟩
    exact ⟨h, hm, by omega⟩

/-- Two regions share exactly when some byte is in both. -/
theorem Region.shares_iff {r q : Region} : r.shares q = true ↔ ∃ a, r.covers a = true ∧ q.covers a = true := by
  simp only [Region.shares, decide_eq_true_eq, Region.covers_iff]
  constructor
  · intro h
    exact ⟨max r.base q.base, by omega, by omega⟩
  · rintro ⟨a, ha, hb⟩
    omega

/-- The region checks in order: each error under exactly its condition (20_memory.md R63 to R65). -/
theorem regionChecks_ok_iff (i : Instr) (s : State) : regionChecks i s.operands s.platform = .ok () ↔ RegionsOk i s := by
  unfold regionChecks
  simp only [check_then_eq_ok, failIf_eq_ok]
  constructor
  · rintro ⟨h1, h2, h3⟩
    refine ⟨fun r hr => ?_, fun r hr a ha => ?_, fun d hd q hq a hc => h3 ?_⟩
    · exact Region.wraps_eq_false.1 (by simpa using (List.any_eq_false.1 ((Bool.not_eq_true _).mp h1)) r hr)
    · by_contra hb
      exact h2 (List.any_eq_true.2 ⟨r, hr, Region.hitsHole_iff.2 ⟨a, ha, by simpa using hb⟩⟩)
    · exact List.any_eq_true.2 ⟨d, Option.mem_toList.2 hd, List.any_eq_true.2 ⟨q, hq, Region.shares_iff.2 ⟨a, hc⟩⟩⟩
  · rintro ⟨h1, h2, h3⟩
    refine ⟨fun h => ?_, fun h => ?_, fun h => ?_⟩
    · obtain ⟨r, hr, hw⟩ := List.any_eq_true.1 h
      rw [Region.wraps_eq_false.2 (h1 r hr)] at hw
      cases hw
    · obtain ⟨r, hr, hw⟩ := List.any_eq_true.1 h
      obtain ⟨a, ha, hb⟩ := Region.hitsHole_iff.1 hw
      rw [h2 r hr a ha] at hb
      cases hb
    · obtain ⟨d, hd, hw⟩ := List.any_eq_true.1 h
      obtain ⟨q, hq, hs⟩ := List.any_eq_true.1 hw
      obtain ⟨a, hc⟩ := Region.shares_iff.1 hs
      exact h3 d (Option.mem_toList.1 hd) q hq a hc

/-- The regions a command reads, in the spec's own map (30_encoding.md R92). -/
theorem inputRegions_eq_ruleInputs (i : Instr) (r : Regs) : inputRegions i r = ruleInputs i r := by cases i <;> rfl

/-- The region a command writes, in the spec's own map. -/
theorem dstRegion_toList_eq_ruleDst (i : Instr) (r : Regs) : (dstRegion i r).toList = ruleDst i r := by cases i <;> rfl

/-- The regions a command uses, in the spec's own map. -/
theorem usedRegions_eq_rule (i : Instr) (r : Regs) : usedRegions i r = ruleInputs i r ++ ruleDst i r := by cases i <;> rfl

/-- The window checks pass exactly on the powers of two in 1..32768 (10_state.md R27). -/
theorem windowChecks_ok_iff (r : Regs) : windowChecks r = .ok () ↔ WindowLegal r := by
  unfold windowChecks WindowLegal
  rw [check_then_eq_ok, failIf_eq_ok]
  simp only [not_not, List.any_eq_true, List.mem_range, beq_iff_eq, Config.windowMax]
  constructor
  · rintro ⟨-, k, hk, h⟩
    exact ⟨k, by omega, h.symm⟩
  · rintro ⟨k, hk, h⟩
    refine ⟨?_, k, by omega, h.symm⟩
    have h1 : 2 ^ k ≤ 2 ^ 15 := Nat.pow_le_pow_right (by omega) hk
    have h2 : 0 < 2 ^ k := Nat.two_pow_pos k
    omega

end Sys2Proof.Machine
end

