-- ==== Sys2Proof/Laws/Bits.lean ====
section
/-! SUPPORT. The laws of bit fields: their lengths, the value a field reads back as, and when a sequence of reads or writes
succeeds. -/

namespace Sys2Proof.Machine

@[simp] theorem lsbBits_length (v n : Nat) : (lsbBits v n).length = n := by simp [lsbBits]

@[simp] theorem msbBits_length (v n : Nat) : (msbBits v n).length = n := by simp [msbBits]

theorem msbBits_eq_reverse (v n : Nat) : msbBits v n = (lsbBits v n).reverse := by
  refine List.ext_getElem (by simp) fun i h1 h2 => ?_
  simp [msbBits, lsbBits]

theorem lsbBits_succ (v n : Nat) : lsbBits v (n + 1) = v.testBit 0 :: lsbBits (v / 2) n := by
  simp only [lsbBits, List.range_succ_eq_map, List.map_cons, List.map_map]
  congr 1
  refine List.map_congr_left fun i _ => ?_
  simp [Nat.testBit_succ]

/-- An LSB-first field reads back as its low bits. -/
theorem lsbValue_lsbBits (v n : Nat) : lsbValue (lsbBits v n) = v % 2 ^ n := by
  induction n generalizing v with
  | zero => simp [lsbBits, lsbValue, Nat.mod_one]
  | succ n ih =>
    rw [lsbBits_succ, lsbValue, ih]
    have h0 : (v.testBit 0).toNat = v % 2 := by
      rw [Nat.testBit_zero]
      rcases Nat.mod_two_eq_zero_or_one v with h | h <;> simp [h]
    have h1 : v % 2 ^ (n + 1) = v % 2 + 2 * (v / 2 % 2 ^ n) := by
      rw [Nat.pow_succ, Nat.mul_comm, Nat.mod_mul]
    omega

theorem msbValue_append (bs : List Bool) (b : Bool) : msbValue (bs ++ [b]) = 2 * msbValue bs + b.toNat := by
  simp [msbValue]

/-- Reading MSB-first is reading the reversed bits LSB-first. -/
theorem msbValue_reverse (bs : List Bool) : msbValue bs.reverse = lsbValue bs := by
  induction bs with
  | nil => rfl
  | cons b bs ih => rw [List.reverse_cons, msbValue_append, ih, lsbValue]; omega

/-- An MSB-first field reads back as its low bits. -/
theorem msbValue_msbBits (v n : Nat) : msbValue (msbBits v n) = v % 2 ^ n := by
  rw [msbBits_eq_reverse, msbValue_reverse, lsbValue_lsbBits]

theorem lsbValue_lt (bs : List Bool) : lsbValue bs < 2 ^ bs.length := by
  induction bs with
  | nil => simp [lsbValue]
  | cons b bs ih =>
    rw [lsbValue, List.length_cons, Nat.pow_succ]
    cases b <;> simp <;> omega

/-- Consecutive reads inside the limit give the buffer's bits and move the cursor. -/
theorem takeBits_ok (n : Nat) (r : Reader) (h : r.bp + n ≤ r.limit) :
    takeBits n r = .ok ((List.range n).map fun k => Buf.bit r.buf (r.bp + k), { r with bp := r.bp + n }) := by
  induction n generalizing r with
  | zero => rfl
  | succ n ih =>
    have hg : getBit r = .ok (Buf.bit r.buf r.bp, { r with bp := r.bp + 1 }) := if_neg (by omega)
    simp only [takeBits, hg, bind, Except.bind]
    rw [ih { r with bp := r.bp + 1 } (by simp only; omega)]
    simp only [List.range_succ_eq_map, List.map_cons, List.map_map, Nat.add_zero]
    refine congrArg Except.ok (Prod.ext (congrArg₂ _ rfl (List.map_congr_left fun k _ => ?_)) ?_)
    · simp only [Function.comp]
      congr 1
      omega
    · simp only [Reader.mk.injEq, true_and]
      omega

/-- A field inside the limit gives the buffer's bits and moves the cursor (41_bitstream.md R162). -/
theorem fieldBits_ok (r : Reader) (n : Nat) (h : r.bp + n ≤ r.limit) :
    fieldBits r n = .ok ((List.range n).map fun k => Buf.bit r.buf (r.bp + k), { r with bp := r.bp + n }) := by
  unfold fieldBits
  rw [failIf_of_false _ (by omega)]
  exact takeBits_ok n r h

/-- A nonempty field that does not fit fails whole (R162). -/
theorem fieldBits_trunc (r : Reader) (n : Nat) (h : r.limit < r.bp + n) (hn : 0 < n) : fieldBits r n = .error .trunc := by
  unfold fieldBits
  rw [failIf_of_true _ ⟨h, hn⟩]
  rfl

/-- Consecutive bits inside the capacity are all written (R165). -/
theorem putAll_ok (w : Writer) (bs : List Bool) (h : w.bp + bs.length ≤ 8 * w.cap) :
    putAll w bs = .ok { w with rev := bs.reverse ++ w.rev, bp := w.bp + bs.length } := by
  induction bs generalizing w with
  | nil => rfl
  | cons b bs ih =>
    simp only [List.length_cons] at h
    have hp : putBit w b = .ok { w with rev := b :: w.rev, bp := w.bp + 1 } := if_neg (by omega)
    simp only [putAll, hp, bind, Except.bind]
    rw [ih _ (by simp only; omega)]
    simp only [List.reverse_cons, List.append_assoc, List.singleton_append, List.length_cons, Except.ok.injEq,
      Writer.mk.injEq, true_and, and_true]
    omega

end Sys2Proof.Machine
end

