-- ==== Sys2Proof/Laws/Tab.lean ====
section
/-! SUPPORT. The laws of sparse tables: what a set key reads as, and that the others are untouched. -/

namespace Sys2Proof.Machine

variable {α : Type}

@[simp] theorem Tab.get_nil (k : Nat) : (Tab.nil : Tab α).get k = none := rfl

theorem Tab.get_put_self (fuel : Nat) (t : Tab α) (k : Nat) (x : Option α) (h : k < fuel) :
    (Tab.put fuel t k x).get k = x := by
  induction fuel generalizing t k with
  | zero => omega
  | succ f ih =>
    have hodd : k ≠ 0 → k / 2 < f := by omega
    have heven : k ≠ 0 → k / 2 - 1 < f := by omega
    cases t <;> simp only [Tab.put] <;> split
    all_goals first
      | (subst_vars; simp [Tab.get])
      | (split <;> simp_all [Tab.get])

theorem Tab.get_put_ne (fuel : Nat) (t : Tab α) (j k : Nat) (x : Option α) (h : j ≠ k) :
    (Tab.put fuel t k x).get j = t.get j := by
  induction fuel generalizing t j k with
  | zero => rfl
  | succ f ih =>
    have hodd : j % 2 = 1 → k % 2 = 1 → j / 2 ≠ k / 2 := by omega
    have heven : j ≠ 0 → k ≠ 0 → ¬ j % 2 = 1 → ¬ k % 2 = 1 → j / 2 - 1 ≠ k / 2 - 1 := by omega
    cases t <;> simp only [Tab.put, Tab.get] <;> split <;> try split
    all_goals simp only [Tab.get]
    all_goals (repeat' split)
    all_goals first | rfl | omega | (rw [ih _ _ _ (by omega)]; try rfl)

@[simp] theorem Tab.get_set_self (t : Tab α) (k : Nat) (x : Option α) : (t.set k x).get k = x :=
  Tab.get_put_self _ _ _ _ (Nat.lt_succ_self k)

theorem Tab.get_set_ne (t : Tab α) {j k : Nat} (x : Option α) (h : j ≠ k) : (t.set k x).get j = t.get j :=
  Tab.get_put_ne _ _ _ _ _ h

/-- What a table reads as after one entry is replaced. -/
theorem Tab.get_set (t : Tab α) (j k : Nat) (x : Option α) : (t.set k x).get j = if j = k then x else t.get j := by
  split
  · next h => rw [h, Tab.get_set_self]
  · next h => exact Tab.get_set_ne t x h

end Sys2Proof.Machine
end

