-- ==== Sys2Proof/Laws/Memory.lean ====
section
/-! SUPPORT. The laws of data memory: what a written byte reads as, that every other byte is untouched, that every operation keeps
the canonical form, that canonical memories with the same bytes are equal, and what a region buffer holds. -/

namespace Sys2Proof.Machine

/-! ## Reading -/

theorem Memory.read_cons (c : Host.Cell) (m : Memory) (a : Nat) :
    Memory.read (c :: m) a = if c.1 = a then c.2 else Memory.read m a := by
  unfold Memory.read
  by_cases h : c.1 = a <;> simp [h]

@[simp] theorem Memory.read_nil (a : Nat) : Memory.read [] a = Memory.unlisted := rfl

theorem Memory.read_append (m n : Memory) (a : Nat) :
    Memory.read (m ++ n) a = if m.any (fun c => c.1 == a) then Memory.read m a else Memory.read n a := by
  induction m with
  | nil => simp
  | cons c m ih =>
    rw [List.cons_append, Memory.read_cons, Memory.read_cons, ih]
    by_cases h : c.1 = a <;> simp [h]

theorem Memory.read_absent (m : Memory) (a : Nat) (h : m.any (fun c => c.1 == a) = false) : Memory.read m a = Memory.unlisted := by
  induction m with
  | nil => rfl
  | cons c m ih =>
    simp only [List.any_cons, Bool.or_eq_false_iff] at h
    rw [Memory.read_cons, if_neg (by simpa using h.1), ih h.2]

theorem Memory.read_filter (m : Memory) (p : Host.Cell → Bool) (a : Nat) (h : ∀ b, p (a, b) = true) :
    Memory.read (m.filter p) a = Memory.read m a := by
  induction m with
  | nil => rfl
  | cons c m ih =>
    rw [Memory.read_cons, List.filter_cons]
    by_cases hc : c.1 = a
    · obtain ⟨x, y⟩ := c
      obtain rfl : x = a := hc
      simp [h, Memory.read_cons]
    · split <;> simp [Memory.read_cons, hc, ih]

theorem Memory.any_filter_false (m : Memory) (p : Host.Cell → Bool) (a : Nat) (h : ∀ b, p (a, b) = false) :
    (m.filter p).any (fun c => c.1 == a) = false := by
  simp only [List.any_eq_false, List.mem_filter, beq_iff_eq]
  rintro ⟨x, y⟩ ⟨-, hp⟩ rfl
  simp [h] at hp

theorem Memory.cells_any_outside (bs : List Byte) (a x : Nat) (h : x < a ∨ a + bs.length ≤ x) :
    (Memory.cells a bs).any (fun c => c.1 == x) = false := by
  induction bs generalizing a with
  | nil => rfl
  | cons b bs ih =>
    simp only [List.length_cons] at h
    rw [Memory.cells]
    split
    · simp only [List.any_cons, Bool.or_eq_false_iff, beq_eq_false_iff_ne]
      exact ⟨by omega, ih _ (by omega)⟩
    · exact ih _ (by omega)

theorem Memory.read_cells (bs : List Byte) (a k : Nat) (hk : k < bs.length) (hs : a + k < Config.addrSpace) :
    Memory.read (Memory.cells a bs) (a + k) = bs[k] := by
  induction bs generalizing a k with
  | nil => simp at hk
  | cons b bs ih =>
    rw [Memory.cells]
    cases k with
    | zero =>
      have ha : a < Config.addrSpace := by omega
      by_cases hb : b = Memory.unlisted
      · simp only [hb, bne_self_eq_false, Bool.and_false, Bool.false_eq_true, ↓reduceIte, Nat.add_zero, List.getElem_cons_zero]
        exact Memory.read_absent _ _ (Memory.cells_any_outside _ _ _ (by omega))
      · simp [ha, hb, Memory.read_cons]
    | succ k =>
      have := ih (a + 1) k (by simpa using hk) (by omega)
      rw [show a + 1 + k = a + (k + 1) by omega] at this
      split
      · rw [Memory.read_cons, if_neg (by simp), this]; rfl
      · rw [this]; rfl

/-- A written byte reads as it was written. -/
theorem Memory.read_writeBytes_inside (m : Memory) (a k : Nat) (bs : List Byte) (hk : k < bs.length)
    (hs : a + k < Config.addrSpace) : Memory.read (m.writeBytes a bs) (a + k) = bs[k] := by
  unfold Memory.writeBytes
  rw [List.append_assoc, Memory.read_append, Memory.any_filter_false _ _ _ (by simp), if_neg (by simp), Memory.read_append,
    ← Memory.read_cells bs a k hk hs]
  split
  · rfl
  · next h =>
    rw [Memory.read_absent _ _ (Memory.any_filter_false _ _ _ (by simp; omega)), Memory.read_absent _ _ ((Bool.not_eq_true _).mp h)]

/-- A byte outside the written ones is untouched. -/
theorem Memory.read_writeBytes_outside (m : Memory) (a x : Nat) (bs : List Byte) (h : x < a ∨ a + bs.length ≤ x) :
    Memory.read (m.writeBytes a bs) x = Memory.read m x := by
  unfold Memory.writeBytes
  rw [List.append_assoc, Memory.read_append]
  rcases h with h | h
  · by_cases hm : m.any (fun c => c.1 == x)
    · rw [if_pos, Memory.read_filter _ _ _ (by simp [h])]
      simp only [List.any_eq_true, List.mem_filter, beq_iff_eq] at hm ⊢
      obtain ⟨c, hc, rfl⟩ := hm
      exact ⟨c, ⟨hc, by simp [h]⟩, rfl⟩
    · have hm' : m.any (fun c => c.1 == x) = false := (Bool.not_eq_true _).mp hm
      split
      · rw [Memory.read_filter _ _ _ (by simp [h])]
      · rw [Memory.read_append, Memory.cells_any_outside _ _ _ (Or.inl h), if_neg (by simp), Memory.read_absent _ _ hm']
        exact Memory.read_absent _ _ (Memory.any_filter_false _ _ _ (by simp; omega))
  · rw [Memory.any_filter_false _ _ _ (by simp; omega), if_neg (by simp), Memory.read_append,
      Memory.cells_any_outside _ _ _ (Or.inr h), if_neg (by simp), Memory.read_filter _ _ _ (by simp [h])]

@[simp] theorem Memory.read_write_self (m : Memory) (a : Nat) (b : Byte) (h : a < Config.addrSpace) :
    Memory.read (m.write a b) a = b := by
  have := Memory.read_writeBytes_inside m a 0 [b] (by simp) (by simpa using h)
  simpa [Memory.write] using this

theorem Memory.read_write_ne (m : Memory) (a x : Nat) (b : Byte) (h : x ≠ a) :
    Memory.read (m.write a b) x = Memory.read m x :=
  Memory.read_writeBytes_outside m a x [b] (by simp; omega)

@[simp] theorem Memory.writeBytes_length_bytesLE (v n : Nat) : (bytesLE v n).length = n := by
  induction n generalizing v with
  | zero => rfl
  | succ n ih => simp [bytesLE, ih]

/-- An RMW bit write touches no byte outside those its bits lie in. -/
theorem Memory.read_putBitsRMW_outside (base : Nat) (bs : List Bool) (m : Memory) (bp x : Nat)
    (h : x < base + bp / 8 ∨ base + (bp + bs.length + 7) / 8 ≤ x) : Memory.read (m.putBitsRMW base bp bs) x = Memory.read m x := by
  induction bs generalizing m bp with
  | nil => rfl
  | cons b bs ih =>
    simp only [List.length_cons] at h
    rw [Memory.putBitsRMW, ih _ _ (by omega), Memory.read_write_ne _ _ _ _ (by omega)]

/-! ## The canonical form -/

theorem Memory.mem_cells {bs : List Byte} {a : Nat} {c : Host.Cell} (h : c ∈ Memory.cells a bs) :
    a ≤ c.1 ∧ c.1 < a + bs.length ∧ c.1 < Config.addrSpace ∧ c.2 ≠ Memory.unlisted := by
  induction bs generalizing a with
  | nil => simp [Memory.cells] at h
  | cons b bs ih =>
    rw [Memory.cells] at h
    simp only [List.length_cons]
    split at h
    · next hb =>
      rcases List.mem_cons.1 h with rfl | h
      · simp at hb
        exact ⟨le_refl _, by omega, hb.1, hb.2⟩
      · obtain ⟨h1, h2, h3⟩ := ih h
        exact ⟨by omega, by omega, h3⟩
    · obtain ⟨h1, h2, h3⟩ := ih h
      exact ⟨by omega, by omega, h3⟩

theorem Memory.cells_pairwise (bs : List Byte) (a : Nat) : (Memory.cells a bs).Pairwise (fun c d => c.1 < d.1) := by
  induction bs generalizing a with
  | nil => simp [Memory.cells]
  | cons b bs ih =>
    rw [Memory.cells]
    split
    · refine List.pairwise_cons.2 ⟨fun c hc => ?_, ih _⟩
      have := (Memory.mem_cells hc).1
      simp only
      omega
    · exact ih _

/-- Writing bytes keeps the canonical form. -/
theorem Memory.wf_writeBytes {m : Memory} (h : Memory.Wf m) (a : Nat) (bs : List Byte) : Memory.Wf (m.writeBytes a bs) := by
  obtain ⟨hp, hc⟩ := h
  refine ⟨?_, fun c hm => ?_⟩
  · rw [Memory.writeBytes]
    refine List.pairwise_append.2 ⟨List.pairwise_append.2 ⟨hp.filter _, Memory.cells_pairwise _ _, ?_⟩, hp.filter _, ?_⟩
    · intro c hc d hd
      have h1 := (List.mem_filter.1 hc).2
      have h2 := Memory.mem_cells hd
      simp at h1
      omega
    · intro c hc d hd
      have h2 := (List.mem_filter.1 hd).2
      simp at h2
      rcases List.mem_append.1 hc with hc | hc
      · have h1 := (List.mem_filter.1 hc).2
        simp at h1
        omega
      · have h1 := Memory.mem_cells hc
        omega
  · rw [Memory.writeBytes] at hm
    rcases List.mem_append.1 hm with hm | hm
    · rcases List.mem_append.1 hm with hm | hm
      · exact hc c (List.mem_filter.1 hm).1
      · exact (Memory.mem_cells hm).2.2
    · exact hc c (List.mem_filter.1 hm).1

theorem Memory.wf_nil : Memory.Wf [] := by simp [Memory.Wf]

theorem Memory.wf_write {m : Memory} (h : Memory.Wf m) (a : Nat) (b : Byte) : Memory.Wf (m.write a b) :=
  Memory.wf_writeBytes h a [b]

theorem Memory.wf_writeLE {m : Memory} (h : Memory.Wf m) (a n v : Nat) : Memory.Wf (m.writeLE a n v) :=
  Memory.wf_writeBytes h a _

theorem Memory.wf_free {m : Memory} (h : Memory.Wf m) (r : Region) (draw : Nat) : Memory.Wf (m.free r draw) :=
  Memory.wf_writeBytes h _ _

theorem Memory.wf_putBitsRMW (base : Nat) (bs : List Bool) {m : Memory} (h : Memory.Wf m) (bp : Nat) :
    Memory.Wf (m.putBitsRMW base bp bs) := by
  induction bs generalizing m bp with
  | nil => exact h
  | cons b bs ih => exact ih (Memory.wf_write h _ _) _

/-- The bytes of a region that become free are those it covers. -/
theorem Memory.read_free_outside (m : Memory) (r : Region) (draw a : Nat) (h : r.covers a = false) :
    Memory.read (m.free r draw) a = Memory.read m a := by
  refine Memory.read_writeBytes_outside _ _ _ _ ?_
  simp [Region.covers] at h
  simp only [List.length_map, List.length_range]
  by_cases h' : r.base ≤ a
  · exact Or.inr (h h')
  · exact Or.inl (by omega)

/-! ## Region buffers -/

theorem Memory.region_nil (base len : Nat) : Memory.region [] base len = .nil := rfl

theorem Memory.region_cons (c : Host.Cell) (m : Memory) (base len : Nat) :
    Memory.region (c :: m) base len =
      if base ≤ c.1 && c.1 < base + len then Tab.set (Memory.region m base len) (c.1 - base) (some c.2)
      else Memory.region m base len := rfl

/-- A region buffer holds the region's bytes. -/
theorem Memory.byte_region (m : Memory) (base len k : Nat) (h : k < len) :
    Buf.byte (Memory.region m base len) k = Memory.read m (base + k) := by
  induction m with
  | nil => rfl
  | cons c m ih =>
    rw [Memory.region_cons, Memory.read_cons]
    by_cases hc : c.1 = base + k
    · rw [if_pos (by simp; omega), if_pos hc, Buf.byte, show c.1 - base = k by omega, Tab.get_set_self]
      rfl
    · rw [if_neg hc]
      split
      · next hr =>
        simp at hr
        rw [← ih, Buf.byte, Tab.get_set_ne _ _ (by omega), ← Buf.byte]
      · exact ih

/-- The bytes of a region in order. -/
theorem Memory.bytes_eq (m : Memory) (base len : Nat) :
    Memory.bytes m base len = (List.range len).map fun k => Memory.read m (base + k) := by
  unfold Memory.bytes
  refine List.map_congr_left fun k hk => ?_
  exact Memory.byte_region m base len k (List.mem_range.1 hk)

@[simp] theorem Memory.bytes_length (m : Memory) (base len : Nat) : (Memory.bytes m base len).length = len := by
  simp [Memory.bytes]

end Sys2Proof.Machine
end

