-- ==== Sys2Proof/Laws/Buffers.lean ====
section
/-! SUPPORT. Bits in buffers: what a byte list reads as as a buffer, what a packed bit sequence reads as, and which bits a
read-modify-write sequence changes. -/

namespace Sys2Proof.Machine

/-- A byte list as a buffer holds its bytes. -/
theorem byte_bufOfBytes (l : List Byte) (k : Nat) : Buf.byte (bufOfBytes l) k = l.getD k Memory.unlisted := by
  have key : ∀ (l : List Byte) (n : Nat) (t : Tab Byte),
      Tab.get ((l.zipIdx n).foldl (fun t p => Tab.set t p.2 (some p.1)) t) k =
        if n ≤ k ∧ k < n + l.length then l[k - n]? else Tab.get t k := by
    intro l
    induction l with
    | nil => intro n t; simp
    | cons b l ih =>
      intro n t
      rw [List.zipIdx_cons, List.foldl_cons, ih, Tab.get_set]
      simp only [List.length_cons]
      by_cases hk : k = n
      · subst hk
        simp
      · by_cases h : n + 1 ≤ k ∧ k < n + 1 + l.length
        · rw [if_pos h, if_pos (by omega), show k - n = (k - (n + 1)) + 1 by omega, List.getElem?_cons_succ]
        · rw [if_neg h, if_neg hk, if_neg (by omega)]
  unfold bufOfBytes Buf.byte
  rw [key l 0 .nil]
  split
  · simp [List.getD_eq_getElem?_getD]
  · next h =>
    rw [List.getD_eq_default _ _ (by omega)]
    rfl

theorem testBit_lsbValue (bs : List Bool) (i : Nat) : (lsbValue bs).testBit i = bs.getD i false := by
  induction bs generalizing i with
  | nil => simp [lsbValue]
  | cons b bs ih =>
    rw [lsbValue]
    cases i with
    | zero => cases b <;> simp [Nat.testBit_zero]
    | succ i =>
      rw [Nat.testBit_succ, show (b.toNat + 2 * lsbValue bs) / 2 = lsbValue bs by cases b <;> (simp; try omega), ih]
      rfl

theorem length_lt_eight (bs : List Bool)
    (h : ∀ b0 b1 b2 b3 b4 b5 b6 b7 rest, bs = b0 :: b1 :: b2 :: b3 :: b4 :: b5 :: b6 :: b7 :: rest → False) : bs.length < 8 := by
  match bs, h with
  | [], _ | [_], _ | [_, _], _ | [_, _, _], _ | [_, _, _, _], _ | [_, _, _, _, _], _ | [_, _, _, _, _, _], _
  | [_, _, _, _, _, _, _], _ => simp
  | b0 :: b1 :: b2 :: b3 :: b4 :: b5 :: b6 :: b7 :: rest, h => exact (h b0 b1 b2 b3 b4 b5 b6 b7 rest rfl).elim

/-- A packed bit sequence has one byte for every eight bits begun. -/
@[simp] theorem packBits_length (bs : List Bool) : (packBits bs).length = (bs.length + 7) / 8 := by
  fun_induction packBits bs with
  | case1 => rfl
  | case2 b0 b1 b2 b3 b4 b5 b6 b7 rest ih => simp only [List.length_cons, ih]; omega
  | case3 bs h1 h2 =>
    have h8 := length_lt_eight bs h2
    have h0 : bs.length ≠ 0 := fun h => h1 (List.length_eq_zero_iff.1 h)
    simp only [List.length_singleton]
    omega

theorem byte_lsbValue_getLsbD (bs : List Bool) (i : Nat) (h : i < 8) : (byte (lsbValue bs)).getLsbD i = bs.getD i false := by
  rw [byte, BitVec.getLsbD_ofNat, testBit_lsbValue, decide_eq_true h, Bool.true_and]

/-- Bit `k` of a packed bit sequence is its entry `k`, 0 past its end (00_scope.md R15). -/
theorem packBits_bit (bs : List Bool) (k : Nat) :
    ((packBits bs).getD (k / 8) 0).getLsbD (k % 8) = bs.getD k false := by
  fun_induction packBits bs generalizing k with
  | case1 => simp
  | case2 b0 b1 b2 b3 b4 b5 b6 b7 rest ih =>
    by_cases hk : k < 8
    · rw [show k / 8 = 0 by omega, List.getD_cons_zero, byte_lsbValue_getLsbD _ _ (by omega), Nat.mod_eq_of_lt hk]
      match k, hk with
      | 0, _ | 1, _ | 2, _ | 3, _ | 4, _ | 5, _ | 6, _ | 7, _ => rfl
    · obtain ⟨j, rfl⟩ : ∃ j, k = j + 8 := ⟨k - 8, by omega⟩
      rw [show (j + 8) / 8 = j / 8 + 1 by omega, List.getD_cons_succ, show (j + 8) % 8 = j % 8 by omega, ih]
      rfl
  | case3 bs h1 h2 =>
    have hl := length_lt_eight bs h2
    by_cases hk : k < 8
    · rw [show k / 8 = 0 by omega, List.getD_cons_zero, byte_lsbValue_getLsbD _ _ (by omega), Nat.mod_eq_of_lt hk]
    · rw [List.getD_eq_default _ _ (by simp; omega), List.getD_eq_default _ _ (by omega)]
      simp

/-- Replacing one bit of a byte. -/
theorem setBit_getLsbD (v : Byte) (i j : Nat) (b : Bool) (hi : i < 8) (hj : j < 8) :
    (setBit v i b).getLsbD j = if j = i then b else v.getLsbD j := by
  unfold setBit
  by_cases h : j = i
  · subst h
    cases b <;> simp [hj]
  · have h' : (1#8).getLsbD (j - i) = false ∨ j < i := by
      by_cases hlt : j < i
      · exact .inr hlt
      · left; simp; omega
    cases b <;> rcases h' with h' | h' <;> simp_all

/-- A read-modify-write sequence changes exactly its bits (20_memory.md R68, 41_bitstream.md R168). -/
theorem memBit_putBitsRMW (base : Nat) (bs : List Bool) (m : Memory) (bp k : Nat)
    (h : base + (bp + bs.length + 7) / 8 ≤ Config.addrSpace ∨ bs = []) :
    memBit (m.putBitsRMW base bp bs) base k = if bp ≤ k ∧ k < bp + bs.length then bs.getD (k - bp) false else memBit m base k := by
  induction bs generalizing m bp with
  | nil => simp [Memory.putBitsRMW]; intro; omega
  | cons b bs ih =>
    have h : base + (bp + (b :: bs).length + 7) / 8 ≤ Config.addrSpace := h.resolve_right (by simp)
    simp only [List.length_cons] at h ⊢
    rw [Memory.putBitsRMW, ih _ _ (.inl (by omega))]
    by_cases h1 : bp + 1 ≤ k ∧ k < bp + 1 + bs.length
    · rw [if_pos h1, if_pos (by omega), show k - bp = (k - (bp + 1)) + 1 by omega, List.getD_cons_succ]
    · rw [if_neg h1]
      unfold memBit
      by_cases hk : k = bp
      · subst hk
        rw [if_pos (by omega), Memory.read_write_self _ _ _ (by omega), setBit_getLsbD _ _ _ _ (by omega) (by omega)]
        simp
      · rw [if_neg (by omega)]
        by_cases hb : k / 8 = bp / 8
        · rw [hb, Memory.read_write_self _ _ _ (by omega), setBit_getLsbD _ _ _ _ (by omega) (by omega), if_neg (by omega)]
        · rw [Memory.read_write_ne _ _ _ _ (by omega)]

end Sys2Proof.Machine
end

