-- ==== Sys2Proof/Laws/Step.lean ====
section
/-! SUPPORT. What one step does, for each kind of event and for an empty agenda. -/

namespace Sys2Proof.Machine

theorem step_nil {s : State} (h : s.agenda = []) : step s = engineTurn s := by
  simp [step, h]

theorem step_cons {s : State} {e : Event} {rest : List Event} (h : s.agenda = e :: rest) :
    step s = perform e { s with agenda := rest } := by
  simp [step, h, State.popEvent]

/-- The engine's transition of a running legal command. -/
theorem engineTurn_legal {s : State} {i : Instr} (hb : s.status.busy = true) (hd : decode s.operands.cmd = .ok i) :
    engineTurn s = exec i s := by
  simp [engineTurn, hb, hd]

/-- The engine's transition of an illegal word. -/
theorem engineTurn_illegal {s : State} {e : DecodeError} (hb : s.status.busy = true) (hd : decode s.operands.cmd = .error e) :
    engineTurn s = .next (s.fail .badOp [] none) := by
  simp [engineTurn, hb, hd, illegalWord]

/-- The engine's transition while idle. -/
theorem engineTurn_idle {s : State} (hb : s.status.busy = false) : engineTurn s = .next s := by
  simp [engineTurn, hb]

/-- The engine's transition always answers a next state. -/
theorem engineTurn_next (s : State) : ∃ t, engineTurn s = .next t := by
  cases hb : s.status.busy with
  | false => exact ⟨s, engineTurn_idle hb⟩
  | true =>
    cases hd : decode s.operands.cmd with
    | error e => exact ⟨_, engineTurn_illegal hb hd⟩
    | ok i =>
      rw [engineTurn_legal hb hd]
      exact exec_next i s

/-- A placed command word is executed by the next step. -/
theorem step_withCommand (s : State) (w : Word) : step (s.withCommand w) = engineTurn (s.accept w) := by
  cases h : s.agenda with
  | nil =>
    have h' : (s.withCommand w).agenda = [] := by simp [State.withCommand, h]
    have h2 : s.withCommand w = s.accept w := by cases s; cases h; rfl
    rw [step_nil h', h2]
  | cons e rest =>
    have h' : (s.withCommand w).agenda = .complete :: s.agenda := by simp [State.withCommand, h]
    rw [step_cons h']
    rfl

end Sys2Proof.Machine
end

