-- ==== Sys2Proof/Laws/Bus.lean ====
section
/-! SUPPORT. What a host access does, register by register: the map of the bank both ways, and an access to a named register. -/

namespace Sys2Proof.Machine

/-- The bank's map holds each register at its offset (10_state.md R20). -/
theorem regAt_offsetOf (reg : Reg) : regAt (offsetOf reg) = some reg := by
  cases reg <;> first | rfl | (rename_i p; fin_cases p <;> rfl)

theorem offsetOf_aligned (reg : Reg) : offsetOf reg % 4 = 0 := by
  cases reg <;> first | rfl | (rename_i p; fin_cases p <;> rfl)

/-- A reserved offset holds no register (R20). -/
theorem regAt_reserved {off : Nat} (h : reservedOffset off) : regAt off = none := by
  unfold reservedOffset at h
  simp only [regAt]
  repeat' split
  all_goals first | rfl | (exfalso; omega)

/-- An aligned 32-bit write to a named register. -/
theorem hostWrite_reg {s : State} {addr v : Word} {reg : Reg} (h : s.bankOffset addr = some (offsetOf reg)) :
    hostWrite s addr 4 v = .next { s.hostWriteReg (some reg) v with resp := .written } := by
  simp [hostWrite, h, alignedWordAccess, offsetOf_aligned, regAt_offsetOf]

/-- An aligned 32-bit read of a named register. -/
theorem hostRead_reg {s : State} {addr : Word} {reg : Reg} (h : s.bankOffset addr = some (offsetOf reg)) :
    hostRead s addr 4 = .next (s.hostReadReg (some reg)) := by
  simp [hostRead, h, alignedWordAccess, offsetOf_aligned, regAt_offsetOf]

/-- The running command of a busy engine with a legal word. -/
theorem State.running_eq {s : State} {i : Instr} (hb : s.status.busy = true) (hd : decode s.operands.cmd = .ok i) :
    s.running = some i := by
  simp [State.running, hb, hd, Except.toOption]

/-- The registers that read a free value while a command runs are exactly those its rule lists under *Writes*. -/
theorem State.inFlight_eq {s : State} {i : Instr} (reg : Reg) (hb : s.status.busy = true) (hd : decode s.operands.cmd = .ok i) :
    s.inFlight reg = mayWrite i reg := by
  rw [State.inFlight, State.running_eq hb hd]
  cases i <;> cases reg <;> rfl

/-- Acceptance latches the bank it leaves. -/
theorem State.operands_accept (s : State) (w : Word) : (s.accept w).operands = (s.accept w).regs := rfl

end Sys2Proof.Machine
end

