-- ==== Sys2Proof/Laws/Codec.lean ====
section
/-! SUPPORT. The small laws of the codec: the commands use the encoder at the spec's values of its parameters, a count that fits is
stored as it is, and how long a symbol's code bits are. -/

namespace Sys2Proof.Machine

theorem tokenizeBlock_eq : tokenizeBlock = tokenizeWith specFinder := rfl

theorem dynamicHeader_eq : dynamicHeader = dynamicHeaderWith lengthsFromFrequencies := rfl

theorem encodeStream_eq : encodeStream = encodeStreamWith specEncoder := rfl

/-- A bit count below 2^32 is stored as it is. -/
theorem storeCount_of_lt {n : Nat} (h : n < 2 ^ 32) : storeCount n = word n := if_pos h

/-- The final-cursor check passes exactly when the bits fit (41_bitstream.md R168). -/
theorem cursorCheck_eq_ok {r : Regs} {n : Nat} {u : Unit} : cursorCheck r n = .ok u ↔ r.dstBitpos.toNat + n ≤ r.limitW := by
  rw [cursorCheck, failIf_eq_ok, Nat.not_lt]

/-- The size of a header that can be written is its number of bits. -/
theorem headerSize_of_le {ll dl : List Nat} {bits : List Bool} {ncl : Nat} (h : ∀ l ∈ ll ++ dl, l ≤ 15)
    (hd : dynamicHeader ll dl = .ok (bits, ncl)) : headerSize ll dl = bits.length := by
  rw [headerSize, if_pos (List.all_eq_true.2 fun l hl => decide_eq_true (h l hl)), hd]

/-- With a length above 15 there is no header. -/
theorem headerSize_of_gt {ll dl : List Nat} (h : ∃ l ∈ ll ++ dl, 15 < l) : headerSize ll dl = 0 := by
  obtain ⟨l, hl, hlt⟩ := h
  refine if_neg fun hall => ?_
  have := List.all_eq_true.1 hall l hl
  simp only [decide_eq_true_eq] at this
  omega

@[simp] theorem codeBits_length (len : List Nat) (s : Nat) : (codeBits len s).length = len.getD s 0 := by
  simp [codeBits, msbBits]

/-- No code is a prefix of no bits. -/
theorem noCode_nil (len : List Nat) : NoCode len [] := by
  intro s hs h
  have := h.length_le
  simp only [codeBits_length, List.length_nil] at this
  omega

/-- Only the symbols of the table have a code. -/
theorem noCode_of_lt {len : List Nat} {bits : List Bool}
    (h : ∀ s < len.length, len.getD s 0 ≠ 0 → ¬ codeBits len s <+: bits) : NoCode len bits := by
  intro s hs
  by_cases hl : s < len.length
  · exact h s hl hs
  · rw [List.getD_eq_default _ _ (by omega)] at hs
    exact absurd rfl hs

end Sys2Proof.Machine
end

