-- ==== Sys2Proof/Laws/PerInstr.lean ====
section
/-! SUPPORT. Statements for all commands, one lemma per constructor: the word a command is encoded as is a legal command word. -/

namespace Sys2Proof.Laws.EncodeLegal

/-- The command's word is legal (30_encoding.md R93). -/
def Statement (i : Instr) : Prop := wordLegal (encode i) = true

theorem nop : Statement .nop := by unfold Statement; decide +kernel
theorem bitsPut (reverse : Bool) : Statement (.bitsPut reverse) := by unfold Statement; cases reverse <;> decide +kernel
theorem bitsGet (reverse : Bool) : Statement (.bitsGet reverse) := by unfold Statement; cases reverse <;> decide +kernel
theorem lz77Tokenize : Statement .lz77Tokenize := by unfold Statement; decide +kernel
theorem huffBuildFreq : Statement .huffBuildFreq := by unfold Statement; decide +kernel
theorem huffBuildLengths : Statement .huffBuildLengths := by unfold Statement; decide +kernel
theorem huffEncodeSym : Statement .huffEncodeSym := by unfold Statement; decide +kernel
theorem huffDecodeSym : Statement .huffDecodeSym := by unfold Statement; decide +kernel
theorem treeWrite : Statement .treeWrite := by unfold Statement; decide +kernel
theorem treeRead : Statement .treeRead := by unfold Statement; decide +kernel
theorem deflateRaw : Statement .deflateRaw := by unfold Statement; decide +kernel
theorem inflateRaw : Statement .inflateRaw := by unfold Statement; decide +kernel
theorem zlibCompress : Statement .zlibCompress := by unfold Statement; decide +kernel
theorem zlibDecompress (ignoreAdler : Bool) : Statement (.zlibDecompress ignoreAdler) := by
  unfold Statement; cases ignoreAdler <;> decide +kernel
theorem adler32 : Statement .adler32 := by unfold Statement; decide +kernel
theorem adam7Geometry : Statement .adam7Geometry := by unfold Statement; decide +kernel
theorem adam7Interlace : Statement .adam7Interlace := by unfold Statement; decide +kernel
theorem adam7Deinterlace : Statement .adam7Deinterlace := by unfold Statement; decide +kernel

end Sys2Proof.Laws.EncodeLegal
end

