-- ==== Sys2Proof/Tests/Slice0.lean ====
section
/-! SUPPORT. The model's own tests: ill-formed command words, a word of every command, single commands on small states with results
from spec/95_test_vectors.md and the examples of the command rules, and, for every statement with hypotheses, a concrete state that
meets them. -/

set_option Elab.async false

open Sys2Proof Sys2Proof.Machine

namespace Sys2Proof.Tests

/-! ## Helpers -/

/-- A state after reset with the given registers and memory. -/
def st (r : Regs) (m : Memory) : State := { State.reset with regs := r, mem := m }

/-- The reset registers with SRC at 0x100, DST at 0x200 and AUX at 0x300. -/
def base : Regs := { Regs.reset with srcAddr := 0x100, dstAddr := 0x200, auxAddr := 0x300 }

/-- Memory with the given bytes at an address. -/
def mem (a : Nat) (bs : List Byte) : Memory := Memory.cells a bs

/-- The next state of a command. -/
def run (i : Instr) (s : State) : State :=
  match exec i s with
  | .next t => t
  | .fault _ | .refused _ => s

theorem exec_run (i : Instr) (s : State) : exec i s = .next (run i s) := by
  obtain ⟨t, h⟩ := exec_next i s
  simp [run, h]

/-- The next state of a host access. -/
def runOn (o : Host.Outcome State Fault Refusal) : State :=
  match o with
  | .next t => t
  | .fault _ | .refused _ => State.reset

/-- The error code of a command on a state. -/
def errOf (i : Instr) (s : State) : Option ErrCode := (run i s).status.errCode

/-- The region checks of a command pass on a state, as a computation. -/
theorem regionsOk {i : Instr} {s : State} (h : regionChecks i s.operands s.platform = .ok ()) : RegionsOk i s :=
  (regionChecks_ok_iff i s).1 h

/-- A busy engine with the word `w` accepted. -/
def busyWith (w : Word) : State := State.reset.accept w

/-! ## Well-formedness: each check refuses an ill-formed word (30_encoding.md R93) -/

theorem test_reserved_bit_refused : wordLegal 0x00000400 = false ∧ decode 0x00000400 = .error .reservedBits := by decide +kernel
theorem test_top_reserved_bit_refused : decode 0x80000010 = .error .reservedBits := by decide +kernel
theorem test_unlisted_op_refused : wordLegal 0x00000001 = false ∧ decode 0x00000001 = .error .unlistedOp := by decide +kernel
theorem test_flag_i_not_allowed_refused :
    wordLegal 0x00000141 = false ∧ decode 0x00000141 = .error .flagNotAllowed := by decide +kernel
theorem test_flag_r_not_allowed_refused :
    wordLegal 0x00000251 = false ∧ decode 0x00000251 = .error .flagNotAllowed := by decide +kernel
theorem test_every_command_is_well_formed (i : Instr) : i.wellFormed = true := rfl

/-! ## Decoding: the word of each command, from the *Encoding* line of its rule -/

theorem test_decode_control : decode 0b00000000000000000000000000000000 = .ok .nop := by decide +kernel
theorem test_decode_bits :
    decode 0b00000000000000000000000000010000 = .ok (.bitsPut false) ∧
    decode 0b00000000000000000000001000010000 = .ok (.bitsPut true) ∧
    decode 0b00000000000000000000000000010001 = .ok (.bitsGet false) ∧
    decode 0b00000000000000000000001000010001 = .ok (.bitsGet true) := by decide +kernel
theorem test_decode_match_finder : decode 0b00000000000000000000000000100000 = .ok .lz77Tokenize := by decide +kernel
theorem test_decode_huffman :
    decode 0b00000000000000000000000000110000 = .ok .huffBuildFreq ∧
    decode 0b00000000000000000000000000110001 = .ok .huffBuildLengths ∧
    decode 0b00000000000000000000000000110010 = .ok .huffEncodeSym ∧
    decode 0b00000000000000000000000000110011 = .ok .huffDecodeSym ∧
    decode 0b00000000000000000000000000110100 = .ok .treeWrite ∧
    decode 0b00000000000000000000000000110101 = .ok .treeRead := by decide +kernel
theorem test_decode_deflate :
    decode 0b00000000000000000000000001000000 = .ok .deflateRaw ∧
    decode 0b00000000000000000000000001000001 = .ok .inflateRaw := by decide +kernel
theorem test_decode_zlib :
    decode 0b00000000000000000000000001010000 = .ok .zlibCompress ∧
    decode 0b00000000000000000000000001010001 = .ok (.zlibDecompress false) ∧
    decode 0b00000000000000000000000101010001 = .ok (.zlibDecompress true) ∧
    decode 0b00000000000000000000000001010010 = .ok .adler32 := by decide +kernel
theorem test_decode_adam7 :
    decode 0b00000000000000000000000001100000 = .ok .adam7Geometry ∧
    decode 0b00000000000000000000000001100001 = .ok .adam7Interlace ∧
    decode 0b00000000000000000000000001100010 = .ok .adam7Deinterlace := by decide +kernel
theorem test_decode_table_word :
    decodeTableWord 32 0x00000210 = some (.bitsPut true) ∧ decodeTableWord 32 0x000000FF = none := by decide +kernel

/-! ## The error codes (60_exceptions.md R320) -/

theorem test_error_codes_config :
    [ErrCode.badOp, .badArg, .windowRange, .windowPow2, .cfgBtype, .addr, .overlap, .bus, .dstFull, .imgTooLarge].map (·.code) =
      [0x01, 0x02, 0x03, 0x04, 0x05, 0x06, 0x07, 0x08, 0x09, 0x0A] := by decide +kernel
theorem test_error_codes_format :
    [ErrCode.zlibFcheck, .zlibMethod, .zlibFdict, .btype, .nlen, .codeLengths, .repeatNoPrev, .repeatOverrun, .noEobLength,
        .invalidCode, .distTooFar, .adlerMismatch, .eobZero, .alphabetTooLarge, .trunc, .noEob].map (·.code) =
      [0x10, 0x11, 0x12, 0x13, 0x14, 0x15, 0x16, 0x17, 0x18, 0x19, 0x1A, 0x1B, 0x20, 0x21, 0x30, 0x31] := by decide +kernel

/-! ## Length and distance codes (30_encoding.md R109 to R112) -/

theorem test_length_codes :
    pairTokens 3 1 = [257, 0, 0, 0] ∧ pairTokens 258 32768 = [285, 0, 29, 8191] ∧ pairTokens 257 5 = [284, 30, 4, 0] ∧
    pairTokens 10 4 = [264, 0, 3, 0] := by decide +kernel

/-! ## Single commands -/

/-- 40_control.md R148's example: `STATUS` 0x1506 before, 0x2 after. -/
theorem test_nop : (run .nop ({ st base [] with status := ⟨false, true, true, false, some .codeLengths⟩ }.accept 0)).readReg .status =
    0x00000002 := by decide +kernel

/-- 41_bitstream.md R169's example, `R = 0`. -/
theorem test_bits_put :
    let t := run (.bitsPut false) (st { base with dstCap := 1, dstBitpos := 3, arg0 := 6, arg1 := 3 } (mem 0x200 [0xFF]))
    t.status.errCode = none ∧ t.mem.read 0x200 = 0xF7 ∧ t.regs.dstBitpos = 6 ∧ t.regs.dstLen = 1 := by decide +kernel

/-- R169's example, `R = 1`. -/
theorem test_bits_put_reverse :
    (run (.bitsPut true) (st { base with dstCap := 1, dstBitpos := 3, arg0 := 6, arg1 := 3 } (mem 0x200 [0xFF]))).mem.read 0x200 =
      0xDF := by decide +kernel

/-- R170's example, both orders. -/
theorem test_bits_get :
    let s := st { base with srcLen := 1, srcBitpos := 1, arg1 := 4 } (mem 0x100 [0xB5])
    (run (.bitsGet false) s).regs.result0 = 0xA ∧ (run (.bitsGet true) s).regs.result0 = 0x5 ∧
    (run (.bitsGet true) s).regs.srcBitpos = 5 := by decide +kernel

/-- Vector B-10. -/
theorem test_bits_get_trunc : errOf (.bitsGet false) (st { base with srcLen := 1, srcBitpos := 5, arg1 := 4 } []) = some .trunc := by
  decide +kernel

/-- "ABABABABAB", `W = 8` (42_match_finder.md R192's example). -/
def ababState : State :=
  st { base with window := 8, srcLen := 10, dstCap := 40 } (mem 0x100 [0x41, 0x42, 0x41, 0x42, 0x41, 0x42, 0x41, 0x42, 0x41, 0x42])

theorem test_tokenize :
    let t := run .lz77Tokenize ababState
    t.regs.result0 = 6 ∧ t.regs.dstLen = 12 ∧
    bytesAt t.mem 0x200 12 = [0x41, 0, 0x42, 0, 0x06, 0x01, 0, 0, 0x01, 0, 0, 0] := by decide +kernel

/-- R196's lazy example, "bcbccbcbc". -/
theorem test_tokenize_lazy :
    let s := st { base with srcLen := 9, dstCap := 64 } (mem 0x100 [0x62, 0x63, 0x62, 0x63, 0x63, 0x62, 0x63, 0x62, 0x63])
    bytesAt (run .lz77Tokenize s).mem 0x200 18 =
      [98, 0, 99, 0, 98, 0, 99, 0, 99, 0, 2, 1, 0, 0, 4, 0, 0, 0] := by decide +kernel

/-- 43_huffman.md R221's example: frequencies 5, 1, 1, 2. -/
def freqState (m : Word) : State :=
  st { base with srcLen := 16, dstCap := 4, arg1 := 4, arg2 := m } (mem 0x100 [5, 0, 0, 0, 1, 0, 0, 0, 1, 0, 0, 0, 2])

theorem test_build_freq :
    let t := run .huffBuildFreq (freqState 15)
    bytesAt t.mem 0x200 4 = [1, 3, 3, 2] ∧ t.regs.result0 = 4 ∧ bytesAt (run .huffBuildFreq (freqState 2)).mem 0x200 4 = [2, 2, 2, 2] := by
  decide +kernel

/-- R221's corner case. -/
theorem test_build_freq_too_large :
    errOf .huffBuildFreq (st { base with srcLen := 12, dstCap := 3, arg1 := 3, arg2 := 1 } (mem 0x100 [1, 0, 0, 0, 1, 0, 0, 0, 1])) =
      some .alphabetTooLarge := by decide +kernel

/-- R117's example lengths. -/
def lengthsAH : List Byte := [3, 3, 3, 3, 3, 2, 4, 4]

/-- R222's example. -/
def lengthsState : State := st { base with srcLen := 8, dstCap := 16, arg2 := 15 } (mem 0x100 lengthsAH)

theorem test_build_lengths :
    let t := run .huffBuildLengths lengthsState
    bytesAt t.mem 0x200 16 = [2, 0, 3, 0, 4, 0, 5, 0, 6, 0, 0, 0, 0x0E, 0, 0x0F, 0] ∧ t.regs.result0 = 8 ∧ t.regs.result1 = 4 := by
  decide +kernel

/-- Symbol E of R117's example, code 110, at bit 1 of a byte of zeros. -/
def encodeState : State :=
  st { base with dstCap := 1, dstBitpos := 1, arg0 := 4, arg1 := 8, arg2 := 15 } (mem 0x300 lengthsAH)

theorem test_encode_sym :
    let t := run .huffEncodeSym encodeState
    t.mem.read 0x200 = 0b00000110 ∧ t.regs.result0 = 0b110 ∧ t.regs.result1 = 3 ∧ t.regs.dstBitpos = 4 := by decide +kernel

/-- The inverse of the test above. -/
def decodeState : State :=
  st { base with srcLen := 1, srcBitpos := 1, arg1 := 8, arg2 := 15 } (mem 0x100 [0b00000110] ++ mem 0x300 lengthsAH)

theorem test_decode_sym :
    let t := run .huffDecodeSym decodeState
    t.regs.result0 = 4 ∧ t.regs.result1 = 3 ∧ t.regs.srcBitpos = 4 := by decide +kernel

/-- The length tables of R225's example: 286 literal/length lengths and two distance lengths. -/
def zerosLL : List Nat := ((((List.replicate 286 0).set 0 3).set 256 3).set 283 2).set 285 1

/-- The header of R225's example. -/
def zerosHeader : List Byte := [0x3D, 0x38, 0xA0, 0x01, 0, 0, 0x40, 0x18, 0x64, 0xFF, 0xD4, 0xF6, 0xF8, 0]

/-- R225's example, with room for the longest header. -/
def treeWriteState : State :=
  st { base with auxAddr := 0x1000, dstCap := 569, arg0 := 286, arg1 := 2 } (mem 0x1000 ((zerosLL ++ [1, 1]).map byte))

theorem test_tree_write :
    let t := run .treeWrite treeWriteState
    t.regs.result0 = 111 ∧ t.regs.result1 = 18 ∧ t.regs.dstBitpos = 111 ∧ bytesAt t.mem 0x200 14 = zerosHeader := by decide +kernel

/-- R226's example. -/
def treeReadState : State := st { base with srcLen := 14, dstCap := 320 } (mem 0x100 zerosHeader)

theorem test_tree_read :
    let t := run .treeRead treeReadState
    t.regs.result0 = 286 ∧ t.regs.result1 = 2 ∧ t.regs.srcBitpos = 111 ∧
    bytesAt t.mem 0x200 320 = (zerosLL ++ [0, 0] ++ [1, 1] ++ List.replicate 30 0).map byte := by decide +kernel

/-- "abc". -/
def abc : List Byte := [0x61, 0x62, 0x63]

/-- Compressing "abc" with the given `MODE`. -/
def abcState (mode : Word) : State := st { base with srcLen := 3, dstCap := 700, mode := mode } (mem 0x100 abc)

/-- 44_deflate.md R264's example, `BTYPE = 0` and `BTYPE = 1`. -/
theorem test_deflate :
    let t := run .deflateRaw (abcState 0xC)
    let u := run .deflateRaw (abcState 0xD)
    bytesAt t.mem 0x200 8 = [0x01, 0x03, 0, 0xFC, 0xFF, 0x61, 0x62, 0x63] ∧ t.regs.result0 = 64 ∧ t.regs.result1 = 1 ∧
    bytesAt u.mem 0x200 5 = [0x4B, 0x4C, 0x4A, 0x06, 0] ∧ u.regs.result0 = 34 := by decide +kernel

/-- R264's example, `BTYPE = 2`. -/
theorem test_deflate_dynamic :
    let t := run .deflateRaw (abcState 0xE)
    t.regs.result0 = 114 ∧ bytesAt t.mem 0x200 15 =
      [0x05, 0xC1, 0x01, 0x01, 0, 0, 0, 0x40, 0xA0, 0xAD, 0xF8, 0xFF, 0x41, 0x61, 0x03] := by decide +kernel

/-- R265's example. -/
def inflateState (cap : Word) : State := st { base with srcLen := 5, dstCap := cap } (mem 0x100 [0x73, 0x74, 0x82, 0x41, 0])

theorem test_inflate :
    let t := run .inflateRaw (inflateState 10)
    bytesAt t.mem 0x200 10 = [0x41, 0x42, 0x41, 0x42, 0x41, 0x42, 0x41, 0x42, 0x41, 0x42] ∧ t.regs.dstLen = 10 ∧
    t.regs.result0 = 38 ∧ t.regs.result1 = 1 ∧ errOf .inflateRaw (inflateState 5) = some .dstFull := by decide +kernel

/-- Source scenario 4 (44_deflate.md R259): a wrong `NLEN`. -/
theorem test_inflate_nlen :
    errOf .inflateRaw (st { base with srcLen := 10, dstCap := 16 } (mem 0x100 [1, 5, 0, 0xFA, 0xFE])) = some .nlen := by decide +kernel

/-- Inflating the given bytes. -/
def inflateBytes (bs : List Byte) (cap : Word) : State := st { base with srcLen := word bs.length, dstCap := cap } (mem 0x100 bs)

/-- Vectors I-10 to I-13: `03`, `03 02 00`, `1b 03`, `4b 04 3e`. -/
theorem test_inflate_bad_symbols :
    errOf .inflateRaw (inflateBytes [0x03] 1024) = some .noEob ∧
    errOf .inflateRaw (inflateBytes [0x03, 0x02, 0] 1024) = some .distTooFar ∧
    errOf .inflateRaw (inflateBytes [0x1B, 0x03] 1024) = some .invalidCode ∧
    errOf .inflateRaw (inflateBytes [0x4B, 0x04, 0x3E] 1024) = some .invalidCode := by decide +kernel

/-- Vectors I-18 to I-22. -/
theorem test_inflate_bad_headers :
    errOf .inflateRaw (inflateBytes [0x05, 0, 0, 0] 1024) = some .codeLengths ∧
    errOf .inflateRaw (inflateBytes [0x05, 0, 0x02, 0x24] 1024) = some .repeatNoPrev ∧
    errOf .inflateRaw (inflateBytes [0x05, 0, 0x80, 0xE4, 0xFF, 0x1F] 1024) = some .repeatOverrun ∧
    errOf .inflateRaw (inflateBytes [0x05, 0, 0x80, 0xE4, 0x7F, 0x1B] 1024) = some .noEobLength ∧
    errOf .inflateRaw (inflateBytes [0x05, 0xE0, 0x81, 0x08, 0, 0, 0, 0, 0x20, 0xF8, 0x5B, 0x3F] 1024) = some .codeLengths := by
  decide +kernel

/-- 45_zlib_adler.md R286's example. -/
theorem test_zlib_compress :
    let t := run .zlibCompress (abcState 0xC)
    bytesAt t.mem 0x200 14 = [0x78, 0x01, 0x01, 0x03, 0, 0xFC, 0xFF, 0x61, 0x62, 0x63, 0x02, 0x4D, 0x01, 0x27] ∧
    t.regs.dstLen = 14 ∧ t.regs.result0 = 64 ∧ t.regs.adler = 0x024D0127 := by decide +kernel

/-- R287's second example: the trailer is one too high. -/
def badTrailerState : State :=
  st { base with srcLen := 14, dstCap := 3 }
    (mem 0x100 [0x78, 0x01, 0x01, 0x03, 0, 0xFC, 0xFF, 0x61, 0x62, 0x63, 0x02, 0x4D, 0x01, 0x28])

theorem test_zlib_decompress :
    let t := run (.zlibDecompress true) badTrailerState
    errOf (.zlibDecompress false) badTrailerState = some .adlerMismatch ∧ t.status.errCode = none ∧ bytesAt t.mem 0x200 3 = abc ∧
    t.regs.result0 = 0x024D0128 ∧ t.regs.adler = 0x024D0127 := by decide +kernel

/-- R287's first example. -/
theorem test_zlib_decompress_empty :
    let t := run (.zlibDecompress false) (st { base with srcLen := 8 } (mem 0x100 [0x78, 0x01, 0x03, 0, 0, 0, 0, 0x01]))
    t.status.errCode = none ∧ t.regs.dstLen = 0 ∧ t.regs.result0 = 1 ∧ t.regs.result1 = 10 ∧ t.regs.adler = 1 := by decide +kernel

/-- R288's example, "Wikipedia". -/
theorem test_adler32 :
    (run .adler32 (st { base with srcLen := 9 } (mem 0x100 [0x57, 0x69, 0x6B, 0x69, 0x70, 0x65, 0x64, 0x69, 0x61]))).regs.adler =
      0x11E60398 := by decide +kernel

/-- A 3 × 3 image of 8 bits per pixel. -/
def image3 (src cap : Word) : State :=
  st { base with imgW := 3, imgH := 3, imgBpp := 8, srcLen := src, dstCap := cap } (mem 0x100 [0, 1, 2, 3, 4, 5, 6, 7, 8])

/-- 46_adam7.md R307's example. -/
theorem test_adam7_geometry :
    let t := run .adam7Geometry (image3 0 0)
    t.regs.passW.toList = [1, 0, 0, 1, 2, 1, 3] ∧ t.regs.passH.toList = [1, 0, 0, 1, 1, 2, 1] ∧
    t.regs.fstart.toList = [0, 2, 2, 2, 4, 7, 11, 15] ∧ t.regs.pstart.toList = [0, 1, 1, 1, 2, 4, 6, 9] ∧
    t.regs.ustart.toList = [0, 1, 1, 1, 2, 4, 6, 9] ∧ t.regs.result0 = 9 ∧ t.regs.result1 = 9 := by decide +kernel

/-- R308's example. -/
theorem test_adam7_interlace :
    let t := run .adam7Interlace (image3 9 9)
    bytesAt t.mem 0x200 9 = [0, 2, 6, 8, 1, 7, 3, 4, 5] ∧ t.regs.dstLen = 9 := by decide +kernel

/-- R309's example. -/
theorem test_adam7_deinterlace :
    let t := run .adam7Deinterlace (st { base with imgW := 5, imgH := 3, imgBpp := 2, srcLen := 7, dstCap := 4 }
      (mem 0x100 [0xC0, 0, 0x40, 0x94, 0x89, 0x6E, 0x80]))
    bytesAt t.mem 0x200 4 = [0xE4, 0x1B, 0xAA, 0x54] ∧ t.regs.dstLen = 4 := by decide +kernel

/-- Vector A7-15. -/
theorem test_adam7_too_large :
    errOf .adam7Geometry (st { base with imgW := 65536, imgH := 65536, imgBpp := 8 } []) = some .imgTooLarge := by decide +kernel

/-- The word placed for the very next step is run by it, as the first command after reset. -/
theorem test_fetch_word_runs :
    (runOn (step (State.reset.withFetchWord 32 0x52))).status = ⟨false, true, false, false, none⟩ := by decide +kernel

/-! ## Witnesses: for each statement with hypotheses, a state and operands that meet them, clause by clause -/

theorem witness_IllegalWordsCompleteWithBadOp :
    (busyWith 0xFF).status.busy = true ∧ (busyWith 0xFF).operands.cmd = 0xFF ∧ decode 0xFF = .error .unlistedOp := by decide +kernel

theorem witness_StepRunsTheAcceptedCommand :
    (busyWith 0).status.busy = true ∧ decode (busyWith 0).operands.cmd = .ok .nop ∧ (busyWith 0).agenda = [] ∧
    ({ busyWith 0 with agenda := [.complete, .reset] } : State).agenda = .complete :: [.reset] ∧
    State.reset.status.busy = false ∧ State.reset.agenda = [] := by decide +kernel

theorem witness_CmdWriteIsAcceptedExactlyWhileIdle :
    State.reset.bankOffset 0x008 = some 0x008 ∧ State.reset.status.busy = false ∧
    (busyWith 0).bankOffset 0x008 = some 0x008 ∧ (busyWith 0).status.busy = true := by decide +kernel

theorem witness_SettingWritesStoreTheirBits :
    State.reset.bankOffset 0x060 = some (offsetOf .imgBpp) ∧ Reg.imgBpp ∈ settings ∧ State.reset.status.busy = false ∧
    State.reset.bankOffset 0x010 = some (offsetOf .irqEn) := by decide +kernel

theorem witness_WritesWhileBusySetOverrun :
    (busyWith 0).status.busy = true ∧ Reg.adler ∈ settings ∧ (busyWith 0).bankOffset 0x04C = some (offsetOf .adler) ∧
    (busyWith 0).bankOffset 0x008 = some (offsetOf .cmd) ∧ State.reset.bankOffset 0x00C = some 0x00C := by decide +kernel

theorem witness_StatusLayoutAndWriteOneToClear :
    State.reset.bankOffset 0x00C = some 0x00C ∧ State.reset.status.errCode = none ∧
    (run (.bitsPut false) (st { base with arg1 := 33 } [])).status.errCode = some .badArg := by decide +kernel

theorem witness_ReservedAndReadOnlyAccesses :
    State.reset.bankOffset 0x000 = some 0x000 ∧ State.reset.bankOffset 0x004 = some 0x004 ∧
    State.reset.bankOffset 0x1FC = some 0x1FC ∧ State.reset.bankOffset 0x068 = some 0x068 ∧
    State.reset.bankOffset 0x018 = some (offsetOf .matchCfg) ∧ State.reset.bankOffset 0x00C = some (offsetOf .status) ∧
    State.reset.bankOffset 0x11C = some (offsetOf (.ustart 7)) ∧ isReadOnly (.ustart 7) = true ∧ isReadOnly .id = true := by
  decide +kernel

theorem witness_ReservedAndReadOnlyAccesses_reserved :
    reservedOffset 0x068 ∧ reservedOffset 0x07C ∧ reservedOffset 0x09C ∧ reservedOffset 0x0BC ∧ reservedOffset 0x120 ∧
    reservedOffset 0x1FC := by unfold reservedOffset; decide

/-- Acceptance from reset keeps the invariant. -/
theorem busyWith_inv (w : Word) : (busyWith w).Inv where
  memWf := by simp [busyWith, State.reset, Memory.Wf]
  irqEnReserved := by change State.reset.regs.irqEn &&& ~~~irqEnMask = 0; decide
  matchReserved := by change State.reset.regs.matchCfg &&& ~~~matchMask = 0; decide
  modeReserved := by change State.reset.regs.mode &&& ~~~modeMask = 0; decide
  imgBppReserved := by change State.reset.regs.imgBpp &&& ~~~imgBppMask = 0; decide
  latchedWhileBusy := rfl
  latchedIsBank := by intro l h; cases h; rfl
  errorHasCode := rfl
  busyReport := fun _ => ⟨rfl, rfl⟩

theorem witness_RegisterReadsHaveNoSideEffect :
    State.reset.bankOffset 0x044 = some (offsetOf .result0) ∧ State.reset.status.busy = false ∧
    (busyWith 0x11).status.busy = true ∧ decode (busyWith 0x11).operands.cmd = .ok (.bitsGet false) ∧
    mayWrite (.bitsGet false) .result0 = true ∧ (busyWith 0xFF).status.busy = true ∧
    decode (busyWith 0xFF).operands.cmd = .error .unlistedOp ∧ State.reset.bankOffset 0x002 = some 2 ∧ (2 : Nat) ≠ 4 ∧ (2 : Nat) % 4 ≠ 0 := by
  decide +kernel

theorem witness_RegisterReadsHaveNoSideEffect_busy : (busyWith 0).Inv ∧ (busyWith 0).status.busy = true := ⟨busyWith_inv 0, rfl⟩

/-- `INFLATE.RAW` running with SRC 0x100..0x104 and DST 0x200..0x209. -/
def busyInflate : State := (inflateState 10).accept 0x41

theorem witness_DataMemoryAccessesByOthers :
    (∀ r ∈ busyInflate.runningRegions, r.covers 0x20A = false) ∧
    (⟨0x200, 10⟩ : Region) ∈ busyInflate.runningRegions ∧ Region.covers ⟨0x200, 10⟩ 0x209 = true ∧
    (⟨0x200, 10⟩ : Region) ∈ busyInflate.runningDst ∧ (∀ r ∈ busyInflate.runningDst, r.covers 0x100 = false) := by decide +kernel

theorem witness_ResetAbandonsTheCommand :
    busyInflate.status.busy = true ∧ decode busyInflate.operands.cmd = .ok .inflateRaw ∧
    (⟨0x200, 10⟩ : Region) ∈ dstRegion .inflateRaw busyInflate.operands ∧ 0x200 + 9 < 2 ^ 32 ∧
    (∀ d ∈ dstRegion .inflateRaw busyInflate.operands, d.covers 0x20A = false) := by decide +kernel

theorem witness_ResetAbandonsTheCommand_idle : State.reset.running = none ∧ (busyWith 0x80000010).running = none := by
  decide +kernel

/-- A W1C write of bit 3 on an idle engine with `OVERRUN` set. -/
theorem witness_WritesWhileBusySetOverrun_cleared :
    ∃ t, perform (.regWrite 0x00C 4 8) { State.reset with status := ⟨false, false, false, true, none⟩ } = .next t ∧
      t.status.overrun = false :=
  ⟨_, hostWrite_reg (s := { State.reset with status := ⟨false, false, false, true, none⟩ }) (addr := 0x00C) (v := 8)
    (reg := .status) (by decide +kernel), by decide⟩

theorem witness_UnlistedRegistersKeepTheirValues :
    mayWrite .inflateRaw .adler = false ∧ mayWrite .nop .result0 = false ∧ mayWrite .adam7Interlace .result0 = false ∧
    mayWrite .adam7Interlace (.ustart 7) = true ∧ hasNoDst .adler32 = true ∧ hasNoDst .inflateRaw = false := by decide

theorem witness_CommandsWriteOnlyTheirDst :
    ¬ ((inflateState 5).operands.dstAddr.toNat ≤ 0x205 ∧
      0x205 < (inflateState 5).operands.dstAddr.toNat + (inflateState 5).operands.dstCap.toNat) ∧
    (inflateState 5).operands.dstAddr.toNat ≤ 0x204 := by decide +kernel

theorem witness_OperandsStayStableWhileBusy :
    busyInflate.status.busy = true ∧ busyInflate.latched.isSome = true ∧ (Event.regWrite 0x010 4 3) ≠ .complete ∧
    (Event.regWrite 0x010 4 3) ≠ .reset ∧
    ∃ t, perform (.regWrite 0x010 4 3) busyInflate = .next t :=
  ⟨rfl, rfl, by simp, by simp, _, hostWrite_reg (s := busyInflate) (addr := 0x010) (v := 3) (reg := .irqEn) (by decide +kernel)⟩

theorem witness_BytesPastDstLenAreKept :
    Instr.inflateRaw ∈ [Instr.lz77Tokenize, .huffBuildFreq, .huffBuildLengths, .treeRead, .deflateRaw, .inflateRaw, .zlibCompress,
      .zlibDecompress false, .zlibDecompress true, .adam7Interlace, .adam7Deinterlace] ∧
    (run .inflateRaw (inflateState 10)).status.error = false := by decide +kernel

theorem witness_PreCheckFailuresArePrecise :
    errOf (.bitsPut false) (st { base with arg1 := 33 } []) = some .badArg ∧ ErrCode.isPreCheck .badArg = true := by decide +kernel

/-- `HUFF.ENCODE_SYM` with its table at 0x200..0x207 and its destination from `dst` on: legal arguments. -/
def encodeAt (dst : Word) : State :=
  st { base with auxAddr := 0x200, dstAddr := dst, dstCap := 1, arg1 := 8, arg2 := 15 } []

/-- The table's last byte is the destination's first, and one byte further on they no longer share. -/
theorem witness_RegionChecksInOrder_aux :
    ArgsOk .huffEncodeSym (encodeAt 0x207).operands ∧ errOf .huffEncodeSym (encodeAt 0x207) = some .overlap ∧
    ruleInputs .huffEncodeSym (encodeAt 0x207).operands = [⟨0x200, 8⟩] ∧
    ruleDst .huffEncodeSym (encodeAt 0x207).operands = [⟨0x207, 1⟩] ∧ RegionsOk .huffEncodeSym (encodeAt 0x208) :=
  ⟨by unfold ArgsOk; decide +kernel, by decide +kernel, by decide +kernel, by decide +kernel, regionsOk (by decide +kernel)⟩

/-- A source that wraps, a bus hole inside the destination, and overlapping buffers. -/
theorem witness_RegionChecksInOrder :
    (let s := st { base with srcAddr := 0xFFFFFFFF, srcLen := 2 } [];
      0 < s.operands.src.len ∧ 2 ^ 32 < s.operands.src.base + s.operands.src.len) ∧
    (let s := { st { base with dstCap := 4 } [] with platform := ⟨0, [(0x203, 0x204)]⟩ };
      s.operands.dst.covers 0x203 = true ∧ s.platform.busOk 0x203 = false ∧ s.operands.dst.base + s.operands.dst.len ≤ 2 ^ 32) ∧
    (let s := st { base with srcLen := 0x101, dstCap := 1 } [];
      s.operands.src.covers 0x200 = true ∧ s.operands.dst.covers 0x200 = true) := by decide +kernel

/-- A source that ends with the last byte of memory does not wrap. -/
theorem witness_RegionChecksInOrder_top :
    ArgsOk .inflateRaw (st { base with srcAddr := 0xFFFFFFFF, srcLen := 1 } []).operands ∧
    RegionsOk .inflateRaw (st { base with srcAddr := 0xFFFFFFFF, srcLen := 1 } []) :=
  ⟨trivial, regionsOk (by decide +kernel)⟩

theorem witness_CompressionSettingChecksInOrder :
    ({ base with window := 0 } : Regs).window.toNat = 0 ∧ 32768 < ({ base with window := 32769 } : Regs).window.toNat ∧
    0 < ({ base with window := 3 } : Regs).window.toNat ∧ ({ base with mode := 3 } : Regs).mode.toNat % 4 = 3 ∧
    base.mode.toNat % 4 ≠ 3 := by decide +kernel

/-- `LZ77.TOKENIZE` checks the window with `USE_LZ77 = 0` too. -/
theorem witness_CompressionSettingChecksInOrder_tokenize :
    errOf .lz77Tokenize (st { base with window := 0, mode := 0 } []) = some .windowRange ∧
    errOf .lz77Tokenize (st { base with window := 3, mode := 3 } []) = some .windowPow2 ∧
    errOf .lz77Tokenize (st { base with mode := 3 } []) = none := by decide +kernel

theorem witness_CompressionSettingChecksInOrder_notPow2 : ∀ k, (3 : Nat) ≠ 2 ^ k := by
  intro k h
  cases k with
  | zero => simp at h
  | succ k => rw [Nat.pow_succ] at h; omega

/-- The largest and the smallest legal window, and the reset window. -/
theorem witness_windowLegal :
    WindowLegal { base with window := 32768 } ∧ WindowLegal { base with window := 1 } ∧ WindowLegal base :=
  ⟨⟨15, by decide, by decide +kernel⟩, ⟨0, by decide, by decide +kernel⟩, ⟨11, by decide, by decide +kernel⟩⟩

theorem witness_EveryRunEndsIdle :
    ∀ e ∈ ({ busyWith 0 with agenda := [.regRead 0x008 4, .complete, .memRead 5, .reset] } : State).agenda,
      e.neverRefused { busyWith 0 with agenda := [.regRead 0x008 4, .complete, .memRead 5, .reset] } := by
  intro e he
  simp at he
  rcases he with rfl | rfl | rfl | rfl <;> simp only [Event.neverRefused]
  · decide +kernel
  · decide

theorem witness_StepKeepsTheInvariant : (busyWith 0).Inv ∧ ∃ t, step (busyWith 0) = .next t :=
  ⟨busyWith_inv 0, (step_nil (s := busyWith 0) rfl).symm ▸ engineTurn_next _⟩

theorem witness_NopHasNoEffectButTheLifecycle :
    (0x100 : Word).toNat % 256 = 0 ∧ (0x100 : Word) ≠ 0 ∧ (⟨false, true, true, false, some .codeLengths⟩ : Status).toWord = 0x1506 := by
  decide +kernel

/-- The cursor ends exactly at the limit; one bit more does not fit. -/
def putState (n : Word) : State := st { base with dstCap := 1, dstBitpos := 3, arg0 := 6, arg1 := n } []

theorem witness_BitsPutWritesItsField :
    RegionsOk (.bitsPut false) (putState 5) ∧ RegionsOk (.bitsPut true) (putState 6) :=
  ⟨regionsOk (by decide +kernel), regionsOk (by decide +kernel)⟩

theorem witness_BitsPutWritesItsField_bounds :
    (putState 5).operands.dstBitpos.toNat + 5 ≤ min (8 * (putState 5).operands.dstCap.toNat) (2 ^ 32 - 1) ∧
    min (8 * (putState 6).operands.dstCap.toNat) (2 ^ 32 - 1) < (putState 6).operands.dstBitpos.toNat + 6 ∧
    32 < (putState 33).operands.arg1.toNat := by decide +kernel

def getState (n : Word) : State := st { base with srcLen := 1, srcBitpos := 3, arg1 := n } []

theorem witness_BitsGetReadsItsField :
    RegionsOk (.bitsGet false) (getState 5) ∧ RegionsOk (.bitsGet true) (getState 6) :=
  ⟨regionsOk (by decide +kernel), regionsOk (by decide +kernel)⟩

theorem witness_BitsGetReadsItsField_bounds :
    (getState 5).operands.srcBitpos.toNat + 5 ≤ min (8 * (getState 5).operands.srcLen.toNat) (2 ^ 32 - 1) ∧
    min (8 * (getState 6).operands.srcLen.toNat) (2 ^ 32 - 1) < (getState 6).operands.srcBitpos.toNat + 6 ∧
    32 < (getState 33).operands.arg1.toNat := by decide +kernel

theorem witness_PutThenGetRoundTrip :
    let s := putState 5
    let t := run (.bitsPut false) s
    let u := st { base with srcLen := 1, srcBitpos := 3, arg1 := 5 } (mem 0x100 (bytesAt t.mem 0x200 1))
    exec (.bitsPut false) s = .next t ∧ t.status.error = false ∧ u.operands.arg1 = s.operands.arg1 ∧
    u.operands.srcBitpos = s.operands.dstBitpos ∧
    (∀ j < 1, u.mem.read (u.operands.srcAddr.toNat + j) = t.mem.read (s.operands.dstAddr.toNat + j)) ∧
    RegionsOk (.bitsGet false) u :=
  ⟨exec_run _ _, by decide +kernel, by decide +kernel, by decide +kernel, by decide +kernel, regionsOk (by decide +kernel)⟩

theorem witness_PutThenGetRoundTrip_primitives :
    putBits ⟨[true], 1, 1⟩ 5 3 = .ok ⟨[true, false, true, true], 4, 1⟩ ∧
    putBitsRev ⟨[true], 1, 1⟩ 6 3 = .ok ⟨[false, true, true, true], 4, 1⟩ := by decide +kernel

theorem witness_TokenStreamReplaysToTheInput :
    WindowLegal ababState.operands ∧ RegionsOk .lz77Tokenize ababState :=
  ⟨⟨3, by decide, by decide +kernel⟩, regionsOk (by decide +kernel)⟩

/-- The six tokens of `ababState` fit exactly in 12 bytes. -/
theorem witness_TokenStreamReplaysToTheInput_bounds :
    (tokenizeBlock ababState.operands (bufOfBytes (bytesAt ababState.mem 0x100 10)) .init 0 10).1.length = 6 ∧
    errOf .lz77Tokenize (st { ababState.regs with dstCap := 12 } ababState.mem) = none ∧
    errOf .lz77Tokenize (st { ababState.regs with dstCap := 11 } ababState.mem) = some .dstFull := by decide +kernel

/-- "ABABABABAB" with `USE_LZ77 = 0`, and with a window of 4; the tokens take exactly 20 bytes. -/
def literalState (w mode cap : Word) : State := st { ababState.regs with window := w, mode := mode, dstCap := cap } ababState.mem

theorem witness_LiteralOnlyTokenStream :
    RegionsOk .lz77Tokenize (literalState 8 0xA 20) ∧ RegionsOk .lz77Tokenize (literalState 4 0xE 19) ∧
    WindowLegal (literalState 4 0xE 19).operands :=
  ⟨regionsOk (by decide +kernel), regionsOk (by decide +kernel), 2, by decide, by decide +kernel⟩

theorem witness_LiteralOnlyTokenStream_bounds :
    (literalState 8 0xA 20).operands.useLz77 = false ∧ (literalState 4 0xE 19).operands.window.toNat < 8 ∧
    2 * (literalState 8 0xA 20).operands.srcLen.toNat ≤ (literalState 8 0xA 20).operands.dstCap.toNat ∧
    (literalState 4 0xE 19).operands.dstCap.toNat < 2 * (literalState 4 0xE 19).operands.srcLen.toNat := by decide +kernel

/-- Two zeros and a one: the run is 2 and ends before the block. -/
theorem witness_ZeroRunIsExact :
    let c : Finder := ⟨bufOfBytes [0, 0, 1], 3, 8, 3, 128, true, specFinder⟩
    0 ≤ c.stop ∧ c.zeroRun 0 = 2 ∧ 0 + c.zeroRun 0 < min c.stop (0 + 258) := by decide +kernel

theorem witness_BuildFreqWritesACompleteCode :
    RegionsOk .huffBuildFreq (freqState 2) ∧ RegionsOk .huffBuildFreq (freqState 1) :=
  ⟨regionsOk (by decide +kernel), regionsOk (by decide +kernel)⟩

/-- Four used symbols: exactly `2^2`, and more than `2^1`. -/
theorem witness_BuildFreqWritesACompleteCode_bounds :
    let s := freqState 2
    2 ≤ s.operands.arg1.toNat ∧ 1 ≤ s.operands.arg2.toNat ∧ s.operands.arg0.toNat ≤ s.operands.arg1.toNat ∧
    4 * s.operands.arg1.toNat ≤ s.operands.srcLen.toNat ∧ s.operands.arg1.toNat ≤ s.operands.dstCap.toNat ∧
    ((List.range 4).filter fun k => s.mem.readLE (0x100 + 4 * k) 4 ≠ 0).length = 4 := by decide +kernel

/-- Each illegal argument, the source one byte short and the destination one byte short. -/
theorem witness_BuildFreqWritesACompleteCode_failures :
    errOf .huffBuildFreq (st { (freqState 15).regs with arg1 := 1 } []) = some .badArg ∧
    errOf .huffBuildFreq (freqState 16) = some .badArg ∧
    errOf .huffBuildFreq (st { (freqState 15).regs with arg0 := 5 } []) = some .badArg ∧
    errOf .huffBuildFreq (st { (freqState 15).regs with srcLen := 15 } []) = some .trunc ∧
    errOf .huffBuildFreq (st { (freqState 15).regs with dstCap := 3 } []) = some .dstFull := by decide +kernel

theorem witness_BuiltCodesAreCompleteAndDecode :
    ([5, 1, 1, 2].filter (· ≠ 0)).length ≤ 2 ^ 2 ∧ lengthsFromFrequencies [5, 1, 1, 2] 2 = .ok [2, 2, 2, 2] ∧
    lengthsFromFrequencies [0, 0] 1 = .ok [1, 1] := by decide +kernel

theorem witness_BuildLengthsWritesTheCanonicalCode :
    RegionsOk .huffBuildLengths lengthsState ∧ kraftSum [3, 3, 3, 3, 3, 2, 4, 4] 15 = 2 ^ 15 ∧
    2 * lengthsState.operands.srcLen.toNat ≤ lengthsState.operands.dstCap.toNat ∧
    (bytesAt lengthsState.mem 0x100 8).map (·.toNat) = [3, 3, 3, 3, 3, 2, 4, 4] ∧ ¬ kraftSum [1] 15 = 2 ^ 15 :=
  ⟨regionsOk (by decide +kernel), by decide +kernel, by decide +kernel, by decide +kernel, by decide +kernel⟩

theorem witness_BuildLengthsWritesTheCanonicalCode_failures :
    errOf .huffBuildLengths (st { lengthsState.regs with srcLen := 0 } []) = some .badArg ∧
    errOf .huffBuildLengths (st { lengthsState.regs with arg2 := 0 } []) = some .badArg ∧
    errOf .huffBuildLengths (st { lengthsState.regs with dstCap := 15 } lengthsState.mem) = some .dstFull := by decide +kernel

theorem witness_EncodeSymWritesTheCode :
    RegionsOk .huffEncodeSym encodeState ∧ kraftSum [3, 3, 3, 3, 3, 2, 4, 4] 15 ≤ 2 ^ 15 ∧
    (bytesAt encodeState.mem 0x300 8).map (·.toNat) = [3, 3, 3, 3, 3, 2, 4, 4] ∧
    encodeState.operands.dstBitpos.toNat + 3 ≤ min (8 * encodeState.operands.dstCap.toNat) (2 ^ 32 - 1) :=
  ⟨regionsOk (by decide +kernel), by decide +kernel, by decide +kernel, by decide +kernel⟩

/-- A symbol outside the table, a table that is not prefix-free, a symbol with no code, and a code that does not fit. -/
theorem witness_EncodeSymWritesTheCode_failures :
    errOf .huffEncodeSym (st { encodeState.regs with arg0 := 8 } encodeState.mem) = some .badArg ∧
    errOf .huffEncodeSym (st encodeState.regs (mem 0x300 [1, 1, 1])) = some .codeLengths ∧
    errOf .huffEncodeSym (st encodeState.regs (mem 0x300 [1, 1])) = some .invalidCode ∧
    errOf .huffEncodeSym (st { encodeState.regs with dstBitpos := 6 } encodeState.mem) = some .dstFull := by decide +kernel

/-- Several errors at once: 60_exceptions.md R321 item 9 comes before item 11. A table that is not prefix-free whose symbol does not
fit, and a symbol with no code at a cursor past the limit; at the limit itself 0 bits fit. -/
theorem witness_EncodeSymWritesTheCode_order :
    errOf .huffEncodeSym (st { encodeState.regs with arg0 := 0, dstBitpos := 8 } (mem 0x300 [1, 1, 1])) = some .dstFull ∧
    errOf .huffEncodeSym (st { encodeState.regs with dstBitpos := 9 } (mem 0x300 [1, 1])) = some .dstFull ∧
    errOf .huffEncodeSym (st { encodeState.regs with dstBitpos := 8 } (mem 0x300 [1, 1])) = some .invalidCode := by decide +kernel

theorem witness_DecodeSymReadsTheCode :
    RegionsOk .huffDecodeSym decodeState ∧ (bytesAt decodeState.mem 0x300 8).map (·.toNat) = [3, 3, 3, 3, 3, 2, 4, 4] ∧
    bitsStandAt decodeState.mem 0x100 1 (msbBits 0b110 3) ∧
    decodeState.operands.srcBitpos.toNat + 3 ≤ min (8 * decodeState.operands.srcLen.toNat) (2 ^ 32 - 1) ∧
    (canonicalCodes [3, 3, 3, 3, 3, 2, 4, 4]).getD 4 0 = 0b110 :=
  ⟨regionsOk (by decide +kernel), by decide +kernel, by unfold bitsStandAt; decide +kernel, by decide +kernel, by decide +kernel⟩

/-- A table of one code of one bit, 0, and the bit 1 as the last bit of SRC. -/
def noCodeState (len : Byte) : State :=
  st { base with srcLen := 1, srcBitpos := 7, arg1 := 1, arg2 := 15 } (mem 0x100 [0x80] ++ mem 0x300 [len])

/-- No code stands at the cursor; with length 1 all its bits are there, with length 2 they are not. -/
theorem witness_DecodeSymReadsTheCode_noCode :
    RegionsOk .huffDecodeSym (noCodeState 1) ∧ memBit (noCodeState 1).mem 0x100 7 = true ∧
    (canonicalCodes [1]).getD 0 0 = 0 ∧ 7 + 1 ≤ min (8 * (noCodeState 1).operands.srcLen.toNat) (2 ^ 32 - 1) ∧
    errOf .huffDecodeSym (noCodeState 1) = some .invalidCode ∧ errOf .huffDecodeSym (noCodeState 2) = some .noEob :=
  ⟨regionsOk (by decide +kernel), by decide +kernel, by decide +kernel, by decide +kernel, by decide +kernel, by decide +kernel⟩

theorem witness_DecodeSymReadsTheCode_noneStands :
    ∀ k, ¬ ([1].getD k 0 ≠ 0 ∧
      bitsStandAt (noCodeState 1).mem 0x100 7 (msbBits ((canonicalCodes [1]).getD k 0) ([1].getD k 0))) := by
  rintro (_ | k) ⟨h, hb⟩
  · have := hb 0 (by decide +kernel)
    revert this
    decide +kernel
  · exact h rfl

/-- No maximum length, a table with no code, and a cursor at the limit. -/
theorem witness_DecodeSymReadsTheCode_failures :
    errOf .huffDecodeSym (st { decodeState.regs with arg2 := 0 } decodeState.mem) = some .badArg ∧
    errOf .huffDecodeSym (st decodeState.regs []) = some .invalidCode ∧
    errOf .huffDecodeSym (st { decodeState.regs with srcBitpos := 8 } decodeState.mem) = some .noEob := by decide +kernel

theorem witness_TreeWriteWritesAHeader :
    RegionsOk .treeWrite treeWriteState ∧
    (∀ l ∈ (bytesAt treeWriteState.mem 0x1000 288).map (·.toNat), l ≤ 15) ∧
    errOf .treeWrite (st treeWriteState.regs (mem 0x1000 [16])) = some .codeLengths ∧
    errOf .treeWrite (st { treeWriteState.regs with arg0 := 256 } []) = some .badArg :=
  ⟨regionsOk (by decide +kernel), by decide +kernel, by decide +kernel, by decide +kernel⟩

/-- The 111 bits from bit 1 on fit exactly in 14 bytes, and from bit 2 on they do not. -/
theorem witness_TreeWriteWritesAHeader_bounds :
    let s := fun bp => st { treeWriteState.regs with dstCap := 14, dstBitpos := bp } treeWriteState.mem
    errOf .treeWrite (s 1) = none ∧ errOf .treeWrite (s 2) = some .dstFull ∧
    errOf .treeWrite (st (s 113).regs (mem 0x1000 [16])) = some .dstFull ∧
    errOf .treeWrite (st (s 112).regs (mem 0x1000 [16])) = some .codeLengths := by decide +kernel

/-- The bits of R225's example. -/
def zerosBits : List Bool :=
  match dynamicHeader zerosLL [1, 1] with
  | .ok p => p.1
  | .error _ => []

theorem witness_TreeReadReadsAWrittenHeader :
    dynamicHeader zerosLL [1, 1] = .ok (zerosBits, 18) ∧ zerosLL.length = 286 ∧ (∀ l ∈ zerosLL ++ [1, 1], l ≤ 15) ∧
    zerosLL.getD 256 0 ≠ 0 ∧ kraftSum zerosLL 15 = 2 ^ 15 ∧ kraftSum [1, 1] 15 = 2 ^ 15 ∧ zerosBits.length = 111 ∧
    (∀ k, (h : k < zerosBits.length) → memBit treeReadState.mem 0x100 (0 + k) = zerosBits[k]) ∧
    0 + zerosBits.length ≤ min (8 * treeReadState.operands.srcLen.toNat) (2 ^ 32 - 1) ∧
    320 ≤ treeReadState.operands.dstCap.toNat := by decide +kernel

theorem witness_TreeReadReadsAWrittenHeader_regions : RegionsOk .treeRead treeReadState := regionsOk (by decide +kernel)

/-- A small destination, and a header that is cut short. -/
theorem witness_TreeReadReadsAWrittenHeader_failures :
    errOf .treeRead (st { treeReadState.regs with dstCap := 319 } treeReadState.mem) = some .dstFull ∧
    errOf .treeRead (st { treeReadState.regs with srcLen := 13 } treeReadState.mem) = some .noEob ∧
    errOf .treeRead (st { treeReadState.regs with srcLen := 0 } treeReadState.mem) = some .trunc := by decide +kernel

/-- 288 literal/length and 32 distance lengths: the largest counts a header can hold, with one repeat across the two tables. -/
def pairsFull : List (Nat × Nat) := [(18, 127), (18, 107), (1, 0), (1, 0), (18, 49), (1, 0), (1, 0)]

/-- Code-length codes of one bit each for the symbols 16 and 17, for 17 and 18, and for 1 and 18. -/
def fields16 : List Nat := [1, 1, 0, 0]
def fields18 : List Nat := [0, 1, 1, 0]
def fields1 : List Nat := [0, 0, 1, 0, 0, 0, 0, 0, 0] ++ [0, 0, 0, 0, 0, 0, 0, 0, 1]

/-- 256 zeros and two codes of length 1, then 29 zeros and two more. -/
def pairs31 : List (Nat × Nat) := [(18, 127), (18, 107), (1, 0), (1, 0), (18, 18), (1, 0), (1, 0)]

theorem fieldsLegal : FieldsLegal 257 1 fields16 ∧ FieldsLegal 257 1 fields18 ∧ FieldsLegal 257 1 fields1 ∧
    FieldsLegal 258 31 fields1 ∧ FieldsLegal 257 1 [0, 0, 0, 0] := by unfold FieldsLegal; decide

theorem fieldsComplete : kraftSum (clLengths fields16) 7 = 2 ^ 7 ∧ kraftSum (clLengths fields18) 7 = 2 ^ 7 ∧
    kraftSum (clLengths fields1) 7 = 2 ^ 7 := by decide +kernel

/-- That header's bits. -/
def fullBits : List Bool := headerFields 288 32 fields1 ++ pairBits (clLengths fields1) pairsFull

theorem witness_TreeReadReadsAWrittenHeader_anyHeader :
    HeaderBits fullBits ((expandPairs pairsFull).take 288) ((expandPairs pairsFull).drop 288) :=
  .mk (by unfold FieldsLegal; decide) fieldsComplete.2.2 (by unfold PairsLegal; decide +kernel) (by decide +kernel) (by decide +kernel)
    (by decide +kernel) (by decide +kernel)

/-- `TREE.READ` on it. -/
theorem witness_TreeReadReadsAWrittenHeader_anyHeader_runs :
    let bytes := packBits fullBits
    let t := run .treeRead (st { base with srcLen := word bytes.length, dstCap := 320 } (mem 0x100 bytes))
    t.status.errCode = none ∧ t.regs.result0 = 288 ∧ t.regs.result1 = 32 ∧ t.regs.srcBitpos = word fullBits.length := by decide +kernel

/-- One malformed or cut header for each way to be one. -/
theorem witness_HeaderError_codes :
    HeaderError true [] .trunc ∧ HeaderError false (headerFields 257 1 [0, 0, 0, 0]) .codeLengths ∧
    HeaderError false (headerFields 257 1 fields16 ++ codeBits (clLengths fields16) 16) .repeatNoPrev ∧
    HeaderError true (headerFields 257 1 fields16 ++ pairBits (clLengths fields16) [] ++ []) .noEob ∧
    HeaderError true
      (headerFields 257 1 fields16 ++ pairBits (clLengths fields16) [] ++ codeBits (clLengths fields16) 17 ++ []) .trunc := by
  obtain ⟨h16, h18, h1, h31, h0⟩ := fieldsLegal
  obtain ⟨k16, k18, k1⟩ := fieldsComplete
  exact ⟨.fieldCut h0 List.nil_prefix (by decide +kernel), .clCode h0 (by decide +kernel), .noPrevious h16 k16 (by decide +kernel),
    .codeCut (ps := []) h16 k16 (by unfold PairsLegal; decide) (by decide) (noCode_nil _),
    .extraCut (ps := []) (p := (17, 0)) h16 k16 (by unfold PairsLegal; decide +kernel) (by decide) (by decide)⟩

theorem witness_HeaderError_lengths :
    HeaderError false (headerFields 257 1 fields18 ++ pairBits (clLengths fields18) ([(18, 127)] ++ [(18, 127)])) .repeatOverrun ∧
    HeaderError false (headerFields 257 1 fields18 ++ pairBits (clLengths fields18) [(18, 127), (18, 109)]) .noEobLength ∧
    HeaderError false (headerFields 257 1 fields1 ++ pairBits (clLengths fields1) [(18, 127), (18, 107), (1, 0), (1, 0)])
      .codeLengths := by
  obtain ⟨h16, h18, h1, h31, h0⟩ := fieldsLegal
  obtain ⟨k16, k18, k1⟩ := fieldsComplete
  exact ⟨.overrun h18 k18 (by unfold PairsLegal; decide +kernel) (by decide +kernel) (by decide +kernel),
    .noEobLength h18 k18 (by unfold PairsLegal; decide +kernel) (by decide +kernel) (by decide +kernel),
    .dataCode h1 k1 (by unfold PairsLegal; decide +kernel) (by decide +kernel) (by decide +kernel) (by decide +kernel)⟩

theorem witness_DynamicHeaderRoundTrip :
    257 ≤ zerosLL.length ∧ zerosLL.length ≤ 288 ∧ (∀ l ∈ zerosLL ++ [1, 1], l ≤ 15) ∧
    (readDynamicHeader Config.degenerateDistOk (readerOfBits zerosBits)).toOption.isSome = true := by decide +kernel

/-- "abc" stored takes exactly 8 bytes. -/
theorem witness_StoredStreamLayout :
    let s := st { (abcState 0xC).regs with dstCap := 8 } (mem 0x100 abc)
    let u := st { (abcState 0xC).regs with dstCap := 7 } (mem 0x100 abc)
    WindowLegal s.operands ∧ RegionsOk .deflateRaw s ∧ RegionsOk .deflateRaw u :=
  ⟨⟨11, by decide, by decide +kernel⟩, regionsOk (by decide +kernel), regionsOk (by decide +kernel)⟩

theorem witness_StoredStreamLayout_bounds :
    (abcState 0xC).operands.mode.toNat % 4 = 0 ∧ 3 + 5 * max 1 ((3 + 65534) / 65535) ≤ 8 ∧
    7 < 3 + 5 * max 1 ((3 + 65534) / 65535) := by decide +kernel

theorem witness_DeflateCompletesGivenRoom :
    WindowLegal (abcState 0xE).operands ∧ RegionsOk .deflateRaw (abcState 0xE) ∧ (abcState 0xE).operands.mode.toNat % 4 ≠ 3 ∧
    2 * 3 + 600 * (3 / 65535 + 1) ≤ (abcState 0xE).operands.dstCap.toNat :=
  ⟨⟨11, by decide, by decide +kernel⟩, regionsOk (by decide +kernel), by decide +kernel, by decide +kernel⟩

/-- The writer after the fixed-block stream of "abc". -/
def abcWriter : Writer :=
  match encodeStream (abcState 0xD).regs (bufOfBytes abc) 3 ⟨[], 0, 700⟩ with
  | .ok p => p.1
  | .error _ => ⟨[], 0, 0⟩

/-- The same writer with room for exactly that stream. -/
def abcWriter5 : Writer := { abcWriter with cap := 5 }

/-- SRC holds that stream. -/
def abcStream : State := st { base with srcLen := 5, dstCap := 3 } (mem 0x100 [0x4B, 0x4C, 0x4A, 0x06, 0])

theorem witness_InflateDecodesEncodedStreams :
    encodeStream (abcState 0xD).regs (bufOfBytes abc) abc.length ⟨[], 0, 700⟩ = .ok (abcWriter, 1) ∧
    abcWriter.bytes.length ≤ abcStream.operands.srcLen.toNat ∧
    bytesAt abcStream.mem abcStream.operands.srcAddr.toNat abcWriter.bytes.length = abcWriter.bytes ∧
    abc.length ≤ abcStream.operands.dstCap.toNat ∧ (abcState 0xD).regs.mode.toNat % 4 ≠ 3 := by decide +kernel

theorem witness_InflateDecodesEncodedStreams_regions : RegionsOk .inflateRaw abcStream := regionsOk (by decide +kernel)

/-- Vector I-14's tokens: "a", then length 258 as code 284 with the extra value 31, at distance 1. -/
def tokens259 : List Nat := [97, 284, 31, 0, 0]

/-- A stored block with "z" and padding of ones, then a fixed block with those tokens, whose copy may reach into the first. -/
def mixedBits : List Bool :=
  [false, false, false] ++ List.replicate 5 true ++ lsbBits 1 16 ++ lsbBits 65534 16 ++ [(0x7A : Byte)].flatMap (fun b => lsbBits b.toNat 8) ++
    ([true, true, false] ++ tokenBits (codeTable fixedLL) (codeTable fixedD) tokens259 ++ codeBits fixedLL 256)

theorem witness_InflateDecodesEncodedStreams_anyStream :
    StreamBits 0 [] mixedBits 2 (0x7A :: List.replicate 259 0x61) :=
  .more (mid := [0x7A]) (.stored (data := [0x7A]) (by decide) (by decide))
    (.last (.huffman (.fixed true) (by unfold TokensCoded; decide +kernel) (by decide +kernel)))

/-- `INFLATE.RAW` on it, with room for exactly its output; and vector I-14. -/
theorem witness_InflateDecodesEncodedStreams_anyStream_runs :
    let t := run .inflateRaw (inflateBytes (packBits mixedBits) 260)
    t.status.errCode = none ∧ t.regs.dstLen = 260 ∧ t.regs.result1 = 2 ∧ t.regs.result0 = word mixedBits.length ∧
    (run .inflateRaw (inflateBytes [0x4B, 0x1C, 0xF9, 0, 0] 1024)).regs.dstLen = 259 := by decide +kernel

theorem witness_DeflateInflateRoundTrip :
    let s := abcState 0xD
    let t := run .deflateRaw s
    exec .deflateRaw s = .next t ∧ t.status.error = false ∧ abcStream.operands.srcLen = t.regs.dstLen ∧
    s.operands.srcLen.toNat ≤ abcStream.operands.dstCap.toNat ∧ RegionsOk .inflateRaw abcStream ∧
    bytesAt abcStream.mem 0x100 t.regs.dstLen.toNat = bytesAt t.mem 0x200 t.regs.dstLen.toNat :=
  ⟨exec_run _ _, by decide +kernel, by decide +kernel, by decide +kernel, regionsOk (by decide +kernel), by decide +kernel⟩

/-- The chosen symbols get a length: the first `a` of them `k`, the others `k + 1`. -/
def flatLengths (k a : Nat) : List Bool → Nat → List Nat
  | [], _ => []
  | true :: cs, i => (if i < a then k else k + 1) :: flatLengths k a cs (i + 1)
  | false :: cs, i => 0 :: flatLengths k a cs i

/-- The used symbols, and symbols 0 and 1 as far as they are needed to make two. -/
def chosen : List Nat → List Bool
  | f :: g :: rest =>
    if 2 ≤ ((f :: g :: rest).filter (· ≠ 0)).length then (f :: g :: rest).map (· ≠ 0)
    else if rest.all (· = 0) then true :: true :: rest.map fun _ => false
    else true :: false :: rest.map (· ≠ 0)
  | _ => []

/-- A tree builder that gives the `u` chosen symbols two lengths, as equal as they can be. -/
def flatBuilder : TreeBuilder := fun freq m =>
  let u := (chosen freq).count true
  if 2 ^ m < u then .error .alphabetTooLarge
  else .ok (flatLengths (Nat.clog 2 u - 1) (2 ^ Nat.clog 2 u - u) (chosen freq) 0)

theorem flatLengths_length (k a : Nat) (cs : List Bool) (i : Nat) : (flatLengths k a cs i).length = cs.length := by
  induction cs generalizing i with
  | nil => rfl
  | cons c cs ih => cases c <;> simp [flatLengths, ih]

theorem flatLengths_le (k a : Nat) (cs : List Bool) (i : Nat) : ∀ l ∈ flatLengths k a cs i, l ≤ k + 1 := by
  induction cs generalizing i with
  | nil => simp [flatLengths]
  | cons c cs ih =>
    cases c <;> simp only [flatLengths, List.mem_cons, forall_eq_or_imp]
    · exact ⟨by omega, ih i⟩
    · exact ⟨by split <;> omega, ih (i + 1)⟩

/-- Kraft's sum of the flat lengths: `2` for each of the chosen symbols below `a`, `1` for each other one. -/
theorem kraftSum_flatLengths {k a m : Nat} (hk : 0 < a → 0 < k) (hm : k + 1 ≤ m) (cs : List Bool) (i : Nat) :
    kraftSum (flatLengths k a cs i) m = (cs.count true + (min a (i + cs.count true) - min a i)) * 2 ^ (m - (k + 1)) := by
  induction cs generalizing i with
  | nil => simp [flatLengths, kraftSum]
  | cons c cs ih =>
    cases c
    · have := ih i
      simpa [flatLengths, kraftSum] using this
    · have := ih (i + 1)
      simp only [kraftSum] at this
      simp only [flatLengths, kraftSum, List.map_cons, List.sum_cons, this, List.count_cons_self]
      by_cases hi : i < a
      · have h2 : 2 ^ (m - k) = 2 * 2 ^ (m - (k + 1)) := by rw [show m - k = m - (k + 1) + 1 by omega, Nat.pow_succ]; ring
        have h0 : k ≠ 0 := by have := hk (by omega); omega
        rw [if_pos hi, if_neg h0, h2, ← Nat.add_mul]
        congr 1
        omega
      · rw [if_neg hi, if_neg (by omega), show cs.count true + 1 + (min a (i + (cs.count true + 1)) - min a i) =
          1 + (cs.count true + (min a (i + 1 + cs.count true) - min a (i + 1))) by omega, Nat.add_mul 1, Nat.one_mul]

theorem flatLengths_count {k a : Nat} (hk : 0 < a → 0 < k) (cs : List Bool) (i : Nat) :
    ((flatLengths k a cs i).filter (· ≠ 0)).length = cs.count true := by
  induction cs generalizing i with
  | nil => rfl
  | cons c cs ih =>
    cases c
    · simpa [flatLengths] using ih i
    · have hne : (if i < a then k else k + 1) ≠ 0 := by split <;> omega
      have := ih (i + 1)
      simp [flatLengths, hne] at this ⊢
      exact this

theorem flatLengths_chosen {k a : Nat} (hk : 0 < a → 0 < k) (cs : List Bool) (i s : Nat) (h : cs.getD s false = true) :
    (flatLengths k a cs i).getD s 0 ≠ 0 := by
  induction cs generalizing i s with
  | nil => simp at h
  | cons c cs ih =>
    cases s with
    | zero =>
      simp at h
      subst h
      simp only [flatLengths, List.getD_cons_zero]
      split <;> omega
    | succ s =>
      simp only [List.getD_cons_succ] at h
      cases c <;> simpa only [flatLengths, List.getD_cons_succ] using ih _ s h

theorem count_map_ne_zero (freq : List Nat) : (freq.map fun f => decide (f ≠ 0)).count true = (freq.filter (· ≠ 0)).length := by
  induction freq with
  | nil => rfl
  | cons f freq ih => by_cases hf : f = 0 <;> simp_all

theorem chosen_spec (freq : List Nat) (h : 2 ≤ freq.length) :
    (chosen freq).length = freq.length ∧ 2 ≤ (chosen freq).count true ∧
    (chosen freq).count true ≤ max 2 ((freq.filter (· ≠ 0)).length) ∧
    ∀ s, freq.getD s 0 ≠ 0 → (chosen freq).getD s false = true := by
  match freq, h with
  | f :: g :: rest, _ =>
    simp only [chosen]
    split
    · next h2 =>
      refine ⟨by simp, by rw [count_map_ne_zero]; exact h2, by rw [count_map_ne_zero]; omega, fun s hs => ?_⟩
      simp only [List.getD_eq_getElem?_getD, List.getElem?_map] at hs ⊢
      cases hg : (f :: g :: rest)[s]? <;> simp_all
    · next h2 =>
      split
      · next h0 =>
        simp only [List.all_eq_true, decide_eq_true_eq] at h0
        have hz : (rest.map fun _ => false).count true = 0 := by simp [List.count_eq_zero]
        refine ⟨by simp, by simp, by simp only [List.count_cons_self, hz]; omega, fun s hs => ?_⟩
        match s with
        | 0 | 1 => rfl
        | s + 2 =>
          refine absurd ?_ hs
          change rest[s]?.getD 0 = 0
          cases hg : rest[s]? with
          | none => rfl
          | some v => exact h0 v (List.mem_of_getElem? hg)
      · next h0 =>
        have h1 : 1 ≤ (rest.filter (· ≠ 0)).length := by
          by_contra hc
          refine h0 (List.all_eq_true.2 fun v hv => decide_eq_true ?_)
          by_contra hv0
          have : v ∈ rest.filter (· ≠ 0) := List.mem_filter.2 ⟨hv, by simpa using hv0⟩
          have := List.length_pos_of_mem this
          omega
        have hf : f = 0 ∧ g = 0 ∧ (rest.filter (· ≠ 0)).length = 1 := by
          simp only [← List.countP_eq_length_filter, List.countP_cons, decide_eq_true_eq] at h2 h1 ⊢
          split_ifs at h2 <;> omega
        obtain ⟨rfl, rfl, hr⟩ := hf
        have hc : (true :: false :: rest.map fun f => decide (f ≠ 0)).count true = 2 := by
          simp only [List.count_cons, count_map_ne_zero, hr]
          rfl
        refine ⟨by simp, le_of_eq hc.symm, by omega, fun s hs => ?_⟩
        match s with
        | 0 => rfl
        | 1 => simp at hs
        | s + 2 =>
          change rest[s]?.getD 0 ≠ 0 at hs
          change (rest.map fun f => decide (f ≠ 0))[s]?.getD false = true
          rw [List.getElem?_map]
          cases hg : rest[s]? <;> simp_all

/-- There is a tree builder as R217 requires, besides the spec's own. -/
theorem flatBuilder_legal : LegalBuilder flatBuilder := by
  intro freq m hn hm1 hm15
  obtain ⟨hlen, h2, hmax, hused⟩ := chosen_spec freq hn
  have hm2 : 2 ≤ 2 ^ m := by
    calc 2 = 2 ^ 1 := rfl
      _ ≤ 2 ^ m := Nat.pow_le_pow_right (by decide) hm1
  unfold flatBuilder
  simp only
  split
  · next hlt =>
    refine ⟨fun len h => by simp at h, fun e h => ?_⟩
    cases h
    exact ⟨rfl, by omega⟩
  · next hge =>
    refine ⟨fun len h => ?_, fun e h => by simp at h⟩
    cases h
    generalize hu : (chosen freq).count true = u at *
    have hc1 : 1 ≤ Nat.clog 2 u := by
      rw [Nat.succ_le_iff]
      exact Nat.clog_pos (by decide) h2
    have hcm : Nat.clog 2 u ≤ m := Nat.clog_le_of_le_pow (by omega)
    have hle : u ≤ 2 ^ Nat.clog 2 u := Nat.le_pow_clog (by decide) u
    have hgt : 2 ^ (Nat.clog 2 u - 1) < u := Nat.pow_pred_clog_lt_self (by decide) (by omega)
    have hdbl : 2 ^ Nat.clog 2 u = 2 * 2 ^ (Nat.clog 2 u - 1) := by
      conv_lhs => rw [show Nat.clog 2 u = Nat.clog 2 u - 1 + 1 by omega, Nat.pow_succ]
      ring
    have hk : 0 < 2 ^ Nat.clog 2 u - u → 0 < Nat.clog 2 u - 1 := by
      intro h
      by_contra hc
      have : Nat.clog 2 u = 1 := by omega
      rw [this] at h
      omega
    refine ⟨by rw [flatLengths_length, hlen], fun l hl => ?_, ?_, by rw [flatLengths_count hk, hu]; exact h2, fun k _ hf =>
      flatLengths_chosen hk _ _ _ (hused k hf)⟩
    · have := flatLengths_le _ _ _ _ l hl
      omega
    · rw [kraftSum_flatLengths hk (by omega), hu, show u + (min (2 ^ Nat.clog 2 u - u) (0 + u) - min (2 ^ Nat.clog 2 u - u) 0) =
        2 ^ Nat.clog 2 u by omega, ← Nat.pow_add]
      congr 1
      omega

/-- Parameters other than the spec's: a constant hash, and the flat builder. -/
def otherEncoder : EncoderParams := ⟨⟨fun _ => 0, fun _ => 16, 1, 64⟩, flatBuilder⟩

/-- The parameters' clause: a stream of such an encoder, and one for which there is no room. -/
theorem witness_DeflateInflateRoundTrip_parameters :
    LegalBuilder otherEncoder.build ∧ WindowLegal (abcState 0xD).regs ∧ (abcState 0xD).regs.mode.toNat % 4 ≠ 3 ∧
    encodeStreamWith otherEncoder (abcState 0xD).regs (bufOfBytes abc) abc.length ⟨[], 0, 5⟩ = .ok (abcWriter5, 1) ∧
    encodeStreamWith otherEncoder (abcState 0xD).regs (bufOfBytes abc) abc.length ⟨[], 0, 4⟩ = .error .dstFull :=
  ⟨flatBuilder_legal, ⟨11, by decide, by decide +kernel⟩, by decide +kernel, by decide +kernel, by decide +kernel⟩

/-- A first block that is malformed or cut short, one state for each clause. -/
theorem witness_InflateRejectsAMalformedFirstBlock :
    let s := fun (n cap : Word) bs => st { base with srcLen := n, dstCap := cap } (mem 0x100 bs)
    errOf .inflateRaw (s 0 9 []) = some .trunc ∧ errOf .inflateRaw (s 1 9 [0x06]) = some .btype ∧
    errOf .inflateRaw (s 4 9 [0x01, 0, 0, 0xFF]) = some .trunc ∧ errOf .inflateRaw (s 5 9 [0x01, 1, 0, 0xFF, 0xFF]) = some .nlen ∧
    errOf .inflateRaw (s 5 9 [0x01, 1, 0, 0xFE, 0xFF]) = some .trunc ∧
    errOf .inflateRaw (s 6 0 [0x01, 1, 0, 0xFE, 0xFF, 7]) = some .dstFull := by decide +kernel

theorem witness_InflateRejectsAMalformedFirstBlock_regions :
    RegionsOk .inflateRaw (st { base with srcLen := 5, dstCap := 9 } (mem 0x100 [0x01, 1, 0, 0xFF, 0xFF])) :=
  regionsOk (by decide +kernel)

/-- No tokens need no codes. -/
theorem tokensCoded_nil (ll dl : List Nat) : TokensCoded ll dl [] :=
  ⟨fun _ h => absurd h List.not_mem_nil, fun _ h => absurd h List.not_mem_nil⟩

/-- A fixed block so far with no output, and one with the output "a". -/
theorem blockData_fixed : BlockData [true, true, false] fixedLL fixedD [] :=
  ⟨true, _, [], .fixed true, rfl, tokensCoded_nil _ _, rfl⟩

theorem blockData_a :
    BlockData ([true, true, false] ++ tokenBits (codeTable fixedLL) (codeTable fixedD) [97]) fixedLL fixedD [97] :=
  ⟨true, _, [97], .fixed true, rfl, by unfold TokensCoded; decide +kernel, by decide +kernel⟩

/-- A dynamic block whose literal/length code has the symbols 256 and 257 and whose distance code has 29 and 30. -/
theorem blockData_dynamic : ∃ bits, BlockData bits (List.replicate 256 0 ++ [1, 1]) (List.replicate 29 0 ++ [1, 1]) [] := by
  obtain ⟨h16, h18, h1, h31, h0⟩ := fieldsLegal
  obtain ⟨k16, k18, k1⟩ := fieldsComplete
  have h : HeaderBits _ ((expandPairs pairs31).take 258) ((expandPairs pairs31).drop 258) :=
    .mk h31 k1 (by unfold PairsLegal; decide +kernel) (by decide +kernel) (by decide +kernel) (by decide +kernel) (by decide +kernel)
  have hl : (expandPairs pairs31).take 258 = List.replicate 256 0 ++ [1, 1] := by decide +kernel
  have hd : (expandPairs pairs31).drop 258 = List.replicate 29 0 ++ [1, 1] := by decide +kernel
  rw [hl, hd] at h
  exact ⟨_, true, _, [], .dynamic true h, rfl, tokensCoded_nil _ _, rfl⟩

/-- One malformed Huffman block for each way to be one. -/
theorem witness_BlockError_malformed :
    (∃ bits, BlockError 0 false bits .codeLengths) ∧ BlockError 0 false ([true, true, false] ++ codeBits fixedLL 0) .dstFull ∧
    BlockError 0 false ([true, true, false] ++ codeBits fixedLL 286) .invalidCode ∧ (∃ bits, BlockError 0 false bits .invalidCode) ∧
    BlockError 0 false ([true, true, false] ++ lengthBits fixedLL 257 0 ++ [true, true, true, true, false]) .invalidCode ∧
    BlockError 0 false ([true, true, false] ++ lengthBits fixedLL 257 0 ++ codeBits fixedD 0 ++ lsbBits 0 0) .distTooFar ∧
    ∃ bits, BlockError 3 false bits .dstFull := by
  obtain ⟨bits, h⟩ := blockData_dynamic
  exact ⟨⟨_, .header true witness_HeaderError_codes.2.1⟩, .literalFull blockData_fixed rfl (by decide) (by decide +kernel),
    .symbol blockData_fixed (by decide) (.inl rfl) (by decide +kernel),
    ⟨_, .distSymbol (c := 257) (el := 0) (d := 30) h (by decide) (by unfold LengthLegal; decide +kernel) (.inl rfl)
      (by decide +kernel)⟩,
    .distPattern blockData_fixed (by decide) (by unfold LengthLegal; decide +kernel) (noCode_of_lt (by decide +kernel))
      (by decide +kernel),
    .tooFar (d := 0) (ed := 0) blockData_fixed (by decide) (by unfold LengthLegal; decide +kernel)
      (by unfold DistLegal; decide +kernel) (by decide),
    ⟨_, .copyFull (c := 257) (el := 0) (d := 0) (ed := 0) blockData_a (by decide) (by unfold LengthLegal; decide +kernel)
      (by unfold DistLegal; decide +kernel) (by decide) (by decide)⟩⟩

/-- One Huffman block for each place where the input can end. -/
theorem witness_BlockError_cut :
    BlockError 0 true ([true, true, false] ++ []) .noEob ∧
    BlockError 0 true ([true, true, false] ++ codeBits fixedLL 265 ++ []) .trunc ∧
    BlockError 0 true ([true, true, false] ++ lengthBits fixedLL 257 0 ++ []) .noEob ∧
    BlockError 0 true ([true, true, false] ++ lengthBits fixedLL 257 0 ++ codeBits fixedD 4 ++ []) .trunc :=
  ⟨.codeCut blockData_fixed (by decide) (noCode_nil _),
    .lengthCut (el := 0) blockData_fixed (by decide) (by unfold LengthLegal; decide +kernel) (by decide),
    .distCut blockData_fixed (by decide) (by unfold LengthLegal; decide +kernel) (noCode_nil _) (by decide +kernel),
    .distExtraCut (ed := 0) blockData_fixed (by decide) (by unfold LengthLegal; decide +kernel)
      (by unfold DistLegal; decide +kernel) (by decide)⟩

/-- Distance 1, length 3: an overlapping copy that fits exactly; one byte less; and a distance past the start. -/
theorem witness_BackReferenceCopiesByteByByte :
    copyMatch 3 1 ⟨[7], 4⟩ = .ok ⟨[7, 7, 7, 7], 4⟩ ∧ copyMatch 3 1 ⟨[7], 3⟩ = .error .dstFull ∧
    copyMatch 3 2 ⟨[7], 4⟩ = .error .distTooFar := by decide +kernel

theorem witness_ZlibCompressWrapsTheStream :
    WindowLegal (abcState 0xE).operands ∧ RegionsOk .zlibCompress (abcState 0xE) ∧ (abcState 0xE).operands.mode.toNat % 4 ≠ 3 ∧
    2 * 3 + 600 * (3 / 65535 + 1) + 6 ≤ (abcState 0xE).operands.dstCap.toNat :=
  ⟨⟨11, by decide, by decide +kernel⟩, regionsOk (by decide +kernel), by decide +kernel, by decide +kernel⟩

/-- "abc" stored takes 14 bytes, 8 of them the stream's: with room for them it completes, with one byte less it fails. -/
theorem witness_ZlibCompressWrapsTheStream_bounds :
    (encodeStream (abcState 0xC).regs (bufOfBytes abc) 3 ⟨[], 0, 700⟩).toOption.map (·.1.bytes.length) = some 8 ∧
    errOf .zlibCompress (st { (abcState 0xC).regs with dstCap := 14 } (abcState 0xC).mem) = none ∧
    errOf .zlibCompress (st { (abcState 0xC).regs with dstCap := 13 } (abcState 0xC).mem) = some .dstFull := by decide +kernel

/-- The writer after the zlib stream of "abc", stored. -/
def abcZlib : Writer :=
  match zlibEncode (abcState 0xC).regs (bufOfBytes abc) 3 ⟨[], 0, 700⟩ with
  | .ok p => p.1
  | .error _ => ⟨[], 0, 0⟩

/-- The trailer of `badTrailerState` is not the checksum; the rest of the stream is the encoder's. -/
theorem witness_ZlibDecompressChecksTheTrailer :
    zlibEncode (abcState 0xC).regs (bufOfBytes abc) abc.length ⟨[], 0, 700⟩ = .ok (abcZlib, 64, 1, 0x024D0127) ∧
    badTrailerState.operands.srcLen.toNat = abcZlib.bytes.length ∧
    bytesAt badTrailerState.mem 0x100 (abcZlib.bytes.length - 4) = abcZlib.bytes.take (abcZlib.bytes.length - 4) ∧
    abc.length ≤ badTrailerState.operands.dstCap.toNat ∧
    (badTrailerState.mem.read 0x10D).toNat = 0x28 ∧ adler32 abc = 0x024D0127 := by decide +kernel

/-- A header with another `FLEVEL` (vector Z-14) before a stream of two bytes: the second clause. -/
theorem witness_ZlibDecompressChecksTheTrailer_anyStream :
    StreamBits 0 [] ([true, true, false] ++ [] ++ codeBits fixedLL 256) 1 [] ∧
    (0x78 * 256 + 0xDA) % 31 = 0 ∧ 0x78 % 16 = 8 ∧ 0x78 / 16 ≤ 7 ∧ 0xDA / 32 % 2 = 0 ∧ 10 + 48 ≤ 8 * 8 ∧
    errOf (.zlibDecompress false) (st { base with srcLen := 8 } (mem 0x100 [0x78, 0xDA, 0x03, 0, 0, 0, 0, 0x01])) = none :=
  ⟨.last (.huffman (toks := []) (.fixed true) (tokensCoded_nil _ _) rfl), by decide, by decide, by decide, by decide, by decide,
    by decide +kernel⟩

/-- Vector Z-16: the body is the one byte `03`, on which `INFLATE.RAW` fails. -/
theorem witness_ZlibDecompressChecksTheTrailer_body :
    let s := st { base with srcLen := 7 } (mem 0x100 [0x78, 0x01, 0x03, 0, 0, 0, 0])
    let u := inflateBytes [0x03] 0
    exec .inflateRaw u = .next (run .inflateRaw u) ∧ errOf .inflateRaw u = some .noEob ∧ u.operands.dstCap = s.operands.dstCap ∧
    bytesAt u.mem 0x100 1 = bytesAt s.mem 0x102 1 ∧ errOf (.zlibDecompress false) s = some .noEob :=
  ⟨exec_run _ _, by decide +kernel, by decide +kernel, by decide +kernel, by decide +kernel⟩

theorem witness_ZlibDecompressChecksTheTrailer_regions :
    RegionsOk (.zlibDecompress true) badTrailerState ∧ RegionsOk (.zlibDecompress false) badTrailerState :=
  ⟨regionsOk (by decide +kernel), regionsOk (by decide +kernel)⟩

/-- One header for each clause: 0x7802 is no multiple of 31; 0x7900 % 31, 0x8800 % 31 and the dictionary bit. -/
theorem witness_ZlibHeaderChecksInOrder :
    let s := fun (n : Word) bs => st { base with srcLen := n } (mem 0x100 bs)
    errOf (.zlibDecompress false) (s 5 [0x78, 0x01]) = some .trunc ∧
    errOf (.zlibDecompress false) (s 6 [0x78, 0x02]) = some .zlibFcheck ∧
    errOf (.zlibDecompress false) (s 6 [0x79, 0x18]) = some .zlibMethod ∧
    errOf (.zlibDecompress false) (s 6 [0x88, 0x1C]) = some .zlibMethod ∧
    errOf (.zlibDecompress false) (s 6 [0x78, 0x20]) = some .zlibFdict ∧
    errOf (.zlibDecompress false) (s 6 [0x78, 0xC1]) ≠ some .zlibFdict := by decide +kernel

theorem witness_ZlibHeaderChecksInOrder_regions :
    RegionsOk (.zlibDecompress false) (st { base with srcLen := 6 } (mem 0x100 [0x78, 0x02])) := regionsOk (by decide +kernel)

theorem witness_AdlerCommandContinuesTheChecksum :
    RegionsOk .adler32 (st { base with srcLen := 9 } []) ∧
    2 ^ 32 < (st { base with srcAddr := 0xFFFFFFFF, srcLen := 2 } []).operands.srcAddr.toNat + 2 ∧
    Region.covers ⟨0x100, 4⟩ 0x103 = true ∧ Platform.busOk ⟨0, [(0x103, 0x104)]⟩ 0x103 = false ∧
    (st base []).operands.srcLen = 0 :=
  ⟨regionsOk (by decide +kernel), by decide +kernel, by decide +kernel, by decide +kernel, by decide +kernel⟩

theorem witness_GeometryFillsTheBank : Adam7Legal (image3 9 9).operands := by unfold Adam7Legal; decide +kernel

theorem witness_PassesPartitionTheImage :
    (passSize 3 3 6).1 = 3 ∧ (passSize 3 3 6).2 = 1 ∧ passSize 0 5 0 = (0, 0) := by decide +kernel

theorem witness_InterlaceGathersEveryPixel :
    RegionsOk .adam7Interlace (image3 9 9) ∧ RegionsOk .adam7Interlace (image3 8 9) ∧ RegionsOk .adam7Interlace (image3 9 8) ∧
    (3 * 3 * 8 + 7) / 8 = 9 ∧ (geometry 3 3 8).ustart.getD 7 0 = 9 :=
  ⟨regionsOk (by decide +kernel), regionsOk (by decide +kernel), regionsOk (by decide +kernel), by decide, by decide +kernel⟩

theorem witness_DeinterlaceScattersEveryPixel :
    RegionsOk .adam7Deinterlace (image3 9 9) ∧ RegionsOk .adam7Deinterlace (image3 8 9) ∧
    RegionsOk .adam7Deinterlace (image3 9 8) :=
  ⟨regionsOk (by decide +kernel), regionsOk (by decide +kernel), regionsOk (by decide +kernel)⟩

/-- The interlaced image of `image3`, ready to be de-interlaced. -/
def interlaced3 : State :=
  st { base with imgW := 3, imgH := 3, imgBpp := 8, srcLen := 9, dstCap := 9 } (mem 0x100 [0, 2, 6, 8, 1, 7, 3, 4, 5])

theorem witness_InterlaceRoundTrips :
    let s := image3 9 9
    let t := run .adam7Interlace s
    exec .adam7Interlace s = .next t ∧ t.status.error = false ∧ interlaced3.operands.imgW = s.operands.imgW ∧
    interlaced3.operands.bpp = s.operands.bpp ∧ RegionsOk .adam7Deinterlace interlaced3 ∧
    bytesAt interlaced3.mem 0x100 9 = bytesAt t.mem 0x200 9 :=
  ⟨exec_run _ _, by decide +kernel, by decide +kernel, by decide +kernel, regionsOk (by decide +kernel), by decide +kernel⟩

/-- A reduced buffer of zeros: its pad bits are 0. -/
theorem witness_InterlaceRoundTrips_reverse :
    let s := st (image3 9 9).regs []
    let t := run .adam7Deinterlace s
    exec .adam7Deinterlace s = .next t ∧ t.status.error = false ∧
    (∀ k < 8 * 9, ¬ reducedBitCovered 3 3 8 k → memImageBit s.mem 0x100 k = false) ∧ RegionsOk .adam7Interlace s ∧
    bytesAt s.mem 0x100 9 = bytesAt t.mem 0x200 9 :=
  ⟨exec_run _ _, by decide +kernel, fun k _ _ => by simp [st, memImageBit, Memory.unlisted], regionsOk (by decide +kernel),
    by decide +kernel⟩

theorem witness_AdamSevenArgumentChecks :
    errOf .adam7Geometry (st { base with imgBpp := 12 } []) = some .badArg ∧
    2 ^ 32 - 1 < (geometry 65536 65536 8).fstart.getD 7 0 ∧ errOf .adam7Interlace (image3 9 9) = none := by decide +kernel

end Sys2Proof.Tests
end

section
/-! What a command can leave behind, said once for all commands: a failing completion, or a success that changes no register outside
its list under *Writes* and keeps the canonical form of memory. -/

namespace Sys2Proof.Machine

/-! ## What a computation that can fail answers -/

/-- Every value the computation answers has the property. -/
def YieldsOnly {α : Type} (P : α → Prop) (x : Except ErrCode α) : Prop := ∀ a, x = .ok a → P a

theorem YieldsOnly.ok {α : Type} {P : α → Prop} {a : α} (h : P a) : YieldsOnly P (.ok a) := by
  rintro _ ⟨⟩
  exact h

/-- The values of a sequence of steps are those of its last step. -/
theorem YieldsOnly.bind {α β : Type} {P : β → Prop} {x : Except ErrCode α} {f : α → Except ErrCode β}
    (h : ∀ a, YieldsOnly P (f a)) : YieldsOnly P (x >>= f) := by
  intro b hb
  obtain ⟨a, -, hf⟩ := bind_eq_ok.1 hb
  exact h a b hf

theorem YieldsOnly.ite {α : Type} {P : α → Prop} {c : Prop} [Decidable c] {x y : Except ErrCode α} (hx : YieldsOnly P x)
    (hy : YieldsOnly P y) : YieldsOnly P (if c then x else y) := by
  split
  · exact hx
  · exact hy

/-! ## The frame of a success -/

/-- The two banks agree but for the registers of `ws` and `ERR_INFO`: they become one bank when these take the same free values. -/
def Regs.EqOutside (ws : List WReg) (r q : Regs) : Prop := r.free ws 0 = q.free ws 0

@[simp] theorem freeVectorIf_listed {n : Nat} {ws : List WReg} (h : WReg.adam7 ∈ ws) (draw first : Nat) (old : Vector Word n) :
    freeVectorIf ws draw first old = Vector.ofFn fun i => Config.freeWord draw (first + i.val) := by
  simp [freeVectorIf, h]

/-- The frame of a success (40_control.md R143) that leaves the bank `p.1` and the memory `p.2`: no register outside the list under
*Writes* changes but `ERR_INFO`, and memory stays in canonical form. -/
structure SuccessFrame (i : Instr) (s : State) (p : Regs × Memory) : Prop where
  regs : p.1.EqOutside (writesOf i) s.regs
  memWf : Memory.Wf s.mem → Memory.Wf p.2

section
variable {i : Instr} {s : State} {r : Regs}

/-- A command that writes no memory. -/
theorem SuccessFrame.noBytes (h : r.EqOutside (writesOf i) s.regs := by simp [Regs.EqOutside, Regs.free, writesOf]) :
    SuccessFrame i s (r, s.mem) := ⟨h, id⟩

/-- A command that writes bytes (20_memory.md R67). -/
theorem SuccessFrame.bytes {a : Nat} {bs : List Byte}
    (h : r.EqOutside (writesOf i) s.regs := by simp [Regs.EqOutside, Regs.free, writesOf]) :
    SuccessFrame i s (r, s.mem.writeBytes a bs) := ⟨h, fun hm => Memory.wf_writeBytes hm _ _⟩

/-- A command that writes bits at its cursor (20_memory.md R68). -/
theorem SuccessFrame.bits {q : Regs} {bs : List Bool}
    (h : (putAtCursor q r s.mem bs).1.EqOutside (writesOf i) s.regs := by
      simp [putAtCursor, Regs.EqOutside, Regs.free, writesOf]) :
    SuccessFrame i s (putAtCursor q r s.mem bs) := ⟨h, fun hm => Memory.wf_putBitsRMW _ _ hm _⟩

end

/-- The outcomes of a command: a failing completion, or a success within its frame. -/
def Framed (i : Instr) (s : State) (o : Host.Outcome State Fault Refusal) : Prop :=
  (∃ e ws dst, o = .next (s.fail e ws dst)) ∨ ∃ p : Regs × Memory, SuccessFrame i s p ∧ o = .next (s.succeed p.1 p.2)

theorem runCommand_framed {i : Instr} {s : State} {args : Except ErrCode Unit}
    {body : Unit → Except ErrCode (Regs × Memory)} (h : YieldsOnly (SuccessFrame i s) (body ())) :
    Framed i s (runCommand i s args body) := by
  rcases runCommand_cases i s args body with ⟨e, -, ht⟩ | ⟨-, -, ⟨e, -, ht⟩ | ⟨r, m, hb, ht⟩⟩
  · exact .inl ⟨e, [], none, ht⟩
  · exact .inl ⟨e, writesOf i, dstRegion i s.operands, ht⟩
  · exact .inr ⟨(r, m), h _ hb, ht⟩

/-- Every command is framed: whatever it checks and computes, the last step of its execution writes listed registers, and bytes,
bits or nothing of memory. -/
theorem exec_framed (i : Instr) (s : State) : Framed i s (exec i s) := by
  cases i <;>
    simp only [exec, execNop, execBitsPut, execBitsGet, execLz77Tokenize, execHuffBuildFreq, execHuffBuildLengths,
      execHuffEncodeSym, execHuffDecodeSym, execTreeWrite, execTreeRead, execDeflateRaw, execInflateRaw, execZlibCompress,
      execZlibDecompress, execAdler32, execAdam7Geometry, execAdam7Interlace, execAdam7Deinterlace] <;>
    refine runCommand_framed ?_
  case nop => exact .ok .noBytes
  case bitsPut => exact .bind fun _ => .ok .bits
  case bitsGet => exact .bind fun _ => .ite (.bind fun _ => .ok .noBytes) (.bind fun _ => .ok .noBytes)
  case lz77Tokenize => exact .bind fun _ => .ok .bytes
  case huffBuildFreq => exact .bind fun _ => .bind fun _ => .bind fun _ => .ok .bytes
  case huffBuildLengths => exact .bind fun _ => .bind fun _ => .ok .bytes
  case huffEncodeSym => exact .bind fun _ => .bind fun _ => .bind fun _ => .ok .bits
  case huffDecodeSym => exact .bind fun _ => .bind fun _ => .ok .noBytes
  case treeWrite => exact .bind fun _ => .bind fun _ => .bind fun _ => .ok .bits
  case treeRead => exact .bind fun _ => .bind fun _ => .ok .bytes
  case deflateRaw => exact .bind fun _ => .ok .bytes
  case inflateRaw => exact .bind fun _ => .ok .bytes
  case zlibCompress => exact .bind fun _ => .ok .bytes
  case zlibDecompress => exact .bind fun _ => .bind fun _ => .bind fun _ => .bind fun _ => .ok .bytes
  case adler32 => exact .ok .noBytes
  case adam7Geometry => exact .ok .noBytes
  case adam7Interlace => exact .bind fun _ => .bind fun _ => .ok .bytes
  case adam7Deinterlace => exact .bind fun _ => .bind fun _ => .ok .bytes

end Sys2Proof.Machine
end

section
/-! What a host access does, by the kind of register, and what a write leaves in each register. -/

namespace Sys2Proof.Machine

section
variable (s : State) (v : Word)

/-! ## A write, by the kind of register -/

@[simp] theorem State.hostWriteReg_none : s.hostWriteReg none v = s := rfl

@[simp] theorem State.hostWriteReg_status :
    s.hostWriteReg (some .status) v = { s with status := s.status.writeOneToClear v } := rfl

@[simp] theorem State.hostWriteReg_irqEn : s.hostWriteReg (some .irqEn) v = { s with regs := s.regs.store .irqEn v } := rfl

@[simp] theorem State.hostWriteReg_cmd :
    s.hostWriteReg (some .cmd) v = if s.status.busy then { s with status := s.status.overran } else s.accept v := rfl

theorem State.hostWriteReg_setting {reg : Reg} (h : reg.isSetting = true) :
    s.hostWriteReg (some reg) v =
      if s.status.busy then { s with status := s.status.overran } else { s with regs := s.regs.store reg v } := by
  cases reg <;> cases h <;> rfl

theorem State.hostWriteReg_readOnly {reg : Reg} (h : isReadOnly reg = true) : s.hostWriteReg (some reg) v = s := by
  cases reg <;> cases h <;> rfl

end

theorem Reg.isSetting_of_mem_settings : ∀ reg ∈ settings, reg.isSetting = true := by decide

/-- Every register is of one kind: its write is described by one of the equations above. -/
theorem Reg.kinds (reg : Reg) : reg = .status ∨ reg = .irqEn ∨ reg = .cmd ∨ reg.isSetting = true ∨ isReadOnly reg = true := by
  cases reg <;> simp [Reg.isSetting, isReadOnly]

end Sys2Proof.Machine
end

section
/-! The machine's invariant: it holds after reset, and acceptance, completion, reset and every access keep it. -/

namespace Sys2Proof.Machine

/-! ## The reserved fields of the bank -/

/-- The part of the invariant about the bank alone: its reserved fields are 0 (10_state.md R41). -/
structure Regs.ReservedClear (r : Regs) : Prop where
  irqEn : r.irqEn &&& ~~~irqEnMask = 0
  matchCfg : r.matchCfg &&& ~~~matchMask = 0
  mode : r.mode &&& ~~~modeMask = 0
  imgBpp : r.imgBpp &&& ~~~imgBppMask = 0

theorem and_mask_and_not_mask (v mask : Word) : (v &&& mask) &&& ~~~mask = 0 := by
  rw [BitVec.and_assoc, BitVec.and_not_self]
  exact BitVec.and_zero

theorem Regs.ReservedClear.store {r : Regs} (h : r.ReservedClear) (reg : Reg) (v : Word) : (r.store reg v).ReservedClear := by
  obtain ⟨hi, hm, ho, hb⟩ := h
  cases reg with
  | irqEn => exact ⟨and_mask_and_not_mask v _, hm, ho, hb⟩
  | matchCfg => exact ⟨hi, and_mask_and_not_mask v _, ho, hb⟩
  | mode => exact ⟨hi, hm, and_mask_and_not_mask v _, hb⟩
  | imgBpp => exact ⟨hi, hm, ho, and_mask_and_not_mask v _⟩
  | _ => exact ⟨hi, hm, ho, hb⟩

/-- No free value reaches a register with reserved fields. -/
theorem Regs.reservedClear_free_iff {r : Regs} {ws : List WReg} {draw : Nat} :
    (r.free ws draw).ReservedClear ↔ r.ReservedClear :=
  ⟨fun h => ⟨h.irqEn, h.matchCfg, h.mode, h.imgBpp⟩, fun h => ⟨h.irqEn, h.matchCfg, h.mode, h.imgBpp⟩⟩

theorem Regs.ReservedClear.of_eqOutside {r q : Regs} {ws : List WReg} (h : q.ReservedClear) (hr : r.EqOutside ws q) :
    r.ReservedClear := by
  rw [← Regs.reservedClear_free_iff (ws := ws) (draw := 0), hr]
  exact Regs.reservedClear_free_iff.2 h

theorem Regs.ReservedClear.reset : Regs.reset.ReservedClear := by constructor <;> decide

theorem State.Inv.reservedClear {s : State} (h : s.Inv) : s.regs.ReservedClear :=
  ⟨h.irqEnReserved, h.matchReserved, h.modeReserved, h.imgBppReserved⟩

/-! ## The invariant of an idle and of a busy engine -/

theorem State.Inv.latched_idle {s : State} (h : s.Inv) (hb : s.status.busy = false) : s.latched = none := by
  simpa [hb] using h.latchedWhileBusy

/-- While idle the invariant asks for no more than this. -/
theorem State.inv_of_idle {s : State} (hm : Memory.Wf s.mem) (hr : s.regs.ReservedClear) (hl : s.latched = none)
    (hb : s.status.busy = false) (he : s.status.error = s.status.errCode.isSome) : s.Inv where
  memWf := hm
  irqEnReserved := hr.irqEn
  matchReserved := hr.matchCfg
  modeReserved := hr.mode
  imgBppReserved := hr.imgBpp
  latchedWhileBusy := by simp [hl, hb]
  latchedIsBank := by simp [hl]
  errorHasCode := he
  busyReport := by simp [hb]

/-- The invariant is about the bank, `STATUS`, the latched copy and memory: a change of any other field keeps it. -/
theorem State.Inv.congr {s t : State} (h : s.Inv) (hr : t.regs = s.regs) (hs : t.status = s.status) (hl : t.latched = s.latched)
    (hm : t.mem = s.mem) : t.Inv := by
  obtain ⟨h1, h2, h3, h4, h5, h6, h7, h8, h9⟩ := h
  constructor <;> simpa only [hr, hs, hl, hm]

/-- 10_state.md R50, 70_reset_and_hazards.md R361. -/
theorem State.inv_reset : State.reset.Inv := State.inv_of_idle Memory.wf_nil .reset rfl rfl rfl

/-! ## The lifecycle -/

section
variable {s : State} (h : s.Inv)
include h

theorem State.Inv.accept (w : Word) : (s.accept w).Inv where
  memWf := h.memWf
  irqEnReserved := (h.reservedClear.store .cmd w).irqEn
  matchReserved := (h.reservedClear.store .cmd w).matchCfg
  modeReserved := (h.reservedClear.store .cmd w).mode
  imgBppReserved := (h.reservedClear.store .cmd w).imgBpp
  latchedWhileBusy := rfl
  latchedIsBank := by
    rintro _ ⟨⟩
    rfl
  errorHasCode := rfl
  busyReport := fun _ => ⟨rfl, rfl⟩

theorem State.Inv.succeed {i : Instr} {p : Regs × Memory} (hp : SuccessFrame i s p) : (s.succeed p.1 p.2).Inv :=
  have hr := h.reservedClear.of_eqOutside hp.regs
  State.inv_of_idle (hp.memWf h.memWf) ⟨hr.irqEn, hr.matchCfg, hr.mode, hr.imgBpp⟩ rfl rfl rfl

theorem State.Inv.fail (e : ErrCode) (ws : List WReg) (dst : Option Region) : (s.fail e ws dst).Inv := by
  refine State.inv_of_idle ?_ (Regs.reservedClear_free_iff.2 h.reservedClear) rfl rfl rfl
  cases dst with
  | none => exact h.memWf
  | some d => exact Memory.wf_free h.memWf d _

theorem State.Inv.resetEngine (dst : Option Region) : (s.resetEngine dst).Inv := by
  refine State.inv_of_idle ?_ .reset rfl rfl rfl
  cases dst with
  | none => exact h.memWf
  | some d => exact Memory.wf_free h.memWf d _

theorem State.Inv.exec {i : Instr} {t : State} (ht : exec i s = .next t) : t.Inv := by
  rcases exec_framed i s with ⟨e, ws, dst, hf⟩ | ⟨p, hp, hf⟩
  · obtain rfl : s.fail e ws dst = t := by simpa [hf] using ht
    exact h.fail e ws dst
  · obtain rfl : s.succeed p.1 p.2 = t := by simpa [hf] using ht
    exact h.succeed hp

theorem State.Inv.engineTurn {t : State} (ht : engineTurn s = .next t) : t.Inv := by
  cases hb : s.status.busy with
  | false =>
    obtain rfl : s = t := by simpa [engineTurn_idle hb] using ht
    exact h
  | true =>
    cases hd : decode s.operands.cmd with
    | ok i => exact h.exec (engineTurn_legal hb hd ▸ ht)
    | error e =>
      obtain rfl : s.fail .badOp [] none = t := by simpa [engineTurn_illegal hb hd] using ht
      exact h.fail .badOp [] none

/-! ## Accesses -/

/-- A memory in canonical form may take the place of the one there is. -/
theorem State.Inv.withMem {m : Memory} (hm : Memory.Wf m) : ({ s with mem := m } : State).Inv := by
  obtain ⟨-, h2, h3, h4, h5, h6, h7, h8, h9⟩ := h
  exact ⟨hm, h2, h3, h4, h5, h6, h7, h8, h9⟩

theorem State.Inv.hostReadReg (reg : Option Reg) : (s.hostReadReg reg).Inv := by
  unfold State.hostReadReg
  split
  · exact h.congr rfl rfl rfl rfl
  · split <;> exact h.congr rfl rfl rfl rfl

/-- `IRQ_EN` is writable while busy: the latched copy equals the bank but for it. -/
theorem State.Inv.storeIrqEn (v : Word) : ({ s with regs := s.regs.store .irqEn v } : State).Inv := by
  have hr := h.reservedClear.store .irqEn v
  refine ⟨h.memWf, hr.irqEn, hr.matchCfg, hr.mode, hr.imgBpp, h.latchedWhileBusy, fun l hl => ?_, h.errorHasCode, h.busyReport⟩
  have heq := congrArg (fun r : Regs => r.store .irqEn v) (h.latchedIsBank l hl)
  exact heq

theorem State.Inv.storeIdle (reg : Reg) (v : Word) (hb : s.status.busy = false) :
    ({ s with regs := s.regs.store reg v } : State).Inv :=
  State.inv_of_idle h.memWf (h.reservedClear.store reg v) (h.latched_idle hb) hb h.errorHasCode

theorem State.Inv.overran : ({ s with status := s.status.overran } : State).Inv := by
  obtain ⟨h1, h2, h3, h4, h5, h6, h7, h8, h9⟩ := h
  exact ⟨h1, h2, h3, h4, h5, h6, h7, h8, h9⟩

theorem State.Inv.writeOneToClear (v : Word) : ({ s with status := s.status.writeOneToClear v } : State).Inv := by
  obtain ⟨h1, h2, h3, h4, h5, h6, h7, h8, h9⟩ := h
  refine ⟨h1, h2, h3, h4, h5, h6, h7, h8, fun hb => ?_⟩
  obtain ⟨hd, he⟩ := h9 hb
  simp [hd, he]

theorem State.Inv.hostWriteReg (reg : Option Reg) (v : Word) : (s.hostWriteReg reg v).Inv := by
  cases reg with
  | none => exact h
  | some reg =>
    rcases reg.kinds with rfl | rfl | rfl | hset | hro
    · exact h.writeOneToClear v
    · exact h.storeIrqEn v
    · rw [State.hostWriteReg_cmd]
      split
      · exact h.overran
      · exact h.accept v
    · rw [State.hostWriteReg_setting s v hset]
      split
      · exact h.overran
      · next hb => exact h.storeIdle reg v (Bool.eq_false_of_not_eq_true hb)
    · rw [State.hostWriteReg_readOnly s v hro]
      exact h

/-! ## Events -/

theorem State.Inv.hostRead {addr : Word} {size : Nat} {t : State} (ht : hostRead s addr size = .next t) : t.Inv := by
  unfold Machine.hostRead at ht
  split at ht
  · cases ht
  · split at ht <;> cases ht
    · exact h.hostReadReg _
    · exact h.congr rfl rfl rfl rfl

theorem State.Inv.hostWrite {addr v : Word} {size : Nat} {t : State} (ht : hostWrite s addr size v = .next t) : t.Inv := by
  unfold Machine.hostWrite at ht
  split at ht
  · cases ht
  · split at ht <;> cases ht
    · exact (h.hostWriteReg _ v).congr rfl rfl rfl rfl
    · exact h.congr rfl rfl rfl rfl

theorem State.Inv.memRead {a : Nat} {t : State} (ht : memRead s a = .next t) : t.Inv := by
  unfold Machine.memRead at ht
  split at ht
  · cases ht
  · split at ht <;> cases ht <;> exact h.congr rfl rfl rfl rfl

theorem State.Inv.memWrite {a : Nat} {b : Byte} {t : State} (ht : memWrite s a b = .next t) : t.Inv := by
  unfold Machine.memWrite at ht
  split at ht
  · cases ht
  · split at ht <;> cases ht
    exact (h.withMem (Memory.wf_write h.memWf a b)).congr rfl rfl rfl rfl

theorem State.Inv.resetEvent {t : State} (ht : resetEvent s = .next t) : t.Inv := by
  cases ht
  exact (h.resetEngine s.runningDst).congr rfl rfl rfl rfl

theorem State.Inv.perform {e : Event} {t : State} (ht : perform e s = .next t) : t.Inv := by
  cases e with
  | regRead addr size => exact h.hostRead ht
  | regWrite addr size v => exact h.hostWrite ht
  | memRead a => exact h.memRead ht
  | memWrite a b => exact h.memWrite ht
  | complete => exact h.engineTurn ht
  | reset => exact h.resetEvent ht

end

/-- Settles O27: the registers with reserved fields are reset to values inside their masks, and no report is pending. -/
theorem invariantHoldsAtReset : Obligations.InvariantHoldsAtReset := State.inv_reset

/-- Settles O28: the step is the engine's transition or an event of the agenda, and each keeps the invariant. -/
theorem stepKeepsTheInvariant : Obligations.StepKeepsTheInvariant := by
  intro s t h ht
  cases ha : s.agenda with
  | nil => exact h.engineTurn (step_nil ha ▸ ht)
  | cons e rest =>
    have hpop : ({ s with agenda := rest } : State).Inv := h.congr rfl rfl rfl rfl
    exact hpop.perform (step_cons ha ▸ ht)

end Sys2Proof.Machine
end

section
/-! The register bank as the host sees it: `STATUS`, the settings, the reserved and read-only places, and reads. -/

namespace Sys2Proof.Machine

/-! ## The bits of `STATUS` -/

/-- The four flags as a number, bit by bit. -/
theorem testBit_flags (b d e o : Bool) :
    ∀ k < 8, (b.toNat + 2 * d.toNat + 4 * e.toNat + 8 * o.toNat).testBit k = [b, d, e, o].getD k false := by
  cases b <;> cases d <;> cases e <;> cases o <;> decide

/-- 10_state.md R24: the four flags in the low byte, `ERR_CODE` in the next, the rest 0. -/
theorem Status.toWord_getLsbD (st : Status) (k : Nat) :
    st.toWord.getLsbD k = if k < 8 then [st.busy, st.done, st.error, st.overrun].getD k false else st.code.getLsbD (k - 8) := by
  have hflags : st.busy.toNat + 2 * st.done.toNat + 4 * st.error.toNat + 8 * st.overrun.toNat < 2 ^ 8 := by
    have := st.busy.toNat_lt; have := st.done.toNat_lt; have := st.error.toNat_lt; have := st.overrun.toNat_lt
    omega
  have hcode : 8 ≤ k - 8 → st.code.getLsbD (k - 8) = false := BitVec.getLsbD_of_ge _ _
  rw [Status.toWord, BitVec.getLsbD_ofNat, Nat.add_comm, show 256 = 2 ^ 8 from rfl, Nat.testBit_two_pow_mul_add _ hflags]
  split
  · next hk => rw [testBit_flags _ _ _ _ k hk, decide_eq_true (by omega), Bool.true_and]
  · rw [← BitVec.getLsbD]
    by_cases hk : k < 32
    · simp [hk]
    · simp [hk, hcode (by omega)]

section
variable (st : Status)

theorem Status.toWord_flags : st.toWord.getLsbD 0 = st.busy ∧ st.toWord.getLsbD 1 = st.done ∧ st.toWord.getLsbD 2 = st.error ∧
    st.toWord.getLsbD 3 = st.overrun :=
  ⟨st.toWord_getLsbD 0, st.toWord_getLsbD 1, st.toWord_getLsbD 2, st.toWord_getLsbD 3⟩

theorem Status.toWord_errCode : st.toWord.extractLsb' 8 8 = st.code := by
  refine BitVec.eq_of_getLsbD_eq fun k hk => ?_
  simp [Status.toWord_getLsbD, hk]

theorem Status.toWord_reserved : st.toWord.extractLsb' 4 4 = 0 ∧ st.toWord.extractLsb' 16 16 = 0 := by
  constructor <;> refine BitVec.eq_of_getLsbD_eq fun k hk => ?_
  · simp [Status.toWord_getLsbD, hk, show 4 + k < 8 by omega]
  · have hcode : st.code.getLsbD (16 + k - 8) = false := BitVec.getLsbD_of_ge _ _ (by omega)
    simp [Status.toWord_getLsbD, hk, hcode, show ¬ 16 + k < 8 by omega]

/-- A W1C write clears the bits 1 and 3 that it writes 1 to (R24). -/
theorem Status.writeOneToClear_getLsbD (v : Word) (k : Nat) :
    (st.writeOneToClear v).toWord.getLsbD k = (st.toWord.getLsbD k && !((k == 1 || k == 3) && v.getLsbD k)) := by
  have hcode : (st.writeOneToClear v).code = st.code := rfl
  simp only [Status.toWord_getLsbD, hcode]
  split
  · next hk => interval_cases k <;> simp
  · next hk =>
    have hbit : (k == 1 || k == 3) = false := by simp; omega
    simp [hbit]

end

/-- Settles O10, bit by bit: `Status.toWord_getLsbD` is the layout, `Status.writeOneToClear_getLsbD` the write. -/
theorem statusLayoutAndWriteOneToClear : Obligations.StatusLayoutAndWriteOneToClear := by
  refine ⟨by decide, fun s h => by simp [Status.code, h], fun s e h => by simp [Status.code, h], fun s => ⟨?_, fun addr v ha => ?_⟩⟩
  · obtain ⟨hbusy, hdone, herror, hoverrun⟩ := s.status.toWord_flags
    obtain ⟨hlow, hhigh⟩ := s.status.toWord_reserved
    exact ⟨hbusy, hdone, herror, hoverrun, hlow, s.status.toWord_errCode, hhigh⟩
  · exact ⟨_, hostWrite_reg (reg := .status) ha, s.status.writeOneToClear_getLsbD v, rfl, rfl, rfl⟩

/-! ## What a store leaves in each register -/

theorem and_fullWord (v : Word) : v &&& 0xFFFFFFFF#32 = v := BitVec.and_allOnes

theorem and_mask_and_mask (v mask : Word) : (v &&& mask) &&& mask = v &&& mask := by
  rw [BitVec.and_assoc, BitVec.and_self]

/-- Bits that a register does not store may as well be written 0 (R41). -/
theorem Regs.store_and_storedBits (r : Regs) (reg : Reg) (v : Word) : r.store reg (v &&& storedBits reg) = r.store reg v := by
  cases reg with
  | matchCfg => exact congrArg (fun x => { r with matchCfg := x }) (and_mask_and_mask v _)
  | mode => exact congrArg (fun x => { r with mode := x }) (and_mask_and_mask v _)
  | imgBpp => exact congrArg (fun x => { r with imgBpp := x }) (and_mask_and_mask v _)
  | _ => exact congrArg (r.store _) (and_fullWord v)

theorem State.readReg_store_self (s : State) (v : Word) :
    ∀ reg ∈ settings, ({ s with regs := s.regs.store reg v } : State).readReg reg = v &&& storedBits reg := by
  simp [settings, State.readReg, storedBits, matchMask, modeMask, imgBppMask, and_fullWord]

/-- A store changes no register but its own. -/
theorem State.readReg_store_ne (s : State) (v : Word) {reg q : Reg} (h : q ≠ reg) :
    ({ s with regs := s.regs.store reg v } : State).readReg q = s.readReg q := by
  cases reg <;> cases q <;> (try contradiction) <;> rfl

/-- Settles O8: an idle write of a setting is a store of it, and a write of `IRQ_EN` always is. -/
theorem settingWritesStoreTheirBits : Obligations.SettingWritesStoreTheirBits := by
  intro s addr v reg ha
  refine ⟨fun hreg hb => ?_, fun hreg => ?_⟩
  · have hw := hostWrite_reg (v := v) ha
    rw [State.hostWriteReg_setting s v (Reg.isSetting_of_mem_settings reg hreg), if_neg (by simp [hb])] at hw
    exact ⟨_, hw, s.readReg_store_self v reg hreg, fun q hq => s.readReg_store_ne v hq, rfl, rfl⟩
  · subst hreg
    exact ⟨_, hostWrite_reg ha, rfl, fun q hq => s.readReg_store_ne v hq, rfl, rfl, rfl⟩

/-! ## Reserved and read-only places -/

theorem State.hostWriteReg_and_storedBits (s : State) (v : Word) {reg : Reg} (h : reg.isSetting = true) :
    s.hostWriteReg (some reg) (v &&& storedBits reg) = s.hostWriteReg (some reg) v := by
  rw [State.hostWriteReg_setting _ _ h, State.hostWriteReg_setting _ _ h, Regs.store_and_storedBits]

/-- Of the bits written to `STATUS` only 1 and 3 count (R24). -/
theorem Status.writeOneToClear_and_w1c (st : Status) (v : Word) :
    st.writeOneToClear (v &&& 0x0000000A) = st.writeOneToClear v := by
  simp [Status.writeOneToClear]

/-- A write to a register with reserved or read-only fields does what the same write with 0 in those fields does (R41). -/
theorem State.hostWriteReg_reserved (s : State) (v : Word) : ∀ reg ∈ [(Reg.status, (0x0000000A : Word)), (.irqEn, 0x00000003),
    (.matchCfg, 0x01FF01FF), (.mode, 0x0000000F), (.imgBpp, 0x0000007F)],
    s.hostWriteReg (some reg.1) (v &&& reg.2) = s.hostWriteReg (some reg.1) v := by
  simp only [List.forall_mem_cons]
  refine ⟨?_, ?_, s.hostWriteReg_and_storedBits v (reg := .matchCfg) rfl, s.hostWriteReg_and_storedBits v (reg := .mode) rfl,
    s.hostWriteReg_and_storedBits v (reg := .imgBpp) rfl, by simp⟩
  · simp only [State.hostWriteReg_status, Status.writeOneToClear_and_w1c]
  · simp only [State.hostWriteReg_irqEn, Regs.store_irqEn, irqEnMask, and_mask_and_mask]

/-! ## Reads -/

section
variable (s : State) (reg : Reg)

theorem State.inFlight_of_not_running (h : s.running = none) : s.inFlight reg = false := by
  simp [State.inFlight, h]

theorem State.running_idle (h : s.status.busy = false) : s.running = none := by
  simp [State.running, h]

theorem State.running_illegal {e : DecodeError} (h : decode s.operands.cmd = .error e) : s.running = none := by
  simp [State.running, h, Except.toOption]

theorem State.hostReadReg_some : s.hostReadReg (some reg) =
    if s.inFlight reg then s.respondFree (.word (Config.freeWord s.draws 0)) else { s with resp := .word (s.readReg reg) } := rfl

/-- What a read answers. -/
theorem State.hostReadReg_resp : (s.hostReadReg (some reg)).resp =
    .word (if s.inFlight reg then Config.freeWord s.draws 0 else s.readReg reg) := by
  rw [State.hostReadReg_some]
  split <;> rfl

/-- What a read leaves unchanged. -/
theorem State.hostReadReg_frame : let t := s.hostReadReg (some reg)
    t.regs = s.regs ∧ t.status = s.status ∧ t.latched = s.latched ∧ t.mem = s.mem ∧ t.hidden = s.hidden ∧ t.agenda = s.agenda := by
  rw [State.hostReadReg_some]
  split <;> exact ⟨rfl, rfl, rfl, rfl, rfl, rfl⟩

end

/-- Settles O12, by the place accessed: a constant register, a reserved offset, a read-only register, a register with reserved
fields. -/
theorem reservedAndReadOnlyAccesses : Obligations.ReservedAndReadOnlyAccesses := by
  refine ⟨fun s addr ha => ?_, fun s addr ha => ?_, fun s addr v off ha hal hres => ?_, fun s addr v reg ha hro => ?_,
    fun s addr v reg hreg ha => ?_⟩
  · rw [hostRead_reg (reg := .id) ha]
    simp [State.hostReadReg, State.inFlight, Reg.writes, State.readReg, idValue]
  · rw [hostRead_reg (reg := .version) ha]
    simp [State.hostReadReg, State.inFlight, Reg.writes, State.readReg, versionValue]
  · simp [hostRead, hostWrite, ha, alignedWordAccess, hal, regAt_reserved hres, State.hostReadReg]
  · rw [hostWrite_reg ha, State.hostWriteReg_readOnly s v hro]
  · rw [hostWrite_reg ha, hostWrite_reg ha, State.hostWriteReg_reserved s v reg hreg]

/-- An access that is not an aligned 32-bit one gets a bus error (20_memory.md R72). -/
theorem alignedWordAccess_eq_false {off size : Nat} (h : size ≠ 4 ∨ off % 4 ≠ 0) : alignedWordAccess off size = false := by
  simpa [alignedWordAccess, or_iff_not_imp_left] using h

/-- Settles O13: a read of a register is `State.hostReadReg`, `STATUS` while busy is the invariant's, and a misaligned access never
gets there. -/
theorem registerReadsHaveNoSideEffect : Obligations.RegisterReadsHaveNoSideEffect := by
  refine ⟨fun s addr reg ha => ?_, fun s h hb => ?_, fun s addr v off size ha hmis => ?_⟩
  · obtain ⟨hregs, hstatus, hlatched, hmem, hhidden, hagenda⟩ := s.hostReadReg_frame reg
    refine ⟨_, hostRead_reg ha, hregs, hstatus, hlatched, hmem, hhidden, hagenda, fun hb => ?_, fun e _ hd => ?_, fun i hb hd => ?_⟩
    · simp [State.hostReadReg_resp, State.inFlight_of_not_running s reg (s.running_idle hb)]
    · simp [State.hostReadReg_resp, State.inFlight_of_not_running s reg (s.running_illegal hd)]
    · rw [State.hostReadReg_resp, State.inFlight_eq reg hb hd]
  · obtain ⟨hbusy, hdone, herror, -⟩ := s.status.toWord_flags
    obtain ⟨hd, he⟩ := h.busyReport hb
    have hnone : s.status.errCode = none := by simpa [he] using h.errorHasCode
    exact ⟨hbusy.trans hb, hdone.trans hd, herror.trans he, s.status.toWord_errCode.trans (by simp [Status.code, hnone])⟩
  · simp [hostRead, hostWrite, ha, alignedWordAccess_eq_false hmis]

end Sys2Proof.Machine
end

section
/-! The setting checks of the commands that use the window: which one fails, and that nothing after them fails with their errors.
The encoder's own errors are not pre-check errors (60_exceptions.md R321). -/

namespace Sys2Proof.Machine

/-! ## Errors that no pre-check raises -/

/-- The computation fails, if at all, with an error that no pre-check raises. -/
def FailsLate {α : Type} (x : Except ErrCode α) : Prop := ∀ e, x = .error e → e.isPreCheck = false

theorem FailsLate.ok {α : Type} (a : α) : FailsLate (.ok a) := by
  rintro _ ⟨⟩

theorem FailsLate.error {α : Type} {e : ErrCode} (h : e.isPreCheck = false) : FailsLate (.error e : Except ErrCode α) := by
  rintro _ ⟨⟩
  exact h

theorem FailsLate.failIf {c : Prop} [Decidable c] {e : ErrCode} (h : e.isPreCheck = false) : FailsLate (failIf c e) := by
  intro f hf
  obtain ⟨-, rfl⟩ := failIf_eq_error.1 hf
  exact h

theorem FailsLate.bind {α β : Type} {x : Except ErrCode α} {f : α → Except ErrCode β} (hx : FailsLate x)
    (hf : ∀ a, FailsLate (f a)) : FailsLate (x >>= f) := by
  intro e he
  rcases bind_eq_error.1 he with he | ⟨a, -, he⟩
  · exact hx e he
  · exact hf a e he

theorem FailsLate.ite {α : Type} {c : Prop} [Decidable c] {x y : Except ErrCode α} (hx : FailsLate x) (hy : FailsLate y) :
    FailsLate (if c then x else y) := by
  split
  · exact hx
  · exact hy

/-! ## The encoder fails late -/

theorem putBit_failsLate (w : Writer) (b : Bool) : FailsLate (putBit w b) := .ite (.error rfl) (.ok _)

theorem putAll_failsLate (w : Writer) (bits : List Bool) : FailsLate (putAll w bits) := by
  induction bits generalizing w with
  | nil => exact .ok w
  | cons b bs ih => exact (putBit_failsLate w b).bind ih

theorem putBits_failsLate (w : Writer) (v count : Nat) : FailsLate (putBits w v count) := putAll_failsLate w _

theorem alignWriter_failsLate (w : Writer) : FailsLate (alignWriter w) := putAll_failsLate w _

theorem storedBlock_failsLate (w : Writer) (bytes : List Byte) (final : Bool) : FailsLate (storedBlock w bytes final) :=
  (putBits_failsLate w _ _).bind fun w => (putBits_failsLate w _ _).bind fun w => (alignWriter_failsLate w).bind fun w =>
    (putBits_failsLate w _ _).bind fun w => (putBits_failsLate w _ _).bind fun w => putAll_failsLate w _

theorem fixedBlock_failsLate (w : Writer) (toks : List Nat) (final : Bool) : FailsLate (fixedBlock w toks final) :=
  (putBits_failsLate w _ _).bind fun w => (putBits_failsLate w _ _).bind fun w => (putAll_failsLate w _).bind fun w =>
    putAll_failsLate w _

/-- A tree builder's only error is an alphabet too large for its limit (43_huffman.md R214). -/
theorem lengthsFromFrequencies_failsLate (freq : List Nat) (m : Nat) : FailsLate (lengthsFromFrequencies freq m) :=
  .ite (.ok _) (.ite (.error rfl) (.ok _))

section
variable {build : TreeBuilder} (hbuild : ∀ freq m, FailsLate (build freq m))
include hbuild

theorem buildFromFrequencies_failsLate (freq : List Nat) (minCodes m : Nat) :
    FailsLate (buildFromFrequencies build freq minCodes m) :=
  (hbuild freq m).bind fun _ => .ok _

theorem dynamicHeaderWith_failsLate (ll dl : List Nat) : FailsLate (dynamicHeaderWith build ll dl) :=
  (buildFromFrequencies_failsLate hbuild _ _ _).bind fun _ => .ok _

theorem dynamicBlock_failsLate (w : Writer) (toks : List Nat) (final : Bool) : FailsLate (dynamicBlock build w toks final) :=
  (buildFromFrequencies_failsLate hbuild _ _ _).bind fun _ => (buildFromFrequencies_failsLate hbuild _ _ _).bind fun _ =>
    (FailsLate.failIf rfl).bind fun _ => (putBits_failsLate w _ _).bind fun w => (putBits_failsLate w _ _).bind fun w =>
      (dynamicHeaderWith_failsLate hbuild _ _).bind fun _ => (putAll_failsLate w _).bind fun w =>
        (putAll_failsLate w _).bind fun w => putAll_failsLate w _

end

theorem storedBlocks_failsLate (data : Buf) (n nb : Nat) (is : List Nat) (w : Writer) :
    FailsLate (storedBlocks data n nb is w) := by
  induction is generalizing w with
  | nil => exact .ok w
  | cons i is ih => exact (storedBlock_failsLate w _ _).bind ih

section
variable {p : EncoderParams} (hbuild : ∀ freq m, FailsLate (p.build freq m))
include hbuild

theorem huffmanBlocks_failsLate (r : Regs) (data : Buf) (n bs nb : Nat) (is : List Nat) (t : MatchTables) (w : Writer) :
    FailsLate (huffmanBlocks p r data n bs nb is t w) := by
  induction is generalizing t w with
  | nil => exact .ok w
  | cons i is ih =>
    exact .ite ((fixedBlock_failsLate w _ _).bind fun w => ih _ w) ((dynamicBlock_failsLate hbuild w _ _).bind fun w => ih _ w)

theorem encodeStreamWith_failsLate (r : Regs) (data : Buf) (n : Nat) (w : Writer) :
    FailsLate (encodeStreamWith p r data n w) :=
  .ite ((storedBlocks_failsLate data n _ _ w).bind fun _ => .ok _)
    ((huffmanBlocks_failsLate hbuild r data n _ _ _ _ w).bind fun _ => .ok _)

end

theorem encodeStream_failsLate (r : Regs) (data : Buf) (n : Nat) (w : Writer) : FailsLate (encodeStream r data n w) :=
  encodeStreamWith_failsLate (p := specEncoder) lengthsFromFrequencies_failsLate r data n w

theorem zlibEncode_failsLate (r : Regs) (data : Buf) (n : Nat) (w : Writer) : FailsLate (zlibEncode r data n w) :=
  (putBits_failsLate w _ _).bind fun w => (putBits_failsLate w _ _).bind fun w => (encodeStream_failsLate r data n w).bind fun _ =>
    (alignWriter_failsLate _).bind fun w => (putBits_failsLate w _ _).bind fun w => (putBits_failsLate w _ _).bind fun w =>
      (putBits_failsLate w _ _).bind fun w => (putBits_failsLate w _ _).bind fun _ => .ok _

/-! ## The checks before the region checks -/

section
variable {r : Regs}

theorem windowChecks_range (h : r.window.toNat = 0 ∨ 32768 < r.window.toNat) : windowChecks r = .error .windowRange :=
  check_then_eq_error.2 (.inl ⟨h, rfl⟩)

theorem windowChecks_pow2 (h0 : 0 < r.window.toNat) (hmax : r.window.toNat ≤ 32768) (h : ∀ k, r.window.toNat ≠ 2 ^ k) :
    windowChecks r = .error .windowPow2 := by
  refine check_then_eq_error.2 (.inr ⟨by simp only [Config.windowMax]; omega, failIf_eq_error.2 ⟨fun hany => ?_, rfl⟩⟩)
  obtain ⟨k, -, hk⟩ := List.any_eq_true.1 hany
  exact h k (beq_iff_eq.1 hk).symm

/-- `BTYPE` is the two low bits of `MODE` (10_state.md R29). -/
theorem Regs.btype_eq (r : Regs) : r.btype = r.mode.toNat % 4 := by
  simp [Regs.btype]

theorem compressChecks_of_window {e : ErrCode} (h : windowChecks r = .error e) : compressChecks r = .error e :=
  bind_eq_error.2 (.inl h)

theorem compressChecks_btype (hw : WindowLegal r) (h : r.mode.toNat % 4 = 3) : compressChecks r = .error .cfgBtype :=
  bind_eq_error.2 (.inr ⟨(), (windowChecks_ok_iff r).2 hw, failIf_of_true _ (r.btype_eq.trans h)⟩)

theorem compressChecks_ok (hw : WindowLegal r) (h : r.mode.toNat % 4 ≠ 3) : compressChecks r = .ok () :=
  bind_eq_ok.2 ⟨(), (windowChecks_ok_iff r).2 hw, failIf_of_false _ (r.btype_eq ▸ h)⟩

end

section
variable {i : Instr} {s : State} {args : Except ErrCode Unit} {body : Unit → Except ErrCode (Regs × Memory)}

/-- A command whose own checks fail reports their error, whatever its regions. -/
theorem runCommand_argError {e : ErrCode} (h : args = .error e) : runCommand i s args body = .next (s.fail e [] none) :=
  runCommand_preCheck (by rw [h]; rfl)

/-- The region checks raise no other error (20_memory.md R63 to R65). -/
theorem regionChecks_error {r : Regs} {p : Platform} {e : ErrCode} (h : regionChecks i r p = .error e) :
    e = .addr ∨ e = .bus ∨ e = .overlap := by
  rw [regionChecks, check_then_eq_error, check_then_eq_error, failIf_eq_error] at h
  obtain ⟨-, rfl⟩ | ⟨-, ⟨-, rfl⟩ | ⟨-, -, rfl⟩⟩ := h <;> simp

/-- Once its own checks pass, a command that fails late reports no pre-check error but those of the region checks. -/
theorem runCommand_argsOk (ha : args = .ok ()) (hb : FailsLate (body ())) : ∃ t, runCommand i s args body = .next t ∧
    ∀ e, t.status.errCode = some e → e.isPreCheck = true → e = .addr ∨ e = .bus ∨ e = .overlap := by
  rcases runCommand_cases i s args body with ⟨e, he, ht⟩ | ⟨-, -, ⟨e, he, ht⟩ | ⟨r, m, -, ht⟩⟩ <;>
    refine ⟨_, ht, fun f hf hpre => ?_⟩
  · obtain rfl : e = f := by simpa using hf
    rw [ha] at he
    exact regionChecks_error he
  · obtain rfl : e = f := by simpa using hf
    rw [hb e he] at hpre
    cases hpre
  · simp at hf

end

/-! ## The commands that use the window -/

/-- `LZ77.TOKENIZE` makes the window checks alone and fails late (42_match_finder.md R192). -/
theorem exec_lz77Tokenize (s : State) : ∃ body,
    exec .lz77Tokenize s = runCommand .lz77Tokenize s (windowChecks s.operands) body ∧ FailsLate (body ()) := by
  unfold exec execLz77Tokenize
  exact ⟨_, rfl, (FailsLate.failIf rfl).bind fun _ => .ok _⟩

/-- The compressing commands make the window checks and the block type check, and fail late (44_deflate.md R264, 45_zlib_adler.md
R286). -/
theorem exec_compressing {i : Instr} (hi : i = .deflateRaw ∨ i = .zlibCompress) (s : State) : ∃ body,
    exec i s = runCommand i s (compressChecks s.operands) body ∧ FailsLate (body ()) := by
  rcases hi with rfl | rfl
  · unfold exec execDeflateRaw
    exact ⟨_, rfl, (encodeStream_failsLate _ _ _ _).bind fun _ => .ok _⟩
  · unfold exec execZlibCompress
    exact ⟨_, rfl, (zlibEncode_failsLate _ _ _ _).bind fun _ => .ok _⟩

section
variable {i : Instr} {s : State}

/-- The commands that use the window report a failing window check. -/
theorem exec_windowError {e : ErrCode} (hi : i = .lz77Tokenize ∨ i = .deflateRaw ∨ i = .zlibCompress)
    (h : windowChecks s.operands = .error e) : exec i s = .next (s.fail e [] none) := by
  rcases hi with rfl | hi
  · obtain ⟨body, hx, -⟩ := exec_lz77Tokenize s
    exact hx.trans (runCommand_argError h)
  · obtain ⟨body, hx, -⟩ := exec_compressing hi s
    exact hx.trans (runCommand_argError (compressChecks_of_window h))

/-- The compressing commands check the block type next. -/
theorem exec_btypeError (hi : i = .deflateRaw ∨ i = .zlibCompress) (hw : WindowLegal s.operands)
    (h : s.operands.mode.toNat % 4 = 3) : exec i s = .next (s.fail .cfgBtype [] none) := by
  obtain ⟨body, hx, -⟩ := exec_compressing hi s
  exact hx.trans (runCommand_argError (compressChecks_btype hw h))

/-- Once the setting checks pass, only the region checks raise a pre-check error. -/
theorem exec_settingsOk (hi : i = .lz77Tokenize ∨ (i = .deflateRaw ∨ i = .zlibCompress) ∧ s.operands.mode.toNat % 4 ≠ 3)
    (hw : WindowLegal s.operands) : ∃ t, exec i s = .next t ∧
      ∀ e, t.status.errCode = some e → e.isPreCheck = true → e = .addr ∨ e = .bus ∨ e = .overlap := by
  rcases hi with rfl | ⟨hi, hm⟩
  · obtain ⟨body, hx, hb⟩ := exec_lz77Tokenize s
    exact hx ▸ runCommand_argsOk ((windowChecks_ok_iff _).2 hw) hb
  · obtain ⟨body, hx, hb⟩ := exec_compressing hi s
    exact hx ▸ runCommand_argsOk (compressChecks_ok hw hm) hb

end

/-- Settles O24: the first failing setting check is reported, and after them no step raises one of their errors. -/
theorem compressionSettingChecksInOrder : Obligations.CompressionSettingChecksInOrder := by
  refine ⟨fun i s hi => ⟨fun h => ?_, fun h0 hmax h => ?_, fun hw hm hne => ?_⟩, fun i s hi hw => ?_⟩
  · exact exec_windowError hi (windowChecks_range h)
  · exact exec_windowError hi (windowChecks_pow2 h0 hmax h)
  · exact exec_btypeError (hi.resolve_left hne) hw hm
  · obtain ⟨t, ht, hpre⟩ := exec_settingsOk hi hw
    refine ⟨t, ht, fun h => ?_, fun h => ?_, fun h => ?_⟩ <;> simpa using hpre _ h rfl

end Sys2Proof.Machine
end

section
/-! What another agent's access to data memory does, by whether the byte lies in a region of the running command. -/

namespace Sys2Proof.Machine

section
variable {s : State} {a : Nat} {b : Byte} (ha : a < 2 ^ 32)
include ha

theorem memWrite_outside (h : ∀ r ∈ s.runningRegions, r.covers a = false) :
    memWrite s a b = .next { s with mem := s.mem.write a b, resp := .written } := by
  have hany : s.runningRegions.any (·.covers a) = false := List.any_eq_false.2 fun r hr => by simp [h r hr]
  simp [memWrite, Nat.not_le.2 (show a < Config.addrSpace from ha), hany]

/-- 70_reset_and_hazards.md R370 item 1. -/
theorem memWrite_inside {r : Region} (hr : r ∈ s.runningRegions) (h : r.covers a = true) :
    memWrite s a b = .refused .hostDutyBroken := by
  have hany : s.runningRegions.any (·.covers a) = true := List.any_eq_true.2 ⟨r, hr, h⟩
  simp [memWrite, Nat.not_le.2 (show a < Config.addrSpace from ha), hany]

theorem memRead_outside (h : ∀ r ∈ s.runningDst, r.covers a = false) :
    memRead s a = .next { s with resp := .byte (s.mem.read a) } := by
  cases hd : s.runningDst with
  | none => simp [memRead, Nat.not_le.2 (show a < Config.addrSpace from ha), hd]
  | some d => simp [memRead, Nat.not_le.2 (show a < Config.addrSpace from ha), hd, h d hd]

/-- 20_memory.md R80. -/
theorem memRead_inside {r : Region} (hr : r ∈ s.runningDst) (h : r.covers a = true) :
    memRead s a = .next (s.respondFree (.byte (Config.freeByte s.draws 0))) := by
  have hdst : s.runningDst = some r := hr
  simp [memRead, Nat.not_le.2 (show a < Config.addrSpace from ha), hdst, h]

end

/-- Settles O14: the running command's regions are the only bytes another agent may not write, and its DST the only bytes whose
value a read does not give. -/
theorem dataMemoryAccessesByOthers : Obligations.DataMemoryAccessesByOthers := by
  intro s a b ha
  refine ⟨fun h => ?_, fun r hr h => memWrite_inside ha hr h, fun h => memRead_outside ha h, fun r hr h => memRead_inside ha hr h⟩
  exact ⟨_, memWrite_outside ha h, Memory.read_write_self s.mem a b ha, fun x hx => Memory.read_write_ne s.mem a x b hx, rfl, rfl, rfl⟩

end Sys2Proof.Machine
end

section
/-! The pre-checks of every command: the checks of its own rule pass exactly when `ArgsOk` holds, and the region checks raise each
error exactly under its condition. -/

namespace Sys2Proof.Machine

/-! ## The region checks -/

/-- One of the errors of the region checks (20_memory.md R63 to R65). -/
def ErrCode.isRegion : ErrCode → Bool
  | .addr | .bus | .overlap => true
  | _ => false

theorem ErrCode.isRegion_eq_false_of_late {e : ErrCode} (h : e.isPreCheck = false) : e.isRegion = false := by
  cases e <;> revert h <;> decide

/-- Some region wraps past the top of data memory (R63). -/
def SomeWraps (rs : List Region) : Prop := ∃ r ∈ rs, 0 < r.len ∧ 2 ^ 32 < r.base + r.len

/-- Some region has a byte that the bus does not take (R64). -/
def SomeHole (p : Platform) (rs : List Region) : Prop := ∃ r ∈ rs, ∃ a, r.covers a = true ∧ p.busOk a = false

/-- Some region of `ds` has a byte in common with one of `qs` (R65). -/
def SomeShared (ds qs : List Region) : Prop := ∃ d ∈ ds, ∃ q ∈ qs, ∃ a, d.covers a = true ∧ q.covers a = true

theorem any_wraps_iff {rs : List Region} : rs.any (·.wraps) = true ↔ SomeWraps rs := by
  simp only [List.any_eq_true, Region.wraps, Bool.and_eq_true, decide_eq_true_eq]
  rfl

theorem any_hitsHole_iff {rs : List Region} {p : Platform} : rs.any (·.hitsHole p) = true ↔ SomeHole p rs := by
  simp only [List.any_eq_true, Region.hitsHole_iff, SomeHole]

theorem any_shares_iff {ds qs : List Region} : (ds.any fun d => qs.any d.shares) = true ↔ SomeShared ds qs := by
  simp only [List.any_eq_true, Region.shares_iff, SomeShared]

section
variable {i : Instr} {r : Regs} {p : Platform}

/-- What each error of the region checks says: the first check that fails, in the order of 40_control.md R147. -/
theorem regionChecks_eq_error {e : ErrCode} : regionChecks i r p = .error e ↔
    SomeWraps (usedRegions i r) ∧ .addr = e ∨
    ¬ SomeWraps (usedRegions i r) ∧ (SomeHole p (usedRegions i r) ∧ .bus = e ∨
      ¬ SomeHole p (usedRegions i r) ∧ SomeShared (dstRegion i r).toList (inputRegions i r) ∧ .overlap = e) := by
  rw [regionChecks, check_then_eq_error, check_then_eq_error, failIf_eq_error, any_wraps_iff, any_hitsHole_iff, any_shares_iff]

theorem regionChecks_addr_iff : regionChecks i r p = .error .addr ↔ SomeWraps (usedRegions i r) := by
  simp [regionChecks_eq_error]

theorem regionChecks_bus_iff :
    regionChecks i r p = .error .bus ↔ ¬ SomeWraps (usedRegions i r) ∧ SomeHole p (usedRegions i r) := by
  simp [regionChecks_eq_error]

theorem regionChecks_overlap_iff : regionChecks i r p = .error .overlap ↔
    ¬ SomeWraps (usedRegions i r) ∧ ¬ SomeHole p (usedRegions i r) ∧ SomeShared (dstRegion i r).toList (inputRegions i r) := by
  simp [regionChecks_eq_error]

theorem regionChecks_ok (hw : ¬ SomeWraps (usedRegions i r)) (hh : ¬ SomeHole p (usedRegions i r))
    (hs : ¬ SomeShared (dstRegion i r).toList (inputRegions i r)) : regionChecks i r p = .ok () := by
  cases h : regionChecks i r p with
  | ok u => rfl
  | error e => simp [regionChecks_eq_error, hw, hh, hs] at h

end

/-! ## The checks of a command's own rule -/

/-- The checks `x` pass exactly when `C` holds, and raise no error of the region checks. -/
structure ChecksFor (C : Prop) (x : Except ErrCode Unit) : Prop where
  eq_ok_iff : x = .ok () ↔ C
  error_notRegion : ∀ e, x = .error e → e.isRegion = false

theorem ChecksFor.ok : ChecksFor True (.ok ()) := ⟨by simp, by simp⟩

theorem ChecksFor.failIf {c : Prop} [Decidable c] {e : ErrCode} (h : e.isRegion = false) : ChecksFor (¬ c) (failIf c e) :=
  ⟨failIf_eq_ok, fun _ hf => (failIf_eq_error.1 hf).2 ▸ h⟩

theorem ChecksFor.bind {C D : Prop} {x : Except ErrCode Unit} {f : Unit → Except ErrCode Unit} (hx : ChecksFor C x)
    (hf : ChecksFor D (f ())) : ChecksFor (C ∧ D) (x >>= f) where
  eq_ok_iff := by
    rw [bind_eq_ok, ← hx.eq_ok_iff, ← hf.eq_ok_iff]
    exact ⟨fun ⟨_, h⟩ => h, fun h => ⟨(), h⟩⟩
  error_notRegion := fun e he => by
    rcases bind_eq_error.1 he with he | ⟨_, -, he⟩
    · exact hx.error_notRegion e he
    · exact hf.error_notRegion e he

theorem ChecksFor.congr {C D : Prop} {x : Except ErrCode Unit} (h : ChecksFor C x) (hcd : C ↔ D) : ChecksFor D x :=
  ⟨h.eq_ok_iff.trans hcd, h.error_notRegion⟩

section
variable (r : Regs)

theorem maxBitsCheck_checks : ChecksFor (1 ≤ r.arg2.toNat ∧ r.arg2.toNat ≤ 15) (maxBitsCheck r) :=
  (ChecksFor.failIf rfl).congr (by omega)

theorem windowChecks_checks : ChecksFor (WindowLegal r) (windowChecks r) :=
  ⟨windowChecks_ok_iff r, ((ChecksFor.failIf rfl).bind (.failIf rfl)).error_notRegion⟩

theorem compressChecks_checks : ChecksFor (WindowLegal r ∧ r.mode.toNat % 4 ≠ 3) (compressChecks r) :=
  (windowChecks_checks r).bind ((ChecksFor.failIf rfl).congr (by rw [r.btype_eq]))

/-- The last running offset is the sum of the sizes (46_adam7.md R302). -/
theorem offsets_getD_length (start : Nat) (ns : List Nat) : (offsets start ns).getD ns.length 0 = start + ns.sum := by
  induction ns generalizing start with
  | nil => rfl
  | cons n ns ih => rw [offsets, List.length_cons, List.getD_cons_succ, ih, List.sum_cons, Nat.add_assoc]

theorem geometry_fstart_last (w h b : Nat) : (geometry w h b).fstart.getD 7 0 = filteredTotal w h b := by
  have hsum := offsets_getD_length 0 ((adam7Passes.map fun p => p.size w h).map (filteredBytes b))
  rw [Nat.zero_add, List.map_map] at hsum
  exact hsum

theorem adam7Checks_checks : ChecksFor (Adam7Legal r) (adam7Checks r) := by
  refine ((ChecksFor.failIf rfl).bind (.failIf rfl)).congr ?_
  rw [geometry_fstart_last, Adam7Legal, not_not]
  exact and_congr_right fun _ => by omega

end

end Sys2Proof.Machine
end

section
/-! What the codec's procedures answer: an error that no pre-check raises, or a value within its bounds. The decoder's output and
the encoder's stream stay inside the capacity (41_bitstream.md R165, 44_deflate.md R263), and length tables have their sizes. -/

namespace Sys2Proof.Machine

/-! ## Errors and values together -/

/-- The computation fails late, or answers a value that has the property. -/
structure Answers {α : Type} (P : α → Prop) (x : Except ErrCode α) : Prop where
  failsLate : FailsLate x
  yields : YieldsOnly P x

section
variable {α β : Type} {P : α → Prop} {Q : β → Prop}

theorem Answers.ok {a : α} (h : P a) : Answers P (.ok a) := ⟨.ok a, .ok h⟩

theorem Answers.error {e : ErrCode} (h : e.isPreCheck = false) : Answers P (.error e) := ⟨.error h, fun _ ha => nomatch ha⟩

theorem Answers.ite {c : Prop} [Decidable c] {x y : Except ErrCode α} (hx : Answers P x) (hy : Answers P y) :
    Answers P (if c then x else y) :=
  ⟨.ite hx.failsLate hy.failsLate, .ite hx.yields hy.yields⟩

/-- The second step may rely on what the first one answers. -/
theorem YieldsOnly.step {x : Except ErrCode α} {f : α → Except ErrCode β} (hx : YieldsOnly P x)
    (hf : ∀ a, P a → YieldsOnly Q (f a)) : YieldsOnly Q (x >>= f) := by
  intro b hb
  obtain ⟨a, ha, hb⟩ := bind_eq_ok.1 hb
  exact hf a (hx a ha) b hb

theorem Answers.step {x : Except ErrCode α} {f : α → Except ErrCode β} (hx : Answers P x)
    (hf : ∀ a, P a → Answers Q (f a)) : Answers Q (x >>= f) := by
  refine ⟨fun e he => ?_, hx.yields.step fun a ha => (hf a ha).yields⟩
  rcases bind_eq_error.1 he with he | ⟨a, ha, he⟩
  · exact hx.failsLate e he
  · exact (hf a (hx.yields a ha)).failsLate e he

/-- The steps after a check may rely on its passing. -/
theorem Answers.check {c : Prop} [Decidable c] {e : ErrCode} {f : Unit → Except ErrCode β} (h : e.isPreCheck = false)
    (hf : ¬ c → Answers Q (f ())) : Answers Q (failIf c e >>= f) :=
  Answers.step (P := fun _ => ¬ c) ⟨.failIf h, fun _ hu => failIf_eq_ok.1 hu⟩ fun _ hc => hf hc

end

/-! ## Reading bits -/

theorem getBit_answers (r : Reader) : Answers (fun _ => True) (getBit r) := .ite (.error rfl) (.ok trivial)

theorem takeBits_answers (n : Nat) (r : Reader) : Answers (fun p => p.1.length = n) (takeBits n r) := by
  induction n generalizing r with
  | zero => exact .ok rfl
  | succ n ih => exact (getBit_answers r).step fun p _ => (ih p.2).step fun q hq => .ok (congrArg (· + 1) hq)

theorem fieldBits_answers (r : Reader) (n : Nat) : Answers (fun p => p.1.length = n) (fieldBits r n) :=
  .check rfl fun _ => takeBits_answers n r

/-- A field of `n` bits is below `2^n` (41_bitstream.md R162). -/
theorem getBits_answers (r : Reader) (n : Nat) : Answers (fun p => p.1 < 2 ^ n) (getBits r n) :=
  (fieldBits_answers r n).step fun p hp => .ok (hp ▸ lsbValue_lt p.1)

theorem getBitsRev_answers (r : Reader) (n : Nat) : Answers (fun _ => True) (getBitsRev r n) :=
  (fieldBits_answers r n).step fun _ _ => .ok trivial

theorem decodeWalk_answers (t : DecodeTable) (left b code first index : Nat) (r : Reader) :
    Answers (fun _ => True) (decodeWalk t left b code first index r) := by
  induction left generalizing b code first index r with
  | zero => exact .error rfl
  | succ left ih => exact .ite (.error rfl) ((getBit_answers r).step fun _ _ => .ite (.ok trivial) (ih ..))

theorem decodeSymbol_answers (t : DecodeTable) (r : Reader) : Answers (fun _ => True) (decodeSymbol t r) :=
  decodeWalk_answers ..

/-! ## Length tables -/

theorem readClLengths_answers (n : Nat) (order cl : List Nat) (r : Reader) :
    Answers (fun _ => True) (readClLengths n order cl r) := by
  induction n generalizing order cl r with
  | zero => exact .ok trivial
  | succ n ih =>
    cases order with
    | nil => exact .ok trivial
    | cons c order => exact (getBits_answers r 3).step fun p _ => ih order _ p.2

theorem appendRun_answers {total : Nat} (v n : Nat) {lens : List Nat} (h : lens.length ≤ total) :
    Answers (fun l => l.length ≤ total) (appendRun total v n lens) := by
  induction n generalizing lens with
  | zero => exact .ok h
  | succ n ih =>
    rw [appendRun]
    split
    · exact .error rfl
    · exact ih (by simp only [List.length_append, List.length_singleton]; omega)

/-- The length loop never makes a table longer than asked for (43_huffman.md R220). -/
theorem readLengths_answers (t : DecodeTable) {total : Nat} (fuel : Nat) {lens : List Nat} (r : Reader)
    (h : lens.length ≤ total) : Answers (fun p => p.1.length ≤ total) (readLengths t total fuel lens r) := by
  induction fuel generalizing lens r with
  | zero => exact .ok h
  | succ fuel ih =>
    rw [readLengths]
    split
    · exact .ok h
    · exact (decodeSymbol_answers t r).step fun _ _ => .ite (ih _ (by simp only [List.length_append, List.length_singleton]; omega))
        (.ite (.check rfl fun _ => (getBits_answers _ 2).step fun _ _ => (appendRun_answers _ _ h).step fun _ h => ih _ h)
          (.ite ((getBits_answers _ 3).step fun _ _ => (appendRun_answers _ _ h).step fun _ h => ih _ h)
            ((getBits_answers _ 7).step fun _ _ => (appendRun_answers _ _ h).step fun _ h => ih _ h)))

theorem padTo_length {n : Nat} {l : List Nat} (h : l.length ≤ n) : (padTo n l).length = n := by
  simp [padTo]
  omega

/-- An accepted dynamic header gives the two tables at their full sizes (R220). -/
theorem readDynamicHeader_answers (degenerateOk : Bool) (r : Reader) :
    Answers (fun p => p.1.ll.length = 288 ∧ p.1.dl.length = 32) (readDynamicHeader degenerateOk r) := by
  refine (getBits_answers r 5).step fun a ha => (getBits_answers _ 5).step fun b hb => (getBits_answers _ 4).step fun _ _ =>
    (readClLengths_answers ..).step fun _ _ => .check rfl fun _ => (readLengths_answers _ _ _ (Nat.zero_le _)).step fun p hp =>
      .check rfl fun _ => .check rfl fun _ => .check rfl fun _ => .ok ⟨padTo_length ?_, padTo_length ?_⟩
  · rw [List.length_take]
    omega
  · rw [List.length_drop]
    omega

theorem specialLengths_length (n : Nat) (used : List Nat) : (specialLengths n used).length = n := by simp [specialLengths]

/-- A tree builder gives a length to every symbol (R214). -/
theorem lengthsFromFrequencies_yields (freq : List Nat) (m : Nat) :
    YieldsOnly (fun len => len.length = freq.length) (lengthsFromFrequencies freq m) :=
  .ite (.ok (specialLengths_length ..)) (.ite (fun _ h => nomatch h) (.ok (by simp)))

theorem buildFromFrequencies_answers (freq : List Nat) (minCodes m : Nat) :
    Answers (fun p => p.1.length = freq.length) (buildFromFrequencies lengthsFromFrequencies freq minCodes m) :=
  ⟨buildFromFrequencies_failsLate lengthsFromFrequencies_failsLate freq minCodes m,
    (lengthsFromFrequencies_yields freq m).step fun _ h => .ok h⟩

@[simp] theorem byteTable_length (m : Memory) (base n : Nat) : (m.byteTable base n).length = n := by simp [Memory.byteTable]

@[simp] theorem wordTable_length (m : Memory) (base n : Nat) : (m.wordTable base n).length = n := by simp [Memory.wordTable]

@[simp] theorem codes_length (len : List Nat) : (codes len).length = len.length := by simp [codes]

@[simp] theorem imageBytes_length (t : BitTab) (n : Nat) : (imageBytes t n).length = n := by simp [imageBytes]

/-! ## The decoder's output -/

/-- The output is one with capacity `cap` and no longer than it (44_deflate.md R263). -/
structure Out.Within (cap : Nat) (o : Out) : Prop where
  cap_eq : o.cap = cap
  length_le : o.rev.length ≤ cap

section
variable {cap : Nat}

theorem Out.append_answers {o : Out} (h : o.Within cap) (b : Byte) : Answers (Out.Within cap) (o.append b) := by
  obtain ⟨rfl, h⟩ := h
  rw [Out.append]
  split
  · exact .error rfl
  · exact .ok ⟨rfl, by simp only [List.length_cons]; omega⟩

theorem copyStored_answers (n : Nat) (r : Reader) {o : Out} (h : o.Within cap) :
    Answers (fun p => p.2.Within cap) (copyStored n r o) := by
  induction n generalizing r o with
  | zero => exact .ok h
  | succ n ih => exact (getBits_answers r 8).step fun _ _ => (Out.append_answers h _).step fun _ h => ih _ h

theorem storedDecode_answers (r : Reader) {o : Out} (h : o.Within cap) :
    Answers (fun p => p.2.Within cap) (storedDecode r o) :=
  (getBits_answers _ 16).step fun _ _ => (getBits_answers _ 16).step fun _ _ => .check rfl fun _ => .check rfl fun _ =>
    copyStored_answers _ _ h

theorem copyBytes_answers (dist n : Nat) {o : Out} (h : o.Within cap) : Answers (Out.Within cap) (copyBytes dist n o) := by
  induction n generalizing o with
  | zero => exact .ok h
  | succ n ih => exact (Out.append_answers h _).step fun _ h => ih h

theorem copyMatch_answers (length dist : Nat) {o : Out} (h : o.Within cap) :
    Answers (Out.Within cap) (copyMatch length dist o) :=
  .check rfl fun _ => copyBytes_answers dist length h

theorem readPair_answers (dl : DecodeTable) (s : Nat) (r : Reader) : Answers (fun _ => True) (readPair dl s r) :=
  (getBits_answers r _).step fun _ _ => (decodeSymbol_answers dl _).step fun _ _ => .check rfl fun _ =>
    (getBits_answers _ _).step fun _ _ => .ok trivial

theorem huffmanDecode_answers (ll dl : DecodeTable) (fuel : Nat) (r : Reader) {o : Out} (h : o.Within cap) :
    Answers (fun p => p.2.Within cap) (huffmanDecode ll dl fuel r o) := by
  induction fuel generalizing r o with
  | zero => exact .error rfl
  | succ fuel ih =>
    exact (decodeSymbol_answers ll r).step fun _ _ => .ite ((Out.append_answers h _).step fun _ h => ih _ h) (.ite (.ok h)
      (.ite ((readPair_answers dl _ _).step fun _ _ => (copyMatch_answers _ _ h).step fun _ h => ih _ h) (.error rfl)))

theorem decodeBlock_answers (btype : Nat) (r : Reader) {o : Out} (h : o.Within cap) :
    Answers (fun p => p.2.Within cap) (decodeBlock btype r o) :=
  .check rfl fun _ => .ite (storedDecode_answers r h) (.ite (huffmanDecode_answers _ _ _ r h)
    ((readDynamicHeader_answers _ r).step fun _ _ => huffmanDecode_answers _ _ _ _ h))

theorem decodeBlocks_answers (fuel nb : Nat) (r : Reader) {o : Out} (h : o.Within cap) :
    Answers (fun p => p.2.2.Within cap) (decodeBlocks fuel nb r o) := by
  induction fuel generalizing nb r o with
  | zero => exact .error rfl
  | succ fuel ih =>
    exact (getBits_answers r 1).step fun _ _ => (getBits_answers _ 2).step fun _ _ => (decodeBlock_answers _ _ h).step fun _ h =>
      .ite (.ok h) (ih _ _ h)

end

/-- A stream's output stays inside the destination. -/
theorem decodeStream_answers (r : Reader) (cap : Nat) :
    Answers (fun p => p.2.2.Within cap) (decodeStream r ⟨[], cap⟩) :=
  decodeBlocks_answers _ _ r ⟨rfl, Nat.zero_le cap⟩

/-! ## The encoder's stream -/

/-- The writer holds `bp` bits, and they fit its capacity (41_bitstream.md R165). -/
structure Writer.Fits (w : Writer) : Prop where
  length_rev : w.rev.length = w.bp
  bp_le : w.bp ≤ 8 * w.cap

/-- The bytes of a stream that fits. -/
theorem Writer.Fits.length_bytes {w : Writer} (h : w.Fits) : w.bytes.length = (w.bp + 7) / 8 := by
  rw [Writer.bytes, packBits_length, List.length_reverse, h.length_rev]

/-- What writing does to a writer: its capacity stays, its cursor does not go back, and the stream fits as before. -/
structure Writer.Extends (w w' : Writer) : Prop where
  cap_eq : w'.cap = w.cap
  bp_le : w.bp ≤ w'.bp
  fits : w.Fits → w'.Fits

theorem Writer.Extends.refl (w : Writer) : w.Extends w := ⟨rfl, Nat.le_refl _, id⟩

theorem Writer.Extends.trans {w v u : Writer} (h : w.Extends v) (h' : v.Extends u) : w.Extends u :=
  ⟨h'.cap_eq.trans h.cap_eq, h.bp_le.trans h'.bp_le, h'.fits ∘ h.fits⟩

/-- The stream of a command has a byte for every eight bits begun, and they fit DST. -/
theorem Writer.Extends.bytes_fit {r : Regs} {w : Writer} (h : r.writer.Extends w) :
    w.bytes.length = (w.bp + 7) / 8 ∧ w.bytes.length ≤ r.dstCap.toNat := by
  have hfits : w.Fits := h.fits ⟨rfl, Nat.zero_le _⟩
  have hroom := hfits.bp_le
  rw [show w.cap = r.dstCap.toNat from h.cap_eq] at hroom
  rw [hfits.length_bytes]
  exact ⟨rfl, by omega⟩

theorem putBit_yields (w : Writer) (b : Bool) : YieldsOnly (fun v => w.Extends v ∧ v.bp = w.bp + 1) (putBit w b) := by
  rintro v hv
  unfold putBit at hv
  split at hv <;> cases hv
  next hroom =>
    refine ⟨⟨rfl, Nat.le_succ _, fun ⟨hlen, hle⟩ => ⟨congrArg (· + 1) hlen, ?_⟩⟩, rfl⟩
    simp only at hle ⊢
    omega

/-- Writing bits moves the cursor by their number. -/
theorem putAll_yields (w : Writer) (bits : List Bool) :
    YieldsOnly (fun v => w.Extends v ∧ v.bp = w.bp + bits.length) (putAll w bits) := by
  induction bits generalizing w with
  | nil => exact .ok ⟨.refl w, rfl⟩
  | cons b bs ih =>
    refine (putBit_yields w b).step fun v hv => ?_
    obtain ⟨hext, hbp⟩ := hv
    intro u hu
    obtain ⟨hext', hbp'⟩ := ih v u hu
    exact ⟨hext.trans hext', by rw [hbp', hbp, List.length_cons]; omega⟩

theorem putBits_yields (w : Writer) (v n : Nat) : YieldsOnly (fun u => w.Extends u ∧ u.bp = w.bp + n) (putBits w v n) := by
  simpa [putBits] using putAll_yields w (lsbBits v n)

theorem alignWriter_yields (w : Writer) :
    YieldsOnly (fun u => w.Extends u ∧ u.bp = w.bp + (8 - w.bp % 8) % 8) (alignWriter w) := by
  simpa [alignWriter] using putAll_yields w (List.replicate ((8 - w.bp % 8) % 8) false)

section
variable {w : Writer}

/-- Writing on from an extended writer extends the first one. -/
theorem YieldsOnly.extend {x : Except ErrCode Writer} {f : Writer → Except ErrCode Writer} (hx : YieldsOnly w.Extends x)
    (hf : ∀ v, YieldsOnly v.Extends (f v)) : YieldsOnly w.Extends (x >>= f) :=
  hx.step fun v hv u hu => hv.trans (hf v u hu)

theorem putAll_extends (w : Writer) (bits : List Bool) : YieldsOnly w.Extends (putAll w bits) :=
  fun v hv => (putAll_yields w bits v hv).1

theorem putBits_extends (w : Writer) (v n : Nat) : YieldsOnly w.Extends (putBits w v n) := putAll_extends w _

theorem alignWriter_extends (w : Writer) : YieldsOnly w.Extends (alignWriter w) := putAll_extends w _

end

theorem storedBlock_extends (w : Writer) (bytes : List Byte) (final : Bool) :
    YieldsOnly w.Extends (storedBlock w bytes final) :=
  (putBits_extends w _ _).extend fun _ => (putBits_extends _ _ _).extend fun _ => (alignWriter_extends _).extend fun _ =>
    (putBits_extends _ _ _).extend fun _ => (putBits_extends _ _ _).extend fun _ => putAll_extends _ _

theorem fixedBlock_extends (w : Writer) (toks : List Nat) (final : Bool) : YieldsOnly w.Extends (fixedBlock w toks final) :=
  (putBits_extends w _ _).extend fun _ => (putBits_extends _ _ _).extend fun _ => (putAll_extends _ _).extend fun _ =>
    putAll_extends _ _

theorem dynamicBlock_extends (build : TreeBuilder) (w : Writer) (toks : List Nat) (final : Bool) :
    YieldsOnly w.Extends (dynamicBlock build w toks final) :=
  .bind fun _ => .bind fun _ => .bind fun _ => (putBits_extends w _ _).extend fun _ => (putBits_extends _ _ _).extend fun _ =>
    .bind fun _ => (putAll_extends _ _).extend fun _ => (putAll_extends _ _).extend fun _ => putAll_extends _ _

theorem storedBlocks_extends (data : Buf) (n nb : Nat) (is : List Nat) (w : Writer) :
    YieldsOnly w.Extends (storedBlocks data n nb is w) := by
  induction is generalizing w with
  | nil => exact .ok (.refl w)
  | cons i is ih => exact (storedBlock_extends w _ _).extend ih

theorem huffmanBlocks_extends (p : EncoderParams) (r : Regs) (data : Buf) (n bs nb : Nat) (is : List Nat) (t : MatchTables)
    (w : Writer) : YieldsOnly w.Extends (huffmanBlocks p r data n bs nb is t w) := by
  induction is generalizing t w with
  | nil => exact .ok (.refl w)
  | cons i is ih =>
    exact .ite ((fixedBlock_extends w _ _).extend fun w => ih _ w) ((dynamicBlock_extends _ w _ _).extend fun w => ih _ w)

theorem encodeStreamWith_extends (p : EncoderParams) (r : Regs) (data : Buf) (n : Nat) (w : Writer) :
    YieldsOnly (fun q => w.Extends q.1) (encodeStreamWith p r data n w) :=
  .ite ((storedBlocks_extends data n _ _ w).step fun _ h => .ok h)
    ((huffmanBlocks_extends p r data n _ _ _ _ w).step fun _ h => .ok h)

/-- A stream that is written stays inside the destination (44_deflate.md R251). -/
theorem encodeStream_answers (r : Regs) (data : Buf) (n : Nat) (w : Writer) :
    Answers (fun q => w.Extends q.1) (encodeStream r data n w) :=
  ⟨encodeStream_failsLate r data n w, encodeStreamWith_extends specEncoder r data n w⟩

/-- A zlib stream is two header bytes, the bytes of the deflate stream and four of the trailer (45_zlib_adler.md R282). -/
theorem zlibEncode_answers (r : Regs) (data : Buf) (n : Nat) (w : Writer) (hw : w.bp = 0) :
    Answers (fun q => w.Extends q.1 ∧ q.1.bp = 8 * (2 + ceilDiv q.2.1 8 + 4)) (zlibEncode r data n w) := by
  refine ⟨zlibEncode_failsLate r data n w, (putBits_yields w _ 8).step fun w₁ h₁ => (putBits_yields w₁ _ 8).step fun w₂ h₂ =>
    (encodeStream_answers r data n w₂).yields.step fun q h₃ => (alignWriter_yields q.1).step fun w₄ h₄ =>
    (putBits_yields w₄ _ 8).step fun w₅ h₅ => (putBits_yields w₅ _ 8).step fun w₆ h₆ =>
    (putBits_yields w₆ _ 8).step fun w₇ h₇ => (putBits_yields w₇ _ 8).step fun w₈ h₈ => .ok ⟨?_, ?_⟩⟩
  · exact h₁.1.trans <| h₂.1.trans <| h₃.trans <| h₄.1.trans <| h₅.1.trans <| h₆.1.trans <| h₇.1.trans h₈.1
  · have hstream := h₃.bp_le
    simp only [ceilDiv]
    omega

end Sys2Proof.Machine
end

section
/-! What every command is made of: the checks of its rule, then an execution that fails late or writes its DST region in the way its
rule says. The statements on regions and on memory follow from the frame of a command. -/

namespace Sys2Proof.Machine

/-! ## How a command writes memory -/

/-- What a command does with a DST region: it has none, it writes bytes from its start on (20_memory.md R67), or it changes bits at
its cursor (R68). -/
inductive DstUse where
  | none | bytes | bits

/-- How each command writes memory, by its rule. -/
def dstUse : Instr → DstUse
  | .nop | .bitsGet _ | .huffDecodeSym | .adler32 | .adam7Geometry => .none
  | .bitsPut _ | .huffEncodeSym | .treeWrite => .bits
  | .lz77Tokenize | .huffBuildFreq | .huffBuildLengths | .treeRead | .deflateRaw | .inflateRaw | .zlibCompress
  | .zlibDecompress _ | .adam7Interlace | .adam7Deinterlace => .bytes

theorem dstUse_eq_none_iff {i : Instr} : dstUse i = .none ↔ hasNoDst i = true := by
  cases i <;> simp [dstUse, hasNoDst]

theorem dstRegion_of_noDst {i : Instr} (h : hasNoDst i = true) (r : Regs) : dstRegion i r = none := by
  cases i <;> cases h <;> rfl

/-- The bank and the memory that a successful execution leaves, as far as memory goes: untouched, the DST bytes that `DST_LEN`
counts, or the bits from `DST_BITPOS` on that fit the region. -/
inductive WritesDst (i : Instr) (s : State) : Regs × Memory → Prop
  | none {r : Regs} (hi : dstUse i = .none) : WritesDst i s (r, s.mem)
  | bytes {r : Regs} {bs : List Byte} (hi : dstUse i = .bytes) (hcap : bs.length ≤ s.operands.dstCap.toNat)
      (hlen : r.dstLen = word bs.length) : WritesDst i s (r, s.mem.writeBytes s.operands.dstAddr.toNat bs)
  | bits {r : Regs} {bs : List Bool} (hi : dstUse i = .bits)
      (hfit : s.operands.dstBitpos.toNat + bs.length ≤ s.operands.limitW) :
      WritesDst i s (putAtCursor s.operands r s.mem bs)

section
variable {i : Instr} {s : State} {p : Regs × Memory}

theorem WritesDst.mem_eq (h : WritesDst i s p) (hi : hasNoDst i = true) : p.2 = s.mem := by
  rw [← dstUse_eq_none_iff] at hi
  cases h with
  | none => rfl
  | bytes h => rw [hi] at h; cases h
  | bits h => rw [hi] at h; cases h

/-- A byte written from the start of DST on, or by bits that fit it, lies in DST. -/
theorem WritesDst.read_outside (h : WritesDst i s p) {a : Nat}
    (ha : a < s.operands.dstAddr.toNat ∨ s.operands.dstAddr.toNat + s.operands.dstCap.toNat ≤ a) :
    p.2.read a = s.mem.read a := by
  cases h with
  | none => rfl
  | bytes hi hcap => exact Memory.read_writeBytes_outside _ _ _ _ (by omega)
  | bits hi hfit =>
    rw [Regs.limitW] at hfit
    exact Memory.read_putBitsRMW_outside _ _ _ _ _ (by omega)

/-- What a byte-producing command reports in `DST_LEN` fits the region and covers all it writes (R67). -/
theorem WritesDst.dstLen (h : WritesDst i s p) (hi : dstUse i = .bytes) :
    p.1.dstLen.toNat ≤ s.operands.dstCap.toNat ∧
      ∀ a, a < s.operands.dstAddr.toNat ∨ s.operands.dstAddr.toNat + p.1.dstLen.toNat ≤ a → p.2.read a = s.mem.read a := by
  cases h with
  | none h => rw [hi] at h; cases h
  | bits h => rw [hi] at h; cases h
  | @bytes r bs _ hcap hlen =>
    have hword : r.dstLen.toNat = bs.length := by
      rw [hlen, BitVec.toNat_ofNat, Nat.mod_eq_of_lt (hcap.trans_lt s.operands.dstCap.isLt)]
    exact ⟨hword ▸ hcap, fun a ha => Memory.read_writeBytes_outside _ _ _ _ (hword ▸ ha)⟩

end

/-! ## Every command by its rule -/

/-- The outcome is that of a command whose own checks are those of its rule and whose execution fails late or writes DST. -/
def RunsByRule (i : Instr) (s : State) (o : Host.Outcome State Fault Refusal) : Prop :=
  ∃ args body, o = runCommand i s args body ∧ ChecksFor (ArgsOk i s.operands) args ∧ Answers (WritesDst i s) (body ())

theorem RunsByRule.intro {i : Instr} {s : State} {args : Except ErrCode Unit} {body : Unit → Except ErrCode (Regs × Memory)}
    (ha : ChecksFor (ArgsOk i s.operands) args) (hb : Answers (WritesDst i s) (body ())) :
    RunsByRule i s (runCommand i s args body) :=
  ⟨args, body, rfl, ha, hb⟩

/-- The execution after the final-cursor check may rely on the bits fitting (41_bitstream.md R168). -/
theorem Answers.cursor {α : Type} {Q : α → Prop} {r : Regs} {n : Nat} {f : Unit → Except ErrCode α}
    (hf : r.dstBitpos.toNat + n ≤ r.limitW → Answers Q (f ())) : Answers Q (cursorCheck r n >>= f) :=
  .check rfl fun h => hf (Nat.not_lt.1 h)

/-- The steps after a computation that fails late may rely on what it answers. -/
theorem FailsLate.answers_self {α : Type} {x : Except ErrCode α} (h : FailsLate x) : Answers (fun a => x = .ok a) x :=
  ⟨h, fun _ => id⟩

section
variable (s : State)

theorem execBitsPut_runsByRule (reverse : Bool) : RunsByRule (.bitsPut reverse) s (execBitsPut reverse s) := by
  unfold execBitsPut
  refine .intro ?_ ?_
  · exact (ChecksFor.failIf rfl).congr Nat.not_lt
  · refine .cursor fun hfit => .ok (.bits rfl ?_)
    cases reverse <;> simpa using hfit

theorem execBitsGet_runsByRule (reverse : Bool) : RunsByRule (.bitsGet reverse) s (execBitsGet reverse s) := by
  unfold execBitsGet
  refine .intro ?_ ?_
  · exact (ChecksFor.failIf rfl).congr Nat.not_lt
  · exact .check rfl fun _ => .ite ((getBitsRev_answers _ _).step fun _ _ => .ok (.none rfl))
      ((getBits_answers _ _).step fun _ _ => .ok (.none rfl))

theorem execLz77Tokenize_runsByRule : RunsByRule .lz77Tokenize s (execLz77Tokenize s) := by
  unfold execLz77Tokenize
  refine .intro ?_ ?_
  · exact windowChecks_checks _
  · exact .check rfl fun hcap => .ok (.bytes rfl (by simpa [Nat.mul_comm] using hcap) (by simp [Nat.mul_comm]))

theorem execHuffBuildFreq_runsByRule : RunsByRule .huffBuildFreq s (execHuffBuildFreq s) := by
  unfold execHuffBuildFreq
  refine .intro ?_ ?_
  · exact ((ChecksFor.failIf rfl).bind ((maxBitsCheck_checks _).bind (.failIf rfl))).congr (by simp only [ArgsOk]; omega)
  · exact .check rfl fun _ => .check rfl fun hcap => (buildFromFrequencies_answers _ _ _).step fun p hp =>
      .ok (.bytes rfl (by simpa [hp] using hcap) (by simp [hp]))

theorem execHuffBuildLengths_runsByRule : RunsByRule .huffBuildLengths s (execHuffBuildLengths s) := by
  unfold execHuffBuildLengths
  refine .intro ?_ ?_
  · exact ((ChecksFor.failIf rfl).bind (maxBitsCheck_checks _)).congr (by simp only [ArgsOk]; omega)
  · exact .check rfl fun hcap => .check rfl fun _ =>
      .ok (.bytes rfl (by simpa [Nat.mul_comm] using hcap) (by simp [Nat.mul_comm]))

theorem execHuffEncodeSym_runsByRule : RunsByRule .huffEncodeSym s (execHuffEncodeSym s) := by
  unfold execHuffEncodeSym
  refine .intro ?_ ?_
  · exact ((ChecksFor.failIf rfl).bind ((maxBitsCheck_checks _).bind (.failIf rfl))).congr (by simp only [ArgsOk]; omega)
  · exact .cursor fun hfit => .check rfl fun _ => .check rfl fun _ => .ok (.bits rfl (by simpa using hfit))

theorem execHuffDecodeSym_runsByRule : RunsByRule .huffDecodeSym s (execHuffDecodeSym s) := by
  unfold execHuffDecodeSym
  refine .intro ?_ ?_
  · exact ((ChecksFor.failIf rfl).bind (maxBitsCheck_checks _)).congr (by simp only [ArgsOk]; omega)
  · exact .check rfl fun _ => (decodeSymbol_answers _ _).step fun _ _ => .ok (.none rfl)

/-- The header that is written is the one the final-cursor check counted (43_huffman.md R225). -/
theorem execTreeWrite_runsByRule : RunsByRule .treeWrite s (execTreeWrite s) := by
  unfold execTreeWrite
  refine .intro ?_ ?_
  · exact ((ChecksFor.failIf rfl).bind (.failIf rfl)).congr (by simp only [ArgsOk]; omega)
  · refine .cursor fun hfit => .check rfl fun hall =>
      (dynamicHeaderWith_failsLate lengthsFromFrequencies_failsLate _ _).answers_self.step fun p hp => .ok (.bits rfl ?_)
    rw [headerSize_of_le (by simpa using hall) hp] at hfit
    exact hfit

theorem execTreeRead_runsByRule : RunsByRule .treeRead s (execTreeRead s) := by
  unfold execTreeRead
  refine .intro ?_ ?_
  · exact .ok
  · exact .check rfl fun hcap => (readDynamicHeader_answers _ _).step fun p hp =>
      .ok (.bytes rfl (by simp [hp]; omega) (by simp [hp]))

theorem execDeflateRaw_runsByRule : RunsByRule .deflateRaw s (execDeflateRaw s) := by
  unfold execDeflateRaw
  refine .intro ?_ ?_
  · exact compressChecks_checks _
  · refine (encodeStream_answers _ _ _ _).step fun q hq => ?_
    obtain ⟨hlen, hcap⟩ := hq.bytes_fit
    exact .ok (.bytes rfl hcap (congrArg word hlen.symm))

theorem execInflateRaw_runsByRule : RunsByRule .inflateRaw s (execInflateRaw s) := by
  unfold execInflateRaw
  refine .intro ?_ ?_
  · exact .ok
  · exact (decodeStream_answers _ _).step fun p hp =>
      .ok (.bytes rfl (by simpa [Out.bytes] using hp.length_le) (by simp [Out.bytes]))

theorem execZlibCompress_runsByRule : RunsByRule .zlibCompress s (execZlibCompress s) := by
  unfold execZlibCompress
  refine .intro ?_ ?_
  · exact compressChecks_checks _
  · refine (zlibEncode_answers _ _ _ _ rfl).step fun q hq => ?_
    obtain ⟨hext, hbp⟩ := hq
    obtain ⟨hlen, hcap⟩ := hext.bytes_fit
    have hbytes : 2 + ceilDiv q.2.1 8 + 4 = q.1.bytes.length := by
      omega
    exact .ok (.bytes rfl hcap (congrArg word hbytes))

theorem zlibHeaderChecks_answers (cmf flg : Nat) : Answers (fun _ => True) (zlibHeaderChecks cmf flg) :=
  .check rfl fun _ => .check rfl fun _ => ⟨.failIf rfl, fun _ _ => trivial⟩

theorem execZlibDecompress_runsByRule (ignoreAdler : Bool) :
    RunsByRule (.zlibDecompress ignoreAdler) s (execZlibDecompress ignoreAdler s) := by
  unfold execZlibDecompress
  refine .intro ?_ ?_
  · exact .ok
  · exact .check rfl fun _ => (zlibHeaderChecks_answers _ _).step fun _ _ => (decodeStream_answers _ _).step fun p hp =>
      .check rfl fun _ => .ok (.bytes rfl (by simpa [Out.bytes] using hp.length_le) (by simp [Out.bytes]))

theorem execAdam7Interlace_runsByRule : RunsByRule .adam7Interlace s (execAdam7Interlace s) := by
  unfold execAdam7Interlace
  refine .intro ?_ ?_
  · exact adam7Checks_checks _
  · exact .check rfl fun _ => .check rfl fun hcap => .ok (.bytes rfl (by simpa using hcap) (by simp))

theorem execAdam7Deinterlace_runsByRule : RunsByRule .adam7Deinterlace s (execAdam7Deinterlace s) := by
  unfold execAdam7Deinterlace
  refine .intro ?_ ?_
  · exact adam7Checks_checks _
  · exact .check rfl fun _ => .check rfl fun hcap => .ok (.bytes rfl (by simpa using hcap) (by simp))

end

/-- The one case split over the commands: what every command is made of. -/
theorem exec_runsByRule (i : Instr) (s : State) : RunsByRule i s (exec i s) := by
  cases i with
  | nop =>
    unfold exec execNop
    refine .intro ?_ ?_
    · exact .ok
    · exact .ok (.none rfl)
  | bitsPut reverse => exact execBitsPut_runsByRule s reverse
  | bitsGet reverse => exact execBitsGet_runsByRule s reverse
  | lz77Tokenize => exact execLz77Tokenize_runsByRule s
  | huffBuildFreq => exact execHuffBuildFreq_runsByRule s
  | huffBuildLengths => exact execHuffBuildLengths_runsByRule s
  | huffEncodeSym => exact execHuffEncodeSym_runsByRule s
  | huffDecodeSym => exact execHuffDecodeSym_runsByRule s
  | treeWrite => exact execTreeWrite_runsByRule s
  | treeRead => exact execTreeRead_runsByRule s
  | deflateRaw => exact execDeflateRaw_runsByRule s
  | inflateRaw => exact execInflateRaw_runsByRule s
  | zlibCompress => exact execZlibCompress_runsByRule s
  | zlibDecompress ignoreAdler => exact execZlibDecompress_runsByRule s ignoreAdler
  | adler32 =>
    unfold exec execAdler32
    refine .intro ?_ ?_
    · exact .ok
    · exact .ok (.none rfl)
  | adam7Geometry =>
    unfold exec execAdam7Geometry
    refine .intro ?_ ?_
    · exact adam7Checks_checks _
    · exact .ok (.none rfl)
  | adam7Interlace => exact execAdam7Interlace_runsByRule s
  | adam7Deinterlace => exact execAdam7Deinterlace_runsByRule s

/-! ## The outcomes of a command -/

/-- The outcomes of every command: an error of its own checks, an error of the region checks after they pass, a late error after
both, or success. -/
theorem exec_cases (i : Instr) (s : State) :
    (∃ e, ¬ ArgsOk i s.operands ∧ e.isRegion = false ∧ exec i s = .next (s.fail e [] none)) ∨
    (ArgsOk i s.operands ∧ ∃ e, regionChecks i s.operands s.platform = .error e ∧ exec i s = .next (s.fail e [] none)) ∨
    (ArgsOk i s.operands ∧ RegionsOk i s ∧
      ((∃ e, e.isPreCheck = false ∧ exec i s = .next (s.fail e (writesOf i) (dstRegion i s.operands))) ∨
        ∃ p : Regs × Memory, WritesDst i s p ∧ exec i s = .next (s.succeed p.1 p.2))) := by
  obtain ⟨args, body, hx, hargs, hbody⟩ := exec_runsByRule i s
  rw [hx]
  rcases runCommand_cases i s args body with ⟨e, he, ht⟩ | ⟨ha, hr, hrest⟩
  · cases ha : args with
    | error f =>
      obtain rfl : f = e := by simpa [ha, Except.bind] using he
      refine .inl ⟨f, fun hok => ?_, hargs.error_notRegion f ha, ha ▸ ht⟩
      rw [← hargs.eq_ok_iff, ha] at hok
      cases hok
    | ok u => exact .inr (.inl ⟨hargs.eq_ok_iff.1 ha, e, by simpa [ha, Except.bind] using he, ha ▸ ht⟩)
  · refine .inr (.inr ⟨hargs.eq_ok_iff.1 ha, (regionChecks_ok_iff i s).1 hr, ?_⟩)
    rcases hrest with ⟨e, he, ht⟩ | ⟨r, m, hb, ht⟩
    · exact .inl ⟨e, hbody.failsLate e he, ht⟩
    · exact .inr ⟨(r, m), hbody.yields _ hb, ht⟩

/-! ## The statements -/

/-- Settles O20: a failure leaves memory or frees DST, and a success writes inside DST. -/
theorem commandsWriteOnlyTheirDst : Obligations.CommandsWriteOnlyTheirDst := by
  intro i s
  rcases exec_cases i s with ⟨e, -, -, ht⟩ | ⟨-, e, -, ht⟩ | ⟨-, -, ⟨e, -, ht⟩ | ⟨p, hp, ht⟩⟩
  · exact ⟨_, ht, fun _ => rfl, fun _ _ => rfl⟩
  · exact ⟨_, ht, fun _ => rfl, fun _ _ => rfl⟩
  · refine ⟨_, ht, fun hi => by rw [dstRegion_of_noDst hi]; rfl, fun a ha => ?_⟩
    unfold dstRegion
    split
    · exact Memory.read_free_outside _ _ _ _ (Bool.eq_false_of_not_eq_true fun hc => ha (Region.covers_iff.1 hc))
    · rfl
  · exact ⟨_, ht, hp.mem_eq, fun a ha => hp.read_outside (by omega)⟩

/-- Settles O21: a success of a byte-producing command writes as many bytes from `DST_ADDR` on as `DST_LEN` says. -/
theorem bytesPastDstLenAreKept : Obligations.BytesPastDstLenAreKept := by
  intro i s hi
  have huse : dstUse i = .bytes := by fin_cases hi <;> rfl
  rcases exec_cases i s with ⟨e, -, -, ht⟩ | ⟨-, e, -, ht⟩ | ⟨-, -, ⟨e, -, ht⟩ | ⟨p, hp, ht⟩⟩
  · exact ⟨_, ht, by simp⟩
  · exact ⟨_, ht, by simp⟩
  · exact ⟨_, ht, by simp⟩
  · exact ⟨_, ht, fun _ => hp.dstLen huse⟩

/-- A region error is reported only where the region checks raise it. -/
theorem exec_regionError (i : Instr) (s : State) : ∃ t, exec i s = .next t ∧
    ∀ e, t.status.errCode = some e → e.isRegion = true → regionChecks i s.operands s.platform = .error e := by
  rcases exec_cases i s with ⟨e, -, he, ht⟩ | ⟨-, e, he, ht⟩ | ⟨-, -, ⟨e, he, ht⟩ | ⟨p, -, ht⟩⟩ <;>
    refine ⟨_, ht, fun f hf hreg => ?_⟩
  · obtain rfl : e = f := by simpa using hf
    rw [he] at hreg
    cases hreg
  · obtain rfl : e = f := by simpa using hf
    exact he
  · obtain rfl : e = f := by simpa using hf
    rw [ErrCode.isRegion_eq_false_of_late he] at hreg
    cases hreg
  · simp at hf

/-- Once its own checks pass, a command reports the error of the region checks. -/
theorem exec_of_regionChecks_error {i : Instr} {s : State} {e : ErrCode} (ha : ArgsOk i s.operands)
    (he : regionChecks i s.operands s.platform = .error e) : exec i s = .next (s.fail e [] none) := by
  obtain ⟨args, body, hx, hargs, -⟩ := exec_runsByRule i s
  rw [hx, hargs.eq_ok_iff.2 ha]
  exact runCommand_preCheck he

/-- Settles O23: the region checks raise each error exactly under its condition, and no other part of a command raises it. -/
theorem regionChecksInOrder : Obligations.RegionChecksInOrder := by
  refine ⟨fun i s ha => ?_, fun i s => ?_⟩
  · rw [← inputRegions_eq_ruleInputs, ← dstRegion_toList_eq_ruleDst]
    refine ⟨fun hw => ?_, fun hw hh => ?_, fun hw hh hs => ?_, fun hw hh hs => ?_⟩
    · exact exec_of_regionChecks_error ha (regionChecks_addr_iff.2 hw)
    · exact exec_of_regionChecks_error ha (regionChecks_bus_iff.2 ⟨hw, hh⟩)
    · obtain ⟨d, hd, q, hq, a, hqa, hda⟩ := hs
      exact exec_of_regionChecks_error ha (regionChecks_overlap_iff.2 ⟨hw, hh, d, hd, q, hq, a, hda, hqa⟩)
    · have hok : regionChecks i s.operands s.platform = .ok () :=
        regionChecks_ok hw hh fun ⟨d, hd, q, hq, a, hda, hqa⟩ => hs ⟨d, hd, q, hq, a, hqa, hda⟩
      obtain ⟨t, ht, hreg⟩ := exec_regionError i s
      refine ⟨(regionChecks_ok_iff i s).1 hok, t, ht, fun h => ?_, fun h => ?_, fun h => ?_⟩ <;>
        exact nomatch hok.symm.trans (hreg _ h rfl)
  · obtain ⟨t, ht, hreg⟩ := exec_regionError i s
    refine ⟨t, ht, fun h => regionChecks_addr_iff.1 (hreg _ h rfl), fun h => (regionChecks_bus_iff.1 (hreg _ h rfl)).2,
      fun h => ?_⟩
    obtain ⟨-, -, d, hd, hs⟩ := regionChecks_overlap_iff.1 (hreg _ h rfl)
    exact ⟨d, Option.mem_toList.1 hd, hs⟩

end Sys2Proof.Machine
end

section
/-! Command words: the fields of a word as numbers, the word that given fields make, and the map of 30_encoding.md R92 both ways. -/

namespace Sys2Proof

/-! ## The fields of a word -/

section
variable (w : Word)

theorem opOf_eq_mod : opOf w = w.toNat % 256 := by simp [opOf]

theorem flagI_toNat : (flagI w).toNat = w.toNat / 2 ^ 8 % 2 := Nat.toNat_testBit ..

theorem flagR_toNat : (flagR w).toNat = w.toNat / 2 ^ 9 % 2 := Nat.toNat_testBit ..

theorem reservedClear_iff : reservedClear w = true ↔ w.toNat / 2 ^ 10 = 0 := by
  have hlt : w.toNat / 2 ^ 10 < 2 ^ 22 := by omega
  rw [reservedClear, beq_iff_eq, ← BitVec.toNat_inj, BitVec.extractLsb'_toNat, Nat.shiftRight_eq_div_pow, Nat.mod_eq_of_lt hlt]
  rfl

end

/-- A word is the one its fields make exactly when its reserved bits are 0 (30_encoding.md R90). -/
theorem encodeWord_fields {w : Word} (h : reservedClear w = true) : encodeWord (opOf w) (flagI w) (flagR w) = w := by
  have hI : (if flagI w then 2 ^ 8 else 0) = 2 ^ 8 * (w.toNat / 2 ^ 8 % 2) := by
    rw [← flagI_toNat]; cases flagI w <;> rfl
  have hR : (if flagR w then 2 ^ 9 else 0) = 2 ^ 9 * (w.toNat / 2 ^ 9 % 2) := by
    rw [← flagR_toNat]; cases flagR w <;> rfl
  have hres := (reservedClear_iff w).1 h
  refine BitVec.eq_of_toNat_eq ?_
  rw [encodeWord, hI, hR, opOf_eq_mod, BitVec.toNat_ofNat]
  omega

/-! ## The map of opcodes -/

theorem opcodeMap_ops : opcodeMap.map OpRow.op = [0x00, 0x10, 0x11, 0x20, 0x30, 0x31, 0x32, 0x33, 0x34, 0x35, 0x40, 0x41, 0x50,
    0x51, 0x52, 0x60, 0x61, 0x62] := rfl

section
variable {i r : Bool}

theorem decodePlain_eq_ok {x y : Instr} : decodePlain i r x = .ok y ↔ (i = false ∧ r = false) ∧ x = y := by
  cases i <;> cases r <;> simp [decodePlain]

theorem decodeR_eq_ok {x : Bool → Instr} {y : Instr} : decodeR i r x = .ok y ↔ i = false ∧ x r = y := by
  cases i <;> simp [decodeR]

theorem decodeI_eq_ok {x : Bool → Instr} {y : Instr} : decodeI i r x = .ok y ↔ r = false ∧ x i = y := by
  cases r <;> simp [decodeI]

/-- A row of the map gives only the command whose word has its opcode and flags. -/
theorem encode_of_decodeOp {op : Nat} {x : Instr} (h : decodeOp op i r = .ok x) : encode x = encodeWord op i r := by
  unfold decodeOp at h
  split at h <;> simp only [decodePlain_eq_ok, decodeR_eq_ok, decodeI_eq_ok, reduceCtorEq] at h
  case h_2 | h_3 => obtain ⟨rfl, rfl⟩ := h; rfl
  case h_14 => obtain ⟨rfl, rfl⟩ := h; rfl
  all_goals obtain ⟨⟨rfl, rfl⟩, rfl⟩ := h; rfl

/-- Which opcodes and flags have a row (R92, R93). -/
theorem decodeOp_ok_iff {op : Nat} : (∃ x, decodeOp op i r = .ok x) ↔
    op ∈ opcodeMap.map OpRow.op ∧ (i = true → op = 0x51) ∧ (r = true → op = 0x10 ∨ op = 0x11) := by
  rw [opcodeMap_ops]
  unfold decodeOp
  split <;> simp_all [decodePlain_eq_ok, decodeR_eq_ok, decodeI_eq_ok]

end

/-! ## Decoding and encoding -/

theorem decode_eq_ok {w : Word} {x : Instr} :
    decode w = .ok x ↔ reservedClear w = true ∧ decodeOp (opOf w) (flagI w) (flagR w) = .ok x := by
  unfold decode
  split <;> simp_all

theorem decode_encode (x : Instr) : decode (encode x) = .ok x := by
  cases x with
  | bitsPut b | bitsGet b | zlibDecompress b => cases b <;> decide
  | _ => decide

/-- Settles O2: a decoded word is made of its opcode and flags, and these are the command's own. -/
theorem decodeExactlyTheEncodedWords : Obligations.DecodeExactlyTheEncodedWords := by
  intro w x
  constructor
  · intro h
    obtain ⟨hres, hop⟩ := decode_eq_ok.1 h
    rw [encode_of_decodeOp hop, encodeWord_fields hres]
  · rintro rfl
    exact decode_encode x

/-- Settles O1: each word written out is the encoding of its command. -/
theorem commandWordsDecode : Obligations.CommandWordsDecode :=
  ⟨decode_encode .nop, decode_encode (.bitsPut false), decode_encode (.bitsPut true), decode_encode (.bitsGet false),
    decode_encode (.bitsGet true), decode_encode .lz77Tokenize, decode_encode .huffBuildFreq, decode_encode .huffBuildLengths,
    decode_encode .huffEncodeSym, decode_encode .huffDecodeSym, decode_encode .treeWrite, decode_encode .treeRead,
    decode_encode .deflateRaw, decode_encode .inflateRaw, decode_encode .zlibCompress, decode_encode (.zlibDecompress false),
    decode_encode (.zlibDecompress true), decode_encode .adler32, decode_encode .adam7Geometry, decode_encode .adam7Interlace,
    decode_encode .adam7Deinterlace⟩

/-! ## Illegal words -/

/-- The legal words: no reserved bit, a listed opcode, and only flags it allows (R93). -/
theorem decode_ok_iff {w : Word} : (∃ x, decode w = .ok x) ↔ w.toNat / 2 ^ 10 = 0 ∧
    w.toNat % 256 ∈ opcodeMap.map OpRow.op ∧
    (w.getLsbD 8 = true → w.toNat % 256 = 0x51) ∧
    (w.getLsbD 9 = true → w.toNat % 256 = 0x10 ∨ w.toNat % 256 = 0x11) := by
  simp only [decode_eq_ok, exists_and_left, decodeOp_ok_iff, reservedClear_iff, opOf_eq_mod]
  rfl

theorem decode_error_iff {w : Word} : (∃ e, decode w = .error e) ↔ ¬ ∃ x, decode w = .ok x := by
  cases decode w <;> simp

namespace Machine

/-- A failure that leaves no register free changes `STATUS` and `ERR_INFO` alone (60_exceptions.md R324). -/
theorem State.readReg_fail_nil (s : State) (e : ErrCode) (dst : Option Region) {reg : Reg} (hs : reg ≠ .status)
    (hi : reg ≠ .errInfo) : (s.fail e [] dst).readReg reg = s.readReg reg := by
  cases reg with
  | status => exact absurd rfl hs
  | errInfo => exact absurd rfl hi
  | _ => rfl

/-- Settles O3: the illegal words are those that are not legal, and one completes as a pre-check failure. -/
theorem illegalWordsCompleteWithBadOp : Obligations.IllegalWordsCompleteWithBadOp := by
  refine fun w => ⟨?_, fun s e hb hw hd => ⟨_, engineTurn_illegal hb (hw ▸ hd), rfl, rfl, fun reg => ?_, rfl⟩⟩
  · rw [decode_error_iff, decode_ok_iff, opcodeMap_ops]
    tauto
  · exact s.readReg_fail_nil .badOp none

end Machine

end Sys2Proof
end

section
/-! The canonical assignment (30_encoding.md R117): the two loops give the closed form, and the symbols of one length take consecutive
codes, all of which fit their length when Kraft's sum allows it. -/

namespace Sys2Proof.Machine

/-! ## The two loops -/

theorem blCount_of_ne_zero (len : List Nat) {b : Nat} (h : b ≠ 0) : blCount len b = len.count b := if_neg h

theorem firstCode_succ (len : List Nat) (b : Nat) : firstCode len (b + 1) = (firstCode len b + blCount len b) * 2 := rfl

/-- The loop over lengths computes the first code of each length. -/
theorem nextCodes_eq (len : List Nat) (n : Nat) : nextCodes len n = (List.range (n + 1)).map (firstCode len) := by
  have hloop : (List.range n).foldl
      (fun st b => ((st.1 + blCount len b) * 2, st.2 ++ [(st.1 + blCount len b) * 2])) (0, [0]) =
        (firstCode len n, (List.range (n + 1)).map (firstCode len)) := by
    induction n with
    | zero => rfl
    | succ n ih => rw [List.range_succ, List.foldl_append, ih, List.range_succ (n := n + 1), List.map_append]; rfl
  exact congrArg Prod.snd hloop

/-- The code of the symbol that follows `pre`. -/
theorem codeOf_append_cons (pre ls : List Nat) {l : Nat} (h : l ≠ 0) :
    codeOf (pre ++ l :: ls) pre.length = firstCode (pre ++ l :: ls) l + pre.count l := by
  simp [codeOf, h]

/-- The loop over symbols, from the symbol after `pre` on: the entry of each length is its first code and the number of symbols
numbered so far. -/
theorem assignCodes_eq (pre ls next : List Nat)
    (h : ∀ l ∈ ls, l ≠ 0 → next[l]? = some (firstCode (pre ++ ls) l + pre.count l)) :
    assignCodes next ls = (List.range' pre.length ls.length).map (codeOf (pre ++ ls)) := by
  induction ls generalizing pre next with
  | nil => rfl
  | cons l ls ih =>
    have hassoc : pre ++ [l] ++ ls = pre ++ l :: ls := by simp
    have hlen : (pre ++ [l]).length = pre.length + 1 := by simp
    rw [List.length_cons, List.range'_succ, List.map_cons, ← hassoc, ← hlen, assignCodes]
    split
    · next hl =>
      subst hl
      rw [ih (pre ++ [0]) next fun k hk hk0 => ?_]
      · simp [codeOf]
      · rw [h k (List.mem_cons_of_mem _ hk) hk0, hassoc, List.count_append, List.count_singleton]
        simp [hk0.symm]
    · next hl =>
      have hnext := h l List.mem_cons_self hl
      have hval : next.getD l 0 = firstCode (pre ++ l :: ls) l + pre.count l := by
        rw [List.getD_eq_getElem?_getD, hnext, Option.getD_some]
      rw [ih (pre ++ [l]) (next.set l (next.getD l 0 + 1)) fun k hk hk0 => ?_]
      · rw [hassoc, codeOf_append_cons pre ls hl, hval]
      · rw [hassoc, List.count_append, List.count_singleton, List.getElem?_set]
        by_cases hkl : l = k
        · subst hkl
          rw [if_pos rfl, if_pos (List.getElem?_eq_some_iff.1 hnext).1, hval]
          simp [Nat.add_assoc]
        · rw [if_neg hkl, h k (List.mem_cons_of_mem _ hk) hk0]
          simp [hkl]

theorem maxLength_le_iff {len : List Nat} {n : Nat} : maxLength len ≤ n ↔ ∀ l ∈ len, l ≤ n := by
  rw [maxLength, List.foldl_eq_foldr]
  exact ⟨fun h l hl => (List.le_max_of_le hl le_rfl).trans h, List.max_le_of_forall_le len n⟩

theorem le_maxLength {len : List Nat} {l : Nat} (h : l ∈ len) : l ≤ maxLength len := maxLength_le_iff.1 le_rfl l h

theorem codes_eq_canonicalCodes (len : List Nat) : codes len = canonicalCodes len := by
  rw [canonicalCodes, nextCodes_eq, assignCodes_eq [] len _ fun l hl _ => ?_]
  · simp [codes, List.range_eq_range']
  · have hle := le_maxLength hl
    simp [List.getElem?_range (Nat.lt_succ_of_le hle)]

/-- Settles O5: the closed form is the result of the two loops; the example is computed. -/
theorem codesFollowTheCanonicalAssignment : Obligations.CodesFollowTheCanonicalAssignment :=
  ⟨codes_eq_canonicalCodes, by decide⟩

/-! ## Codes of one length are consecutive, and fit -/

/-- The code of a symbol: the first code of its length, and its place among the symbols of that length. -/
theorem codeOf_eq {len : List Nat} {s : Nat} (h : len.getD s 0 ≠ 0) :
    codeOf len s = firstCode len (len.getD s 0) + (len.take s).count (len.getD s 0) := if_neg h

theorem lt_length_of_getD_ne_zero {len : List Nat} {s : Nat} (h : len.getD s 0 ≠ 0) : s < len.length := by
  by_contra hge
  exact h (List.getD_eq_default _ _ (by omega))

/-- A symbol's place among the symbols of its length is below their number. -/
theorem count_take_lt {len : List Nat} {s : Nat} (h : s < len.length) :
    (len.take s).count (len.getD s 0) < len.count (len.getD s 0) := by
  have hget : len.getD s 0 = len[s] := List.getD_eq_getElem _ _ h
  have hsplit : len.count len[s] = (len.take s).count len[s] + (len.drop s).count len[s] := by
    rw [← List.count_append, List.take_append_drop]
  rw [List.drop_eq_getElem_cons h, List.count_cons_self] at hsplit
  rw [hget]
  omega

@[simp] theorem kraft_nil (m : Nat) : kraft [] m = 0 := rfl

theorem kraft_cons (l : Nat) (len : List Nat) (m : Nat) :
    kraft (l :: len) m = (if l = 0 then 0 else 2 ^ (m - l)) + kraft len m := by simp [kraft]

theorem kraft_filter_zero (len : List Nat) (m : Nat) : kraft (len.filter (· ≤ 0)) m = 0 := by
  induction len with
  | nil => rfl
  | cons l len ih =>
    rw [List.filter_cons]
    split
    · next hl => rw [kraft_cons, ih, if_pos (by simpa using hl)]
    · exact ih

theorem kraft_filter_succ (len : List Nat) (b m : Nat) :
    kraft (len.filter (· ≤ b + 1)) m = kraft (len.filter (· ≤ b)) m + len.count (b + 1) * 2 ^ (m - (b + 1)) := by
  induction len with
  | nil => simp
  | cons l len ih =>
    rw [List.filter_cons, List.filter_cons, List.count_cons]
    rcases Nat.lt_trichotomy l (b + 1) with hl | rfl | hl
    · have hne : (l == b + 1) = false := by simp; omega
      rw [if_pos (by simp; omega), if_pos (by simp; omega), kraft_cons, kraft_cons, ih, hne]
      simp [Nat.add_assoc]
    · rw [if_pos (by simp), if_neg (by simp), kraft_cons, ih, if_neg (Nat.succ_ne_zero b)]
      simp [Nat.add_mul]
      omega
    · have hne : (l == b + 1) = false := by simp; omega
      rw [if_neg (by simp; omega), if_neg (by simp; omega), ih, hne]
      simp

/-- Kraft's sum of the lengths up to `b` says where the codes of length `b` end. -/
theorem firstCode_add_blCount_mul (len : List Nat) {b m : Nat} (hb : b ≤ m) :
    (firstCode len b + blCount len b) * 2 ^ (m - b) = kraft (len.filter (· ≤ b)) m := by
  induction b with
  | zero => rw [kraft_filter_zero]; simp [firstCode, blCount]
  | succ b ih =>
    have hpow : 2 ^ (m - b) = 2 * 2 ^ (m - (b + 1)) := by rw [← Nat.pow_succ']; congr 1; omega
    rw [kraft_filter_succ, ← ih (by omega), hpow, firstCode_succ, blCount_of_ne_zero len (Nat.succ_ne_zero b)]
    ring

theorem kraft_filter_le (len : List Nat) (b m : Nat) : kraft (len.filter (· ≤ b)) m ≤ kraft len m := by
  induction len with
  | nil => exact le_rfl
  | cons l len ih =>
    rw [List.filter_cons, kraft_cons]
    split
    · rw [kraft_cons]
      omega
    · omega

section
variable {len : List Nat} {m : Nat}

theorem prefixFree_iff : prefixFree len m = true ↔ (∀ l ∈ len, l ≤ m) ∧ kraft len m ≤ 2 ^ m := by simp [prefixFree]

theorem complete_iff : complete len m = true ↔ (∀ l ∈ len, l ≤ m) ∧ kraft len m = 2 ^ m := by simp [complete]

theorem prefixFree_of_complete (h : complete len m = true) : prefixFree len m = true := by
  obtain ⟨hle, hk⟩ := complete_iff.1 h
  exact prefixFree_iff.2 ⟨hle, hk.le⟩

/-- The code of a symbol fits its length. -/
theorem codeOf_lt (h : prefixFree len m = true) {s : Nat} (hs : len.getD s 0 ≠ 0) : codeOf len s < 2 ^ len.getD s 0 := by
  obtain ⟨hle, hk⟩ := prefixFree_iff.1 h
  have hlt := lt_length_of_getD_ne_zero hs
  have hm : len.getD s 0 ≤ m := hle _ (by rw [List.getD_eq_getElem _ _ hlt]; exact List.getElem_mem hlt)
  have hrank := count_take_lt hlt
  have hend : (firstCode len (len.getD s 0) + blCount len (len.getD s 0)) * 2 ^ (m - len.getD s 0) ≤
      2 ^ len.getD s 0 * 2 ^ (m - len.getD s 0) := by
    rw [firstCode_add_blCount_mul len hm, ← Nat.pow_add, Nat.add_sub_cancel' hm]
    exact (kraft_filter_le ..).trans hk
  have := Nat.le_of_mul_le_mul_right hend (Nat.two_pow_pos _)
  rw [blCount_of_ne_zero len hs] at this
  rw [codeOf_eq hs]
  omega

/-- In a complete code the codes of the longest length end at the last value of that length. -/
theorem firstCode_add_blCount_maxLength (h : complete len m = true) :
    firstCode len (maxLength len) + blCount len (maxLength len) = 2 ^ maxLength len := by
  obtain ⟨hle, hk⟩ := complete_iff.1 h
  have hm : maxLength len ≤ m := maxLength_le_iff.2 hle
  have hall : len.filter (· ≤ maxLength len) = len := List.filter_eq_self.2 fun l hl => by simpa using le_maxLength hl
  have hend := firstCode_add_blCount_mul len hm
  rw [hall, hk, ← Nat.add_sub_cancel' hm, Nat.pow_add, Nat.add_sub_cancel_left] at hend
  exact Nat.eq_of_mul_eq_mul_right (Nat.two_pow_pos _) hend

theorem maxLength_ne_zero (h : complete len m = true) : maxLength len ≠ 0 := by
  intro h0
  have := firstCode_add_blCount_maxLength h
  rw [h0] at this
  simp [firstCode, blCount] at this

end

/-! ## The code as bits -/

/-- A symbol's bits (30_encoding.md R97) from the closed form. -/
theorem codeBits_eq (len : List Nat) (s : Nat) : codeBits len s = msbBits (codeOf len s) (len.getD s 0) := by
  rw [codeBits, ← codes_eq_canonicalCodes]
  by_cases hs : s < len.length
  · simp [codes, hs]
  · rw [List.getD_eq_default _ _ (by simp [codes]; omega), List.getD_eq_default len _ (by omega)]
    rfl

/-- The encoder's code table gives these bits. -/
theorem symbolBits_codeTable (len : List Nat) (s : Nat) : symbolBits (codeTable len) s = codeBits len s := by
  rw [codeBits_eq, symbolBits, codeTable]
  by_cases hs : s < len.length
  · simp [codes, hs]
  · rw [List.getD_eq_default _ _ (by simp [codes]; omega), List.getD_eq_default len _ (by omega)]
    rfl

theorem msbValue_codeBits {len : List Nat} {m s : Nat} (h : prefixFree len m = true) (hs : len.getD s 0 ≠ 0) :
    msbValue (codeBits len s) = codeOf len s := by
  rw [codeBits_eq, msbValue_msbBits, Nat.mod_eq_of_lt (codeOf_lt h hs)]

theorem msbValue_lt (bs : List Bool) : msbValue bs < 2 ^ bs.length := by
  obtain ⟨l, rfl⟩ := List.reverse_surjective bs
  rw [msbValue_reverse, List.length_reverse]
  exact lsbValue_lt l

theorem msbBits_msbValue (bs : List Bool) : msbBits (msbValue bs) bs.length = bs := by
  obtain ⟨l, rfl⟩ := List.reverse_surjective bs
  have hlsb : lsbBits (lsbValue l) l.length = l :=
    List.ext_getElem (by simp) fun i _ h => by simp [lsbBits, testBit_lsbValue, h]
  rw [msbValue_reverse, msbBits_eq_reverse, List.length_reverse, hlsb]

end Sys2Proof.Machine
end

section
/-! Reading known bits: what a reader that has these bits before it answers for a field and for a code (41_bitstream.md R162,
43_huffman.md R213). The code walk keeps one fact: the bits read so far are past the codes of every length tried. -/

namespace Sys2Proof.Machine

/-! ## A reader before known bits -/

/-- The reader after `n` bits. -/
def Reader.skip (r : Reader) (n : Nat) : Reader := { r with bp := r.bp + n }

@[simp] theorem Reader.skip_zero (r : Reader) : r.skip 0 = r := rfl
@[simp] theorem Reader.skip_skip (r : Reader) (m n : Nat) : (r.skip m).skip n = r.skip (m + n) :=
  congrArg (Reader.mk r.buf r.limit) (Nat.add_assoc ..)
@[simp] theorem Reader.skip_limit (r : Reader) (n : Nat) : (r.skip n).limit = r.limit := rfl
@[simp] theorem Reader.skip_bp (r : Reader) (n : Nat) : (r.skip n).bp = r.bp + n := rfl

/-- The reader's next bits are these, all inside its limit. -/
structure Reader.Holds (r : Reader) (bits : List Bool) : Prop where
  within : r.bp + bits.length ≤ r.limit
  bit : ∀ k, (h : k < bits.length) → Buf.bit r.buf (r.bp + k) = bits[k]

section
variable {r : Reader}

theorem Reader.holds_append {as bs : List Bool} : r.Holds (as ++ bs) ↔ r.Holds as ∧ (r.skip as.length).Holds bs := by
  constructor
  · rintro ⟨hlim, hbit⟩
    rw [List.length_append] at hlim
    refine ⟨⟨by omega, fun k hk => ?_⟩, ⟨by simp only [skip_bp, skip_limit]; omega, fun k hk => ?_⟩⟩
    · rw [hbit k (by simp; omega), List.getElem_append_left hk]
    · have := hbit (as.length + k) (by simp; omega)
      rw [← Nat.add_assoc] at this
      rw [show Buf.bit (r.skip as.length).buf ((r.skip as.length).bp + k) = _ from this, List.getElem_append_right (by omega)]
      simp
  · rintro ⟨⟨hlim, hbit⟩, ⟨hlim', hbit'⟩⟩
    refine ⟨by simp only [skip_bp, skip_limit] at hlim'; simp only [List.length_append]; omega, fun k hk => ?_⟩
    by_cases hka : k < as.length
    · rw [hbit k hka, List.getElem_append_left hka]
    · have := hbit' (k - as.length) (by simp at hk; omega)
      rw [List.getElem_append_right (by omega), ← this, skip_bp, Nat.add_assoc, Nat.add_sub_cancel' (by omega)]
      rfl

theorem Reader.Holds.of_prefix {as bs : List Bool} (h : r.Holds bs) (hp : as <+: bs) : r.Holds as := by
  obtain ⟨cs, rfl⟩ := hp
  exact (holds_append.1 h).1

theorem Reader.Holds.takeBits {bits : List Bool} (h : r.Holds bits) : takeBits bits.length r = .ok (bits, r.skip bits.length) := by
  rw [takeBits_ok _ _ h.within]
  refine congrArg Except.ok (Prod.ext (List.ext_getElem (by simp) fun k _ hk => ?_) rfl)
  simp [h.bit k hk]

theorem Reader.Holds.getBit {b : Bool} (h : r.Holds [b]) : getBit r = .ok (b, r.skip 1) := by
  have hw := h.within
  simp only [List.length_singleton] at hw
  rw [Machine.getBit, if_neg (by omega), show Buf.bit r.buf r.bp = b from h.bit 0 Nat.one_pos]
  rfl

/-- A field that stands there is read whole (41_bitstream.md R162). -/
theorem Reader.Holds.getBits {bits : List Bool} (h : r.Holds bits) :
    getBits r bits.length = .ok (lsbValue bits, r.skip bits.length) := by
  have hw := h.within
  rw [Machine.getBits, fieldBits, failIf_of_false _ (by omega)]
  exact bind_eq_ok.2 ⟨_, h.takeBits, rfl⟩

theorem Reader.Holds.getBits_lsbBits {v n : Nat} (h : r.Holds (lsbBits v n)) (hv : v < 2 ^ n) :
    Machine.getBits r n = .ok (v, r.skip n) := by
  have hg := h.getBits
  rwa [lsbBits_length, lsbValue_lsbBits, Nat.mod_eq_of_lt hv] at hg

/-- A field that does not fit fails whole (R162). -/
theorem getBits_trunc {n : Nat} (h : r.limit < r.bp + n) (hn : 0 < n) : Machine.getBits r n = .error .trunc := by
  rw [Machine.getBits, fieldBits_trunc r n h hn]
  rfl

end

/-- A reader over packed bits holds them. -/
theorem readerOfBits_holds (bits : List Bool) : (readerOfBits bits).Holds bits := by
  refine ⟨by simp [readerOfBits], fun k hk => ?_⟩
  have := packBits_bit bits k
  rw [List.getD_eq_getElem _ _ hk] at this
  simpa [readerOfBits, Buf.bit, byte_bufOfBytes, Memory.unlisted] using this

/-! ## The decode table -/

/-- The symbols with codes of length `b`, in order (43_huffman.md R213). -/
def symbolsOfLength (len : List Nat) (b : Nat) : List Nat := (List.range len.length).filter fun s => len.getD s 0 == b

/-- The symbols with codes of lengths 1 to `n`, in the order of the decode table. -/
def symbolsUpTo (len : List Nat) (n : Nat) : List Nat := (List.range' 1 n).flatMap (symbolsOfLength len)

section
variable (len : List Nat)

theorem ofLengths_sorted : (DecodeTable.ofLengths len).sorted = symbolsUpTo len (maxLength len) := rfl

theorem ofLengths_counts {b : Nat} (h : b ≤ maxLength len) : (DecodeTable.ofLengths len).counts.getD b 0 = len.count b := by
  simp [DecodeTable.ofLengths, Nat.lt_succ_of_le h]

theorem symbolsUpTo_succ (n : Nat) : symbolsUpTo len (n + 1) = symbolsUpTo len n ++ symbolsOfLength len (n + 1) := by
  rw [symbolsUpTo, List.range'_concat, List.flatMap_append, ← symbolsUpTo]
  simp [Nat.add_comm]

theorem symbolsUpTo_prefix {m n : Nat} (h : m ≤ n) : symbolsUpTo len m <+: symbolsUpTo len n := by
  induction n, h using Nat.le_induction with
  | base => exact List.prefix_rfl
  | succ n _ ih =>
    rw [symbolsUpTo_succ]
    exact ih.trans (List.prefix_append ..)

/-- The number of smaller symbols of a length. -/
theorem length_filter_range {s : Nat} (b : Nat) (hs : s ≤ len.length) :
    ((List.range s).filter fun s => len.getD s 0 == b).length = (len.take s).count b := by
  induction s with
  | zero => simp
  | succ s ih =>
    rw [List.range_succ, List.filter_append, List.length_append, ih (by omega), List.take_succ_eq_append_getElem (by omega),
      List.count_append, List.count_singleton, List.filter_singleton, List.getD_eq_getElem _ _ (by omega)]
    rcases eq_or_ne len[s] b with hb | hb
    · simp [hb]
    · simp [beq_false_of_ne hb]

theorem symbolsOfLength_length (b : Nat) : (symbolsOfLength len b).length = len.count b := by
  rw [symbolsOfLength, length_filter_range len b le_rfl, List.take_length]

end

section
variable {len : List Nat}

/-- The place of a symbol among those of its length. -/
theorem symbolsOfLength_rank {s : Nat} (hs : s < len.length) :
    (symbolsOfLength len (len.getD s 0))[(len.take s).count (len.getD s 0)]? = some s := by
  obtain ⟨k, hk⟩ : ∃ k, len.length = s + (k + 1) := ⟨len.length - (s + 1), by omega⟩
  have hsplit : List.range len.length = List.range s ++ s :: List.range' (s + 1) k := by
    rw [hk, List.range_eq_range', List.range_eq_range', ← List.range'_append_1, Nat.zero_add, List.range'_succ]
  rw [symbolsOfLength, hsplit, List.filter_append, ← length_filter_range len _ hs.le,
    List.getElem?_append_right le_rfl, Nat.sub_self, List.filter_cons_of_pos (by simp)]
  rfl

/-- Every place among the symbols of a length is taken, by the symbol with that rank. -/
theorem exists_symbol_of_rank {b k : Nat} (h : k < len.count b) :
    ∃ s < len.length, len.getD s 0 = b ∧ (len.take s).count b = k := by
  rw [← symbolsOfLength_length] at h
  have hmem := List.getElem_mem h
  obtain ⟨hs, hb⟩ := List.mem_filter.1 hmem
  have hs := List.mem_range.1 hs
  have hb := beq_iff_eq.1 hb
  refine ⟨_, hs, hb, ?_⟩
  have hrank := symbolsOfLength_rank hs
  rw [hb, ← List.getElem?_eq_getElem h] at hrank
  exact ((List.getElem?_inj h (List.nodup_range.filter _)).1 hrank.symm).symm

/-- Codes of one length are consecutive: each value among them is a symbol's code, and the symbol stands at that place. -/
theorem exists_symbol_of_value {n v : Nat} (hn : n ≠ 0) (hlo : firstCode len n ≤ v) (hhi : v < firstCode len n + len.count n) :
    ∃ s, len.getD s 0 = n ∧ codeOf len s = v ∧ (symbolsOfLength len n)[v - firstCode len n]? = some s := by
  obtain ⟨s, hs, rfl, hrank⟩ := exists_symbol_of_rank (len := len) (b := n) (k := v - firstCode len n) (by omega)
  have hget := symbolsOfLength_rank hs
  rw [hrank] at hget
  exact ⟨s, rfl, by rw [codeOf_eq hn, hrank, Nat.add_sub_cancel' hlo], hget⟩

end

/-! ## The code walk -/

/-- The bits, taken as a code, lie past all codes of their own length, and so past all shorter ones. -/
def Past (len : List Nat) (bits : List Bool) : Prop := firstCode len bits.length + blCount len bits.length ≤ msbValue bits

/-- The walk of the decoder after these bits (43_huffman.md R213). -/
def walkAfter (len : List Nat) (bits : List Bool) (r : Reader) : Except ErrCode ((Nat × Nat) × Reader) :=
  decodeWalk (.ofLengths len) (maxLength len - bits.length) (bits.length + 1) (2 * msbValue bits)
    (firstCode len (bits.length + 1)) (symbolsUpTo len bits.length).length r

/-- The entries of the decode table after the symbols of the lengths up to `n`. -/
theorem ofLengths_sorted_getD {len : List Nat} {n k : Nat} (hn : n < maxLength len) (hk : k < len.count (n + 1)) :
    (DecodeTable.ofLengths len).sorted.getD ((symbolsUpTo len n).length + k) 0 = (symbolsOfLength len (n + 1)).getD k 0 := by
  obtain ⟨rest, hrest⟩ := symbolsUpTo_prefix len (Nat.succ_le_of_lt hn)
  rw [← symbolsOfLength_length] at hk
  rw [ofLengths_sorted, ← hrest, symbolsUpTo_succ, List.append_assoc, List.getD_append_right _ _ _ _ (by omega),
    Nat.add_sub_cancel_left, List.getD_append _ _ _ _ hk]

section
variable {len : List Nat} {bits : List Bool} {r : Reader}

theorem past_nil (len : List Nat) : Past len [] := Nat.le_refl 0

theorem Past.firstCode_le (h : Past len bits) (b : Bool) : firstCode len (bits.length + 1) ≤ msbValue (bits ++ [b]) := by
  rw [msbValue_append, firstCode_succ]
  have : firstCode len bits.length + blCount len bits.length ≤ msbValue bits := h
  omega

theorem past_append_iff {b : Bool} : Past len (bits ++ [b]) ↔
    firstCode len (bits.length + 1) + len.count (bits.length + 1) ≤ msbValue (bits ++ [b]) := by
  rw [Past, List.length_append, List.length_singleton, blCount_of_ne_zero len (Nat.succ_ne_zero _)]

/-- One step of the walk: a bit is read, and it completes a code or leads on. -/
theorem walkAfter_step {b : Bool} (hb : r.Holds [b]) (hlen : bits.length < maxLength len) : walkAfter len bits r =
    if msbValue (bits ++ [b]) - firstCode len (bits.length + 1) < len.count (bits.length + 1) then
      .ok (((symbolsOfLength len (bits.length + 1)).getD (msbValue (bits ++ [b]) - firstCode len (bits.length + 1)) 0,
        bits.length + 1), r.skip 1)
    else walkAfter len (bits ++ [b]) (r.skip 1) := by
  have hleft : maxLength len - bits.length = maxLength len - (bits.length + 1) + 1 := by omega
  have hlim : ¬ r.limit ≤ r.bp := by
    have := hb.within
    simp only [List.length_singleton] at this
    omega
  rw [walkAfter, hleft, decodeWalk, if_neg hlim, hb.getBit]
  simp only [bind, Except.bind]
  rw [← msbValue_append, ofLengths_counts len hlen]
  split
  · next hk => rw [ofLengths_sorted_getD hlen hk]
  · rw [walkAfter, List.length_append, List.length_singleton, symbolsUpTo_succ, List.length_append, symbolsOfLength_length,
      firstCode_succ len (bits.length + 1), blCount_of_ne_zero len (Nat.succ_ne_zero _), Nat.mul_comm 2 (_ + _)]

theorem walkAfter_end (h : bits.length = maxLength len) : walkAfter len bits r = .error .invalidCode := by
  rw [walkAfter, h, Nat.sub_self, decodeWalk]

theorem walkAfter_cut (h : bits.length < maxLength len) (hr : r.limit ≤ r.bp) : walkAfter len bits r = .error .noEob := by
  rw [walkAfter, show maxLength len - bits.length = maxLength len - (bits.length + 1) + 1 by omega, decodeWalk, if_pos hr]

/-- The walk gets past bits that lie past the codes. -/
theorem decodeSymbol_eq_walkAfter (hr : r.Holds bits) (hp : Past len bits) (hlen : bits.length ≤ maxLength len) :
    decodeSymbol (.ofLengths len) r = walkAfter len bits (r.skip bits.length) := by
  induction bits using List.reverseRecOn with
  | nil => rfl
  | append_singleton bits b ih =>
    obtain ⟨hbits, hb⟩ := Reader.holds_append.1 hr
    rw [List.length_append, List.length_singleton] at hlen ⊢
    have hpast : Past len bits := by
      have h := past_append_iff.1 hp
      rw [firstCode_succ, msbValue_append] at h
      have := b.toNat_lt
      rw [Past]
      omega
    rw [ih hbits hpast (by omega), walkAfter_step hb (by omega), if_neg (by have := past_append_iff.1 hp; omega), Reader.skip_skip]

/-- Bits that start with no code lie past all codes. -/
theorem past_of_noCode (h : NoCode len bits) : Past len bits := by
  induction bits using List.reverseRecOn with
  | nil => exact past_nil len
  | append_singleton bits b ih =>
    have hpast := ih fun s hs hpre => h s hs (hpre.trans (List.prefix_append ..))
    have hlo := hpast.firstCode_le b
    rw [past_append_iff]
    by_contra hhi
    obtain ⟨s, hs, hcode, -⟩ := exists_symbol_of_value (n := bits.length + 1) (by omega) hlo (by omega)
    refine h s (by omega) ?_
    have hbits := msbBits_msbValue (bits ++ [b])
    rw [List.length_append, List.length_singleton] at hbits
    rw [codeBits_eq, hcode, hs, hbits]

/-! ## What decoding a symbol answers -/

/-- A symbol's code decodes to the symbol. -/
theorem decodeSymbol_code {m s : Nat} (hc : prefixFree len m = true) (hs : len.getD s 0 ≠ 0) (hr : r.Holds (codeBits len s)) :
    decodeSymbol (.ofLengths len) r = .ok ((s, len.getD s 0), r.skip (len.getD s 0)) := by
  have hlt := lt_length_of_getD_ne_zero hs
  have hmax : len.getD s 0 ≤ maxLength len :=
    le_maxLength (by rw [List.getD_eq_getElem _ _ hlt]; exact List.getElem_mem hlt)
  have hval := msbValue_codeBits hc hs
  have hclen := codeBits_length len s
  obtain ⟨bits, b, hbits⟩ : ∃ bits b, codeBits len s = bits ++ [b] :=
    (List.eq_nil_or_concat' _).resolve_left fun h => hs (by rw [← hclen, h]; rfl)
  rw [hbits] at hr hval hclen
  obtain ⟨hrb, hb⟩ := Reader.holds_append.1 hr
  rw [List.length_append, List.length_singleton] at hclen
  have hrank := count_take_lt hlt
  have hcode := codeOf_eq hs
  have hpast : Past len bits := by
    rw [← hclen, firstCode_succ, ← hval, msbValue_append] at hcode
    have := b.toNat_lt
    rw [Past]
    omega
  rw [decodeSymbol_eq_walkAfter hrb hpast (by omega), walkAfter_step hb (by omega), hval, hclen, hcode, Nat.add_sub_cancel_left,
    if_pos hrank, List.getD_eq_getElem?_getD, symbolsOfLength_rank hlt, Reader.skip_skip, hclen]
  rfl

/-- Bits as long as any code, which start with no code, are no code. -/
theorem decodeSymbol_invalid (hn : NoCode len bits) (hlen : ∀ l ∈ len, l ≤ bits.length) (hr : r.Holds bits) :
    decodeSymbol (.ofLengths len) r = .error .invalidCode := by
  have hmax : maxLength len ≤ bits.length := maxLength_le_iff.2 hlen
  have hpre := List.take_prefix (maxLength len) bits
  have htake : (bits.take (maxLength len)).length = maxLength len := by simp [hmax]
  rw [decodeSymbol_eq_walkAfter (hr.of_prefix hpre) (past_of_noCode fun s hs h => hn s hs (h.trans hpre)) htake.le,
    walkAfter_end htake]

/-- An input that ends inside a code. -/
theorem decodeSymbol_cut (hn : NoCode len bits) (hlen : bits.length < maxLength len) (hr : r.Holds bits)
    (hend : r.bp + bits.length = r.limit) : decodeSymbol (.ofLengths len) r = .error .noEob := by
  rw [decodeSymbol_eq_walkAfter hr (past_of_noCode hn) hlen.le, walkAfter_cut hlen hend.ge]

/-- A complete code leaves no bits of its longest length without a code. -/
theorem length_lt_of_noCode {m : Nat} (hc : complete len m = true) (hn : NoCode len bits) : bits.length < maxLength len := by
  by_contra hlen
  have hpre := List.take_prefix (maxLength len) bits
  have htake : (bits.take (maxLength len)).length = maxLength len := by simp; omega
  have hpast := past_of_noCode fun s hs h => hn s hs (h.trans hpre)
  have hlt := msbValue_lt (bits.take (maxLength len))
  rw [Past, htake, firstCode_add_blCount_maxLength hc] at hpast
  rw [htake] at hlt
  omega

end

end Sys2Proof.Machine
end

section
/-! The fixed codes (30_encoding.md R101, R103): their lengths, the runs of consecutive codes these give, and the two patterns that are
no distance code. -/

namespace Sys2Proof.Machine

theorem canonicalCodes_fixedLL : canonicalCodes fixedLL =
    List.range' 0x30 144 ++ List.range' 0x190 112 ++ List.range' 0 24 ++ List.range' 0xC0 8 := by decide +kernel

theorem canonicalCodes_fixedD : canonicalCodes fixedD = List.range' 0 30 := by decide +kernel

theorem fixedLL_length : fixedLL.length = 288 := by
  simp only [fixedLL, List.length_append, List.length_replicate]

theorem complete_fixedLL : complete fixedLL Config.llMaxBits = true := by decide +kernel

theorem prefixFree_fixedD : prefixFree fixedD Config.dMaxBits = true := by decide +kernel

/-- The distance codes end at `11101`: no code starts with four ones but those of the symbols 28 and 29 (R103). -/
theorem noCode_fixedD : ∀ b, NoCode fixedD [true, true, true, true, b] := by
  refine fun b => noCode_of_lt ?_
  cases b <;> decide +kernel

/-- Settles O4: the codes are four runs and one run of consecutive values, and four ones or more start with no distance code. -/
theorem fixedCodesAreCanonical : Obligations.FixedCodesAreCanonical := by
  have hcut : NoCode fixedD [true, true, true, true] := fun s hs h =>
    noCode_fixedD false s hs (h.trans (List.prefix_append [true, true, true, true] [false]))
  have hmax : maxLength fixedD = 5 := by decide
  rw [Obligations.FixedCodesAreCanonical, canonicalCodes_fixedLL, canonicalCodes_fixedD]
  refine ⟨by decide +kernel, by decide +kernel, by decide +kernel, by decide +kernel, by decide +kernel, fixedLL_length,
    List.length_replicate, fun b => ?_, ?_⟩
  · exact decodeSymbol_invalid (noCode_fixedD b) (by simp [fixedD]) (readerOfBits_holds _)
  · exact decodeSymbol_cut hcut (by rw [hmax]; decide) (readerOfBits_holds _) rfl

end Sys2Proof.Machine
end

section
/-! Reading a dynamic header (43_huffman.md R220) off known bits: its fixed-width fields, its code lengths, and the checks on the two
tables. Each part is described once, whole or cut short, and the tables and errors of a header follow. -/

namespace Sys2Proof.Machine

/-! ## Sequences of steps -/

section
variable {α β : Type}

theorem ok_bind (a : α) (f : α → Except ErrCode β) : (Except.ok a >>= f) = f a := rfl

theorem error_bind (e : ErrCode) (f : α → Except ErrCode β) : (Except.error e >>= f) = .error e := rfl

theorem failIf_bind {c : Prop} [Decidable c] (e : ErrCode) (f : Unit → Except ErrCode β) :
    (failIf c e >>= f) = if c then .error e else f () := by
  by_cases h : c <;> simp [h, ok_bind, error_bind]

end

/-! ## An input that ends inside known bits -/

/-- The input ends inside these bits. -/
def Reader.EndsIn (r : Reader) (bits : List Bool) : Prop :=
  ∃ got, got <+: bits ∧ got.length < bits.length ∧ r.Holds got ∧ r.bp + got.length = r.limit

section
variable {r : Reader}

theorem Reader.not_endsIn_nil : ¬ r.EndsIn [] := by
  rintro ⟨got, -, hlt, -⟩
  simp at hlt

/-- An input that ends inside two parts ends inside the first one, or holds it and ends inside the second. -/
theorem Reader.EndsIn.append {as bs : List Bool} (h : r.EndsIn (as ++ bs)) :
    r.limit < r.bp + as.length ∨ r.Holds as ∧ (r.skip as.length).EndsIn bs := by
  obtain ⟨got, hpre, hlt, hr, hend⟩ := h
  rcases Nat.lt_or_ge got.length as.length with hl | hl
  · exact .inl (by omega)
  · obtain ⟨rest, rfl⟩ := List.prefix_of_prefix_length_le (List.prefix_append as bs) hpre hl
    obtain ⟨hra, hrb⟩ := Reader.holds_append.1 hr
    rw [List.length_append, List.length_append] at hlt
    rw [List.length_append] at hend
    exact .inr ⟨hra, rest, (List.prefix_append_right_inj as).1 hpre, by omega, hrb, by simp only [skip_bp, skip_limit]; omega⟩

/-- A field of an input that ends inside it or inside what follows: it fails whole, or is read. -/
theorem Reader.EndsIn.getBits {v n : Nat} {bs : List Bool} (h : r.EndsIn (lsbBits v n ++ bs)) (hv : v < 2 ^ n) (hn : 0 < n) :
    getBits r n = .error .trunc ∨ getBits r n = .ok (v, r.skip n) ∧ (r.skip n).EndsIn bs := by
  rcases h.append with hlim | ⟨hr, hrest⟩
  · exact .inl (getBits_trunc (by simpa using hlim) hn)
  · rw [lsbBits_length] at hrest
    exact .inr ⟨hr.getBits_lsbBits hv, hrest⟩

end

/-! ## The fixed-width fields -/

section
variable {r : Reader} {fields : List Nat}

/-- The 3-bit fields in the order of 30_encoding.md R105. -/
def fieldBitsOf (fields : List Nat) : List Bool := fields.flatMap fun x => lsbBits x 3

theorem fieldBitsOf_cons (x : Nat) (xs : List Nat) : fieldBitsOf (x :: xs) = lsbBits x 3 ++ fieldBitsOf xs := rfl

/-- The fields are the lengths of the first symbols in the order given; the other lengths stay. -/
theorem readClLengths_fields {order cl : List Nat} (hf : ∀ x ∈ fields, x < 8) (hnd : order.Nodup)
    (hle : fields.length ≤ order.length) (hr : r.Holds (fieldBitsOf fields)) :
    ∃ cl', readClLengths fields.length order cl r = .ok (cl', r.skip (fieldBitsOf fields).length) ∧ cl'.length = cl.length ∧
      ∀ c < cl.length, cl'.getD c 0 =
        if order.idxOf c < fields.length then fields.getD (order.idxOf c) 0 else cl.getD c 0 := by
  induction fields generalizing order cl r with
  | nil => exact ⟨cl, by cases order <;> rfl, rfl, by simp⟩
  | cons x xs ih =>
    obtain _ | ⟨o, order⟩ := order
    · simp at hle
    · obtain ⟨hx, hxs⟩ := Reader.holds_append.1 hr
      rw [lsbBits_length] at hxs
      obtain ⟨hno, hnd⟩ := List.nodup_cons.1 hnd
      obtain ⟨cl', hread, hlen, hget⟩ := ih (cl := cl.set o x) (fun y hy => hf y (List.mem_cons_of_mem _ hy)) hnd (by simpa using hle) hxs
      refine ⟨cl', ?_, by simpa using hlen, fun c hc => ?_⟩
      · simp only [List.length_cons, readClLengths, hx.getBits_lsbBits (hf x List.mem_cons_self), ok_bind, hread]
        simp [fieldBitsOf_cons]
      · rw [hget c (by simpa using hc), List.idxOf_cons]
        rcases eq_or_ne o c with rfl | hoc
        · have hge : ¬ order.idxOf o < xs.length := by
            rw [List.idxOf_eq_length hno]
            simpa using hle
          rw [if_neg hge]
          simp [hc]
        · simp [hoc, beq_false_of_ne hoc]

theorem readClLengths_cut {order cl : List Nat} (hf : ∀ x ∈ fields, x < 8) (hle : fields.length ≤ order.length)
    (hr : r.EndsIn (fieldBitsOf fields)) : readClLengths fields.length order cl r = .error .trunc := by
  induction fields generalizing order cl r with
  | nil => exact absurd hr Reader.not_endsIn_nil
  | cons x xs ih =>
    obtain _ | ⟨o, order⟩ := order
    · simp at hle
    · rw [List.length_cons, readClLengths]
      rcases hr.getBits (hf x List.mem_cons_self) (by omega) with hx | ⟨hx, hxs⟩ <;> rw [hx]
      · rfl
      · exact ih (fun y hy => hf y (List.mem_cons_of_mem _ hy)) (by simpa using hle) hxs

theorem clLengths_getD {c : Nat} (hc : c < 19) : (clLengths fields).getD c 0 = fields.getD (clOrder.idxOf c) 0 := by
  simp [clLengths, hc]

@[simp] theorem clLengths_length : (clLengths fields).length = 19 := by simp [clLengths]

/-- The code-length code of a header is the one its fields give. -/
theorem readClLengths_eq (hf : ∀ x ∈ fields, x < 8) (hle : fields.length ≤ 19) (hr : r.Holds (fieldBitsOf fields)) :
    readClLengths fields.length clOrder (List.replicate 19 0) r = .ok (clLengths fields, r.skip (fieldBitsOf fields).length) := by
  obtain ⟨cl', hread, hlen, hget⟩ := readClLengths_fields (cl := List.replicate 19 0) hf (by decide : clOrder.Nodup) hle hr
  have hcl : cl' = clLengths fields := by
    refine List.ext_getElem (by simpa using hlen) fun c h h' => ?_
    rw [clLengths_length] at h'
    rw [← List.getD_eq_getElem _ 0 h, ← List.getD_eq_getElem _ 0, hget c (by simpa using h'), clLengths_getD h']
    split
    · rfl
    · next hge => rw [List.getD_eq_default fields _ (by omega), List.getD_replicate 0 h']
  rw [hread, hcl]

end

/-! ## The code lengths -/

/-- The length a code-length symbol adds, and how often (30_encoding.md R106). -/
def runOf (lens : List Nat) (p : Nat × Nat) : Nat × Nat :=
  if p.1 ≤ 15 then (p.1, 1) else if p.1 = 16 then (lens.getLastD 0, 3 + p.2) else if p.1 = 17 then (0, 3 + p.2) else (0, 11 + p.2)

theorem expandPair_eq (lens : List Nat) (p : Nat × Nat) :
    expandPair lens p = lens ++ List.replicate (runOf lens p).2 (runOf lens p).1 := by
  unfold expandPair runOf
  split
  · rfl
  · split
    · rfl
    · split <;> rfl

theorem runOf_pos (lens : List Nat) (p : Nat × Nat) : 0 < (runOf lens p).2 := by
  unfold runOf
  split
  · exact Nat.one_pos
  · split
    · simp
    · split <;> simp

/-- A repeat runs to its end, or past the last length. -/
theorem appendRun_eq {total : Nat} (v n : Nat) {lens : List Nat} (h : lens.length ≤ total) : appendRun total v n lens =
    if lens.length + n ≤ total then .ok (lens ++ List.replicate n v) else .error .repeatOverrun := by
  induction n generalizing lens with
  | zero => simp [appendRun, h]
  | succ n ih =>
    rw [appendRun]
    split
    · rw [if_neg (by omega)]
    · rw [ih (by simp; omega)]
      simp only [List.length_append, List.length_singleton, List.append_assoc, Nat.add_assoc, Nat.add_comm 1 n,
        List.singleton_append, List.replicate_succ]

/-- What follows a code-length symbol (43_huffman.md R220): the check of a repeat, its extra bits, and its lengths. -/
def readRun (total c : Nat) (lens : List Nat) (r : Reader) : Except ErrCode (List Nat × Reader) := do
  failIf (c = 16 ∧ lens = []) .repeatNoPrev
  let p ← getBits r (clExtraBits c)
  let lens ← appendRun total (runOf lens (c, p.1)).1 (runOf lens (c, p.1)).2 lens
  .ok (lens, p.2)

theorem getBits_zero (r : Reader) : getBits r 0 = .ok (0, r) := by
  simp [getBits, fieldBits, takeBits, lsbValue, ok_bind]

/-- One pass of the length loop: a symbol, and what follows it. -/
theorem readLengths_succ {t : DecodeTable} {total fuel c l : Nat} {lens : List Nat} {r r' : Reader} (hlt : lens.length < total)
    (hc : c ≤ 18) (hs : decodeSymbol t r = .ok ((c, l), r')) : readLengths t total (fuel + 1) lens r =
      (readRun total c lens r' >>= fun p => readLengths t total fuel p.1 p.2) := by
  rw [readLengths, if_neg (by omega), hs, ok_bind]
  by_cases h15 : c ≤ 15
  · have hrun : appendRun total c 1 lens = .ok (lens ++ [c]) := by rw [appendRun_eq _ _ hlt.le, if_pos (Nat.succ_le_of_lt hlt)]; rfl
    have hextra : clExtraBits c = 0 := by simp [clExtraBits, show c ≠ 16 ∧ c ≠ 17 ∧ c ≠ 18 by omega]
    simp only [if_pos h15, readRun, failIf_bind, hextra, getBits_zero, ok_bind, runOf, hrun]
    rw [if_neg (by omega)]
    rfl
  · obtain rfl | rfl | rfl : c = 16 ∨ c = 17 ∨ c = 18 := by omega
    · by_cases hnil : lens = []
      · simp [readRun, hnil, error_bind]
      · simp [readRun, hnil, bind_assoc, ok_bind, clExtraBits, runOf]
    · simp [readRun, bind_assoc, ok_bind, clExtraBits, runOf]
    · simp [readRun, bind_assoc, ok_bind, clExtraBits, runOf]

section
variable {total c v : Nat} {lens : List Nat} {r : Reader}

/-- A whole repeat: its lengths are added, or it runs past the last length. -/
theorem readRun_eq (hprev : c = 16 → lens ≠ []) (hv : v < 2 ^ clExtraBits c) (hr : r.Holds (lsbBits v (clExtraBits c)))
    (hle : lens.length ≤ total) : readRun total c lens r =
      if (expandPair lens (c, v)).length ≤ total then .ok (expandPair lens (c, v), r.skip (clExtraBits c))
      else .error .repeatOverrun := by
  rw [readRun, failIf_of_false _ fun h => hprev h.1 h.2, ok_bind, hr.getBits_lsbBits hv, ok_bind, appendRun_eq _ _ hle,
    expandPair_eq, List.length_append, List.length_replicate]
  split <;> rfl

theorem readRun_noPrevious : readRun total 16 [] r = .error .repeatNoPrev := rfl

theorem readRun_cut (hprev : c = 16 → lens ≠ []) (hr : r.limit < r.bp + clExtraBits c) (hc : clExtraBits c ≠ 0) :
    readRun total c lens r = .error .trunc := by
  rw [readRun, failIf_of_false _ fun h => hprev h.1 h.2, ok_bind, getBits_trunc hr (Nat.pos_of_ne_zero hc)]
  rfl

end

/-! ### Whole code-length symbols -/

theorem pairBits_cons (cl : List Nat) (p : Nat × Nat) (ps : List (Nat × Nat)) :
    pairBits cl (p :: ps) = codeBits cl p.1 ++ (lsbBits p.2 (clExtraBits p.1) ++ pairBits cl ps) := List.append_assoc ..

theorem expandPair_length_lt (lens : List Nat) (p : Nat × Nat) : lens.length < (expandPair lens p).length := by
  rw [expandPair_eq, List.length_append, List.length_replicate]
  exact Nat.lt_add_of_pos_right (runOf_pos lens p)

theorem length_le_foldl_expandPair (lens : List Nat) (ps : List (Nat × Nat)) :
    lens.length ≤ (ps.foldl expandPair lens).length := by
  induction ps generalizing lens with
  | nil => exact le_rfl
  | cons p ps ih => exact (expandPair_length_lt lens p).le.trans (ih _)

/-- The symbols and extra values that can follow the lengths `lens`: coded, in their field, and no repeat of nothing. -/
structure PairsAfter (cl lens : List Nat) (ps : List (Nat × Nat)) : Prop where
  coded : ∀ p ∈ ps, cl.getD p.1 0 ≠ 0 ∧ p.2 < 2 ^ clExtraBits p.1
  previous : lens = [] → ∀ p ∈ ps.head?, p.1 ≠ 16

section
variable {cl : List Nat} {m : Nat}

theorem PairsAfter.tail {lens : List Nat} {p : Nat × Nat} {ps : List (Nat × Nat)} (h : PairsAfter cl lens (p :: ps)) :
    PairsAfter cl (expandPair lens p) ps :=
  ⟨fun q hq => h.coded q (List.mem_cons_of_mem _ hq), fun hnil => by
    have := expandPair_length_lt lens p
    simp [hnil] at this⟩

/-- A coded symbol is one of the 19. -/
theorem symbol_le (hlen : cl.length = 19) {c : Nat} (h : cl.getD c 0 ≠ 0) : c ≤ 18 := by
  have := lt_length_of_getD_ne_zero h
  omega

variable {total fuel : Nat} {lens : List Nat} {r : Reader} (hcl : complete cl m = true) (hlen : cl.length = 19)
include hcl hlen

/-- A pass that starts with a coded symbol. -/
theorem readLengths_code {c : Nat} (hlt : lens.length < total) (hfuel : total ≤ fuel + lens.length) (hused : cl.getD c 0 ≠ 0)
    (hr : r.Holds (codeBits cl c)) : ∃ fuel', fuel = fuel' + 1 ∧ readLengths (.ofLengths cl) total fuel lens r =
      (readRun total c lens (r.skip (codeBits cl c).length) >>= fun p => readLengths (.ofLengths cl) total fuel' p.1 p.2) := by
  obtain ⟨fuel, rfl⟩ : ∃ k, fuel = k + 1 := ⟨fuel - 1, by omega⟩
  rw [readLengths_succ hlt (symbol_le hlen hused) (decodeSymbol_code (prefixFree_of_complete hcl) hused hr), codeBits_length]
  exact ⟨fuel, rfl, rfl⟩

/-- Whole symbols are read one by one, as long as their lengths are asked for. -/
theorem readLengths_pairs {ps : List (Nat × Nat)} (hps : PairsAfter cl lens ps)
    (hle : (ps.foldl expandPair lens).length ≤ total) (hfuel : total ≤ fuel + lens.length) (hr : r.Holds (pairBits cl ps)) :
    ∃ fuel', total ≤ fuel' + (ps.foldl expandPair lens).length ∧ readLengths (.ofLengths cl) total fuel lens r =
      readLengths (.ofLengths cl) total fuel' (ps.foldl expandPair lens) (r.skip (pairBits cl ps).length) := by
  induction ps generalizing lens fuel r with
  | nil => exact ⟨fuel, hfuel, rfl⟩
  | cons p ps ih =>
    rw [pairBits_cons] at hr ⊢
    obtain ⟨hcode, hr⟩ := Reader.holds_append.1 hr
    obtain ⟨hextra, hrest⟩ := Reader.holds_append.1 hr
    obtain ⟨hused, hv⟩ := hps.coded p List.mem_cons_self
    have hgrow := expandPair_length_lt lens p
    have hall : (expandPair lens p).length ≤ total := (length_le_foldl_expandPair _ ps).trans hle
    obtain ⟨fuel, rfl, hpass⟩ := readLengths_code hcl hlen (by omega) hfuel hused hcode
    rw [hpass, readRun_eq (fun h16 hnil => hps.previous hnil p rfl h16) hv hextra (by omega), if_pos hall, ok_bind]
    rw [lsbBits_length] at hrest
    obtain ⟨fuel', hfuel', hread⟩ := ih (fuel := fuel) hps.tail hle (by omega) hrest
    refine ⟨fuel', hfuel', hread.trans ?_⟩
    simp [Nat.add_assoc]

end

/-! ### From the first length on -/

theorem expandPairs_append_singleton (ps : List (Nat × Nat)) (p : Nat × Nat) :
    expandPairs (ps ++ [p]) = expandPair (expandPairs ps) p := by
  simp [expandPairs]

theorem pairBits_append_singleton (cl : List Nat) (ps : List (Nat × Nat)) (p : Nat × Nat) :
    pairBits cl (ps ++ [p]) = pairBits cl ps ++ (codeBits cl p.1 ++ lsbBits p.2 (clExtraBits p.1)) := by
  simp [pairBits]

/-- A last symbol is coded, its extra value fits, and a repeat has a length before it. -/
theorem PairsLegal.last {cl : List Nat} {ps : List (Nat × Nat)} {p : Nat × Nat} (h : PairsLegal cl (ps ++ [p])) :
    PairsLegal cl ps ∧ cl.getD p.1 0 ≠ 0 ∧ p.2 < 2 ^ clExtraBits p.1 ∧ (p.1 = 16 → expandPairs ps ≠ []) := by
  obtain ⟨hcoded, hhead⟩ := h
  obtain ⟨hused, hv⟩ := hcoded p (by simp)
  cases ps with
  | nil => exact ⟨⟨by simp, by simp⟩, hused, hv, fun h16 => absurd h16 (hhead p rfl)⟩
  | cons q ps =>
    refine ⟨⟨fun x hx => hcoded x (List.mem_append_left _ hx), hhead⟩, hused, hv, fun _ hnil => ?_⟩
    have hlt := (expandPair_length_lt [] q).trans_le (length_le_foldl_expandPair _ ps)
    rw [expandPairs, List.foldl_cons] at hnil
    simp [hnil] at hlt

section
variable {cl : List Nat} {m total : Nat} {r : Reader} {ps : List (Nat × Nat)} (hcl : complete cl m = true)
  (hlen : cl.length = 19)
include hcl hlen

theorem readLengths_legal (hps : PairsLegal cl ps) (hle : (expandPairs ps).length ≤ total) (hr : r.Holds (pairBits cl ps)) :
    ∃ fuel, total ≤ fuel + (expandPairs ps).length ∧ readLengths (.ofLengths cl) total total [] r =
      readLengths (.ofLengths cl) total fuel (expandPairs ps) (r.skip (pairBits cl ps).length) :=
  readLengths_pairs hcl hlen ⟨hps.1, fun _ => hps.2⟩ hle le_rfl hr

/-- All lengths are read. -/
theorem readLengths_all (hps : PairsLegal cl ps) (hall : (expandPairs ps).length = total) (hr : r.Holds (pairBits cl ps)) :
    readLengths (.ofLengths cl) total total [] r = .ok (expandPairs ps, r.skip (pairBits cl ps).length) := by
  obtain ⟨fuel, -, hread⟩ := readLengths_legal hcl hlen hps hall.le hr
  rw [hread]
  cases fuel with
  | zero => rfl
  | succ fuel => rw [readLengths, if_pos hall.ge]

/-- A coded symbol after whole symbols: what follows it decides. -/
theorem readLengths_then {c : Nat} (hps : PairsLegal cl ps) (hlt : (expandPairs ps).length < total) (hused : cl.getD c 0 ≠ 0)
    (hr : r.Holds (pairBits cl ps ++ codeBits cl c)) {e : ErrCode}
    (he : readRun total c (expandPairs ps) (r.skip (pairBits cl ps ++ codeBits cl c).length) = .error e) :
    readLengths (.ofLengths cl) total total [] r = .error e := by
  obtain ⟨hpairs, hcode⟩ := Reader.holds_append.1 hr
  obtain ⟨fuel, hfuel, hread⟩ := readLengths_legal hcl hlen hps hlt.le hpairs
  obtain ⟨fuel, rfl, hpass⟩ := readLengths_code hcl hlen hlt hfuel hused hcode
  rw [hread, hpass, Reader.skip_skip, ← List.length_append, he, error_bind]

/-- The input ends inside the code of a symbol after whole symbols. -/
theorem readLengths_cut {rest : List Bool} (hps : PairsLegal cl ps) (hlt : (expandPairs ps).length < total)
    (hno : NoCode cl rest) (hr : r.Holds (pairBits cl ps ++ rest)) (hend : r.bp + (pairBits cl ps ++ rest).length = r.limit) :
    readLengths (.ofLengths cl) total total [] r = .error .noEob := by
  obtain ⟨hpairs, hrest⟩ := Reader.holds_append.1 hr
  obtain ⟨fuel, hfuel, hread⟩ := readLengths_legal hcl hlen hps hlt.le hpairs
  rw [List.length_append] at hend
  obtain ⟨fuel, rfl⟩ : ∃ k, fuel = k + 1 := ⟨fuel - 1, by omega⟩
  rw [hread, readLengths, if_neg (by omega),
    decodeSymbol_cut hno (length_lt_of_noCode hcl hno) hrest (by simp only [Reader.skip_bp, Reader.skip_limit]; omega), error_bind]

end

/-! ## The checks on the two tables -/

/-- The tables of the code lengths read, and their checks (43_huffman.md R220). -/
def headerTables (degenerateOk : Bool) (hlit hdist : Nat) (p : List Nat × Reader) : Except ErrCode (Header × Reader) := do
  failIf ((padTo 288 (p.1.take hlit)).getD 256 0 = 0) .noEobLength
  failIf (¬ complete (padTo 288 (p.1.take hlit)) Config.llMaxBits) .codeLengths
  failIf (¬ complete (padTo 32 (p.1.drop hlit)) Config.dMaxBits ∧ ¬ (degenerateOk ∧ degenerate (padTo 32 (p.1.drop hlit))))
    .codeLengths
  .ok (⟨hlit, hdist, padTo 288 (p.1.take hlit), padTo 32 (p.1.drop hlit)⟩, p.2)

/-- The fields of a header: `hlit`, `hdist` and the code-length code (R220). -/
def readHeaderFields (r : Reader) : Except ErrCode ((Nat × Nat × List Nat) × Reader) := do
  let a ← getBits r 5
  let b ← getBits a.2 5
  let c ← getBits b.2 4
  let cl ← readClLengths (c.1 + 4) clOrder (List.replicate 19 0) c.2
  .ok ((a.1 + 257, b.1 + 1, cl.1), cl.2)

/-- The code lengths and the tables of a header, after its fields (R220). -/
def readHeaderBody (degenerateOk : Bool) (q : (Nat × Nat × List Nat) × Reader) : Except ErrCode (Header × Reader) := do
  failIf (¬ complete q.1.2.2 Config.clMaxBits) .codeLengths
  let p ← readLengths (.ofLengths q.1.2.2) (q.1.1 + q.1.2.1) (q.1.1 + q.1.2.1) [] q.2
  headerTables degenerateOk q.1.1 q.1.2.1 p

theorem readDynamicHeader_eq (degenerateOk : Bool) (r : Reader) :
    readDynamicHeader degenerateOk r = readHeaderFields r >>= readHeaderBody degenerateOk := by
  simp only [readDynamicHeader, readHeaderFields, bind_assoc, ok_bind]
  rfl

section
variable {hlit hdist : Nat} {fields : List Nat} {r : Reader} (legal : FieldsLegal hlit hdist fields)
include legal

theorem readHeaderFields_ok (hr : r.Holds (headerFields hlit hdist fields)) :
    readHeaderFields r = .ok ((hlit, hdist, clLengths fields), r.skip (headerFields hlit hdist fields).length) := by
  obtain ⟨h257, h288, h1, h32, h4, h19, hf⟩ := legal
  obtain ⟨hr, hfields⟩ := Reader.holds_append.1 hr
  obtain ⟨hr, hncl⟩ := Reader.holds_append.1 hr
  obtain ⟨hlitBits, hdistBits⟩ := Reader.holds_append.1 hr
  simp only [List.length_append, lsbBits_length] at hdistBits hncl hfields
  rw [readHeaderFields, hlitBits.getBits_lsbBits (by omega), ok_bind, hdistBits.getBits_lsbBits (by omega), ok_bind,
    Reader.skip_skip, hncl.getBits_lsbBits (by omega), ok_bind, Reader.skip_skip, Nat.sub_add_cancel h4,
    readClLengths_eq hf h19 hfields, ok_bind, Reader.skip_skip, Nat.sub_add_cancel h257, Nat.sub_add_cancel h1]
  refine congrArg (fun n => Except.ok ((hlit, hdist, clLengths fields), r.skip n)) ?_
  simp only [headerFields, fieldBitsOf, List.length_append, lsbBits_length]

/-- The input ends inside the fields. -/
theorem readHeaderFields_cut (hr : r.EndsIn (headerFields hlit hdist fields)) : readHeaderFields r = .error .trunc := by
  obtain ⟨h257, h288, h1, h32, h4, h19, hf⟩ := legal
  rw [headerFields, List.append_assoc, List.append_assoc] at hr
  rw [readHeaderFields]
  obtain h | ⟨h, hr⟩ := hr.getBits (show hlit - 257 < 2 ^ 5 by omega) (by omega)
  · rw [h, error_bind]
  rw [h, ok_bind]
  obtain h | ⟨h, hr⟩ := hr.getBits (show hdist - 1 < 2 ^ 5 by omega) (by omega)
  · rw [h, error_bind]
  rw [h, ok_bind]
  obtain h | ⟨h, hr⟩ := hr.getBits (show fields.length - 4 < 2 ^ 4 by omega) (by omega)
  · rw [h, error_bind]
  rw [h, ok_bind, Nat.sub_add_cancel h4, readClLengths_cut (order := clOrder) hf h19 hr, error_bind]

end

/-! ## Tables padded with zeros -/

section
variable (len : List Nat) (n : Nat)

theorem padTo_getD (s : Nat) : (padTo n len).getD s 0 = len.getD s 0 := by
  rw [padTo]
  by_cases hs : s < len.length
  · rw [List.getD_append _ _ _ _ hs]
  · rw [List.getD_append_right _ _ _ _ (by omega), List.getD_eq_default len _ (by omega)]
    by_cases h : s - len.length < n - len.length
    · exact List.getD_replicate 0 h
    · exact List.getD_eq_default _ _ (by simp; omega)

theorem kraft_padTo (m : Nat) : kraft (padTo n len) m = kraft len m := by
  simp [kraft, padTo]

theorem complete_padTo (m : Nat) : complete (padTo n len) m = complete len m := by
  have hall : (padTo n len).all (· ≤ m) = len.all (· ≤ m) := by simp [padTo]
  rw [complete, kraft_padTo, hall, complete]

end

/-! ## Whole headers and malformed ones -/

/-- Every length a header gives is at most 15. -/
theorem expandPairs_le (ps : List (Nat × Nat)) : ∀ l ∈ expandPairs ps, l ≤ 15 := by
  induction ps using List.reverseRecOn with
  | nil => simp [expandPairs]
  | append_singleton ps p ih =>
    have hlast : (expandPairs ps).getLastD 0 ≤ 15 := by
      rcases List.eq_nil_or_concat' (expandPairs ps) with h | ⟨L, x, h⟩
      · simp [h]
      · rw [h, List.getLastD_concat]
        exact ih x (by simp [h])
    intro l hl
    rw [expandPairs_append_singleton, expandPair_eq, List.mem_append] at hl
    rcases hl with hl | hl
    · exact ih l hl
    · obtain rfl := List.eq_of_mem_replicate hl
      unfold runOf
      split
      · assumption
      · split
        · exact hlast
        · split <;> exact Nat.zero_le _

section
variable {hlit hdist : Nat} {fields : List Nat} {r : Reader} (legal : FieldsLegal hlit hdist fields)
include legal

theorem complete_clLengths_iff : complete (clLengths fields) Config.clMaxBits = true ↔ kraftSum (clLengths fields) 7 = 2 ^ 7 := by
  obtain ⟨-, -, -, -, -, -, hf⟩ := legal
  refine complete_iff.trans (and_iff_right fun l hl => ?_)
  obtain ⟨c, -, rfl⟩ := List.mem_map.1 hl
  rcases Nat.lt_or_ge (clOrder.idxOf c) fields.length with h | h
  · rw [List.getD_eq_getElem _ _ h]
    exact Nat.le_of_lt_succ (hf _ (List.getElem_mem h))
  · rw [List.getD_eq_default _ _ h]
    exact Nat.zero_le _

theorem readDynamicHeader_clCode (degenerateOk : Bool) (bad : kraftSum (clLengths fields) 7 ≠ 2 ^ 7)
    (hr : r.Holds (headerFields hlit hdist fields)) : readDynamicHeader degenerateOk r = .error .codeLengths := by
  have hcl : ¬ complete (clLengths fields) Config.clMaxBits = true := fun hc => bad ((complete_clLengths_iff legal).1 hc)
  rw [readDynamicHeader_eq, readHeaderFields_ok legal hr, ok_bind, readHeaderBody, failIf_of_true _ hcl, error_bind]

variable (ok : kraftSum (clLengths fields) 7 = 2 ^ 7)
include ok

/-- A header whose fields give a complete code-length code: its code lengths decide. -/
theorem readDynamicHeader_fields (degenerateOk : Bool) (hr : r.Holds (headerFields hlit hdist fields)) :
    readDynamicHeader degenerateOk r =
      (readLengths (.ofLengths (clLengths fields)) (hlit + hdist) (hlit + hdist) [] (r.skip (headerFields hlit hdist fields).length)
        >>= headerTables degenerateOk hlit hdist) := by
  have hcl := (complete_clLengths_iff legal).2 ok
  rw [readDynamicHeader_eq, readHeaderFields_ok legal hr, ok_bind, readHeaderBody, failIf_of_false _ (not_not.2 hcl), ok_bind]

/-- Whole code lengths: the checks on the tables decide. -/
theorem readDynamicHeader_tables {ps : List (Nat × Nat)} (degenerateOk : Bool) (pairs : PairsLegal (clLengths fields) ps)
    (all : (expandPairs ps).length = hlit + hdist)
    (hr : r.Holds (headerFields hlit hdist fields ++ pairBits (clLengths fields) ps)) :
    readDynamicHeader degenerateOk r = headerTables degenerateOk hlit hdist
      (expandPairs ps, r.skip (headerFields hlit hdist fields ++ pairBits (clLengths fields) ps).length) := by
  obtain ⟨hrf, hrp⟩ := Reader.holds_append.1 hr
  have hcl := (complete_clLengths_iff legal).2 ok
  rw [readDynamicHeader_fields legal ok degenerateOk hrf, readLengths_all hcl clLengths_length pairs all hrp, ok_bind,
    Reader.skip_skip, List.length_append]

/-- A symbol that cannot be followed: the header fails as what follows it does. -/
theorem readDynamicHeader_then {ps : List (Nat × Nat)} {c : Nat} {e : ErrCode} (degenerateOk : Bool)
    (pairs : PairsLegal (clLengths fields) ps) (before : (expandPairs ps).length < hlit + hdist)
    (used : (clLengths fields).getD c 0 ≠ 0)
    (hr : r.Holds (headerFields hlit hdist fields ++ (pairBits (clLengths fields) ps ++ codeBits (clLengths fields) c)))
    (he : readRun (hlit + hdist) c (expandPairs ps) (r.skip
      (headerFields hlit hdist fields ++ (pairBits (clLengths fields) ps ++ codeBits (clLengths fields) c)).length) = .error e) :
    readDynamicHeader degenerateOk r = .error e := by
  obtain ⟨hrf, hrp⟩ := Reader.holds_append.1 hr
  have hcl := (complete_clLengths_iff legal).2 ok
  rw [List.length_append, ← Reader.skip_skip] at he
  rw [readDynamicHeader_fields legal ok degenerateOk hrf, readLengths_then hcl clLengths_length pairs before used hrp he, error_bind]

/-- The input ends inside the code of a code-length symbol. -/
theorem readDynamicHeader_codeCut {ps : List (Nat × Nat)} {rest : List Bool} (degenerateOk : Bool)
    (pairs : PairsLegal (clLengths fields) ps) (before : (expandPairs ps).length < hlit + hdist)
    (none : NoCode (clLengths fields) rest)
    (hr : r.Holds (headerFields hlit hdist fields ++ (pairBits (clLengths fields) ps ++ rest)))
    (hend : r.bp + (headerFields hlit hdist fields ++ (pairBits (clLengths fields) ps ++ rest)).length = r.limit) :
    readDynamicHeader degenerateOk r = .error .noEob := by
  obtain ⟨hrf, hrp⟩ := Reader.holds_append.1 hr
  have hcl := (complete_clLengths_iff legal).2 ok
  rw [List.length_append, ← Nat.add_assoc] at hend
  rw [readDynamicHeader_fields legal ok degenerateOk hrf, readLengths_cut hcl clLengths_length pairs before none hrp hend, error_bind]

end

/-- A table of lengths up to 15 is complete exactly when Kraft's sum is reached, padded with zeros or not. -/
theorem complete_padTo_iff {len : List Nat} (h : ∀ l ∈ len, l ≤ 15) (n : Nat) :
    complete (padTo n len) 15 = true ↔ kraftSum len 15 = 2 ^ 15 := by
  rw [complete_padTo, complete_iff]
  exact and_iff_right h

section
variable {hlit : Nat} {lens : List Nat}

theorem getD_take_256 (h : 257 ≤ hlit) : (lens.take hlit).getD 256 0 = lens.getD 256 0 := by
  simp [show 256 < hlit by omega]

variable {hdist : Nat} {r : Reader} (h257 : 257 ≤ hlit) (hle : ∀ l ∈ lens, l ≤ 15)
include h257

theorem headerTables_noEob (degenerateOk : Bool) (h : lens.getD 256 0 = 0) :
    headerTables degenerateOk hlit hdist (lens, r) = .error .noEobLength := by
  rw [headerTables, failIf_of_true _ (by rw [padTo_getD, getD_take_256 h257, h]), error_bind]

include hle

theorem headerTables_ok (degenerateOk : Bool) (h : lens.getD 256 0 ≠ 0) (hll : kraftSum (lens.take hlit) 15 = 2 ^ 15)
    (hdl : kraftSum (lens.drop hlit) 15 = 2 ^ 15) : headerTables degenerateOk hlit hdist (lens, r) =
      .ok (⟨hlit, hdist, padTo 288 (lens.take hlit), padTo 32 (lens.drop hlit)⟩, r) := by
  have hcl : complete (padTo 288 (lens.take hlit)) Config.llMaxBits = true :=
    (complete_padTo_iff (fun l hl => hle l (List.mem_of_mem_take hl)) 288).2 hll
  have hcd : complete (padTo 32 (lens.drop hlit)) Config.dMaxBits = true :=
    (complete_padTo_iff (fun l hl => hle l (List.mem_of_mem_drop hl)) 32).2 hdl
  rw [headerTables, failIf_of_false _ (by rwa [padTo_getD, getD_take_256 h257]), ok_bind, failIf_of_false _ (not_not.2 hcl), ok_bind,
    failIf_of_false _ (not_and_of_not_left _ (not_not.2 hcd)), ok_bind]

theorem headerTables_incomplete (h : lens.getD 256 0 ≠ 0)
    (hbad : kraftSum (lens.take hlit) 15 ≠ 2 ^ 15 ∨ kraftSum (lens.drop hlit) 15 ≠ 2 ^ 15) :
    headerTables false hlit hdist (lens, r) = .error .codeLengths := by
  have hcl : complete (padTo 288 (lens.take hlit)) Config.llMaxBits = true ↔ _ :=
    complete_padTo_iff (fun l hl => hle l (List.mem_of_mem_take hl)) 288
  have hcd : complete (padTo 32 (lens.drop hlit)) Config.dMaxBits = true ↔ _ :=
    complete_padTo_iff (fun l hl => hle l (List.mem_of_mem_drop hl)) 32
  rw [headerTables, failIf_of_false _ (by rwa [padTo_getD, getD_take_256 h257]), ok_bind]
  by_cases hll : kraftSum (lens.take hlit) 15 = 2 ^ 15
  · have hdl := hbad.resolve_left (not_not.2 hll)
    rw [failIf_of_false _ (not_not.2 (hcl.2 hll)), ok_bind, failIf_of_true _ ⟨mt hcd.1 hdl, by simp⟩, error_bind]
  · rw [failIf_of_true _ (mt hcl.1 hll), error_bind]

end

/-- A header that passes every check gives its two tables, padded with zeros (43_huffman.md R220). -/
theorem readDynamicHeader_ok {bits : List Bool} {ll dl : List Nat} {r : Reader} (h : HeaderBits bits ll dl) (hr : r.Holds bits)
    (degenerateOk : Bool) : readDynamicHeader degenerateOk r =
      .ok (⟨ll.length, dl.length, padTo 288 ll, padTo 32 dl⟩, r.skip bits.length) := by
  obtain ⟨legal, ok, pairs, all, eob, llOk, dlOk⟩ := h
  rw [readDynamicHeader_tables legal ok degenerateOk pairs all hr,
    headerTables_ok legal.1 (expandPairs_le _) degenerateOk eob llOk dlOk, List.length_take, List.length_drop, all,
    Nat.min_eq_left (Nat.le_add_right ..), Nat.add_sub_cancel_left]

/-- A malformed or cut header fails with its error (R220). -/
theorem readDynamicHeader_error {ends : Bool} {bits : List Bool} {e : ErrCode} {r : Reader} (h : HeaderError ends bits e)
    (hr : r.Holds bits) (hend : ends = true → r.bp + bits.length = r.limit) :
    readDynamicHeader Config.degenerateDistOk r = .error e := by
  cases h with
  | fieldCut legal cut short =>
    rw [readDynamicHeader_eq, readHeaderFields_cut legal ⟨bits, cut, short, hr, hend rfl⟩, error_bind]
  | clCode legal bad => exact readDynamicHeader_clCode legal _ bad hr
  | noPrevious legal ok used =>
    exact readDynamicHeader_then legal ok _ (ps := []) ⟨by simp, by simp⟩ (show 0 < _ by have := legal.1; omega) used hr
      (readRun_noPrevious ..)
  | overrun legal ok pairs before after =>
    obtain ⟨hps, hused, hv, hprev⟩ := pairs.last
    rw [pairBits_append_singleton, ← List.append_assoc, ← List.append_assoc] at hr
    obtain ⟨hr, hextra⟩ := Reader.holds_append.1 hr
    rw [expandPairs_append_singleton] at after
    rw [List.append_assoc] at hr hextra
    refine readDynamicHeader_then legal ok _ hps before hused hr ?_
    rw [readRun_eq hprev hv hextra before.le, if_neg (Nat.not_le_of_lt after)]
  | codeCut legal ok pairs before none =>
    rw [List.append_assoc] at hr hend
    exact readDynamicHeader_codeCut legal ok _ pairs before none hr (hend rfl)
  | extraCut legal ok pairs before short =>
    obtain ⟨hps, hused, hv, hprev⟩ := pairs.last
    have hlim := hend rfl
    obtain ⟨hr, -⟩ := Reader.holds_append.1 hr
    rw [List.length_append, List.append_assoc] at hlim
    rw [List.append_assoc] at hr
    exact readDynamicHeader_then legal ok _ hps before hused hr
      (readRun_cut hprev (by simp only [Reader.skip_bp, Reader.skip_limit]; omega) (by omega))
  | noEobLength legal ok pairs all eob =>
    rw [readDynamicHeader_tables legal ok _ pairs all hr, headerTables_noEob legal.1 _ eob]
  | dataCode legal ok pairs all eob bad =>
    rw [readDynamicHeader_tables legal ok _ pairs all hr]
    exact headerTables_incomplete legal.1 (expandPairs_le _) eob bad

end Sys2Proof.Machine
end

section
/-! Decoding a Huffman block off known bits (44_deflate.md R260 to R263): literals, pairs, the copy of a pair, and whole tokens. -/

namespace Sys2Proof.Machine

/-! ## Padded tables decode alike -/

/-- The walk reads the symbols and the counts of lengths from 1 on. -/
theorem decodeWalk_congr {t u : DecodeTable} (hs : t.sorted = u.sorted) (hc : ∀ b, b ≠ 0 → t.counts.getD b 0 = u.counts.getD b 0)
    (left b code first index : Nat) (r : Reader) (hb : b ≠ 0) :
    decodeWalk t left b code first index r = decodeWalk u left b code first index r := by
  induction left generalizing b code first index r with
  | zero => rfl
  | succ left ih =>
    simp only [decodeWalk, hs, hc b hb, ih _ _ _ _ _ (Nat.succ_ne_zero b)]

section
variable (len : List Nat) (n : Nat)

theorem maxLength_padTo : maxLength (padTo n len) = maxLength len := by
  refine Nat.le_antisymm (maxLength_le_iff.2 fun l hl => ?_) (maxLength_le_iff.2 fun l hl => ?_)
  · rcases List.mem_append.1 hl with hl | hl
    · exact le_maxLength hl
    · rw [List.eq_of_mem_replicate hl]
      exact Nat.zero_le _
  · exact le_maxLength (List.mem_append_left _ hl)

theorem count_padTo {b : Nat} (hb : b ≠ 0) : (padTo n len).count b = len.count b := by
  rw [padTo, List.count_append, List.count_replicate, if_neg (by simpa using hb.symm), Nat.add_zero]

theorem symbolsOfLength_padTo {b : Nat} (hb : b ≠ 0) : symbolsOfLength (padTo n len) b = symbolsOfLength len b := by
  have hpad : ∀ k, ((List.range k).map (len.length + ·)).filter (fun s => len.getD s 0 == b) = [] := fun k => by
    refine List.filter_eq_nil_iff.2 fun s hs => ?_
    obtain ⟨j, -, rfl⟩ := List.mem_map.1 hs
    rw [List.getD_eq_default _ _ (by omega)]
    simpa using hb.symm
  simp only [symbolsOfLength, padTo_getD]
  rw [padTo, List.length_append, List.range_add, List.filter_append, hpad, List.append_nil]

theorem symbolsUpTo_padTo (m : Nat) : symbolsUpTo (padTo n len) m = symbolsUpTo len m := by
  induction m with
  | zero => rfl
  | succ m ih => rw [symbolsUpTo_succ, symbolsUpTo_succ, ih, symbolsOfLength_padTo len n (Nat.succ_ne_zero m)]

/-- A table padded with zeros decodes as before (43_huffman.md R220). -/
theorem decodeSymbol_padTo (r : Reader) : decodeSymbol (.ofLengths (padTo n len)) r = decodeSymbol (.ofLengths len) r := by
  have hmax : (DecodeTable.ofLengths (padTo n len)).maxLen = (DecodeTable.ofLengths len).maxLen := maxLength_padTo len n
  rw [decodeSymbol, decodeSymbol, hmax]
  refine decodeWalk_congr ?_ (fun b hb => ?_) _ _ _ _ _ _ Nat.one_ne_zero
  · rw [ofLengths_sorted, ofLengths_sorted, maxLength_padTo, symbolsUpTo_padTo]
  · rcases Nat.lt_or_ge b (maxLength len + 1) with h | h
    · rw [ofLengths_counts _ (by rw [maxLength_padTo]; omega), ofLengths_counts _ (by omega), count_padTo len n hb]
    · rw [List.getD_eq_default _ _ (by simpa [DecodeTable.ofLengths, maxLength_padTo] using h),
        List.getD_eq_default _ _ (by simpa [DecodeTable.ofLengths] using h)]

end

/-- Tables that decode alike give blocks that decode alike. -/
theorem huffmanDecode_congr {t t' u u' : DecodeTable} (ht : ∀ r, decodeSymbol t r = decodeSymbol t' r)
    (hu : ∀ r, decodeSymbol u r = decodeSymbol u' r) (fuel : Nat) (r : Reader) (o : Out) :
    huffmanDecode t u fuel r o = huffmanDecode t' u' fuel r o := by
  induction fuel generalizing r o with
  | zero => rfl
  | succ fuel ih => simp only [huffmanDecode, readPair, ht, hu, ih]

/-! ## The back-reference copy -/

theorem replayCopy_length (dist n : Nat) (out : List Byte) : (replayCopy dist n out).length = out.length + n := by
  induction n generalizing out with
  | zero => rfl
  | succ n ih => rw [replayCopy, ih, List.length_append, List.length_singleton]; omega

section
variable {dist cap : Nat} {out : List Byte}

/-- The byte `dist` back from the end. -/
theorem getD_reverse (h1 : 1 ≤ dist) (hd : dist ≤ out.length) : out.reverse.getD (dist - 1) 0 = out.getD (out.length - dist) 0 := by
  rw [List.getD_eq_getElem _ _ (by simp; omega), List.getD_eq_getElem _ _ (by omega), List.getElem_reverse]
  congr 1
  omega

theorem Out.append_ok (b : Byte) (h : out.length < cap) : Out.append ⟨out.reverse, cap⟩ b = .ok ⟨(out ++ [b]).reverse, cap⟩ := by
  rw [Out.append, if_neg (by simp; omega)]
  simp

theorem Out.append_full (b : Byte) (h : cap ≤ out.length) : Out.append ⟨out.reverse, cap⟩ b = .error .dstFull := by
  rw [Out.append, if_pos (by simpa using h)]

/-- The copy appends byte by byte, or finds the output full (44_deflate.md R262, R263). -/
theorem copyBytes_eq {n : Nat} (h1 : 1 ≤ dist) (hd : dist ≤ out.length) (hle : out.length ≤ cap) :
    copyBytes dist n ⟨out.reverse, cap⟩ =
      if out.length + n ≤ cap then .ok ⟨(replayCopy dist n out).reverse, cap⟩ else .error .dstFull := by
  induction n generalizing out with
  | zero => rw [if_pos (by omega)]; rfl
  | succ n ih =>
    rw [copyBytes, getD_reverse h1 hd]
    rcases Nat.lt_or_ge out.length cap with hlt | hge
    · rw [Out.append_ok _ hlt, ok_bind, ih (by simp; omega) (by simp; omega), replayCopy]
      simp only [List.length_append, List.length_singleton, Nat.add_assoc, Nat.add_comm 1 n]
    · rw [Out.append_full _ hge, if_neg (by omega), error_bind]

theorem copyMatch_eq {n : Nat} (h1 : 1 ≤ dist) (hd : dist ≤ out.length) (hle : out.length ≤ cap) :
    copyMatch n dist ⟨out.reverse, cap⟩ =
      if out.length + n ≤ cap then .ok ⟨(replayCopy dist n out).reverse, cap⟩ else .error .dstFull := by
  rw [copyMatch, failIf_of_false _ (by simpa using hd), ok_bind, copyBytes_eq h1 hd hle]

theorem copyMatch_tooFar {n : Nat} (h : out.length < dist) : copyMatch n dist ⟨out.reverse, cap⟩ = .error .distTooFar := by
  rw [copyMatch, failIf_of_true _ (by simpa using h), error_bind]

end

/-! ## Pairs -/

/-- A distance code reaches at least one byte back (30_encoding.md R110). -/
theorem one_le_distBase : ∀ d ≤ 29, 1 ≤ distBase.getD d 0 := by decide

theorem DistLegal.one_le {dl : List Nat} {d ed : Nat} (h : DistLegal dl d ed) : 1 ≤ distBase.getD d 0 + ed :=
  (one_le_distBase d h.1).trans (Nat.le_add_right ..)

/-- What follows a distance symbol (44_deflate.md R261): its check, its extra bits, and the pair's length and distance. -/
def readDist (length : Nat) (p : (Nat × Nat) × Reader) : Except ErrCode ((Nat × Nat) × Reader) := do
  failIf (30 ≤ p.1.1) .invalidCode
  let q ← getBits p.2 (distExtra.getD p.1.1 0)
  .ok ((length, distBase.getD p.1.1 0 + q.1), q.2)

section
variable {ll dl : List Nat} {m c el d ed : Nat} {r : Reader}

/-- After the length's extra value the distance symbol decides. -/
theorem readPair_eq {t : DecodeTable} (len : LengthLegal ll c el) (hr : r.Holds (lsbBits el (lenExtra.getD (c - 257) 0))) :
    readPair t c r = (decodeSymbol t (r.skip (lenExtra.getD (c - 257) 0)) >>= readDist (lenBase.getD (c - 257) 0 + el)) := by
  obtain ⟨-, -, -, hel⟩ := len
  rw [readPair, hr.getBits_lsbBits hel]
  rfl

theorem readPair_lengthCut {t : DecodeTable} (h : r.limit < r.bp + lenExtra.getD (c - 257) 0) (h0 : 0 < lenExtra.getD (c - 257) 0) :
    readPair t c r = .error .trunc := by
  rw [readPair, getBits_trunc h h0, error_bind]

theorem readDist_eq {length l : Nat} (dist : DistLegal dl d ed) (hr : r.Holds (lsbBits ed (distExtra.getD d 0))) :
    readDist length ((d, l), r) = .ok ((length, distBase.getD d 0 + ed), r.skip (distExtra.getD d 0)) := by
  obtain ⟨hd, -, hed⟩ := dist
  rw [readDist, failIf_of_false _ (by simpa using by omega), ok_bind, hr.getBits_lsbBits hed, ok_bind]

theorem readDist_badSymbol {length l : Nat} (bad : 30 ≤ d) : readDist length ((d, l), r) = .error .invalidCode := by
  rw [readDist, failIf_of_true _ bad, error_bind]

theorem readDist_cut {length l : Nat} (hd : d ≤ 29) (h : r.limit < r.bp + distExtra.getD d 0) (h0 : 0 < distExtra.getD d 0) :
    readDist length ((d, l), r) = .error .trunc := by
  rw [readDist, failIf_of_false _ (by simpa using by omega), ok_bind, getBits_trunc h h0, error_bind]

end

/-! ## One pass of the block decoder -/

/-- The bits of a pair: a length code with its extra value, a distance code with its extra value (30_encoding.md R107). -/
def pairTokenBits (ll dl : List Nat) (c el d ed : Nat) : List Bool :=
  lengthBits ll c el ++ codeBits dl d ++ lsbBits ed (distExtra.getD d 0)

section
variable {ll : List Nat} {m fuel c : Nat} {t : DecodeTable} {r : Reader} (hll : prefixFree ll m = true)
include hll

theorem huffmanDecode_literal {o : Out} (hc : c ≤ 255) (used : ll.getD c 0 ≠ 0) (hr : r.Holds (codeBits ll c)) :
    huffmanDecode (.ofLengths ll) t (fuel + 1) r o =
      (o.append (byte c) >>= huffmanDecode (.ofLengths ll) t fuel (r.skip (codeBits ll c).length)) := by
  rw [huffmanDecode, decodeSymbol_code hll used hr, ok_bind, codeBits_length]
  exact if_pos hc

theorem huffmanDecode_length {el : Nat} {o : Out} (len : LengthLegal ll c el) (hr : r.Holds (codeBits ll c)) :
    huffmanDecode (.ofLengths ll) t (fuel + 1) r o = (readPair t c (r.skip (codeBits ll c).length) >>= fun p =>
      copyMatch p.1.1 p.1.2 o >>= huffmanDecode (.ofLengths ll) t fuel p.2) := by
  obtain ⟨hlo, hhi, used, -⟩ := len
  rw [huffmanDecode, decodeSymbol_code hll used hr, ok_bind, codeBits_length]
  dsimp only
  rw [if_neg (by omega), if_neg (by omega), if_pos hhi]

/-- A length code with its extra value: the distance and the copy decide. -/
theorem huffmanDecode_lengthBits {el : Nat} {o : Out} (len : LengthLegal ll c el) (hr : r.Holds (lengthBits ll c el)) :
    huffmanDecode (.ofLengths ll) t (fuel + 1) r o =
      (decodeSymbol t (r.skip (lengthBits ll c el).length) >>= readDist (lenBase.getD (c - 257) 0 + el) >>= fun p =>
        copyMatch p.1.1 p.1.2 o >>= huffmanDecode (.ofLengths ll) t fuel p.2) := by
  obtain ⟨hcode, hel⟩ := Reader.holds_append.1 hr
  rw [huffmanDecode_length hll len hcode, readPair_eq len hel, Reader.skip_skip, lengthBits, List.length_append, lsbBits_length]

/-- A whole length and distance: the copy decides. -/
theorem huffmanDecode_pair {dl : List Nat} {mD el d ed : Nat} {o : Out} (hdl : prefixFree dl mD = true)
    (len : LengthLegal ll c el) (dist : DistLegal dl d ed) (hr : r.Holds (pairTokenBits ll dl c el d ed)) :
    huffmanDecode (.ofLengths ll) (.ofLengths dl) (fuel + 1) r o =
      (copyMatch (lenBase.getD (c - 257) 0 + el) (distBase.getD d 0 + ed) o >>=
        huffmanDecode (.ofLengths ll) (.ofLengths dl) fuel (r.skip (pairTokenBits ll dl c el d ed).length)) := by
  obtain ⟨hr, hed⟩ := Reader.holds_append.1 hr
  obtain ⟨hlen, hcode⟩ := Reader.holds_append.1 hr
  simp only [pairTokenBits, List.length_append, ← Reader.skip_skip, lsbBits_length, codeBits_length] at hed hcode ⊢
  rw [huffmanDecode_lengthBits hll len hlen, decodeSymbol_code hdl dist.2.1 hcode, ok_bind, readDist_eq dist hed, ok_bind]

theorem huffmanDecode_badSymbol {o : Out} (hc : 286 ≤ c) (used : ll.getD c 0 ≠ 0) (hr : r.Holds (codeBits ll c)) :
    huffmanDecode (.ofLengths ll) t (fuel + 1) r o = .error .invalidCode := by
  rw [huffmanDecode, decodeSymbol_code hll used hr, ok_bind]
  dsimp only
  rw [if_neg (by omega), if_neg (by omega), if_neg (by omega)]

end

/-! ## Whole tokens -/

section
variable (ll dl : List Nat)

theorem tokenBits_literal {c : Nat} (h : c < 257) (rest : List Nat) : tokenBits (codeTable ll) (codeTable dl) (c :: rest) =
    codeBits ll c ++ tokenBits (codeTable ll) (codeTable dl) rest := by
  rw [tokenBits.eq_def]
  simp [h, symbolBits_codeTable]

theorem tokenBits_pair {c : Nat} (h : 257 ≤ c) (el d ed : Nat) (rest : List Nat) :
    tokenBits (codeTable ll) (codeTable dl) (c :: el :: d :: ed :: rest) =
      pairTokenBits ll dl c el d ed ++ tokenBits (codeTable ll) (codeTable dl) rest := by
  rw [tokenBits.eq_def]
  simp [Nat.not_lt.2 h, symbolBits_codeTable, pairTokenBits, lengthBits]

theorem tokensCoded_literal {c : Nat} (h : c < 257) (rest : List Nat) :
    TokensCoded ll dl (c :: rest) ↔ ll.getD c 0 ≠ 0 ∧ TokensCoded ll dl rest := by
  rw [TokensCoded, tokenSymbols.eq_def]
  simp [h, TokensCoded, and_assoc]

theorem tokensCoded_pair {c : Nat} (h : 257 ≤ c) (el d ed : Nat) (rest : List Nat) :
    TokensCoded ll dl (c :: el :: d :: ed :: rest) ↔ (ll.getD c 0 ≠ 0 ∧ dl.getD d 0 ≠ 0) ∧ TokensCoded ll dl rest := by
  rw [TokensCoded, tokenSymbols.eq_def]
  simp [Nat.not_lt.2 h, TokensCoded, and_assoc, and_left_comm]

end

/-- The output of a replay only grows. -/
theorem replayTokens_length_le {maxDist : Nat} {toks : List Nat} {out out' : List Byte}
    (h : replayTokens maxDist toks out = some out') : out.length ≤ out'.length := by
  fun_induction replayTokens maxDist toks out with
  | case1 out =>
    cases h
    exact le_rfl
  | case2 c rest out hc ih =>
    have := ih h
    simp only [List.length_append] at this
    omega
  | case3 c out hc el d ed rest dist hok ih =>
    have := ih h
    rw [replayCopy_length] at this
    omega
  | case4 | case5 => cases h

/-- The passes left after some bits, of which there was one. -/
theorem Reader.passes_skip {r : Reader} {n fuel : Nat} (hn : n ≠ 0) (h : r.passes ≤ fuel + 1) (hle : r.bp + n ≤ r.limit) :
    (r.skip n).passes ≤ fuel := by
  simp only [Reader.passes, skip_limit, skip_bp] at h ⊢
  omega

theorem Reader.exists_fuel {r : Reader} {fuel : Nat} (h : r.passes ≤ fuel) : ∃ k, fuel = k + 1 := by
  refine ⟨fuel - 1, ?_⟩
  simp only [Reader.passes] at h
  omega

/-- Whole tokens are decoded one by one, and replayed on the output, as long as it has room (44_deflate.md R260 to R263). -/
theorem huffmanDecode_tokens {ll dl toks : List Nat} {mL mD maxDist cap fuel : Nat} {out out' : List Byte} {r : Reader}
    (hll : prefixFree ll mL = true) (hdl : prefixFree dl mD = true) (coded : TokensCoded ll dl toks)
    (replay : replayTokens maxDist toks out = some out') (fits : out'.length ≤ cap) (hfuel : r.passes ≤ fuel)
    (hr : r.Holds (tokenBits (codeTable ll) (codeTable dl) toks)) :
    ∃ fuel', (r.skip (tokenBits (codeTable ll) (codeTable dl) toks).length).passes ≤ fuel' ∧
      huffmanDecode (.ofLengths ll) (.ofLengths dl) fuel r ⟨out.reverse, cap⟩ =
        huffmanDecode (.ofLengths ll) (.ofLengths dl) fuel' (r.skip (tokenBits (codeTable ll) (codeTable dl) toks).length)
          ⟨out'.reverse, cap⟩ := by
  fun_induction replayTokens maxDist toks out generalizing fuel r with
  | case1 out =>
    cases replay
    exact ⟨fuel, hfuel, rfl⟩
  | case2 c rest out hc ih =>
    obtain ⟨used, hrest⟩ := (tokensCoded_literal ll dl (by omega) rest).1 coded
    obtain ⟨fuel, rfl⟩ := Reader.exists_fuel hfuel
    rw [tokenBits_literal ll dl (by omega)] at hr ⊢
    obtain ⟨hcode, hr⟩ := Reader.holds_append.1 hr
    have hlen := replayTokens_length_le replay
    rw [List.length_append, List.length_singleton] at hlen
    obtain ⟨fuel', hfuel', hread⟩ := ih hrest replay (Reader.passes_skip (by rwa [codeBits_length]) hfuel hcode.within) hr
    rw [huffmanDecode_literal hll (by omega) used hcode, Out.append_ok _ (by omega), ok_bind, List.length_append, ← Reader.skip_skip]
    exact ⟨fuel', hfuel', hread⟩
  | case3 c out hc el d ed rest dist hok =>
    rename_i ih
    obtain ⟨hlo, hhi, hd, hel, hed, -, hback⟩ := hok
    obtain ⟨⟨used, dused⟩, hrest⟩ := (tokensCoded_pair ll dl hlo el d ed rest).1 coded
    obtain ⟨fuel, rfl⟩ := Reader.exists_fuel hfuel
    rw [tokenBits_pair ll dl hlo] at hr ⊢
    obtain ⟨hpair, hr⟩ := Reader.holds_append.1 hr
    have len : LengthLegal ll c el := ⟨hlo, hhi, used, hel⟩
    have hdist : DistLegal dl d ed := ⟨hd, dused, hed⟩
    have hlen := replayTokens_length_le replay
    rw [replayCopy_length] at hlen
    have hne : (pairTokenBits ll dl c el d ed).length ≠ 0 := by
      rw [pairTokenBits, lengthBits, List.length_append, List.length_append, List.length_append, codeBits_length]
      omega
    obtain ⟨fuel', hfuel', hread⟩ := ih hrest replay (Reader.passes_skip hne hfuel hpair.within) hr
    rw [huffmanDecode_pair hll hdl len hdist hpair, copyMatch_eq hdist.one_le hback (by omega), if_pos (hlen.trans fits), ok_bind,
      List.length_append, ← Reader.skip_skip]
    exact ⟨fuel', hfuel', hread⟩
  | case4 | case5 => cases replay

end Sys2Proof.Machine
end

section
/-! How the decoder of a stream meets its first block (44_deflate.md R257 to R265): the block header, a stored block, and each way a
Huffman block can fail. -/

namespace Sys2Proof.Machine

/-! ## Block headers -/

section
variable {r : Reader} {o : Out} {final b1 b2 : Bool} {fuel nb : Nat}

/-- The header bits of a block: the body decides, and `BFINAL` says whether more blocks follow (30_encoding.md R99). -/
theorem decodeBlocks_header (hr : r.Holds [final, b1, b2]) : decodeBlocks (fuel + 1) nb r o =
    (decodeBlock (lsbValue [b1, b2]) (r.skip [final, b1, b2].length) o >>= fun p =>
      if final then .ok (nb + 1, p.1, p.2) else decodeBlocks fuel (nb + 1) p.1 p.2) := by
  obtain ⟨hfinal, htype⟩ := Reader.holds_append.1 (show r.Holds ([final] ++ [b1, b2]) from hr)
  have h1 := hfinal.getBits
  have h2 := htype.getBits
  simp only [List.length_cons, List.length_nil, Nat.zero_add, Reader.skip_skip] at h1 h2
  simp only [decodeBlocks, h1, h2, ok_bind, List.length_cons, List.length_nil, Nat.zero_add]
  cases final <;> rfl

/-- Fixed codes are complete, or no code starts another; those of an accepted header are complete (30_encoding.md R101, R103, R104). -/
theorem BlockStart.codes {bits : List Bool} {ll dl : List Nat} (h : BlockStart final bits ll dl) :
    complete ll Config.llMaxBits = true ∧ prefixFree dl Config.dMaxBits = true := by
  cases h with
  | fixed => exact ⟨complete_fixedLL, prefixFree_fixedD⟩
  | dynamic header =>
    obtain ⟨-, -, -, -, -, llOk, dlOk⟩ := header
    exact ⟨complete_iff.2 ⟨fun l hl => expandPairs_le _ l (List.mem_of_mem_take hl), llOk⟩,
      prefixFree_of_complete (complete_iff.2 ⟨fun l hl => expandPairs_le _ l (List.mem_of_mem_drop hl), dlOk⟩)⟩

theorem decodeBlock_fixed : decodeBlock 1 r o = huffmanDecode (.ofLengths fixedLL) (.ofLengths fixedD) r.passes r o := by
  rw [decodeBlock, failIf_of_false _ (by decide), ok_bind, if_neg (by decide), if_pos rfl]

theorem decodeBlock_dynamic {bits : List Bool} {ll dl : List Nat} (h : HeaderBits bits ll dl) (hr : r.Holds bits) :
    decodeBlock 2 r o =
      huffmanDecode (.ofLengths ll) (.ofLengths dl) (r.skip bits.length).passes (r.skip bits.length) o := by
  rw [decodeBlock, failIf_of_false _ (by decide), ok_bind, if_neg (by decide), if_neg (by decide),
    readDynamicHeader_ok h hr, ok_bind]
  exact huffmanDecode_congr (decodeSymbol_padTo ll 288) (decodeSymbol_padTo dl 32) ..

theorem decodeBlock_headerError {ends : Bool} {bits : List Bool} {e : ErrCode} (h : HeaderError ends bits e) (hr : r.Holds bits)
    (hend : ends = true → r.bp + bits.length = r.limit) : decodeBlock 2 r o = .error e := by
  rw [decodeBlock, failIf_of_false _ (by decide), ok_bind, if_neg (by decide), if_neg (by decide),
    readDynamicHeader_error h hr hend, error_bind]

/-- A Huffman block whose header stands there: its data decide. -/
theorem decodeBlocks_start {bits : List Bool} {ll dl : List Nat} (h : BlockStart final bits ll dl) (hr : r.Holds bits) :
    decodeBlocks (fuel + 1) nb r o =
      (huffmanDecode (.ofLengths ll) (.ofLengths dl) (r.skip bits.length).passes (r.skip bits.length) o >>= fun p =>
        if final then .ok (nb + 1, p.1, p.2) else decodeBlocks fuel (nb + 1) p.1 p.2) := by
  cases h with
  | fixed =>
    rw [decodeBlocks_header hr, show lsbValue [true, false] = 1 from rfl, decodeBlock_fixed]
  | dynamic header =>
    obtain ⟨hhead, hbits⟩ := Reader.holds_append.1 hr
    rw [decodeBlocks_header hhead, show lsbValue [false, true] = 2 from rfl, decodeBlock_dynamic header hbits, List.length_append,
      ← Reader.skip_skip]

end

/-! ## Malformed Huffman blocks -/

section
variable {ll dl : List Nat} {m fuel c el : Nat} {r : Reader} {o : Out}

/-- A Huffman block that starts with whole tokens: it fails as what follows them does. -/
theorem decodeBlocks_data {cap nb : Nat} {bits : List Bool} {out : List Byte} {e : ErrCode} (data : BlockData bits ll dl out)
    (fits : out.length ≤ cap) (hr : r.Holds bits) (he : complete ll Config.llMaxBits = true →
      prefixFree dl Config.dMaxBits = true → ∀ k, huffmanDecode (.ofLengths ll) (.ofLengths dl) (k + 1) (r.skip bits.length)
        ⟨out.reverse, cap⟩ = .error e) : decodeBlocks (fuel + 1) nb r ⟨[], cap⟩ = .error e := by
  obtain ⟨final, start, toks, begins, rfl, coded, replay⟩ := data
  obtain ⟨hstart, htoks⟩ := Reader.holds_append.1 hr
  obtain ⟨hll, hdl⟩ := begins.codes
  obtain ⟨fuel', hfuel', hread⟩ :=
    huffmanDecode_tokens (prefixFree_of_complete hll) hdl coded replay fits (le_refl _) htoks
  obtain ⟨k, rfl⟩ := Reader.exists_fuel hfuel'
  have hdata := he hll hdl k
  rw [List.length_append, ← Reader.skip_skip] at hdata
  rw [decodeBlocks_start begins hstart, show (⟨[], cap⟩ : Out) = ⟨[].reverse, cap⟩ from rfl, hread, hdata, error_bind]

/-- The input goes wrong in the distance of a pair. -/
theorem decodeBlocks_badDist {cap nb : Nat} {bits : List Bool} {out : List Byte} {e : ErrCode} (data : BlockData bits ll dl out)
    (fits : out.length ≤ cap) (len : LengthLegal ll c el) (hr : r.Holds (bits ++ lengthBits ll c el))
    (he : prefixFree dl Config.dMaxBits = true → (decodeSymbol (.ofLengths dl) (r.skip (bits ++ lengthBits ll c el).length) >>=
      readDist (lenBase.getD (c - 257) 0 + el)) = .error e) : decodeBlocks (fuel + 1) nb r ⟨[], cap⟩ = .error e := by
  obtain ⟨hr, hlen⟩ := Reader.holds_append.1 hr
  rw [List.length_append, ← Reader.skip_skip] at he
  refine decodeBlocks_data data fits hr fun hll hdl k => ?_
  rw [huffmanDecode_lengthBits (prefixFree_of_complete hll) len hlen, he hdl, error_bind]

/-- A whole pair that cannot be copied. -/
theorem decodeBlocks_badCopy {cap nb d ed : Nat} {bits : List Bool} {out : List Byte} {e : ErrCode}
    (data : BlockData bits ll dl out) (fits : out.length ≤ cap) (len : LengthLegal ll c el) (dist : DistLegal dl d ed)
    (hr : r.Holds (bits ++ lengthBits ll c el ++ codeBits dl d ++ lsbBits ed (distExtra.getD d 0)))
    (he : copyMatch (lenBase.getD (c - 257) 0 + el) (distBase.getD d 0 + ed) ⟨out.reverse, cap⟩ = .error e) :
    decodeBlocks (fuel + 1) nb r ⟨[], cap⟩ = .error e := by
  rw [List.append_assoc, List.append_assoc] at hr
  obtain ⟨hr, hpair⟩ := Reader.holds_append.1 hr
  rw [← List.append_assoc] at hpair
  refine decodeBlocks_data data fits hr fun hll hdl k => ?_
  rw [huffmanDecode_pair (prefixFree_of_complete hll) hdl len dist hpair, he, error_bind]

end

/-- A malformed or cut Huffman block fails with its error (R257, R260 to R263). -/
theorem decodeBlocks_error {cap fuel nb : Nat} {ends : Bool} {bits : List Bool} {e : ErrCode} {r : Reader}
    (h : BlockError cap ends bits e) (hr : r.Holds bits) (hend : ends = true → r.bp + bits.length = r.limit) :
    decodeBlocks (fuel + 1) nb r ⟨[], cap⟩ = .error e := by
  cases h with
  | header final h =>
    obtain ⟨hhead, hbits⟩ := Reader.holds_append.1 hr
    rw [List.length_append, ← Nat.add_assoc] at hend
    rw [decodeBlocks_header hhead, show lsbValue [false, true] = 2 from rfl, decodeBlock_headerError h hbits hend, error_bind]
  | literalFull data full literal used =>
    obtain ⟨hr, hcode⟩ := Reader.holds_append.1 hr
    refine decodeBlocks_data data full.le hr fun hll _ k => ?_
    rw [huffmanDecode_literal (prefixFree_of_complete hll) literal used hcode, Out.append_full _ full.ge, error_bind]
  | symbol data fits bad used =>
    obtain ⟨hr, hcode⟩ := Reader.holds_append.1 hr
    refine decodeBlocks_data data fits hr fun hll _ k => ?_
    exact huffmanDecode_badSymbol (prefixFree_of_complete hll) (by omega) used hcode
  | distSymbol data fits len bad used =>
    obtain ⟨hr, hcode⟩ := Reader.holds_append.1 hr
    refine decodeBlocks_badDist data fits len hr fun hdl => ?_
    rw [decodeSymbol_code hdl used hcode, ok_bind, readDist_badSymbol (by omega)]
  | distPattern data fits len none whole =>
    obtain ⟨hr, hrest⟩ := Reader.holds_append.1 hr
    refine decodeBlocks_badDist data fits len hr fun _ => ?_
    rw [decodeSymbol_invalid none whole hrest, error_bind]
  | tooFar data fits len dist far => exact decodeBlocks_badCopy data fits len dist hr (copyMatch_tooFar far)
  | copyFull data fits len dist near full =>
    refine decodeBlocks_badCopy data fits len dist hr ?_
    rw [copyMatch_eq dist.one_le near fits, if_neg (Nat.not_le_of_lt full)]
  | codeCut data fits none =>
    obtain ⟨hr, hrest⟩ := Reader.holds_append.1 hr
    rw [List.length_append, ← Nat.add_assoc] at hend
    refine decodeBlocks_data data fits hr fun hll _ k => ?_
    rw [huffmanDecode, decodeSymbol_cut none (length_lt_of_noCode hll none) hrest (hend rfl), error_bind]
  | lengthCut data fits len short =>
    obtain ⟨hr, -⟩ := Reader.holds_append.1 hr
    obtain ⟨hr, hcode⟩ := Reader.holds_append.1 hr
    rw [List.length_append, List.length_append] at hend
    refine decodeBlocks_data data fits hr fun hll _ k => ?_
    have hlim := hend rfl
    rw [huffmanDecode_length (prefixFree_of_complete hll) len hcode,
      readPair_lengthCut (by simp only [Reader.skip_bp, Reader.skip_limit]; omega) (by omega), error_bind]
  | distCut data fits len none short =>
    obtain ⟨l, hl, hlt⟩ := short
    obtain ⟨hr, hrest⟩ := Reader.holds_append.1 hr
    rw [List.length_append, ← Nat.add_assoc] at hend
    refine decodeBlocks_badDist data fits len hr fun _ => ?_
    rw [decodeSymbol_cut none (hlt.trans_le (le_maxLength hl)) hrest (hend rfl), error_bind]
  | distExtraCut data fits len dist short =>
    obtain ⟨hr, -⟩ := Reader.holds_append.1 hr
    obtain ⟨hr, hcode⟩ := Reader.holds_append.1 hr
    rw [List.length_append, List.length_append, codeBits_length] at hend
    have hlim := hend rfl
    refine decodeBlocks_badDist data fits len hr fun hdl => ?_
    rw [decodeSymbol_code hdl dist.2.1 hcode, ok_bind,
      readDist_cut dist.1 (by simp only [Reader.skip_bp, Reader.skip_limit]; omega) (by omega)]

end Sys2Proof.Machine
end

section
/-! The first block of `INFLATE.RAW` (44_deflate.md R265): its source region as a reader, and how a stored block fails. -/

namespace Sys2Proof.Machine

/-! ## The source as a reader -/

section
variable {m : Memory} {base n limit bp : Nat}

/-- Bits that stand in the region are before the reader (00_scope.md R15). -/
theorem region_holds {bits : List Bool} (h : bitsStandAt m base bp bits) (hlim : bp + bits.length ≤ limit) (hn : limit ≤ 8 * n) :
    Reader.Holds ⟨m.region base n, limit, bp⟩ bits := by
  refine ⟨hlim, fun k hk => ?_⟩
  rw [← h k hk, Buf.bit, Memory.byte_region _ _ _ _ (by simp only; omega)]
  rfl

theorem readLE_lt (m : Memory) (a k : Nat) : m.readLE a k < 2 ^ (8 * k) := by
  induction k generalizing a with
  | zero => simp [Memory.readLE]
  | succ k ih =>
    have hlo := (m.read a).isLt
    have hhi := ih (a + 1)
    rw [Memory.readLE, Nat.mul_succ, Nat.pow_add]
    omega

/-- The bits of a little-endian number are those of its bytes (20_memory.md R61). -/
theorem readLE_testBit (m : Memory) (a k : Nat) : ∀ i < 8 * k, (m.readLE a k).testBit i = memBit m a i := by
  induction k generalizing a with
  | zero => simp
  | succ k ih =>
    intro i hi
    rw [Memory.readLE, Nat.add_comm, show 256 = 2 ^ 8 from rfl, Nat.testBit_two_pow_mul_add _ (m.read a).isLt, memBit]
    split
    · next h => rw [Nat.div_eq_of_lt h, Nat.mod_eq_of_lt h, Nat.add_zero, BitVec.testBit_toNat]
    · next h =>
      obtain ⟨j, rfl⟩ : ∃ j, i = j + 8 := ⟨i - 8, by omega⟩
      rw [Nat.add_sub_cancel, ih (a + 1) j (by omega), memBit, Nat.add_div_right _ (by decide), Nat.add_mod_right, Nat.add_assoc,
        Nat.add_comm 1]

/-- A number that starts at a byte reads as the little-endian number there. -/
theorem getBits_bytes {j k : Nat} (hlim : 8 * (j + k) ≤ limit) (hn : limit ≤ 8 * n) :
    getBits ⟨m.region base n, limit, 8 * j⟩ (8 * k) = .ok (m.readLE (base + j) k, ⟨m.region base n, limit, 8 * (j + k)⟩) := by
  have hstand : bitsStandAt m base (8 * j) (lsbBits (m.readLE (base + j) k) (8 * k)) := by
    intro i hi
    rw [lsbBits_length] at hi
    have hbit := readLE_testBit m (base + j) k i hi
    rw [memBit, Nat.mul_add_mod, Nat.mul_add_div (by decide), ← Nat.add_assoc]
    simp [lsbBits, hbit, memBit]
  have hr := region_holds (n := n) hstand (by rw [lsbBits_length]; omega) hn
  rw [hr.getBits_lsbBits (readLE_lt ..), Nat.mul_add]
  rfl

end

/-! ## Stored blocks -/

/-- The data of a stored block that are all there, but find the output full (R259, R263). -/
theorem copyStored_full {cap len : Nat} {r : Reader} {out : List Byte} (hr : r.bp + 8 * len ≤ r.limit) (hle : out.length ≤ cap)
    (hfull : cap < out.length + len) : copyStored len r ⟨out.reverse, cap⟩ = .error .dstFull := by
  induction len generalizing r out with
  | zero => omega
  | succ len ih =>
    obtain ⟨v, hfield⟩ : ∃ v, getBits r 8 = .ok (v, r.skip 8) := ⟨_, bind_eq_ok.2 ⟨_, fieldBits_ok r 8 (by omega), rfl⟩⟩
    simp only [copyStored, hfield, ok_bind]
    rcases Nat.lt_or_ge out.length cap with hlt | hge
    · rw [Out.append_ok _ hlt, ok_bind]
      exact ih (by simp only [Reader.skip_bp, Reader.skip_limit]; omega) (by simp; omega) (by simp; omega)
    · rw [Out.append_full _ hge, error_bind]

/-- The complement that `NLEN` must be. -/
theorem xor_ones {v : Nat} (h : v < 2 ^ 16) : v ^^^ 0xFFFF = 65535 - v := by
  refine Nat.eq_of_testBit_eq fun i => ?_
  rw [show 65535 - v = 2 ^ 16 - (v + 1) by omega, Nat.testBit_two_pow_sub_succ h, Nat.testBit_xor,
    show 0xFFFF = 2 ^ 16 - 1 from rfl, Nat.testBit_two_pow_sub_one]
  by_cases hi : i < 16
  · simp [hi]
  · simp [hi, Nat.testBit_lt_two_pow (h.trans_le (Nat.pow_le_pow_right (by decide) (Nat.le_of_not_lt hi)))]

section
variable {m : Memory} {base n cap : Nat} {o : Out}

/-- `LEN` stands after the first byte. -/
theorem getBits_len (h : 3 ≤ n) : getBits (alignReader ⟨m.region base n, 8 * n, 3⟩) 16 =
    .ok (m.readLE (base + 1) 2, ⟨m.region base n, 8 * n, 24⟩) := by
  have halign : alignReader ⟨m.region base n, 8 * n, 3⟩ = ⟨m.region base n, 8 * n, 8⟩ := by simp [alignReader]
  rw [halign]
  exact getBits_bytes (m := m) (base := base) (j := 1) (k := 2) (show 8 * (1 + 2) ≤ 8 * n by omega) le_rfl

/-- A source too short for `LEN` and `NLEN` (R259). -/
theorem storedDecode_short (h : n < 5) : storedDecode ⟨m.region base n, 8 * n, 3⟩ o = .error .trunc := by
  rcases Nat.lt_or_ge n 3 with hn | hn
  · rw [storedDecode, getBits_trunc (by simp only [alignReader]; omega) (by decide), error_bind]
  · simp only [storedDecode, getBits_len hn, ok_bind]
    rw [getBits_trunc (by simp only; omega) (by decide), error_bind]

/-- `LEN` and `NLEN` are read, and decide (R259). -/
theorem storedDecode_eq (h : 5 ≤ n) : storedDecode ⟨m.region base n, 8 * n, 3⟩ o = (do
    failIf (m.readLE (base + 3) 2 ≠ 65535 - m.readLE (base + 1) 2) .nlen
    failIf (8 * n < 40 + 8 * m.readLE (base + 1) 2) .trunc
    copyStored (m.readLE (base + 1) 2) ⟨m.region base n, 8 * n, 40⟩ o) := by
  have hnlen : getBits ⟨m.region base n, 8 * n, 24⟩ 16 = .ok (m.readLE (base + 3) 2, ⟨m.region base n, 8 * n, 40⟩) :=
    getBits_bytes (m := m) (base := base) (j := 3) (k := 2) (show 8 * (3 + 2) ≤ 8 * n by omega) le_rfl
  simp only [storedDecode, getBits_len (show 3 ≤ n by omega), hnlen, ok_bind, xor_ones (readLE_lt m (base + 1) 2)]

end

/-! ## `INFLATE.RAW` on a malformed stream -/

/-- The reader of `INFLATE.RAW` (R265). -/
def Regs.srcReader (r : Regs) (m : Memory) : Reader := ⟨m.region r.srcAddr.toNat r.srcLen.toNat, 8 * r.srcLen.toNat, 0⟩

section
variable {s : State}

/-- A stream that cannot be decoded fails the command, once its regions pass (R265, 40_control.md R144). -/
theorem execInflateRaw_error {e : ErrCode} (hok : RegionsOk .inflateRaw s)
    (he : ∀ fuel, decodeBlocks (fuel + 1) 0 (s.operands.srcReader s.mem) ⟨[], s.operands.dstCap.toNat⟩ = .error e) :
    exec .inflateRaw s = .next (s.fail e [.result0, .result1, .dstLen] (some s.operands.dst)) := by
  rw [exec, execInflateRaw]
  refine runCommand_failure rfl ((regionChecks_ok_iff _ s).2 hok) ?_
  exact bind_eq_error.2 (.inl (he _))

/-- The type of the first block decides how it is decoded. -/
theorem decodeBlocks_type {e : ErrCode} {fuel : Nat} {o : Out} (hn : 0 < s.operands.srcLen.toNat)
    (he : decodeBlock (lsbValue [memBit s.mem s.operands.srcAddr.toNat 1, memBit s.mem s.operands.srcAddr.toNat 2])
      ((s.operands.srcReader s.mem).skip 3) o = .error e) :
    decodeBlocks (fuel + 1) 0 (s.operands.srcReader s.mem) o = .error e := by
  have hr : (s.operands.srcReader s.mem).Holds
      [memBit s.mem s.operands.srcAddr.toNat 0, memBit s.mem s.operands.srcAddr.toNat 1, memBit s.mem s.operands.srcAddr.toNat 2] := by
    refine region_holds (fun k hk => ?_) (by simp; omega) le_rfl
    match k, hk with
    | 0, _ | 1, _ | 2, _ => rfl
  rw [decodeBlocks_header hr]
  exact (congrArg (· >>= _) he).trans rfl

theorem decodeBlock_stored (r : Reader) (o : Out) : decodeBlock 0 r o = storedDecode r o := by
  rw [decodeBlock, failIf_of_false _ (by decide), ok_bind, if_pos rfl]

end

/-- Settles O48: an empty source, the reserved type, and a stored block by its fields; a Huffman block by `decodeBlocks_error`. -/
theorem inflateRejectsAMalformedFirstBlock : Obligations.InflateRejectsAMalformedFirstBlock := by
  intro s r base n stored len nlen failed hok
  have hstored : ∀ e, 0 < n → stored → storedDecode ⟨s.mem.region base n, 8 * n, 3⟩ ⟨[], r.dstCap.toNat⟩ = .error e → failed e := by
    rintro e hn ⟨h1, h2⟩ he
    refine execInflateRaw_error hok fun fuel => decodeBlocks_type hn ?_
    rw [h1, h2]
    exact (decodeBlock_stored ..).trans he
  refine ⟨fun hn => ?_, fun hn h1 h2 => ?_, fun hn hst h5 => ?_, fun h5 hst hnlen => ?_, fun h5 hst hnlen hlen => ?_,
    fun h5 hst hnlen hlen hcap => ?_, fun ends bits e h hbits hlen hend => ?_⟩
  · refine execInflateRaw_error hok fun fuel => ?_
    rw [decodeBlocks, getBits_trunc (show 8 * n < 0 + 1 by omega) Nat.one_pos, error_bind]
  · refine execInflateRaw_error hok fun fuel => decodeBlocks_type hn ?_
    rw [h1, h2, show lsbValue [true, true] = 3 from rfl, decodeBlock, failIf_of_true _ rfl, error_bind]
  · exact hstored _ hn hst (storedDecode_short h5)
  · refine hstored _ (by omega) hst ?_
    rw [storedDecode_eq h5, failIf_of_true _ hnlen, error_bind]
  · refine hstored _ (by omega) hst ?_
    rw [storedDecode_eq h5, failIf_of_false _ (not_not.2 hnlen), ok_bind, failIf_of_true _ (by omega), error_bind]
  · refine hstored _ (by omega) hst ?_
    rw [storedDecode_eq h5, failIf_of_false _ (not_not.2 hnlen), ok_bind, failIf_of_false _ (by omega), ok_bind]
    exact copyStored_full (out := []) (by simp only; omega) (Nat.zero_le _) (by simpa using hcap)
  · refine execInflateRaw_error hok fun fuel => decodeBlocks_error h (region_holds hbits ((Nat.zero_add _).trans_le hlen) le_rfl) fun he => ?_
    exact (Nat.zero_add _).trans (hend he)

end Sys2Proof.Machine
end

section
/-! Token streams (30_encoding.md R109 to R113, 42_match_finder.md R190, R195): the codes of a pair give its length and offset back,
and replaying a buffer's literals and pairs rebuilds the buffer. -/

namespace Sys2Proof.Machine

/-! ## The largest index of a rising table -/

/-- The largest index whose base is at most `v`, where there is one (R111, R112). -/
theorem largestIndex_spec {bases : List Nat} {v : Nat} (hs : bases.Pairwise (· ≤ ·)) (hpos : 0 < bases.length)
    (h0 : bases.getD 0 0 ≤ v) :
    largestIndex bases v < bases.length ∧ bases.getD (largestIndex bases v) 0 ≤ v ∧
      (largestIndex bases v + 1 < bases.length → v < bases.getD (largestIndex bases v + 1) 0) := by
  induction bases with
  | nil => cases hpos
  | cons b bs ih =>
    rw [List.getD_cons_zero] at h0
    obtain ⟨hb, hs⟩ := List.pairwise_cons.1 hs
    have hfilter : (b :: bs).filter (· ≤ v) = b :: bs.filter (· ≤ v) := List.filter_cons_of_pos (by simpa using h0)
    rcases Nat.eq_zero_or_pos (bs.filter (· ≤ v)).length with hnil | hcons
    · have hall := List.filter_eq_nil_iff.1 (List.length_eq_zero_iff.1 hnil)
      have hindex : largestIndex (b :: bs) v = 0 := by rw [largestIndex, hfilter, List.length_cons, hnil]
      rw [hindex]
      refine ⟨hpos, by simpa using h0, fun hlt => ?_⟩
      have hbs : 0 < bs.length := Nat.lt_of_succ_lt_succ hlt
      rw [Nat.zero_add, List.getD_cons_succ, List.getD_eq_getElem _ _ hbs]
      simpa using hall _ (List.getElem_mem hbs)
    · obtain ⟨x, hx⟩ := List.exists_mem_of_length_pos hcons
      obtain ⟨hxbs, hxv⟩ := List.mem_filter.1 hx
      have hbs : 0 < bs.length := List.length_pos_of_mem hxbs
      have hhead : bs.getD 0 0 ≤ x := by
        obtain ⟨y, ys, rfl⟩ := List.exists_cons_of_length_pos hbs
        rcases List.mem_cons.1 hxbs with rfl | hxys
        · exact le_rfl
        · exact (List.pairwise_cons.1 hs).1 x hxys
      have hindex : largestIndex (b :: bs) v = largestIndex bs v + 1 := by
        rw [largestIndex, largestIndex, hfilter, List.length_cons]
        omega
      obtain ⟨h1, h2, h3⟩ := ih hs hbs (hhead.trans (by simpa using hxv))
      rw [hindex, List.length_cons]
      exact ⟨by omega, h2, fun hlt => h3 (by omega)⟩

/-- The code of a value in a rising table: the base is at most the value, and the extra value fits its field, where each base is
reached by the field before it and the last field reaches up to `top`. -/
theorem largestIndex_extra {bases extra : List Nat} {v top : Nat} (hs : bases.Pairwise (· ≤ ·)) (hpos : 0 < bases.length)
    (h0 : bases.getD 0 0 ≤ v) (htop : v < top)
    (hstep : ∀ i < bases.length, (bases ++ [top]).getD (i + 1) 0 ≤ bases.getD i 0 + 2 ^ extra.getD i 0) :
    largestIndex bases v < bases.length ∧ bases.getD (largestIndex bases v) 0 ≤ v ∧
      v - bases.getD (largestIndex bases v) 0 < 2 ^ extra.getD (largestIndex bases v) 0 := by
  obtain ⟨hi, hle, hnext⟩ := largestIndex_spec hs hpos h0
  have hbound : v < (bases ++ [top]).getD (largestIndex bases v + 1) 0 := by
    rcases Nat.lt_or_ge (largestIndex bases v + 1) bases.length with h | h
    · rw [List.getD_append _ _ _ _ h]
      exact hnext h
    · rw [List.getD_append_right _ _ _ _ h, show largestIndex bases v + 1 - bases.length = 0 by omega]
      exact htop
  have := hstep _ hi
  exact ⟨hi, hle, by omega⟩

/-- The length code of a length (R111). -/
theorem lenCode_spec {n : Nat} (h3 : 3 ≤ n) (h : n ≤ 258) :
    largestIndex lenBase n ≤ 28 ∧ lenBase.getD (largestIndex lenBase n) 0 ≤ n ∧
      n - lenBase.getD (largestIndex lenBase n) 0 < 2 ^ lenExtra.getD (largestIndex lenBase n) 0 := by
  obtain ⟨hi, hle, hlt⟩ := largestIndex_extra (bases := lenBase) (extra := lenExtra) (top := 259) (by decide) (by decide) h3
    (Nat.lt_succ_of_le h) (by decide)
  exact ⟨Nat.le_of_lt_succ hi, hle, hlt⟩

/-- The distance code of a distance (R112). -/
theorem distCode_spec {n : Nat} (h1 : 1 ≤ n) (h : n ≤ 32768) :
    largestIndex distBase n ≤ 29 ∧ distBase.getD (largestIndex distBase n) 0 ≤ n ∧
      n - distBase.getD (largestIndex distBase n) 0 < 2 ^ distExtra.getD (largestIndex distBase n) 0 := by
  obtain ⟨hi, hle, hlt⟩ := largestIndex_extra (bases := distBase) (extra := distExtra) (top := 32769) (by decide) (by decide) h1
    (Nat.lt_succ_of_le h) (by decide)
  exact ⟨Nat.le_of_lt_succ hi, hle, hlt⟩

/-! ## Replaying -/

/-- A replay of two parts is the replay of the second on the output of the first. -/
theorem replayTokens_append {maxDist : Nat} {as : List Nat} {out mid : List Byte} (h : replayTokens maxDist as out = some mid)
    (bs : List Nat) : replayTokens maxDist (as ++ bs) out = replayTokens maxDist bs mid := by
  fun_induction replayTokens maxDist as out with
  | case1 out =>
    cases h
    rfl
  | case2 c rest out hc ih =>
    rw [List.cons_append, replayTokens.eq_def]
    simp only [if_pos hc]
    exact ih h
  | case3 c out hc el d ed rest dist hok ih =>
    rw [List.cons_append, List.cons_append, List.cons_append, List.cons_append, replayTokens.eq_def]
    simp only [if_neg hc]
    rw [if_pos hok]
    exact ih h
  | case4 | case5 => cases h

theorem replayTokens_literal (maxDist : Nat) (b : Byte) (out : List Byte) :
    replayTokens maxDist [b.toNat] out = some (out ++ [b]) := by
  rw [replayTokens.eq_def]
  simp only [if_pos b.isLt, replayTokens, BitVec.ofNat_toNat, BitVec.setWidth_eq]

/-- The replay of one pair (R195): the extra values of `pairTokens` give its length and offset back. -/
theorem replayTokens_pair {maxDist length offset : Nat} {out : List Byte} (h3 : 3 ≤ length) (hlen : length ≤ 258)
    (h1 : 1 ≤ offset) (hoff : offset ≤ 32768) (hmax : offset ≤ maxDist) (hout : offset ≤ out.length) :
    replayTokens maxDist (pairTokens length offset) out = some (replayCopy offset length out) := by
  obtain ⟨hi, hle, hlt⟩ := lenCode_spec h3 hlen
  obtain ⟨hd, hdle, hdlt⟩ := distCode_spec h1 hoff
  rw [pairTokens, replayTokens.eq_def]
  simp only [if_neg (show ¬ 257 + largestIndex lenBase length < 256 by omega), Nat.add_sub_cancel_left, Nat.add_sub_of_le hle,
    Nat.add_sub_of_le hdle]
  rw [if_pos ⟨by omega, by omega, hd, hlt, hdlt, hmax, hout⟩]
  rfl

/-- Every entry of a stream that replays is a 16-bit value (R113). -/
theorem replayTokens_lt {maxDist : Nat} {toks : List Nat} {out out' : List Byte} (h : replayTokens maxDist toks out = some out') :
    ∀ v ∈ toks, v < 2 ^ 16 := by
  have hlen : ∀ i ≤ 28, lenExtra.getD i 0 ≤ 5 := by decide
  have hdist : ∀ d ≤ 29, distExtra.getD d 0 ≤ 13 := by decide
  fun_induction replayTokens maxDist toks out with
  | case1 => simp
  | case2 c rest out hc ih => exact List.forall_mem_cons.2 ⟨by omega, ih h⟩
  | case3 c out hc el d ed rest dist hok ih =>
    obtain ⟨hc1, hc2, hd, hel, hed, -, -⟩ := hok
    have hel' := hel.trans_le (Nat.pow_le_pow_right Nat.two_pos (hlen (c - 257) (by omega)))
    have hed' := hed.trans_le (Nat.pow_le_pow_right Nat.two_pos (hdist d hd))
    simp only [List.forall_mem_cons]
    exact ⟨by omega, by omega, by omega, by omega, ih h⟩
  | case4 | case5 => cases h

/-! ## Replaying a buffer -/

/-- The first `n` bytes of a buffer. -/
def Buf.firstBytes (b : Buf) (n : Nat) : List Byte := (List.range n).map (Buf.byte b)

section
variable (b : Buf)

@[simp] theorem Buf.firstBytes_length (n : Nat) : (Buf.firstBytes b n).length = n := by simp [Buf.firstBytes]

theorem Buf.firstBytes_succ (n : Nat) : Buf.firstBytes b (n + 1) = Buf.firstBytes b n ++ [Buf.byte b n] := by
  simp [Buf.firstBytes, List.range_succ]

theorem Buf.firstBytes_getD {n k : Nat} (h : k < n) : (Buf.firstBytes b n).getD k 0 = Buf.byte b k := by
  rw [List.getD_eq_getElem _ _ (by simpa using h)]
  simp [Buf.firstBytes]

/-- A copy from `off` back rebuilds bytes that repeat those `off` before them. -/
theorem Buf.replayCopy_firstBytes {off : Nat} (h1 : 1 ≤ off) (n : Nat) {p : Nat} (hp : off ≤ p)
    (hrep : ∀ i < n, Buf.byte b (p - off + i) = Buf.byte b (p + i)) :
    replayCopy off n (Buf.firstBytes b p) = Buf.firstBytes b (p + n) := by
  induction n generalizing p with
  | zero => rfl
  | succ n ih =>
    rw [replayCopy, Buf.firstBytes_length, Buf.firstBytes_getD _ (by omega),
      show Buf.byte b (p - off) = Buf.byte b p from hrep 0 n.succ_pos, ← Buf.firstBytes_succ, ih (by omega) fun i hi => ?_]
    · rw [Nat.add_right_comm, Nat.add_assoc]
    · have := hrep (i + 1) (by omega)
      rwa [show p - off + (i + 1) = p + 1 - off + i by omega, show p + (i + 1) = p + 1 + i by omega] at this

end

end Sys2Proof.Machine
end

section
/-! The match finder (42_match_finder.md R180 to R191), for every value of its parameters: what the tables hold after an insertion,
that every match found repeats earlier bytes inside the window, and that the tokens emitted replay to the block. -/

namespace Sys2Proof.Machine

/-! ## What the tables hold -/

/-- A position before `p` lies in the slot `s` of a window of `w` slots. -/
def SlotSeen (w p s : Nat) : Prop := ∃ q < p, q % w = s

theorem SlotSeen.mono {w p p' s : Nat} (h : SlotSeen w p s) (hp : p ≤ p') : SlotSeen w p' s :=
  h.imp fun _ hq => ⟨hq.1.trans_le hp, hq.2⟩

/-- The tables once the positions before `p` are inserted (R183): every slot they name was inserted, and the last position of a slot
has at least the zeros the slot counts. -/
structure MatchTables.Sound (data : Buf) (w : Nat) (t : MatchTables) (p : Nat) : Prop where
  head : ∀ k s, t.head.get k = some s → SlotSeen w p s
  headz : ∀ k s, t.headz.get k = some s → SlotSeen w p s
  chain : ∀ k s, t.chain.get k = some s → SlotSeen w p s
  chainz : ∀ k s, t.chainz.get k = some s → SlotSeen w p s
  zeros : ∀ q < p, p ≤ q + w → ∀ k < t.zerosAt (q % w), Buf.byte data (q + k) = 0

/-- The tables are ready for the position `pos`: the positions before it are inserted, and possibly `pos` itself (R188). -/
def MatchTables.ReadyAt (data : Buf) (w : Nat) (t : MatchTables) (pos : Nat) : Prop :=
  ∃ p, pos ≤ p ∧ p ≤ pos + 1 ∧ t.Sound data w p

theorem MatchTables.readyAt_init (data : Buf) (w : Nat) : MatchTables.ReadyAt data w .init 0 :=
  ⟨0, le_rfl, Nat.zero_le _, by constructor <;> simp [MatchTables.init]⟩

section
variable {data : Buf} {w p : Nat} {t : MatchTables}

/-- Removing heads (R188) names no new slot. -/
theorem MatchTables.Sound.dropHeads (h : t.Sound data w p) (hv nz : Nat) :
    MatchTables.Sound data w { t with head := t.head.set hv none, headz := t.headz.set nz none } p := by
  refine ⟨fun k s hs => ?_, fun k s hs => ?_, h.chain, h.chainz, h.zeros⟩
  · rw [Tab.get_set] at hs
    split at hs
    · cases hs
    · exact h.head k s hs
  · rw [Tab.get_set] at hs
    split at hs
    · cases hs
    · exact h.headz k s hs

/-- A link leads from an inserted slot to an inserted slot: an unset one links to itself (R180). -/
theorem MatchTables.Sound.chainAt_seen (h : t.Sound data w p) {s : Nat} (hs : SlotSeen w p s) : SlotSeen w p (t.chainAt s) := by
  rw [MatchTables.chainAt]
  cases hc : t.chain.get s with
  | none => exact hs
  | some x => exact h.chain s x hc

theorem MatchTables.Sound.chainzAt_seen (h : t.Sound data w p) {s : Nat} (hs : SlotSeen w p s) : SlotSeen w p (t.chainzAt s) := by
  rw [MatchTables.chainzAt]
  cases hc : t.chainz.get s with
  | none => exact hs
  | some x => exact h.chainz s x hc

/-- A table of inserted slots that gets one more names inserted slots. -/
theorem Tab.seen_set {tab : Tab Nat} {p' j s k x : Nat} (h : ∀ k s, tab.get k = some s → SlotSeen w p s) (hp : p ≤ p')
    (hs : SlotSeen w p' s) (hx : (tab.set j (some s)).get k = some x) : SlotSeen w p' x := by
  rw [Tab.get_set] at hx
  split at hx
  · cases hx
    exact hs
  · exact (h k x hx).mono hp

/-- A link that `Insert` sets leads to a head. -/
theorem Tab.seen_link {heads links : Tab Nat} {p' i j k x : Nat} (hh : ∀ k s, heads.get k = some s → SlotSeen w p s)
    (hl : ∀ k s, links.get k = some s → SlotSeen w p s) (hp : p ≤ p')
    (hx : (match heads.get i with | some h => links.set j (some h) | none => links).get k = some x) : SlotSeen w p' x := by
  split at hx
  · next s hs => exact Tab.seen_set hl hp ((hh i s hs).mono hp) hx
  · exact (hl k x hx).mono hp

end

/-- Two positions of one slot less than a window apart are the same. -/
theorem eq_of_mod_eq {w p q : Nat} (h : p % w = q % w) (hpq : p < q + w) (hqp : q < p + w) : p = q := by
  rcases Nat.le_total p q with hle | hle
  · have := Nat.eq_zero_of_dvd_of_lt ((Nat.modEq_iff_dvd' hle).1 h) (by omega)
    omega
  · have := Nat.eq_zero_of_dvd_of_lt ((Nat.modEq_iff_dvd' hle).1 h.symm) (by omega)
    omega

section
variable (c : Finder)

theorem Finder.at_eq_iff {j k : Nat} : c.at j = c.at k ↔ Buf.byte c.data j = Buf.byte c.data k := BitVec.toNat_inj

theorem Finder.at_eq_zero_iff {k : Nat} : c.at k = 0 ↔ Buf.byte c.data k = 0 := BitVec.toNat_inj (y := 0#8)

/-! ## Zero runs and insertion -/

theorem Finder.zerosFrom_le (fuel pos : Nat) : c.zerosFrom fuel pos ≤ fuel := by
  induction fuel generalizing pos with
  | zero => exact le_rfl
  | succ fuel ih =>
    rw [Finder.zerosFrom]
    split
    · have := ih (pos + 1)
      omega
    · exact Nat.zero_le _

theorem Finder.zerosFrom_zero (fuel pos : Nat) : ∀ k < c.zerosFrom fuel pos, Buf.byte c.data (pos + k) = 0 := by
  induction fuel generalizing pos with
  | zero => exact fun k hk => absurd hk (Nat.not_lt_zero k)
  | succ fuel ih =>
    rw [Finder.zerosFrom]
    split
    · next h0 =>
      rintro (_ | k) hk
      · exact c.at_eq_zero_iff.1 h0
      · rw [← ih (pos + 1) k (by omega), Nat.add_right_comm, Nat.add_assoc]
    · exact fun k hk => absurd hk (Nat.not_lt_zero k)

theorem Finder.zeroRun_le (pos : Nat) : c.zeroRun pos ≤ c.lastPos pos - pos := c.zerosFrom_le _ _

theorem Finder.zeroRun_zero (pos : Nat) : ∀ k < c.zeroRun pos, Buf.byte c.data (pos + k) = 0 := c.zerosFrom_zero _ _

section
variable {c} {t : MatchTables} {p q : Nat}

/-- `Insert(q)` where `q` is the next position, or one still in the window that is inserted again (R188). -/
theorem MatchTables.Sound.insert (h : t.Sound c.data c.window p) (hq : q ≤ p) (hp : p ≤ q + c.window) (hw : 1 ≤ c.window) :
    (c.insert t q).Sound c.data c.window (max p (q + 1)) := by
  have hle : p ≤ max p (q + 1) := le_max_left ..
  have hslot : SlotSeen c.window (max p (q + 1)) (c.slot q) := ⟨q, by omega, rfl⟩
  refine ⟨fun k s => Tab.seen_set h.head hle hslot, fun k s => Tab.seen_set h.headz hle hslot,
    fun k s => Tab.seen_link h.head h.chain hle, fun k s => Tab.seen_link h.headz h.chainz hle, fun x hx hxw k hk => ?_⟩
  rw [MatchTables.zerosAt, Finder.insert, Tab.get_set] at hk
  split at hk
  · next hs =>
    obtain rfl : x = q := eq_of_mod_eq hs (by omega) (by omega)
    exact c.zeroRun_zero x k hk
  · next hs =>
    have hxq : x ≠ q := fun hxq => hs (by rw [hxq]; rfl)
    exact h.zeros x (by omega) (by omega) k hk

/-- The insertion of the rest of a pair's bytes (R191). -/
theorem MatchTables.Sound.insertMany (hw : 1 ≤ c.window) (n : Nat) (h : t.Sound c.data c.window p) (hq : q ≤ p) (hp : p ≤ q + 1) :
    (c.insertMany n t q).Sound c.data c.window (max p (q + n)) := by
  induction n generalizing t p q with
  | zero => rwa [Finder.insertMany, Nat.add_zero, max_eq_left hq]
  | succ n ih =>
    have hi := ih (h.insert hq (by omega) hw) (q := q + 1) (by omega) (by omega)
    rwa [show max (max p (q + 1)) (q + 1 + n) = max p (q + (n + 1)) by omega] at hi

end

/-! ## Matches -/

/-- A match `(length, offset)` at `pos` (R184): it reaches back inside the window and the bytes before `pos`, ends inside the block,
and repeats the bytes `offset` back. -/
structure Finder.MatchAt (pos : Nat) (m : Nat × Nat) : Prop where
  one_le : 1 ≤ m.2
  le_pos : m.2 ≤ pos
  lt_window : m.2 < c.window
  le_maxMatch : m.1 ≤ 258
  le_stop : pos + m.1 ≤ c.stop
  repeats : ∀ i < m.1, Buf.byte c.data (pos - m.2 + i) = Buf.byte c.data (pos + i)

/-- The answer of a match search at `pos`: of length 0 for no match (R184), or a match. -/
def Finder.Found (pos : Nat) (m : Nat × Nat) : Prop := 0 < m.1 → c.MatchAt pos m

theorem Finder.found_of_zero (pos off : Nat) : c.Found pos (0, off) := fun h => absurd h (Nat.lt_irrefl 0)

/-- The comparison loop advances over equal bytes, at most to its bound. -/
theorem Finder.extend_spec (fuel f b : Nat) : f ≤ c.extend fuel f b ∧ c.extend fuel f b ≤ f + fuel ∧
    ∀ i < c.extend fuel f b - f, Buf.byte c.data (b + i) = Buf.byte c.data (f + i) := by
  induction fuel generalizing f b with
  | zero => exact ⟨le_rfl, le_rfl, fun i hi => absurd hi (by rw [Finder.extend]; omega)⟩
  | succ fuel ih =>
    rw [Finder.extend]
    split
    · next heq =>
      obtain ⟨hle, hbound, hrep⟩ := ih (f + 1) (b + 1)
      refine ⟨by omega, by omega, ?_⟩
      rintro (_ | i) hi
      · exact c.at_eq_iff.1 heq
      · have := hrep i (by omega)
        rwa [Nat.add_right_comm, Nat.add_assoc, Nat.add_right_comm, Nat.add_assoc f] at this
    · exact ⟨le_rfl, by omega, fun i hi => absurd hi (by omega)⟩

/-- The circular distance to an inserted slot leads to the last position inserted there. -/
theorem Finder.distance_spec {pos s : Nat} (hs : SlotSeen c.window (pos + 1) s) (hw : 1 ≤ c.window) :
    c.distance (c.slot pos) s ≤ pos ∧ c.distance (c.slot pos) s < c.window ∧ (pos - c.distance (c.slot pos) s) % c.window = s := by
  obtain ⟨q, hq, rfl⟩ := hs
  have hpos := Nat.div_add_mod pos c.window
  have hqdiv := Nat.div_add_mod q c.window
  have hposlt := Nat.mod_lt pos hw
  have hqlt := Nat.mod_lt q hw
  rw [Finder.distance, Finder.slot]
  split
  · next h =>
    refine ⟨by omega, by omega, ?_⟩
    rw [show pos - (pos % c.window - q % c.window) = c.window * (pos / c.window) + q % c.window by omega, Nat.mul_add_mod,
      Nat.mod_mod]
  · next h =>
    have hdiv : q / c.window < pos / c.window := by
      by_contra hge
      have := Nat.mul_le_mul_left c.window (Nat.not_lt.1 hge)
      omega
    obtain ⟨d, hd⟩ := Nat.exists_eq_add_one.2 (Nat.zero_lt_of_lt hdiv)
    rw [hd, Nat.mul_succ] at hpos
    refine ⟨by omega, by omega, ?_⟩
    rw [show pos - (pos % c.window + c.window - q % c.window) = c.window * d + q % c.window by omega, Nat.mul_add_mod, Nat.mod_mod]

section
variable {c} {t : MatchTables} {pos : Nat} (ht : t.Sound c.data c.window (pos + 1)) (hw : 1 ≤ c.window) (hpos : pos < c.stop)
include ht hw hpos

/-- A candidate slot other than the position's own gives a match: the zeros skipped are zeros at both places (R184). -/
theorem Finder.candidate_matchAt {s : Nat} (hs : SlotSeen c.window (pos + 1) s) (hoff : 0 < c.distance (c.slot pos) s) :
    c.MatchAt pos (c.candidate t pos (c.zeroRun pos) s (c.distance (c.slot pos) s), c.distance (c.slot pos) s) := by
  obtain ⟨hle, hlt, hmod⟩ := c.distance_spec hs hw
  rw [Finder.candidate]
  generalize c.distance (c.slot pos) s = off at *
  generalize hskip : (if 3 ≤ c.zeroRun pos then min (t.zerosAt s) (c.zeroRun pos) else 0) = skip
  have hskipZ : skip ≤ t.zerosAt s ∧ skip ≤ c.zeroRun pos := by
    subst hskip
    split <;> omega
  have hrun := c.zeroRun_le pos
  have hlast : c.lastPos pos ≤ c.stop ∧ c.lastPos pos ≤ pos + 258 ∧ pos < c.lastPos pos := by
    simp only [Finder.lastPos, Config.maxMatch]
    omega
  obtain ⟨hext, hextle, hrep⟩ := c.extend_spec (c.lastPos pos - (pos + skip)) (pos + skip) (pos - off + skip)
  generalize c.extend (c.lastPos pos - (pos + skip)) (pos + skip) (pos - off + skip) = stop at *
  refine ⟨hoff, hle, hlt, by simp only; omega, by simp only; omega, fun i hi => ?_⟩
  simp only at hi ⊢
  rcases Nat.lt_or_ge i skip with hskipped | hcompared
  · rw [ht.zeros (pos - off) (by omega) (by omega) i (by rw [hmod]; omega), c.zeroRun_zero pos i (by omega)]
  · have := hrep (i - skip) (by omega)
    rwa [Nat.add_assoc, Nat.add_assoc, Nat.add_sub_cancel' hcompared] at this

/-- The chain walk keeps the best match so far, or takes a better one, whichever exit it takes (R184, R185). -/
theorem Finder.walk_found (hv nodes : Nat) {s prevOff : Nat} {best : Nat × Nat} (hs : SlotSeen c.window (pos + 1) s)
    (hbest : c.Found pos best) : c.Found pos (c.walk t pos (c.slot pos) hv (c.zeroRun pos) nodes s prevOff best) := by
  induction nodes generalizing s prevOff best with
  | zero => exact hbest
  | succ nodes ih =>
    rw [Finder.walk]
    extract_lets len better best' nextz next
    have hlen : c.Found pos (len, c.distance (c.slot pos) s) := by
      simp only [len]
      split
      · exact fun _ => c.candidate_matchAt ht hw hpos hs ‹_›
      · exact c.found_of_zero _ _
    have hbest' : c.Found pos best' := by
      simp only [best']
      split
      · exact hlen
      · exact hbest
    split
    · exact hbest
    split
    · exact hbest'
    split
    · exact hbest'
    split
    · split
      · exact hbest'
      · exact ih (ht.chainzAt_seen hs) hbest'
    · split
      · exact hbest'
      · exact ih (ht.chainAt_seen hs) hbest'

theorem Finder.findMatch_found : c.Found pos (c.findMatch t pos) :=
  c.walk_found ht hw hpos _ _ (ht.chainAt_seen ⟨pos, pos.lt_succ_self, rfl⟩) (c.found_of_zero _ _)

end

/-! ## Emitting tokens -/

/-- The tokens `rev`, last one first, take the output from position `start` to position `pos`, and are at most 4 for 3 bytes. -/
structure Finder.Emitted (start : Nat) (rev : List Nat) (pos : Nat) : Prop where
  start_le : start ≤ pos
  replay : replayTokens (c.window - 1) rev.reverse (Buf.firstBytes c.data start) = some (Buf.firstBytes c.data pos)
  count : 3 * rev.length ≤ 4 * (pos - start)

theorem Finder.emitted_nil (start : Nat) : c.Emitted start [] start := ⟨le_rfl, rfl, Nat.zero_le _⟩

section
variable {c} {start pos : Nat} {rev : List Nat} (h : c.Emitted start rev pos)
include h

theorem Finder.Emitted.literal : c.Emitted start (c.at pos :: rev) (pos + 1) := by
  obtain ⟨hle, hreplay, hcount⟩ := h
  refine ⟨by omega, ?_, by simp only [List.length_cons]; omega⟩
  rw [List.reverse_cons, replayTokens_append hreplay, Finder.at, replayTokens_literal, Buf.firstBytes_succ]

/-- A match of 3 bytes or more is what its pair replays to (R190, R195). -/
theorem Finder.Emitted.pair {m : Nat × Nat} (hm : c.MatchAt pos m) (h3 : 3 ≤ m.1) (hw : c.window ≤ 32768) :
    c.Emitted start ((pairTokens m.1 m.2).reverse ++ rev) (pos + m.1) := by
  obtain ⟨hle, hreplay, hcount⟩ := h
  obtain ⟨hone, hpos, hwin, hmax, -, hrep⟩ := hm
  have hfour : (pairTokens m.1 m.2).length = 4 := rfl
  refine ⟨by omega, ?_, by rw [List.length_append, List.length_reverse, hfour]; omega⟩
  rw [List.reverse_append, List.reverse_reverse, replayTokens_append hreplay,
    replayTokens_pair h3 hmax hone (by omega) (by omega) (by simpa using hpos), Buf.replayCopy_firstBytes _ hone _ hpos hrep]

end

/-! ## The loop -/

/-- The position up to which the tokens of the loop reach: a deferred match is the position before (R188). -/
def TokLoop.donePos (st : TokLoop) : Nat := if st.deferred.isSome then st.pos - 1 else st.pos

/-- The passes the loop of R187 still needs: two for a position, and one for a deferred match. -/
def Finder.passesLeft (st : TokLoop) : Nat := 2 * (c.stop - st.pos) + if st.deferred.isSome then 1 else 0

/-- What every pass keeps: the tables are ready for `pos`; the tokens replay up to `donePos`;
and a deferred match is one of 3 bytes or more. -/
structure Finder.LoopInv (start : Nat) (st : TokLoop) : Prop where
  tables : st.tables.ReadyAt c.data c.window st.pos
  pos_le : st.pos ≤ c.stop
  emitted : c.Emitted start st.rev st.donePos
  deferred : ∀ m, st.deferred = some m → c.lazyMatching = true ∧ 1 ≤ st.pos ∧ 3 ≤ m.1 ∧ c.MatchAt (st.pos - 1) m

/-- At the end of the block no match is deferred: one would reach past the end. -/
theorem Finder.LoopInv.at_stop {c : Finder} {start : Nat} {st : TokLoop} (h : c.LoopInv start st) (hpos : c.stop ≤ st.pos) :
    st.tables.ReadyAt c.data c.window c.stop ∧ c.Emitted start st.rev c.stop := by
  obtain ⟨htables, hle, he, hd⟩ := h
  have hstop : st.pos = c.stop := Nat.le_antisymm hle hpos
  have hdone : st.donePos = c.stop := by
    cases hdef : st.deferred with
    | none => simp [TokLoop.donePos, hdef, hstop]
    | some m =>
      obtain ⟨-, hone, h3, hm⟩ := hd m hdef
      have := hm.le_stop
      omega
  rw [hstop] at htables
  rw [hdone] at he
  exact ⟨htables, he⟩

/-- A pass that leaves nothing deferred and emits a token is one pass less. -/
theorem Finder.passesLeft_lt {st st' : TokLoop} (hpos : st.pos < c.stop) (hnone : st'.deferred = none)
    (hmove : st.donePos < st'.pos) : c.passesLeft st' < c.passesLeft st := by
  simp only [Finder.passesLeft, hnone, TokLoop.donePos] at hmove ⊢
  cases hdef : st.deferred with
  | none =>
    simp [hdef] at hmove ⊢
    omega
  | some m =>
    simp [hdef] at hmove ⊢
    omega

/-! A pass by whether matching is lazy and a match is deferred (R187, R188). -/

theorem Finder.pass_eager (st : TokLoop) (h : c.lazyMatching = false) :
    let t := c.insert st.tables st.pos
    let m := c.findMatch t st.pos
    c.pass st = c.emit t st.pos m.1 m.2 st.rev := by
  simp only [Finder.pass, h]

theorem Finder.pass_undeferred {st : TokLoop} (h : c.lazyMatching = true) (hd : st.deferred = none) :
    let t := c.insert st.tables st.pos
    let m := c.findMatch t st.pos
    c.pass st = if 3 ≤ m.1 ∧ m.1 < c.par.maxLazy c.window then ⟨t, st.pos + 1, some m, st.rev⟩
      else c.emit t st.pos m.1 m.2 st.rev := by
  simp only [Finder.pass, h, hd]

theorem Finder.pass_deferred {st : TokLoop} {d : Nat × Nat} (h : c.lazyMatching = true) (hd : st.deferred = some d) :
    let t := c.insert st.tables st.pos
    let m := c.findMatch t st.pos
    c.pass st = if d.1 + c.par.lazyGain < m.1 then c.emit t st.pos m.1 m.2 (c.at (st.pos - 1) :: st.rev)
      else c.emit { t with head := t.head.set (c.hash st.pos) none, headz := t.headz.set (c.zeroRun st.pos) none } (st.pos - 1)
        d.1 d.2 st.rev := by
  simp only [Finder.pass, h, hd]

section
variable {c} {start : Nat} (hw1 : 1 ≤ c.window) (hw : c.window ≤ 32768)
include hw1 hw

/-- The end of the loop body, at the position just inserted or at the one before it: it moves on by at least one byte. -/
theorem Finder.emit_inv {t : MatchTables} {p pos length offset : Nat} {rev : List Nat} (ht : t.Sound c.data c.window p)
    (hp1 : pos + 1 ≤ p) (hp2 : p ≤ pos + 2) (hpos : pos < c.stop) (he : c.Emitted start rev pos)
    (hm : c.Found pos (length, offset)) :
    c.LoopInv start (c.emit t pos length offset rev) ∧ pos < (c.emit t pos length offset rev).pos ∧
      (c.emit t pos length offset rev).deferred = none := by
  rw [Finder.emit]
  split
  · exact ⟨⟨⟨p, hp1, hp2, ht⟩, hpos, he.literal, fun m hd => nomatch hd⟩, Nat.lt_succ_self pos, rfl⟩
  · next hlit =>
    have h3 : 3 ≤ length := Nat.not_lt.1 fun hlt => hlit (by simp [Finder.emitAsLiteral, Config.minPair, hlt])
    have hmatch := hm (Nat.lt_of_lt_of_le (by decide) h3)
    have hins := ht.insertMany hw1 (length - 1) hp1 hp2
    rw [show max p (pos + 1 + (length - 1)) = pos + length by omega] at hins
    exact ⟨⟨⟨_, le_rfl, Nat.le_succ _, hins⟩, hmatch.le_stop, he.pair hmatch h3 hw, fun m hd => nomatch hd⟩,
      by simp only; omega, rfl⟩

/-- One pass of the loop keeps the invariant and leaves fewer passes to make. -/
theorem Finder.pass_inv {st : TokLoop} (h : c.LoopInv start st) (hpos : st.pos < c.stop) :
    c.LoopInv start (c.pass st) ∧ c.passesLeft (c.pass st) < c.passesLeft st := by
  obtain ⟨⟨p, hp1, hp2, ht⟩, -, he, hd⟩ := h
  have hins := ht.insert hp1 (by omega) hw1
  rw [max_eq_right hp2] at hins
  have hfound := c.findMatch_found hins hw1 hpos
  cases hdef : st.deferred with
  | none =>
    have hdone : st.donePos = st.pos := by simp [TokLoop.donePos, hdef]
    rw [hdone] at he
    have hemit := Finder.emit_inv hw1 hw hins le_rfl (Nat.le_succ _) hpos he hfound
    cases hlazy : c.lazyMatching with
    | false =>
      rw [c.pass_eager st hlazy]
      exact ⟨hemit.1, c.passesLeft_lt hpos hemit.2.2 (hdone.trans_lt hemit.2.1)⟩
    | true =>
      rw [c.pass_undeferred hlazy hdef]
      split
      · next hlong =>
        refine ⟨⟨⟨_, le_rfl, Nat.le_succ _, hins⟩, hpos, he, ?_⟩, ?_⟩
        · rintro _ ⟨⟩
          exact ⟨hlazy, Nat.succ_pos _, hlong.1, hfound (Nat.lt_of_lt_of_le (by decide) hlong.1)⟩
        · simp only [Finder.passesLeft, hdef, Option.isSome_some, Option.isSome_none, if_true, Bool.false_eq_true, if_false]
          omega
      · exact ⟨hemit.1, c.passesLeft_lt hpos hemit.2.2 (hdone.trans_lt hemit.2.1)⟩
  | some d =>
    obtain ⟨hlazy, hone, -, hmatch⟩ := hd d hdef
    have hdone : st.donePos = st.pos - 1 := by simp [TokLoop.donePos, hdef]
    rw [hdone] at he
    rw [c.pass_deferred hlazy hdef]
    split
    · have hlit := he.literal
      rw [Nat.sub_add_cancel hone] at hlit
      obtain ⟨hinv, hmove, hnone⟩ := Finder.emit_inv hw1 hw hins le_rfl (Nat.le_succ _) hpos hlit hfound
      exact ⟨hinv, c.passesLeft_lt hpos hnone (hdone.trans_lt ((Nat.sub_le ..).trans_lt hmove))⟩
    · have hdrop := hins.dropHeads (c.hash st.pos) (c.zeroRun st.pos)
      obtain ⟨hinv, hmove, hnone⟩ := Finder.emit_inv hw1 hw (pos := st.pos - 1) hdrop (by omega) (by omega) (by omega) he
        fun _ => hmatch
      exact ⟨hinv, c.passesLeft_lt hpos hnone (hdone.trans_lt hmove)⟩

/-- The loop ends at the end of the block, with nothing deferred (R187, log 9). -/
theorem Finder.loop_spec (fuel : Nat) {st : TokLoop} (h : c.LoopInv start st) (hfuel : c.passesLeft st ≤ fuel) :
    (c.loop fuel st).tables.ReadyAt c.data c.window c.stop ∧
      c.Emitted start (c.loop fuel st).rev c.stop := by
  induction fuel generalizing st with
  | zero =>
    rw [Finder.loop]
    exact h.at_stop (by simp only [Finder.passesLeft] at hfuel; omega)
  | succ fuel ih =>
    rw [Finder.loop]
    split
    · next hpos =>
      obtain ⟨hinv, hless⟩ := Finder.pass_inv hw1 hw h hpos
      exact ih hinv (by omega)
    · next hpos => exact h.at_stop (Nat.not_lt.1 hpos)

/-- The tokens of a block (R187) replay to it after the bytes before it, and its tables serve the next block. -/
theorem Finder.tokenize_spec {t : MatchTables} (ht : t.ReadyAt c.data c.window start) (hle : start ≤ c.stop) :
    (c.tokenize t start).2.ReadyAt c.data c.window c.stop ∧
      replayTokens (c.window - 1) (c.tokenize t start).1 (Buf.firstBytes c.data start) = some (Buf.firstBytes c.data c.stop) ∧
      3 * (c.tokenize t start).1.length ≤ 4 * (c.stop - start) := by
  have hinv : c.LoopInv start ⟨t, start, none, []⟩ := ⟨ht, hle, c.emitted_nil start, fun m hd => nomatch hd⟩
  obtain ⟨htables, he⟩ := Finder.loop_spec hw1 hw (2 * (c.stop - start)) hinv le_rfl
  exact ⟨htables, he.replay, by simpa [Finder.tokenize] using he.count⟩

end

end

end Sys2Proof.Machine
end

section
/-! `LZ77.TOKENIZE` (42_match_finder.md R192): the token stream of a whole input, and the stream as 16-bit values in memory. -/

namespace Sys2Proof.Machine

/-! ## The match finder reads a buffer byte by byte -/

section
variable (c : Finder) {b : Buf} (h : ∀ k, Buf.byte b k = Buf.byte c.data k)
include h

theorem Finder.at_congr (k : Nat) : Finder.at { c with data := b } k = c.at k := congrArg BitVec.toNat (h k)

theorem Finder.hash_congr (pos : Nat) : Finder.hash { c with data := b } pos = c.hash pos := by
  simp only [Finder.hash, funext (c.at_congr h)]

theorem Finder.zeroRun_congr (pos : Nat) : Finder.zeroRun { c with data := b } pos = c.zeroRun pos := by
  have hfrom : ∀ fuel pos, Finder.zerosFrom { c with data := b } fuel pos = c.zerosFrom fuel pos := by
    intro fuel
    induction fuel with
    | zero => exact fun _ => rfl
    | succ fuel ih => exact fun pos => by simp only [Finder.zerosFrom, c.at_congr h, ih]
  exact hfrom _ pos

theorem Finder.insert_congr (t : MatchTables) (pos : Nat) : Finder.insert { c with data := b } t pos = c.insert t pos := by
  simp only [Finder.insert, c.hash_congr h, c.zeroRun_congr h, Finder.slot]

theorem Finder.insertMany_congr (n : Nat) (t : MatchTables) (pos : Nat) :
    Finder.insertMany { c with data := b } n t pos = c.insertMany n t pos := by
  induction n generalizing t pos with
  | zero => rfl
  | succ n ih => simp only [Finder.insertMany, c.insert_congr h, ih]

theorem Finder.candidate_congr (t : MatchTables) (pos nz s off : Nat) :
    Finder.candidate { c with data := b } t pos nz s off = c.candidate t pos nz s off := by
  have hextend : ∀ fuel f i, Finder.extend { c with data := b } fuel f i = c.extend fuel f i := by
    intro fuel
    induction fuel with
    | zero => exact fun _ _ => rfl
    | succ fuel ih => exact fun f i => by simp only [Finder.extend, c.at_congr h, ih]
  simp only [Finder.candidate, hextend, Finder.lastPos]

theorem Finder.findMatch_congr (t : MatchTables) (pos : Nat) :
    Finder.findMatch { c with data := b } t pos = c.findMatch t pos := by
  have hwalk : ∀ wpos hv nz nodes s prevOff best, Finder.walk { c with data := b } t pos wpos hv nz nodes s prevOff best =
      c.walk t pos wpos hv nz nodes s prevOff best := by
    intro wpos hv nz nodes
    induction nodes with
    | zero => exact fun _ _ _ => rfl
    | succ nodes ih =>
      exact fun s prevOff best => by simp only [Finder.walk, c.candidate_congr h, ih]; rfl
  simp only [Finder.findMatch, hwalk, c.hash_congr h, c.zeroRun_congr h, Finder.slot]

theorem Finder.emit_congr (t : MatchTables) (pos length offset : Nat) (rev : List Nat) :
    Finder.emit { c with data := b } t pos length offset rev = c.emit t pos length offset rev := by
  simp only [Finder.emit, c.insertMany_congr h, c.at_congr h]
  rfl

theorem Finder.pass_congr (st : TokLoop) : Finder.pass { c with data := b } st = c.pass st := by
  simp only [Finder.pass, c.insert_congr h, c.findMatch_congr h, c.emit_congr h, c.at_congr h, c.hash_congr h, c.zeroRun_congr h]

theorem Finder.tokenize_congr (t : MatchTables) (start : Nat) :
    Finder.tokenize { c with data := b } t start = c.tokenize t start := by
  have hloop : ∀ fuel st, Finder.loop { c with data := b } fuel st = c.loop fuel st := by
    intro fuel
    induction fuel with
    | zero => exact fun _ => rfl
    | succ fuel ih => exact fun st => by simp only [Finder.loop, c.pass_congr h, ih]
  simp only [Finder.tokenize, hloop]

end

/-- Buffers with the same bytes have the same tokens. -/
theorem tokenizeWith_congr {a b : Buf} (h : ∀ k, Buf.byte a k = Buf.byte b k) (par : FinderParams) (r : Regs) (t : MatchTables)
    (start stop : Nat) : tokenizeWith par r a t start stop = tokenizeWith par r b t start stop := by
  have hfinder := (r.finder par b stop).tokenize_congr h t start
  simp only [Regs.finder] at hfinder
  simp only [tokenizeWith, Regs.finder, hfinder, literalTokens, h]

/-! ## The tokens of a block -/

/-- Literal tokens (R193) replay to their bytes. -/
theorem replayTokens_literalTokens (maxDist : Nat) (data : Buf) {start stop : Nat} (hle : start ≤ stop) :
    replayTokens maxDist (literalTokens data start stop) (Buf.firstBytes data start) = some (Buf.firstBytes data stop) := by
  obtain ⟨n, rfl⟩ := Nat.exists_eq_add_of_le hle
  rw [literalTokens, Nat.add_sub_cancel_left]
  clear hle
  induction n generalizing start with
  | zero => rfl
  | succ n ih =>
    have hhead := replayTokens_literal maxDist (Buf.byte data start) (Buf.firstBytes data start)
    rw [← Buf.firstBytes_succ] at hhead
    rw [List.range'_succ, List.map_cons, ← List.singleton_append, replayTokens_append hhead, ih, Nat.add_right_comm, Nat.add_assoc]

theorem WindowLegal.bounds {r : Regs} (h : WindowLegal r) : 1 ≤ r.window.toNat ∧ r.window.toNat ≤ 32768 := by
  obtain ⟨k, hk, hw⟩ := h
  rw [hw]
  exact ⟨Nat.one_le_two_pow, Nat.pow_le_pow_right (by decide) hk⟩

/-- The tokens of a block replay to it after the bytes before it, are at most 4 for 3 bytes, and leave the tables ready for the next
block, for every value of the parameters (R187, R193, R195). -/
theorem tokenizeWith_spec {r : Regs} (hw : WindowLegal r) (par : FinderParams) (data : Buf) {t : MatchTables} {start stop : Nat}
    (ht : r.useLz77 = true → t.ReadyAt data r.window.toNat start) (hle : start ≤ stop) :
    (r.useLz77 = true → (tokenizeWith par r data t start stop).2.ReadyAt data r.window.toNat stop) ∧
      replayTokens (r.window.toNat - 1) (tokenizeWith par r data t start stop).1 (Buf.firstBytes data start) =
        some (Buf.firstBytes data stop) ∧
      3 * (tokenizeWith par r data t start stop).1.length ≤ 4 * (stop - start) := by
  obtain ⟨hw1, hwmax⟩ := hw.bounds
  rw [tokenizeWith]
  cases huse : r.useLz77 with
  | true =>
    rw [if_pos rfl]
    obtain ⟨htables, hreplay, hcount⟩ :=
      Finder.tokenize_spec (c := r.finder par data stop) (start := start) (t := t) hw1 hwmax (ht huse) hle
    exact ⟨fun _ => htables, hreplay, hcount⟩
  | false =>
    rw [if_neg Bool.false_ne_true]
    refine ⟨(nomatch ·), replayTokens_literalTokens _ data hle, ?_⟩
    simp only [literalTokens, List.length_map, List.length_range']
    omega

/-! ## The source as a buffer -/

/-- A region buffer holds nothing past the region. -/
theorem Memory.byte_region_beyond (m : Memory) (base len k : Nat) (h : len ≤ k) :
    Buf.byte (Memory.region m base len) k = Memory.unlisted := by
  induction m with
  | nil => rfl
  | cons c m ih =>
    rw [Memory.region_cons]
    split
    · next hc =>
      simp only [Bool.and_eq_true, decide_eq_true_eq] at hc
      rw [Buf.byte, Tab.get_set_ne _ _ (by omega)]
      exact ih
    · exact ih

@[simp] theorem bytesAt_length (m : Memory) (base n : Nat) : (bytesAt m base n).length = n := by simp [bytesAt]

/-- The bytes of a region, as a list or as a region buffer, are the same buffer to a reader. -/
theorem byte_bufOfBytes_bytesAt (m : Memory) (base n k : Nat) :
    Buf.byte (bufOfBytes (bytesAt m base n)) k = Buf.byte (m.region base n) k := by
  rw [byte_bufOfBytes]
  rcases Nat.lt_or_ge k n with h | h
  · rw [List.getD_eq_getElem _ _ (by simpa using h), Memory.byte_region _ _ _ _ h]
    simp [bytesAt]
  · rw [List.getD_eq_default _ _ (by simpa using h), Memory.byte_region_beyond _ _ _ _ h]

theorem firstBytes_bufOfBytes (l : List Byte) : Buf.firstBytes (bufOfBytes l) l.length = l := by
  refine List.ext_getElem (by simp) fun k _ hk => ?_
  simp [Buf.firstBytes, byte_bufOfBytes, hk]

/-- The tokens of a whole input replay to it and are at most 4 for 3 bytes (R195). -/
theorem tokenizeWith_input {r : Regs} (hw : WindowLegal r) (par : FinderParams) (data : List Byte) :
    replayTokens (r.window.toNat - 1) (tokenizeWith par r (bufOfBytes data) .init 0 data.length).1 [] = some data ∧
      3 * (tokenizeWith par r (bufOfBytes data) .init 0 data.length).1.length ≤ 4 * data.length := by
  obtain ⟨-, hreplay, hcount⟩ := tokenizeWith_spec hw par (bufOfBytes data)
    (fun _ => MatchTables.readyAt_init (bufOfBytes data) r.window.toNat) (Nat.zero_le data.length)
  rw [firstBytes_bufOfBytes] at hreplay
  exact ⟨hreplay, hcount⟩

/-! ## Tables of little-endian numbers in memory -/

/-- What a number written little-endian reads as (20_memory.md R61). -/
theorem Memory.readLE_eq_of_bytesLE {m : Memory} {a v n : Nat} (h : ∀ j < n, m.read (a + j) = (bytesLE v n).getD j 0)
    (hv : v < 256 ^ n) : m.readLE a n = v := by
  induction n generalizing a v with
  | zero => rw [Memory.readLE]; omega
  | succ n ih =>
    have h0 : m.read a = byte v := h 0 n.succ_pos
    have hrest : m.readLE (a + 1) n = v / 256 := by
      refine ih (fun j hj => ?_) (Nat.div_lt_of_lt_mul (by rwa [Nat.pow_succ, Nat.mul_comm] at hv))
      rw [Nat.add_assoc, Nat.add_comm 1]
      exact h (j + 1) (Nat.succ_lt_succ hj)
    rw [Memory.readLE, h0, hrest, BitVec.toNat_ofNat]
    omega

theorem flatMap_bytesLE_length (l : List Nat) (n : Nat) : (l.flatMap fun v => bytesLE v n).length = n * l.length := by
  simp [Nat.mul_comm]

/-- Where the bytes of each number of a table stand. -/
theorem flatMap_bytesLE_getD (l : List Nat) {n k j : Nat} (hk : k < l.length) (hj : j < n) :
    (l.flatMap fun v => bytesLE v n).getD (n * k + j) 0 = (bytesLE l[k] n).getD j 0 := by
  induction l generalizing k with
  | nil => cases hk
  | cons v l ih =>
    rw [List.flatMap_cons]
    cases k with
    | zero => rw [Nat.mul_zero, Nat.zero_add, List.getD_append _ _ _ _ (by simpa using hj), List.getElem_cons_zero]
    | succ k =>
      have hstart : n * (k + 1) + j = n + (n * k + j) := by rw [Nat.mul_succ]; omega
      rw [hstart, List.getD_append_right _ _ _ _ (by simp), Memory.writeBytes_length_bytesLE, Nat.add_sub_cancel_left,
        ih (Nat.lt_of_succ_lt_succ hk), List.getElem_cons_succ]

/-- A table of little-endian numbers reads back entry by entry. -/
theorem Memory.readLE_writeBytes_flatMap (m : Memory) (base n : Nat) (l : List Nat) (hl : ∀ v ∈ l, v < 256 ^ n)
    (hfit : base + n * l.length ≤ Config.addrSpace) (k : Nat) (hk : k < l.length) :
    Memory.readLE (m.writeBytes base (l.flatMap fun v => bytesLE v n)) (base + n * k) n = l[k] := by
  refine Memory.readLE_eq_of_bytesLE (fun j hj => ?_) (hl _ (List.getElem_mem hk))
  have hend : n * k + j < n * l.length := by
    have := Nat.mul_le_mul_left n (Nat.succ_le_of_lt hk)
    rw [Nat.mul_succ] at this
    omega
  have hlt : n * k + j < (l.flatMap fun v => bytesLE v n).length := by rwa [flatMap_bytesLE_length]
  rw [Nat.add_assoc, Memory.read_writeBytes_inside _ _ _ _ hlt (by omega), ← flatMap_bytesLE_getD l hk hj,
    List.getD_eq_getElem _ _ hlt]

/-! ## The command -/

/-- The tokens that `LZ77.TOKENIZE` writes. -/
def State.sourceTokens (s : State) : List Nat :=
  (tokenizeBlock s.operands (bufOfBytes (bytesAt s.mem s.operands.srcAddr.toNat s.operands.srcLen.toNat)) .init 0
    s.operands.srcLen.toNat).1

theorem State.sourceTokens_eq_region (s : State) : s.sourceTokens =
    (tokenizeBlock s.operands (s.mem.region s.operands.srcAddr.toNat s.operands.srcLen.toNat) .init 0 s.operands.srcLen.toNat).1 :=
  congrArg Prod.fst (tokenizeWith_congr (byte_bufOfBytes_bytesAt _ _ _) specFinder ..)

section
variable {s : State} (hw : WindowLegal s.operands) (hok : RegionsOk .lz77Tokenize s)
include hw hok

/-- The tokens fit (R192). -/
theorem execLz77Tokenize_fits (hfit : 2 * s.sourceTokens.length ≤ s.operands.dstCap.toNat) : exec .lz77Tokenize s =
    .next (s.succeed { s.regs with result0 := word s.sourceTokens.length, dstLen := word (2 * s.sourceTokens.length) }
      (s.mem.writeBytes s.operands.dstAddr.toNat (s.sourceTokens.flatMap fun v => bytesLE v 2))) := by
  rw [s.sourceTokens_eq_region] at hfit ⊢
  unfold exec execLz77Tokenize
  exact runCommand_success ((windowChecks_ok_iff _).2 hw) ((regionChecks_ok_iff _ s).2 hok)
    (check_then_eq_ok.2 ⟨Nat.not_lt.2 hfit, rfl⟩)

/-- The tokens do not fit (R192). -/
theorem execLz77Tokenize_full (hfull : s.operands.dstCap.toNat < 2 * s.sourceTokens.length) :
    exec .lz77Tokenize s = .next (s.fail .dstFull [.result0, .dstLen] (some s.operands.dst)) := by
  rw [s.sourceTokens_eq_region] at hfull
  unfold exec execLz77Tokenize
  exact runCommand_failure ((windowChecks_ok_iff _).2 hw) ((regionChecks_ok_iff _ s).2 hok)
    (check_then_eq_error.2 (.inl ⟨hfull, rfl⟩))

end

/-- Settles O33: `tokenizeWith_input` is the replay, by the invariant of the match finder's loop; the command writes those
tokens. -/
theorem tokenStreamReplaysToTheInput : Obligations.TokenStreamReplaysToTheInput := by
  intro s r n base data toks hw
  have hn : data.length = n := bytesAt_length ..
  have hinput := fun par => tokenizeWith_input hw par data
  simp only [hn] at hinput
  obtain ⟨hreplay, hcount⟩ := hinput specFinder
  refine ⟨fun par => (hinput par).1, hcount, hreplay, fun hok => ⟨fun hfit => ?_, execLz77Tokenize_full hw hok⟩⟩
  refine ⟨_, execLz77Tokenize_fits hw hok hfit, fun k hk => ?_, fun a ha => ?_⟩
  · have hdst := hok.noWrap r.dst (by simp [usedRegions, dstRegion, usesDst, r])
    refine Memory.readLE_writeBytes_flatMap _ _ 2 _ (replayTokens_lt hreplay) ?_ k hk
    simp only [Regs.dst] at hdst
    show r.dstAddr.toNat + 2 * toks.length ≤ 2 ^ 32
    omega
  · exact Memory.read_writeBytes_outside _ _ _ _ (by rw [flatMap_bytesLE_length]; exact ha)

end Sys2Proof.Machine
end

section
/-! The lifecycle of a command (40_control.md R140 to R148): its acceptance, what is stable while it runs, and what every completion
does and leaves unchanged. -/

namespace Sys2Proof.Machine

/-! ## Steps and acceptance -/

theorem State.withFetchWord_toNat (s : State) (w : Word) : s.withFetchWord 32 w.toNat = s.withCommand w := by
  have hw : word w.toNat = w := by simp
  rw [State.withFetchWord, Nat.mod_eq_of_lt w.isLt, hw]

/-- Settles O6: the step is the head of the agenda, and with none it is the engine's transition. -/
theorem stepRunsTheAcceptedCommand : Obligations.StepRunsTheAcceptedCommand := by
  refine ⟨fun s i hb hd => ⟨fun ha => ?_, fun rest ha => ?_⟩, fun s hb ha => ?_, fun s e rest ha => step_cons ha,
    fun s w i hd => ?_⟩
  · rw [step_nil ha, engineTurn_legal hb hd]
  · rw [step_cons ha]
    exact engineTurn_legal hb hd
  · rw [step_nil ha, engineTurn_idle hb]
  · rw [s.withFetchWord_toNat, step_withCommand]
    exact engineTurn_legal rfl hd

/-- A register but `STATUS` reads as its place in the bank. -/
theorem State.readReg_congr {s t : State} {reg : Reg} (hs : reg ≠ .status) (hr : t.regs = s.regs) :
    t.readReg reg = s.readReg reg := by
  cases reg with
  | status => exact absurd rfl hs
  | _ => simp only [State.readReg, hr]

/-- Settles O7: an idle write of `CMD` is `State.accept`, a busy one sets `OVERRUN` alone. -/
theorem cmdWriteIsAcceptedExactlyWhileIdle : Obligations.CmdWriteIsAcceptedExactlyWhileIdle := by
  intro s addr w ha
  have hwrite := hostWrite_reg (reg := .cmd) (v := w) ha
  rw [State.hostWriteReg_cmd] at hwrite
  constructor <;> intro hb
  · rw [if_neg (by simp [hb])] at hwrite
    refine ⟨_, hwrite, rfl, fun reg hcmd hstatus => ?_, rfl, rfl, rfl, rfl⟩
    rw [← s.readReg_store_ne w hcmd]
    exact State.readReg_congr hstatus rfl
  · rw [if_pos hb] at hwrite
    exact ⟨_, hwrite, rfl, rfl, rfl, rfl⟩

/-! ## What an access can do -/

section
variable {s t : State}

theorem hostRead_cases {addr : Word} {size : Nat} (h : hostRead s addr size = .next t) :
    (∃ reg, t = s.hostReadReg reg) ∨ t = { s with resp := .busError } := by
  unfold hostRead at h
  split at h
  · cases h
  · split at h <;> cases h
    · exact .inl ⟨_, rfl⟩
    · exact .inr rfl

theorem hostWrite_cases {addr v : Word} {size : Nat} (h : hostWrite s addr size v = .next t) :
    (∃ reg, t = { s.hostWriteReg reg v with resp := .written }) ∨ t = { s with resp := .busError } := by
  unfold hostWrite at h
  split at h
  · cases h
  · split at h <;> cases h
    · exact .inl ⟨_, rfl⟩
    · exact .inr rfl

theorem memRead_cases {a : Nat} (h : memRead s a = .next t) :
    (∃ resp, t = s.respondFree resp) ∨ ∃ resp, t = { s with resp := resp } := by
  unfold memRead at h
  split at h
  · cases h
  · split at h <;> cases h
    · exact .inl ⟨_, rfl⟩
    · exact .inr ⟨_, rfl⟩

theorem memWrite_cases {a : Nat} {b : Byte} (h : memWrite s a b = .next t) :
    t = { s with mem := s.mem.write a b, resp := .written } ∧ ∀ r ∈ s.runningRegions, r.covers a = false := by
  unfold memWrite at h
  split at h
  · cases h
  · split at h <;> cases h
    next hany => exact ⟨rfl, fun r hr => by simpa using List.any_eq_false.1 (Bool.eq_false_of_not_eq_true hany) r hr⟩

/-! ## Stability while busy -/

/-- What an event leaves a running command: it runs on, on the same copy of its operands, and its regions hold the same bytes. -/
structure State.KeepsCommand (s t : State) : Prop where
  busy : t.status.busy = s.status.busy
  latched : t.latched = s.latched
  regions : ∀ r ∈ s.runningRegions, ∀ a, r.covers a = true → t.mem.read a = s.mem.read a

theorem State.KeepsCommand.of_mem_eq (hb : t.status.busy = s.status.busy) (hl : t.latched = s.latched) (hm : t.mem = s.mem) :
    s.KeepsCommand t :=
  ⟨hb, hl, fun _ _ _ _ => by rw [hm]⟩

theorem State.hostReadReg_keepsCommand (s : State) (reg : Option Reg) : s.KeepsCommand (s.hostReadReg reg) := by
  cases reg with
  | none => exact .of_mem_eq rfl rfl rfl
  | some reg =>
    obtain ⟨-, hstatus, hlatched, hmem, -⟩ := s.hostReadReg_frame reg
    exact .of_mem_eq (congrArg Status.busy hstatus) hlatched hmem

/-- Of the writes a host can make while busy, none reaches the latched copy (10_state.md R42). -/
theorem State.hostWriteReg_keepsCommand (hb : s.status.busy = true) (reg : Option Reg) (v : Word) :
    s.KeepsCommand (s.hostWriteReg reg v) := by
  cases reg with
  | none => exact .of_mem_eq rfl rfl rfl
  | some reg =>
    rcases reg.kinds with rfl | rfl | rfl | hset | hro
    · exact .of_mem_eq rfl rfl rfl
    · exact .of_mem_eq rfl rfl rfl
    · rw [State.hostWriteReg_cmd, if_pos hb]
      exact .of_mem_eq rfl rfl rfl
    · rw [State.hostWriteReg_setting s v hset, if_pos hb]
      exact .of_mem_eq rfl rfl rfl
    · rw [State.hostWriteReg_readOnly s v hro]
      exact .of_mem_eq rfl rfl rfl

/-- Every event but a completion and a reset keeps the running command. -/
theorem State.perform_keepsCommand {e : Event} (hb : s.status.busy = true) (hc : e ≠ .complete) (hr : e ≠ .reset)
    (ht : perform e s = .next t) : s.KeepsCommand t := by
  cases e with
  | regRead addr size =>
    rcases hostRead_cases ht with ⟨reg, rfl⟩ | rfl
    · exact s.hostReadReg_keepsCommand reg
    · exact .of_mem_eq rfl rfl rfl
  | regWrite addr size v =>
    rcases hostWrite_cases ht with ⟨reg, rfl⟩ | rfl
    · obtain ⟨hbusy, hlatched, hregions⟩ := State.hostWriteReg_keepsCommand hb reg v
      exact ⟨hbusy, hlatched, hregions⟩
    · exact .of_mem_eq rfl rfl rfl
  | memRead a => rcases memRead_cases ht with ⟨resp, rfl⟩ | ⟨resp, rfl⟩ <;> exact .of_mem_eq rfl rfl rfl
  | memWrite a b =>
    obtain ⟨rfl, hout⟩ := memWrite_cases ht
    refine ⟨rfl, rfl, fun r hmem x hx => Memory.read_write_ne _ _ _ _ ?_⟩
    rintro rfl
    rw [hout r hmem] at hx
    cases hx
  | complete => exact absurd rfl hc
  | reset => exact absurd rfl hr

end

/-- Settles O17: the operands are the latched copy, which no event but a completion and a reset touches. -/
theorem operandsStayStableWhileBusy : Obligations.OperandsStayStableWhileBusy := by
  intro s t e hb hl hc hr ht
  obtain ⟨hbusy, hlatched, hregions⟩ := State.perform_keepsCommand hb hc hr ht
  obtain ⟨l, hl⟩ := Option.isSome_iff_exists.1 hl
  have hops : t.operands = s.operands := by rw [State.operands_latched t (hlatched.trans hl), State.operands_latched s hl]
  exact ⟨hbusy.trans hb, hops, by rw [State.running, State.running, hbusy, hops], hregions⟩

/-! ## Completion -/

/-- The completions of a command: a failure that leaves free no register outside its list under *Writes*, or a success within its
frame. -/
theorem exec_completions (i : Instr) (s : State) :
    (∃ e ws dst, ws ⊆ writesOf i ∧ exec i s = .next (s.fail e ws dst)) ∨
      ∃ p : Regs × Memory, SuccessFrame i s p ∧ exec i s = .next (s.succeed p.1 p.2) := by
  rcases exec_framed i s with ⟨e, ws, dst, hf⟩ | hs
  · left
    rcases exec_cases i s with ⟨e, -, -, ht⟩ | ⟨-, e, -, ht⟩ | ⟨-, -, ⟨e, -, ht⟩ | ⟨p, -, ht⟩⟩
    · exact ⟨e, [], none, List.nil_subset _, ht⟩
    · exact ⟨e, [], none, List.nil_subset _, ht⟩
    · exact ⟨e, writesOf i, _, List.Subset.refl _, ht⟩
    · rw [hf] at ht
      have herror := congrArg (fun st => st.status.error) (Host.Outcome.next.inj ht)
      cases herror
  · exact .inr hs

theorem Regs.EqOutside.irqEn_eq {ws : List WReg} {r q : Regs} (h : r.EqOutside ws q) : r.irqEn = q.irqEn := by
  have hfree : (r.free ws 0).irqEn = (q.free ws 0).irqEn := congrArg Regs.irqEn h
  exact hfree

/-- The interrupt line right after a completion (60_exceptions.md R328). -/
theorem State.irq_of_done {s t : State} (hd : t.status.done = true) (ho : t.status.overrun = s.status.overrun)
    (hi : t.regs.irqEn = s.regs.irqEn) : t.irq = (s.regs.doneIe || (s.status.overrun && s.regs.overrunIe)) := by
  simp [State.irq, Regs.doneIe, Regs.overrunIe, hd, ho, hi]

/-- Settles O18: each completion, of R143 and of R144, by the fields it writes. -/
theorem everyCommandCompletes : Obligations.EveryCommandCompletes := by
  intro i s
  rcases exec_completions i s with ⟨e, ws, dst, -, ht⟩ | ⟨p, hp, ht⟩
  · exact ⟨_, ht, rfl, rfl, rfl, rfl, (nomatch ·), rfl, State.irq_of_done rfl rfl rfl, rfl, rfl, rfl⟩
  · exact ⟨_, ht, rfl, rfl, rfl, rfl, fun _ => rfl, rfl, State.irq_of_done rfl rfl hp.regs.irqEn_eq, rfl, rfl, rfl⟩

/-! ## Registers a completion keeps -/

/-- A rule's *Writes* by items and register by register: both say which registers read free while the command runs. -/
theorem mayWrite_of_writes {i : Instr} {reg : Reg} {w : WReg} (hw : reg.writes = some w) (hi : w ∈ writesOf i) :
    mayWrite i reg = true := by
  have hd : decode (State.reset.accept (encode i)).operands.cmd = .ok i := decode_encode i
  rw [← State.inFlight_eq reg rfl hd, State.inFlight, State.running_eq rfl hd, hw]
  exact decide_eq_true hi

/-- A register outside `ws` keeps its value when those of `ws` take free values. -/
theorem State.readReg_free (s : State) (ws : List WReg) (draw : Nat) {reg : Reg} (he : reg ≠ .errInfo)
    (hws : ∀ w, reg.writes = some w → w ∉ ws) :
    ({ s with regs := s.regs.free ws draw } : State).readReg reg = s.readReg reg := by
  cases reg with
  | errInfo => exact absurd rfl he
  | dstLen | result0 | result1 | adler | srcBitpos | dstBitpos => exact freeIf_unlisted ws draw (hws _ rfl) ..
  | passW k | passH k | fstart k | pstart k | ustart k =>
    exact congrArg (fun v => v[k]) (freeVectorIf_unlisted ws draw (hws _ rfl) ..)
  | _ => rfl

/-- Settles O19: a failure frees only listed registers, and a success differs from the bank before only there. -/
theorem unlistedRegistersKeepTheirValues : Obligations.UnlistedRegistersKeepTheirValues := by
  intro i s
  have hout : ∀ reg, mayWrite i reg = false → ∀ w, reg.writes = some w → w ∉ writesOf i := fun reg hreg w hw hi => by
    rw [mayWrite_of_writes hw hi] at hreg
    cases hreg
  rcases exec_completions i s with ⟨e, ws, dst, hws, ht⟩ | ⟨p, hp, ht⟩ <;> refine ⟨_, ht, fun reg hs he hreg => ?_⟩
  · rw [← s.readReg_free ws s.draws he fun w hw hi => hout reg hreg w hw (hws hi)]
    exact State.readReg_congr hs rfl
  · calc (s.succeed p.1 p.2).readReg reg
      _ = ({ s.succeed p.1 p.2 with regs := (s.succeed p.1 p.2).regs.free (writesOf i) 0 } : State).readReg reg :=
        ((s.succeed p.1 p.2).readReg_free _ 0 he (hout reg hreg)).symm
      _ = ({ s with regs := s.regs.free (writesOf i) 0 } : State).readReg reg := State.readReg_congr hs hp.regs
      _ = s.readReg reg := s.readReg_free _ 0 he (hout reg hreg)

/-! ## NOP -/

theorem exec_nop (s : State) : exec .nop s = .next (s.succeed s.regs s.mem) := by
  unfold exec execNop
  exact runCommand_success rfl rfl rfl

/-- Only `NOP` has opcode 0 (30_encoding.md R92). -/
theorem eq_nop_of_opcode_zero {x : Instr} (h : (encode x).toNat % 256 = 0) : x = .nop := by
  cases x with
  | nop => rfl
  | bitsPut b | bitsGet b | zlibDecompress b => cases b <;> revert h <;> decide
  | _ => revert h; decide

/-- A legal word of opcode 0 is the word 0. -/
theorem eq_zero_of_decode {w : Word} {x : Instr} (hop : w.toNat % 256 = 0) (hd : decode w = .ok x) : w = 0 := by
  obtain rfl := (decodeExactlyTheEncodedWords w x).1 hd
  rw [eq_nop_of_opcode_zero hop]
  rfl

/-- Settles O29: `NOP` succeeds with bank and memory as they were, 0 is its word, and an engine whose `STATUS` reads `0x1506` has no
overrun to keep. -/
theorem nopHasNoEffectButTheLifecycle : Obligations.NopHasNoEffectButTheLifecycle := by
  refine ⟨exec_nop, fun w hop => ⟨⟨eq_zero_of_decode hop, ?_⟩, fun hw => ?_⟩, fun s hs => ⟨_, exec_nop _, ?_⟩⟩
  · rintro rfl
    exact decode_encode .nop
  · exact decode_error_iff.2 fun ⟨x, hx⟩ => hw (eq_zero_of_decode hop hx)
  · obtain ⟨-, -, -, hoverrun⟩ := s.status.toWord_flags
    have hclear : s.status.overrun = false := by rw [← hoverrun, hs]; decide
    simp [State.readReg, Status.toWord, Status.code, hclear]

end Sys2Proof.Machine
end

section
/-! Bit fields written and read in the order a flag says (41_bitstream.md R168 to R171): a field's bits and its value are inverse, a
write leaves the field standing at its cursor, and a read of a standing field gives its value. -/

namespace Sys2Proof.Machine

/-! ## Fields in either order -/

/-- The bits of a field of `n` bits in the order they are written: bit `n-1` first when the flag is set (R169). -/
def orderedBits (reverse : Bool) (v n : Nat) : List Bool := if reverse then msbBits v n else lsbBits v n

/-- The value of a field whose bits were read in that order (R170). -/
def orderedValue (reverse : Bool) (bits : List Bool) : Nat := if reverse then msbValue bits else lsbValue bits

@[simp] theorem orderedBits_length (reverse : Bool) (v n : Nat) : (orderedBits reverse v n).length = n := by
  cases reverse <;> simp [orderedBits]

theorem orderedBits_getElem (reverse : Bool) (v n : Nat) {k : Nat} (h : k < (orderedBits reverse v n).length) :
    (orderedBits reverse v n)[k] = v.testBit (if reverse then n - 1 - k else k) := by
  cases reverse <;> simp [orderedBits, msbBits, lsbBits]

theorem orderedValue_orderedBits (reverse : Bool) (v n : Nat) : orderedValue reverse (orderedBits reverse v n) = v % 2 ^ n := by
  cases reverse
  · exact lsbValue_lsbBits v n
  · exact msbValue_msbBits v n

theorem lsbBits_lsbValue (bits : List Bool) : lsbBits (lsbValue bits) bits.length = bits := by
  have h := msbBits_msbValue bits.reverse
  rw [msbValue_reverse, msbBits_eq_reverse, List.length_reverse] at h
  exact List.reverse_injective h

theorem orderedBits_orderedValue (reverse : Bool) (bits : List Bool) :
    orderedBits reverse (orderedValue reverse bits) bits.length = bits := by
  cases reverse
  · exact lsbBits_lsbValue bits
  · exact msbBits_msbValue bits

/-- Bit `k` read goes to the place that bit `k` written comes from. -/
theorem orderedValue_testBit (reverse : Bool) {bits : List Bool} {k : Nat} (h : k < bits.length) :
    (orderedValue reverse bits).testBit (if reverse then bits.length - 1 - k else k) = bits[k] := by
  rw [← orderedBits_getElem reverse _ _ (by rwa [orderedBits_length])]
  simp only [orderedBits_orderedValue]

theorem orderedValue_lt (reverse : Bool) (bits : List Bool) : orderedValue reverse bits < 2 ^ bits.length := by
  cases reverse
  · exact lsbValue_lt bits
  · exact msbValue_lt bits

/-! ## Reading a standing field -/

/-- A field that stands there is read whole (41_bitstream.md R163). -/
theorem Reader.Holds.getBitsRev {r : Reader} {bits : List Bool} (h : r.Holds bits) :
    getBitsRev r bits.length = .ok (msbValue bits, r.skip bits.length) := by
  have hw := h.within
  rw [Machine.getBitsRev, fieldBits, failIf_of_false _ (by omega)]
  exact bind_eq_ok.2 ⟨_, h.takeBits, rfl⟩

/-- `GetBits` or `GetBitsRev`, as the flag says (R170). -/
def getOrdered (reverse : Bool) (r : Reader) (n : Nat) : Except ErrCode (Nat × Reader) :=
  if reverse then getBitsRev r n else getBits r n

theorem Reader.Holds.getOrdered {r : Reader} {bits : List Bool} (h : r.Holds bits) (reverse : Bool) :
    getOrdered reverse r bits.length = .ok (orderedValue reverse bits, r.skip bits.length) := by
  cases reverse
  · exact h.getBits
  · exact h.getBitsRev

/-! ## BITS.PUT -/

/-- The bits that `BITS.PUT` writes (R169). -/
def Regs.fieldToPut (r : Regs) (reverse : Bool) : List Bool := orderedBits reverse r.arg0.toNat r.arg1.toNat

@[simp] theorem Regs.fieldToPut_length (r : Regs) (reverse : Bool) : (r.fieldToPut reverse).length = r.arg1.toNat :=
  orderedBits_length ..

section
variable {reverse : Bool} {s : State}

theorem exec_bitsPut : exec (.bitsPut reverse) s = runCommand (.bitsPut reverse) s (failIf (32 < s.operands.arg1.toNat) .badArg)
    fun _ => cursorCheck s.operands s.operands.arg1.toNat >>= fun _ =>
      .ok (putAtCursor s.operands s.regs s.mem (s.operands.fieldToPut reverse)) := rfl

/-- The bytes of the field lie inside the address space, unless the field is empty (20_memory.md R63). -/
theorem RegionsOk.put_fits {bits : List Bool} (hok : RegionsOk (.bitsPut reverse) s)
    (hfit : s.operands.dstBitpos.toNat + bits.length ≤ s.operands.limitW) :
    s.operands.dstAddr.toNat + (s.operands.dstBitpos.toNat + bits.length + 7) / 8 ≤ Config.addrSpace ∨ bits = [] := by
  have hwrap : s.operands.dstCap.toNat = 0 ∨ s.operands.dstAddr.toNat + s.operands.dstCap.toNat ≤ 2 ^ 32 :=
    hok.noWrap s.operands.dst (List.mem_singleton_self _)
  rw [Regs.limitW] at hfit
  rw [Config.addrSpace, ← List.length_eq_zero_iff]
  omega

theorem execBitsPut_badArg (h : 32 < s.operands.arg1.toNat) :
    exec (.bitsPut reverse) s = .next (s.fail .badArg [] none) :=
  exec_bitsPut.trans (runCommand_argError (failIf_of_true _ h))

theorem execBitsPut_full (harg : s.operands.arg1.toNat ≤ 32) (hok : RegionsOk (.bitsPut reverse) s)
    (h : s.operands.limitW < s.operands.dstBitpos.toNat + s.operands.arg1.toNat) :
    exec (.bitsPut reverse) s = .next (s.fail .dstFull [.dstBitpos, .dstLen] (some s.operands.dst)) :=
  exec_bitsPut.trans (runCommand_failure (failIf_of_false _ (Nat.not_lt.2 harg)) ((regionChecks_ok_iff _ s).2 hok)
    (bind_eq_error.2 (.inl (failIf_of_true _ h))))

theorem execBitsPut_fits (harg : s.operands.arg1.toNat ≤ 32) (hok : RegionsOk (.bitsPut reverse) s)
    (h : s.operands.dstBitpos.toNat + s.operands.arg1.toNat ≤ s.operands.limitW) :
    let r := s.operands
    let stop := r.dstBitpos.toNat + r.arg1.toNat
    exec (.bitsPut reverse) s = .next (s.succeed { s.regs with dstBitpos := word stop, dstLen := word ((stop + 7) / 8) }
      (s.mem.putBitsRMW r.dstAddr.toNat r.dstBitpos.toNat (r.fieldToPut reverse))) := by
  refine exec_bitsPut.trans (runCommand_success (failIf_of_false _ (Nat.not_lt.2 harg)) ((regionChecks_ok_iff _ s).2 hok)
    (check_then_eq_ok.2 ⟨Nat.not_lt.2 h, ?_⟩))
  rw [putAtCursor, Regs.fieldToPut_length]

end

/-- A write leaves its bits standing at its cursor (20_memory.md R68). -/
theorem Memory.putBitsRMW_stands {m : Memory} {base bp : Nat} {bits : List Bool}
    (h : base + (bp + bits.length + 7) / 8 ≤ Config.addrSpace ∨ bits = []) :
    bitsStandAt (m.putBitsRMW base bp bits) base bp bits := by
  intro k hk
  rw [memBit_putBitsRMW _ _ _ _ _ h, if_pos (by omega), Nat.add_sub_cancel_left, List.getD_eq_getElem _ _ hk]

/-- Settles O30: the two failures are checks in their order, and a success is one read-modify-write of the field. -/
theorem bitsPutWritesItsField : Obligations.BitsPutWritesItsField := by
  refine fun reverse s => ⟨execBitsPut_badArg, execBitsPut_full, fun harg hok hfit => ?_⟩
  have hspace := hok.put_fits (bits := s.operands.fieldToPut reverse) (by rwa [Regs.fieldToPut_length])
  refine ⟨_, execBitsPut_fits harg hok hfit, fun k hk => ?_, fun k hk => ?_, fun a ha => ?_⟩
  · rw [Memory.putBitsRMW_stands hspace k (by simpa using hk)]
    exact orderedBits_getElem ..
  · rw [memBit_putBitsRMW _ _ _ _ _ hspace, Regs.fieldToPut_length, if_neg (by omega)]
  · exact Memory.read_putBitsRMW_outside _ _ _ _ _ (.inl (by omega))

/-! ## BITS.GET -/

section
variable {reverse : Bool} {s : State}

theorem exec_bitsGet : exec (.bitsGet reverse) s = runCommand (.bitsGet reverse) s (failIf (32 < s.operands.arg1.toNat) .badArg)
    fun _ => failIf ((s.operands.cursorReader s.mem).limit < s.operands.srcBitpos.toNat + s.operands.arg1.toNat) .trunc >>= fun _ =>
      getOrdered reverse (s.operands.cursorReader s.mem) s.operands.arg1.toNat >>= fun p =>
        .ok ({ s.regs with result0 := word p.1, srcBitpos := word p.2.bp }, s.mem) := by
  cases reverse <;> rfl

theorem execBitsGet_badArg (h : 32 < s.operands.arg1.toNat) :
    exec (.bitsGet reverse) s = .next (s.fail .badArg [] none) :=
  exec_bitsGet.trans (runCommand_argError (failIf_of_true _ h))

theorem execBitsGet_trunc (harg : s.operands.arg1.toNat ≤ 32) (hok : RegionsOk (.bitsGet reverse) s)
    (h : (s.operands.cursorReader s.mem).limit < s.operands.srcBitpos.toNat + s.operands.arg1.toNat) :
    exec (.bitsGet reverse) s = .next (s.fail .trunc [.result0, .srcBitpos] none) :=
  exec_bitsGet.trans (runCommand_failure (failIf_of_false _ (Nat.not_lt.2 harg)) ((regionChecks_ok_iff _ s).2 hok)
    (bind_eq_error.2 (.inl (failIf_of_true _ h))))

/-- `BITS.GET` of bits that stand at its cursor answers their value (R170). -/
theorem execBitsGet_stands {bits : List Bool} (hlen : bits.length = s.operands.arg1.toNat) (harg : s.operands.arg1.toNat ≤ 32)
    (hok : RegionsOk (.bitsGet reverse) s)
    (hfit : s.operands.srcBitpos.toNat + s.operands.arg1.toNat ≤ (s.operands.cursorReader s.mem).limit)
    (hbits : bitsStandAt s.mem s.operands.srcAddr.toNat s.operands.srcBitpos.toNat bits) :
    exec (.bitsGet reverse) s = .next (s.succeed { s.regs with
      result0 := word (orderedValue reverse bits)
      srcBitpos := word (s.operands.srcBitpos.toNat + s.operands.arg1.toNat) } s.mem) := by
  have hholds : (s.operands.cursorReader s.mem).Holds bits := region_holds hbits (by rwa [hlen]) (Nat.min_le_left ..)
  have hget := hholds.getOrdered reverse
  rw [hlen] at hget
  exact exec_bitsGet.trans (runCommand_success (failIf_of_false _ (Nat.not_lt.2 harg)) ((regionChecks_ok_iff _ s).2 hok)
    (check_then_eq_ok.2 ⟨Nat.not_lt.2 hfit, bind_eq_ok.2 ⟨_, hget, rfl⟩⟩))

end

theorem exists_bitsStandAt (m : Memory) (base bp n : Nat) : ∃ bits, bits.length = n ∧ bitsStandAt m base bp bits :=
  ⟨(List.range n).map fun k => memBit m base (bp + k), by simp, fun k hk => by simp⟩

/-- Settles O31: the two failures are checks in their order, and a success reads the bits that stand at the cursor. -/
theorem bitsGetReadsItsField : Obligations.BitsGetReadsItsField := by
  refine fun reverse s => ⟨execBitsGet_badArg, execBitsGet_trunc, fun harg hok hfit => ?_⟩
  obtain ⟨bits, hlen, hstand⟩ :=
    exists_bitsStandAt s.mem s.operands.srcAddr.toNat s.operands.srcBitpos.toNat s.operands.arg1.toNat
  refine ⟨orderedValue reverse bits, hlen ▸ orderedValue_lt reverse bits,
    execBitsGet_stands hlen harg hok hfit hstand, fun k hk => ?_⟩
  have hk' : k < bits.length := hlen ▸ hk
  have hbit := (orderedValue_testBit reverse hk').trans (hstand k hk').symm
  rwa [hlen] at hbit

/-! ## What was put is got back -/

/-- A command that reports no error passed its checks and executed. -/
theorem runCommand_noError {i : Instr} {s t : State} {args : Except ErrCode Unit} {body : Unit → Except ErrCode (Regs × Memory)}
    (h : runCommand i s args body = .next t) (ht : t.status.error = false) :
    args = .ok () ∧ RegionsOk i s ∧ ∃ p, body () = .ok p := by
  rcases runCommand_cases i s args body with ⟨e, -, hf⟩ | ⟨ha, hr, ⟨e, -, hf⟩ | ⟨r, m, hb, -⟩⟩
  · cases h.symm.trans hf
    cases ht
  · cases h.symm.trans hf
    cases ht
  · exact ⟨ha, (regionChecks_ok_iff i s).1 hr, _, hb⟩

theorem execBitsPut_noError {reverse : Bool} {s t : State} (h : exec (.bitsPut reverse) s = .next t)
    (ht : t.status.error = false) : s.operands.arg1.toNat ≤ 32 ∧ RegionsOk (.bitsPut reverse) s ∧
      s.operands.dstBitpos.toNat + s.operands.arg1.toNat ≤ s.operands.limitW := by
  obtain ⟨harg, hok, p, hp⟩ := runCommand_noError (exec_bitsPut.symm.trans h) ht
  exact ⟨Nat.not_lt.1 (failIf_eq_ok.1 harg), hok, Nat.not_lt.1 (check_then_eq_ok.1 hp).1⟩

/-- Bits stand where their bytes are copied to. -/
theorem bitsStandAt.copy {m m' : Memory} {base base' bp : Nat} {bits : List Bool} (h : bitsStandAt m base bp bits)
    (hcopy : ∀ j < (bp + bits.length + 7) / 8, m'.read (base' + j) = m.read (base + j)) : bitsStandAt m' base' bp bits := by
  intro k hk
  rw [← h k hk, memBit, hcopy _ (by omega)]
  rfl

/-- `BITS.GET` of bytes that hold what a successful `BITS.PUT` wrote, at its cursor (R171). -/
theorem put_then_get {reverse : Bool} {s t u : State} (ht : exec (.bitsPut reverse) s = .next t) (hok : t.status.error = false)
    (hn : u.operands.arg1 = s.operands.arg1) (hbp : u.operands.srcBitpos = s.operands.dstBitpos)
    (hlen : (s.operands.dstBitpos.toNat + s.operands.arg1.toNat + 7) / 8 ≤ u.operands.srcLen.toNat)
    (hcopy : ∀ j < (s.operands.dstBitpos.toNat + s.operands.arg1.toNat + 7) / 8,
      u.mem.read (u.operands.srcAddr.toNat + j) = t.mem.read (s.operands.dstAddr.toNat + j))
    (hregions : RegionsOk (.bitsGet reverse) u) :
    exec (.bitsGet reverse) u = .next (u.succeed { u.regs with
      result0 := word (s.operands.arg0.toNat % 2 ^ s.operands.arg1.toNat)
      srcBitpos := word (s.operands.dstBitpos.toNat + s.operands.arg1.toNat) } u.mem) := by
  obtain ⟨harg, hput, hfit⟩ := execBitsPut_noError ht hok
  rw [execBitsPut_fits harg hput hfit] at ht
  cases ht
  have hstand : bitsStandAt u.mem u.operands.srcAddr.toNat s.operands.dstBitpos.toNat (s.operands.fieldToPut reverse) :=
    (Memory.putBitsRMW_stands (hput.put_fits (by simpa using hfit))).copy (by simpa using hcopy)
  rw [Regs.limitW] at hfit
  have hget := execBitsGet_stands (s := u) (reverse := reverse) (by rw [hn]; exact Regs.fieldToPut_length ..) (hn ▸ harg) hregions
    (by rw [hn, hbp]; simp only [Regs.cursorReader]; omega) (hbp ▸ hstand)
  rwa [hn, hbp, Regs.fieldToPut, orderedValue_orderedBits] at hget

theorem putAll_eq_ok {w w' : Writer} {bits : List Bool} (h : putAll w bits = .ok w') :
    w' = { w with rev := bits.reverse ++ w.rev, bp := w.bp + bits.length } := by
  induction bits generalizing w with
  | nil => exact (Except.ok.inj h).symm
  | cons b bits ih =>
    obtain ⟨v, hv, hrest⟩ := bind_eq_ok.1 h
    unfold putBit at hv
    split at hv <;> cases hv
    rw [ih hrest]
    simp [Nat.add_comm, Nat.add_left_comm]

/-- The bits a writer took stand in its bytes, before a reader at its old cursor (R165). -/
theorem putAll_holds {w w' : Writer} {bits : List Bool} (hw : w.bp = w.rev.length) (h : putAll w bits = .ok w') :
    Reader.Holds ⟨bufOfBytes w'.bytes, 8 * w'.bytes.length, w.bp⟩ bits := by
  obtain ⟨hlim, hbit⟩ := (Reader.holds_append.1 (readerOfBits_holds (w.rev.reverse ++ bits))).2
  rw [putAll_eq_ok h]
  simp only [Writer.bytes, List.reverse_append, List.reverse_reverse]
  refine ⟨?_, fun k hk => ?_⟩
  · simp only [packBits_length, List.length_append, List.length_reverse]
    omega
  · rw [← hbit k hk, hw]
    simp [readerOfBits, Reader.skip]

/-- Settles O32: the commands by `put_then_get`, the primitives because the bits a writer took are before the reader. -/
theorem putThenGetRoundTrip : Obligations.PutThenGetRoundTrip := by
  refine ⟨fun reverse s t u ht hok hn hbp hlen hcopy hregions => ?_, fun v n w w' hw h => ?_, fun v n w w' hw h => ?_⟩
  · obtain ⟨-, -, hfit⟩ := execBitsPut_noError ht hok
    rw [Regs.limitW] at hfit
    have hval : s.operands.arg0.toNat % 2 ^ s.operands.arg1.toNat < 2 ^ 32 :=
      (Nat.mod_le ..).trans_lt s.operands.arg0.isLt
    exact ⟨_, put_then_get ht hok hn hbp hlen hcopy hregions, rfl, (BitVec.toNat_ofNat ..).trans (Nat.mod_eq_of_lt hval),
      (BitVec.toNat_ofNat ..).trans (Nat.mod_eq_of_lt (by omega))⟩
  · have hget := (putAll_holds hw h).getBits
    rw [lsbBits_length, lsbValue_lsbBits] at hget
    exact ⟨_, hget, by simp [putAll_eq_ok h]⟩
  · have hget := (putAll_holds hw h).getBitsRev
    rw [msbBits_length, msbValue_msbBits] at hget
    exact ⟨_, hget, by simp [putAll_eq_ok h]⟩

end Sys2Proof.Machine
end

section
/-! Two facts of the match finder (42_match_finder.md): zero runs are exact (R182), and without the finder, or with a window below
8, the tokens are the input's bytes (R185, R193). -/

namespace Sys2Proof.Machine

/-! ## Zero runs -/

section
variable (c : Finder)

/-- A count of zeros that ends early ends at a byte other than 0. -/
theorem Finder.zerosFrom_ne {fuel pos : Nat} (h : c.zerosFrom fuel pos < fuel) :
    Buf.byte c.data (pos + c.zerosFrom fuel pos) ≠ 0 := by
  induction fuel generalizing pos with
  | zero => exact absurd h (Nat.not_lt_zero _)
  | succ fuel ih =>
    rw [Finder.zerosFrom] at h ⊢
    split at h
    · next h0 =>
      rw [if_pos h0, ← Nat.add_assoc]
      exact ih (by omega)
    · next h0 =>
      rw [if_neg h0]
      exact fun hbyte => h0 (c.at_eq_zero_iff.2 hbyte)

theorem Finder.zeroRun_ne {pos : Nat} (h : pos + c.zeroRun pos < c.lastPos pos) :
    Buf.byte c.data (pos + c.zeroRun pos) ≠ 0 :=
  c.zerosFrom_ne (Nat.lt_sub_of_add_lt (by rwa [Nat.add_comm]))

end

/-- Settles O35: the run holds zeros and stays in its bound by `zeroRun_zero` and `zeroRun_le`, and ends early at a byte other
than 0 by `zeroRun_ne`. -/
theorem zeroRunIsExact : Obligations.ZeroRunIsExact := by
  refine fun c pos hpos => ⟨c.zeroRun_zero pos, ?_, c.zeroRun_ne⟩
  have hlast : pos ≤ c.lastPos pos := le_min hpos (Nat.le_add_right ..)
  exact (Nat.add_le_add_left (c.zeroRun_le pos) pos).trans_eq (Nat.add_sub_cancel' hlast)

/-! ## Windows below 8 -/

section
variable (c : Finder) (hw : c.window < 8)
include hw

/-- A window below 8 lets the chain walk visit no node (R185). -/
theorem Finder.findMatch_of_window_lt (t : MatchTables) (pos : Nat) : c.findMatch t pos = (0, 0) := by
  have hchain : Config.maxChain c.window = 0 := by
    rw [Config.maxChain, if_neg (by omega), Nat.div_eq_of_lt hw]
  rw [Finder.findMatch, hchain, Finder.walk]

/-- With no match found and none deferred, a pass emits a literal and defers nothing. -/
theorem Finder.pass_of_window_lt {st : TokLoop} (hd : st.deferred = none) :
    c.pass st = ⟨c.insert st.tables st.pos, st.pos + 1, none, c.at st.pos :: st.rev⟩ := by
  have hemit : ∀ t : MatchTables, c.emit t st.pos 0 0 st.rev = ⟨t, st.pos + 1, none, c.at st.pos :: st.rev⟩ := fun _ => rfl
  cases hlazy : c.lazyMatching with
  | false => rw [c.pass_eager st hlazy, c.findMatch_of_window_lt hw, hemit]
  | true => rw [c.pass_undeferred hlazy hd, c.findMatch_of_window_lt hw, if_neg (fun h => absurd h.1 (by decide)), hemit]

/-- The loop adds the literals of the bytes up to the end of the block. -/
theorem Finder.loop_of_window_lt {fuel : Nat} {st : TokLoop} (hd : st.deferred = none) (hfuel : c.stop - st.pos ≤ fuel) :
    (c.loop fuel st).rev.reverse = st.rev.reverse ++ literalTokens c.data st.pos c.stop := by
  induction fuel generalizing st with
  | zero => simp [Finder.loop, literalTokens, Nat.le_zero.1 hfuel]
  | succ fuel ih =>
    rw [Finder.loop]
    split
    · next hpos =>
      have hhead : literalTokens c.data st.pos c.stop = c.at st.pos :: literalTokens c.data (st.pos + 1) c.stop := by
        rw [literalTokens, ← Nat.succ_pred_eq_of_pos (Nat.sub_pos_of_lt hpos), List.range'_succ, List.map_cons]
        rfl
      rw [c.pass_of_window_lt hw hd, ih rfl (by simp only; omega), hhead]
      simp
    · next hpos => simp [literalTokens, Nat.sub_eq_zero_of_le (Nat.not_lt.1 hpos)]

theorem Finder.tokenize_of_window_lt (t : MatchTables) (start : Nat) :
    (c.tokenize t start).1 = literalTokens c.data start c.stop :=
  c.loop_of_window_lt hw rfl (Nat.le_mul_of_pos_left _ Nat.two_pos)

end

/-! ## The command -/

theorem literalTokens_bufOfBytes (l : List Byte) : literalTokens (bufOfBytes l) 0 l.length = l.map BitVec.toNat := by
  conv_rhs => rw [← firstBytes_bufOfBytes l]
  simp [literalTokens, Buf.firstBytes, List.range_eq_range']

/-- Without the match finder, or with a window below 8, a block's tokens are literals (R185, R193). -/
theorem tokenizeWith_literalTokens {r : Regs} (h : r.useLz77 = false ∨ r.window.toNat < 8) (par : FinderParams) (data : Buf)
    (t : MatchTables) (start stop : Nat) : (tokenizeWith par r data t start stop).1 = literalTokens data start stop := by
  rw [tokenizeWith]
  split
  · next huse => exact (r.finder par data stop).tokenize_of_window_lt (h.resolve_left (by simp [huse])) t start
  · rfl

theorem State.sourceTokens_of_literal {s : State} (h : s.operands.useLz77 = false ∨ s.operands.window.toNat < 8) :
    s.sourceTokens = (bytesAt s.mem s.operands.srcAddr.toNat s.operands.srcLen.toNat).map BitVec.toNat := by
  rw [← literalTokens_bufOfBytes, bytesAt_length]
  exact tokenizeWith_literalTokens h ..

/-- Settles O34: `tokenStreamReplaysToTheInput` says what the command does with its tokens, and `State.sourceTokens_of_literal` that
they are the source's bytes. -/
theorem literalOnlyTokenStream : Obligations.LiteralOnlyTokenStream := by
  intro s r n base hw hok hlit
  have htokens : s.sourceTokens = (bytesAt s.mem r.srcAddr.toNat n).map BitVec.toNat := s.sourceTokens_of_literal hlit
  have hcount : s.sourceTokens.length = n := by rw [htokens, List.length_map, bytesAt_length]
  refine ⟨fun hfit => ?_, fun hover => execLz77Tokenize_full hw hok (by rwa [hcount])⟩
  obtain ⟨-, -, -, hcommand⟩ := tokenStreamReplaysToTheInput s hw
  obtain ⟨m, hexec, hread, hframe⟩ := (hcommand hok).1 (show 2 * s.sourceTokens.length ≤ _ by rwa [hcount])
  refine ⟨m, by rw [← hcount]; exact hexec, fun k hk => ?_, by rw [← hcount]; exact hframe⟩
  have hentry : s.sourceTokens[k]'(by rwa [hcount]) = (s.mem.read (r.srcAddr.toNat + k)).toNat := by simp [htokens, bytesAt]
  exact (hread k _).trans hentry

end Sys2Proof.Machine
end

section
/-! Package-merge (43_huffman.md R214): the items taken from a round are a leading part of the leaves and the items of an earlier
round, so each round adds at most one to a symbol's occurrences, and the first `2n - 2` items of the last round give a complete code.
With the special lengths of R215 this is a builder as R217 requires. -/

namespace Sys2Proof.Machine

/-! ## The leaves in order -/

/-- The leaf of a symbol (R214). -/
def leafOf (freq : List Nat) (s : Nat) : Item := ⟨freq.getD s 0, [s]⟩

/-- The symbols with a nonzero frequency, in increasing order. -/
def usedSymbols (freq : List Nat) : List Nat := (List.range freq.length).filter fun s => freq.getD s 0 ≠ 0

/-- The used symbols in increasing order of frequency, then symbol (R214). -/
def symbolsByWeight (freq : List Nat) : List Nat := (usedSymbols freq).insertionSort fun s t => freq.getD s 0 ≤ freq.getD t 0

theorem insertLeaf_eq_orderedInsert (x : Item) (l : List Item) :
    insertLeaf x l = l.orderedInsert (fun y z => y.weight ≤ z.weight) x := by
  induction l with
  | nil => rfl
  | cons y l ih => rw [insertLeaf, List.orderedInsert_cons, ih]

section
variable (freq : List Nat)

theorem leaves_eq : leaves freq = (symbolsByWeight freq).map (leafOf freq) := by
  have hsort : leaves freq = ((usedSymbols freq).map (leafOf freq)).insertionSort fun y z => y.weight ≤ z.weight := by
    rw [leaves, funext₂ insertLeaf_eq_orderedInsert]
    rfl
  rw [hsort, symbolsByWeight, List.map_insertionSort (s := fun y z : Item => y.weight ≤ z.weight) _ (leafOf freq)]
  exact fun _ _ _ _ => Iff.rfl

theorem symbolsByWeight_perm : (symbolsByWeight freq).Perm (usedSymbols freq) := List.perm_insertionSort ..

theorem symbolsByWeight_nodup : (symbolsByWeight freq).Nodup :=
  (symbolsByWeight_perm freq).nodup_iff.2 (List.nodup_range.filter _)

theorem mem_usedSymbols {s : Nat} : s ∈ usedSymbols freq ↔ freq.getD s 0 ≠ 0 := by
  rw [usedSymbols, List.mem_filter, List.mem_range, decide_eq_true_eq]
  exact and_iff_right_of_imp lt_length_of_getD_ne_zero

theorem mem_symbolsByWeight {s : Nat} : s ∈ symbolsByWeight freq ↔ freq.getD s 0 ≠ 0 :=
  (symbolsByWeight_perm freq).mem_iff.trans (mem_usedSymbols freq)

theorem length_usedSymbols : (usedSymbols freq).length = (freq.filter (· ≠ 0)).length := by
  have hfreq : (List.range freq.length).map (fun s => freq.getD s 0) = freq :=
    List.ext_getElem (by simp) fun s _ h => by simp [h]
  conv_rhs => rw [← hfreq, List.filter_map, List.length_map]
  rfl

theorem length_symbolsByWeight : (symbolsByWeight freq).length = (freq.filter (· ≠ 0)).length :=
  (symbolsByWeight_perm freq).length_eq.trans (length_usedSymbols freq)

theorem leaves_pairwise : (leaves freq).Pairwise fun x y => x.weight ≤ y.weight := by
  rw [leaves_eq, List.pairwise_map]
  have : Std.Total fun s t => freq.getD s 0 ≤ freq.getD t 0 := ⟨fun s t => Nat.le_total (freq.getD s 0) (freq.getD t 0)⟩
  have : IsTrans Nat fun s t => freq.getD s 0 ≤ freq.getD t 0 := ⟨fun _ _ _ => Nat.le_trans⟩
  exact List.pairwise_insertionSort _ _

end

/-! ## The merge -/

@[simp] theorem mergeItems_nil_left (ps : List Item) : mergeItems [] ps = ps := rfl

@[simp] theorem mergeItems_nil_right (ls : List Item) : mergeItems ls [] = ls := by
  induction ls with
  | nil => rfl
  | cons x xs ih => exact congrArg (x :: ·) ih

theorem mergeItems_cons_cons (x y : Item) (xs ys : List Item) : mergeItems (x :: xs) (y :: ys) =
    if x.weight ≤ y.weight then x :: mergeItems xs (y :: ys) else y :: mergeItems (x :: xs) ys := rfl

theorem mergeItems_perm (ls ps : List Item) : (mergeItems ls ps).Perm (ls ++ ps) := by
  induction ls generalizing ps with
  | nil => rfl
  | cons x xs ihx =>
    induction ps with
    | nil => simp
    | cons y ys ihy =>
      rw [mergeItems_cons_cons]
      split
      · exact (ihx (y :: ys)).cons x
      · exact (ihy.cons y).trans List.perm_middle.symm

/-- The first `c` items of a merge are the first `a` leaves and the first `p` packages, and of two items of equal weight the leaf
is taken first: a leaf no heavier than a package taken is taken (R214). -/
theorem take_mergeItems {ls : List Item} (hs : ls.Pairwise fun x y => x.weight ≤ y.weight) (ps : List Item) {c : Nat}
    (hc : c ≤ ls.length + ps.length) :
    ∃ a p, a + p = c ∧ p ≤ ps.length ∧ a ≤ ls.length ∧ ((mergeItems ls ps).take c).Perm (ls.take a ++ ps.take p) ∧
      ∀ x ∈ ls, ∀ y ∈ ps.take p, x.weight ≤ y.weight → x ∈ ls.take a := by
  induction c generalizing ls ps with
  | zero => exact ⟨0, 0, by simp⟩
  | succ c ih =>
    cases ls with
    | nil => exact ⟨0, c + 1, by simpa using hc⟩
    | cons x xs =>
      cases ps with
      | nil => exact ⟨c + 1, 0, by simpa using hc⟩
      | cons y ys =>
        obtain ⟨hx, hxs⟩ := List.pairwise_cons.1 hs
        simp only [List.length_cons] at hc ⊢
        rw [mergeItems_cons_cons]
        split
        · obtain ⟨a, p, hap, hp, ha, hperm, hfirst⟩ := ih hxs (y :: ys) (by simp only [List.length_cons]; omega)
          refine ⟨a + 1, p, by omega, hp, by omega, hperm.cons x, fun z hz w hw hzw => ?_⟩
          rw [List.take_succ_cons]
          rcases List.mem_cons.1 hz with rfl | hz
          · exact List.mem_cons_self
          · exact List.mem_cons_of_mem _ (hfirst z hz w hw hzw)
        · next hxy =>
          obtain ⟨a, p, hap, hp, ha, hperm, hfirst⟩ := ih hs ys (by simp only [List.length_cons]; omega)
          refine ⟨a, p + 1, by omega, by omega, ha, (hperm.cons y).trans List.perm_middle.symm, fun z hz w hw hzw => ?_⟩
          rw [List.take_succ_cons] at hw
          rcases List.mem_cons.1 hw with rfl | hw
          · rcases List.mem_cons.1 hz with rfl | hz
            · exact absurd hzw hxy
            · exact absurd ((hx z hz).trans hzw) hxy
          · exact hfirst z hz w hw hzw

/-! ## Packages -/

theorem length_packages (items : List Item) : (packages items).length = items.length / 2 := by
  fun_induction packages items with
  | case1 a b rest ih => simp only [List.length_cons, ih]; omega
  | case2 items h =>
    match items, h with
    | [], _ => rfl
    | [_], _ => exact (Nat.div_eq_of_lt Nat.one_lt_two).symm
    | a :: b :: rest, h => exact (h a b rest rfl).elim

/-- The first packages hold the symbols of twice as many items. -/
theorem flatMap_syms_take_packages (items : List Item) {p : Nat} (hp : 2 * p ≤ items.length) :
    ((packages items).take p).flatMap (·.syms) = (items.take (2 * p)).flatMap (·.syms) := by
  induction p generalizing items with
  | zero => rfl
  | succ p ih =>
    match items, hp with
    | a :: b :: rest, hp =>
      have hrest := ih rest (by simp only [List.length_cons] at hp; omega)
      rw [Nat.mul_succ]
      simp [packages, hrest]

/-- An item holds used symbols only, and is at least as heavy as each of them. -/
def Item.Sound (freq : List Nat) (x : Item) : Prop := ∀ s ∈ x.syms, freq.getD s 0 ≠ 0 ∧ freq.getD s 0 ≤ x.weight

section
variable {freq : List Nat} {items : List Item}

theorem sound_packages (h : ∀ x ∈ items, x.Sound freq) : ∀ x ∈ packages items, x.Sound freq := by
  fun_induction packages items with
  | case1 a b rest ih =>
    obtain ⟨ha, hb, hrest⟩ : a.Sound freq ∧ b.Sound freq ∧ ∀ x ∈ rest, x.Sound freq := by simpa using h
    refine List.forall_mem_cons.2 ⟨fun s hs => ?_, ih hrest⟩
    rcases List.mem_append.1 hs with hs | hs
    · exact ⟨(ha s hs).1, (ha s hs).2.trans (Nat.le_add_right ..)⟩
    · exact ⟨(hb s hs).1, (hb s hs).2.trans (Nat.le_add_left ..)⟩
  | case2 => simp

theorem sound_leaves : ∀ x ∈ leaves freq, x.Sound freq := by
  intro x hx s hs
  rw [leaves_eq] at hx
  obtain ⟨t, ht, rfl⟩ := List.mem_map.1 hx
  obtain rfl := List.mem_singleton.1 hs
  exact ⟨(mem_symbolsByWeight freq).1 ht, le_rfl⟩

/-! ## One round -/

/-- The symbols of the first `c` items, one for each leaf occurrence. -/
def occurrences (items : List Item) (c : Nat) : List Nat := (items.take c).flatMap (·.syms)

/-- The first items of a round: the first `a` leaves, and the first `2p` items of the round before, all of whose symbols are among
those leaves. -/
theorem occurrences_merge (h : ∀ x ∈ items, x.Sound freq) {c : Nat}
    (hc : c ≤ (mergeItems (leaves freq) (packages items)).length) :
    ∃ a p, a + p = c ∧ 2 * p ≤ items.length ∧ a ≤ (symbolsByWeight freq).length ∧
      (occurrences (mergeItems (leaves freq) (packages items)) c).Perm ((symbolsByWeight freq).take a ++ occurrences items (2 * p)) ∧
      ∀ s ∈ occurrences items (2 * p), s ∈ (symbolsByWeight freq).take a := by
  have hleaf : ∀ a, ((leaves freq).take a) = ((symbolsByWeight freq).take a).map (leafOf freq) := fun a => by
    rw [leaves_eq, List.map_take]
  rw [(mergeItems_perm _ _).length_eq, List.length_append] at hc
  obtain ⟨a, p, hap, hp, ha, hperm, hfirst⟩ := take_mergeItems (leaves_pairwise freq) (packages items) hc
  rw [length_packages] at hp
  have hpack := flatMap_syms_take_packages items (show 2 * p ≤ items.length by omega)
  refine ⟨a, p, hap, by omega, by rwa [leaves_eq, List.length_map] at ha, ?_, fun s hs => ?_⟩
  · refine (hperm.flatMap_right _).trans (.of_eq ?_)
    rw [List.flatMap_append, hpack, hleaf, occurrences, List.flatMap_map]
    exact congrArg (· ++ _) (List.flatMap_singleton' _)
  · rw [occurrences, ← hpack] at hs
    obtain ⟨x, hx, hsx⟩ := List.mem_flatMap.1 hs
    obtain ⟨hused, hweight⟩ := sound_packages h x (List.mem_of_mem_take hx) s hsx
    have hmem : leafOf freq s ∈ leaves freq := by
      rw [leaves_eq]
      exact List.mem_map_of_mem ((mem_symbolsByWeight freq).2 hused)
    obtain ⟨t, ht, hts⟩ := List.mem_map.1 (hleaf a ▸ hfirst _ hmem x hx hweight)
    obtain rfl : t = s := by simpa [leafOf] using congrArg Item.syms hts
    exact ht

end

/-- A layer of leaves: the first `a` symbols of `us` occur once more than before, and a symbol that occurs before is one of them. -/
theorem sum_layer {us : List Nat} (hnd : us.Nodup) {a k : Nat} (ha : a ≤ us.length) (old : Nat → Nat)
    (htop : ∀ s, old s ≠ 0 → s ∈ us.take a) :
    (us.map fun s => 2 ^ (k + 1 - ((us.take a).count s + old s))).sum + a * 2 ^ k =
      (us.map fun s => 2 ^ (k - old s)).sum + us.length * 2 ^ k := by
  have hdisj : ∀ s ∈ us.drop a, s ∉ us.take a := by
    rw [← List.take_append_drop a us] at hnd
    exact fun s hs ht => List.disjoint_of_nodup_append hnd ht hs
  have hone : ∀ s ∈ us.take a, 2 ^ (k + 1 - ((us.take a).count s + old s)) = 2 ^ (k - old s) := fun s hs => by
    rw [List.count_eq_one_of_mem (hnd.sublist (List.take_sublist ..)) hs, Nat.add_comm 1, Nat.add_sub_add_right]
  have hzero : ∀ s ∈ us.drop a, old s = 0 := fun s hs => by
    by_contra h
    exact hdisj s hs (htop s h)
  have hnew : ∀ s ∈ us.drop a, 2 ^ (k + 1 - ((us.take a).count s + old s)) = 2 ^ (k + 1) := fun s hs => by
    rw [hzero s hs, List.count_eq_zero_of_not_mem (hdisj s hs)]
    rfl
  have hold : ∀ s ∈ us.drop a, 2 ^ (k - old s) = 2 ^ k := fun s hs => by
    rw [hzero s hs]
    rfl
  have hsplit : ∀ f : Nat → Nat, (us.map f).sum = ((us.take a).map f).sum + ((us.drop a).map f).sum := fun f => by
    rw [← List.sum_append, ← List.map_append, List.take_append_drop]
  rw [hsplit, hsplit, List.map_congr_left hone, List.map_congr_left hnew, List.map_congr_left hold, List.map_const', List.map_const',
    List.sum_replicate, List.sum_replicate, List.length_drop, smul_eq_mul, smul_eq_mul]
  obtain ⟨d, hd⟩ := Nat.exists_eq_add_of_le ha
  rw [hd, Nat.add_sub_cancel_left]
  ring

/-- The account of a list of items after `k` rounds, for any number `c` of first items: a symbol occurs at most `k` times in them,
and the widths `2^-1, 2^-2, …` of all occurrences add up to half the number of items. -/
structure RoundAccount (freq : List Nat) (k : Nat) (items : List Item) : Prop where
  sound : ∀ x ∈ items, x.Sound freq
  count_le : ∀ c ≤ items.length, ∀ s, (occurrences items c).count s ≤ k
  width : ∀ c ≤ items.length, 2 * ((symbolsByWeight freq).map fun s => 2 ^ (k - (occurrences items c).count s)).sum + c * 2 ^ k =
    2 * (symbolsByWeight freq).length * 2 ^ k

theorem RoundAccount.nil (freq : List Nat) : RoundAccount freq 0 [] where
  sound := by simp
  count_le := by simp [occurrences]
  width := by simp

theorem RoundAccount.next {freq : List Nat} {k : Nat} {items : List Item} (h : RoundAccount freq k items) :
    RoundAccount freq (k + 1) (mergeItems (leaves freq) (packages items)) where
  sound x hx := by
    rcases List.mem_append.1 ((mergeItems_perm _ _).mem_iff.1 hx) with hx | hx
    · exact sound_leaves x hx
    · exact sound_packages h.sound x hx
  count_le c hc s := by
    obtain ⟨a, p, -, hp, -, hperm, -⟩ := occurrences_merge h.sound hc
    have hnew := List.nodup_iff_count_le_one.1 ((symbolsByWeight_nodup freq).sublist (List.take_sublist a _)) s
    have hold := h.count_le _ hp s
    rw [hperm.count_eq, List.count_append]
    omega
  width c hc := by
    obtain ⟨a, p, rfl, hp, ha, hperm, htop⟩ := occurrences_merge h.sound hc
    have hold := h.width _ hp
    have hlayer := sum_layer (symbolsByWeight_nodup freq) (k := k) ha (fun s => (occurrences items (2 * p)).count s)
      fun s hs => htop s (List.count_pos_iff.1 (Nat.pos_of_ne_zero hs))
    simp only [hperm.count_eq, List.count_append, Nat.pow_succ]
    linarith

/-! ## All rounds -/

theorem rounds_account (freq : List Nat) (k : Nat) : RoundAccount freq (k + 1) (rounds (leaves freq) k) := by
  induction k with
  | zero => simpa [rounds, packages] using (RoundAccount.nil freq).next
  | succ k ih => exact ih.next

/-- Enough items are there: with at most `t * 2^k` leaves all but `t` of twice their number. -/
theorem le_length_rounds (ls : List Item) {k t : Nat} (h : ls.length ≤ 2 ^ k * t) : 2 * ls.length ≤ (rounds ls k).length + t := by
  induction k generalizing t with
  | zero => rw [rounds]; omega
  | succ k ih =>
    have hprev := ih (t := 2 * t) (by rwa [Nat.pow_succ, Nat.mul_assoc] at h)
    rw [rounds, (mergeItems_perm _ _).length_eq, List.length_append, length_packages]
    omega

/-- When the widths of two or more symbols make a whole, none of them is whole. -/
theorem ne_zero_of_sum_widths {us : List Nat} {m : Nat} (f : Nat → Nat) (h2 : 2 ≤ us.length)
    (hsum : (us.map fun s => 2 ^ (m - f s)).sum = 2 ^ m) : ∀ s ∈ us, f s ≠ 0 := by
  intro s hs h0
  have hperm := (List.perm_cons_erase hs).map fun s => 2 ^ (m - f s)
  have hlen := List.length_erase_of_mem hs
  rw [hperm.sum_eq, List.map_cons, List.sum_cons, h0, Nat.sub_zero, Nat.add_eq_left] at hsum
  have hrest := List.length_le_sum_of_one_le ((us.erase s).map fun s => 2 ^ (m - f s)) fun w hw => by
    obtain ⟨t, -, rfl⟩ := List.mem_map.1 hw
    exact Nat.one_le_two_pow
  rw [List.length_map] at hrest
  omega

/-! ## Complete codes -/

/-- Kraft's sum over the symbols with a code (43_huffman.md R211). -/
theorem kraft_eq_sum {len us : List Nat} (m : Nat) (hnd : us.Nodup) (hus : ∀ s, s ∈ us ↔ len.getD s 0 ≠ 0) :
    kraft len m = (us.map fun s => 2 ^ (m - len.getD s 0)).sum := by
  have hlen : len = (List.range len.length).map fun s => len.getD s 0 := List.ext_getElem (by simp) fun s h _ => by simp [h]
  have hperm : ((List.range len.length).filter fun s => len.getD s 0 ≠ 0).Perm us := by
    refine (List.perm_ext_iff_of_nodup (List.nodup_range.filter _) hnd).2 fun s => ?_
    rw [List.mem_filter, List.mem_range, decide_eq_true_eq, hus]
    exact and_iff_right_of_imp lt_length_of_getD_ne_zero
  calc kraft len m
      = ((List.range len.length).map fun s => if len.getD s 0 ≠ 0 then 2 ^ (m - len.getD s 0) else 0).sum := by
        conv_lhs => rw [hlen]
        simp [kraft, Function.comp_def]
    _ = (((List.range len.length).filter fun s => len.getD s 0 ≠ 0).map fun s => 2 ^ (m - len.getD s 0)).sum := by
        rw [List.sum_map_ite]
        simp
    _ = _ := (hperm.map _).sum_eq

/-- A code of at most `m ≥ 1` bits whose Kraft sum is whole has two symbols (R214). -/
theorem two_le_coded {len : List Nat} {m : Nat} (hm : 1 ≤ m) (hk : kraft len m = 2 ^ m) : 2 ≤ (len.filter (· ≠ 0)).length := by
  have hle : kraft len m ≤ (len.filter (· ≠ 0)).length * 2 ^ (m - 1) := by
    clear hk
    induction len with
    | nil => simp
    | cons l len ih =>
      rw [kraft_cons]
      by_cases h0 : l = 0
      · simpa [h0] using ih
      · have hpow : 2 ^ (m - l) ≤ 2 ^ (m - 1) := Nat.pow_le_pow_right (by decide) (by omega)
        rw [if_neg h0, List.filter_cons_of_pos (by simpa using h0), List.length_cons, Nat.succ_mul, Nat.add_comm]
        exact Nat.add_le_add ih hpow
  obtain ⟨k, rfl⟩ : ∃ k, m = k + 1 := ⟨m - 1, by omega⟩
  rw [hk, Nat.pow_succ, Nat.mul_comm, Nat.add_sub_cancel] at hle
  exact Nat.le_of_mul_le_mul_right hle (Nat.two_pow_pos k)

/-! ## The builder -/

/-- What the lengths of a builder are (R214, R217): a complete code with a length for every symbol, and a code for every used symbol
and, when these are two or more, for no other. -/
structure BuiltLengths (freq : List Nat) (m : Nat) (len : List Nat) : Prop where
  length_eq : len.length = freq.length
  le : ∀ l ∈ len, l ≤ m
  kraft_eq : kraft len m = 2 ^ m
  coded : ∀ s, freq.getD s 0 ≠ 0 → len.getD s 0 ≠ 0
  uncoded : 2 ≤ (freq.filter (· ≠ 0)).length → ∀ s, freq.getD s 0 = 0 → len.getD s 0 = 0

section
variable {freq : List Nat} {m : Nat}

/-- The occurrences that give the lengths (R214): at most `k + 1` of a symbol, those of the used symbols and no other, and together a
whole. -/
theorem sum_occurrences {k : Nat} (h2 : 2 ≤ (leaves freq).length) (hfit : (leaves freq).length ≤ 2 ^ (k + 1)) :
    let occ := occurrences (rounds (leaves freq) k) (2 * (leaves freq).length - 2)
    (∀ s, occ.count s ≤ k + 1) ∧ (∀ s, s ∈ symbolsByWeight freq ↔ occ.count s ≠ 0) ∧
      ((symbolsByWeight freq).map fun s => 2 ^ (k + 1 - occ.count s)).sum = 2 ^ (k + 1) := by
  intro occ
  obtain ⟨hsound, hcount, hwidth⟩ := rounds_account freq k
  have hn : (leaves freq).length = (symbolsByWeight freq).length := by rw [leaves_eq, List.length_map]
  have hc : 2 * (leaves freq).length - 2 ≤ (rounds (leaves freq) k).length := by
    have := le_length_rounds (leaves freq) (k := k) (t := 2) hfit
    omega
  have hsum : ((symbolsByWeight freq).map fun s => 2 ^ (k + 1 - occ.count s)).sum = 2 ^ (k + 1) := by
    have hwidth := hwidth _ hc
    obtain ⟨j, hj⟩ : ∃ j, (leaves freq).length = j + 1 := ⟨(leaves freq).length - 1, by omega⟩
    have h2j : 2 * (leaves freq).length - 2 = 2 * j := by omega
    rw [← hn, h2j, hj] at hwidth
    simp only [occ, h2j]
    linarith
  refine ⟨hcount _ hc, fun s => ⟨ne_zero_of_sum_widths occ.count (hn ▸ h2) hsum s, fun h => ?_⟩, hsum⟩
  obtain ⟨x, hx, hsx⟩ := List.mem_flatMap.1 (List.count_pos_iff.1 (Nat.pos_of_ne_zero h))
  exact (mem_symbolsByWeight freq).2 (hsound x (List.mem_of_mem_take hx) s hsx).1

/-- Package-merge (R214), for two or more used symbols that fit. -/
theorem builtLengths_packageMerge (hm : 1 ≤ m) (h2 : 2 ≤ (leaves freq).length) (hfit : (leaves freq).length ≤ 2 ^ m) :
    BuiltLengths freq m ((List.range freq.length).map
      (occurrences (rounds (leaves freq) (m - 1)) (2 * (leaves freq).length - 2)).count) := by
  obtain ⟨k, rfl⟩ : ∃ k, m = k + 1 := ⟨m - 1, by omega⟩
  rw [Nat.add_sub_cancel]
  obtain ⟨hcount, hmem, hsum⟩ := sum_occurrences h2 hfit
  generalize occurrences (rounds (leaves freq) k) (2 * (leaves freq).length - 2) = occ at *
  have hused : ∀ s, freq.getD s 0 ≠ 0 ↔ occ.count s ≠ 0 := fun s => (mem_symbolsByWeight freq).symm.trans (hmem s)
  have hget : ∀ s, ((List.range freq.length).map occ.count).getD s 0 = occ.count s := fun s => by
    rcases Nat.lt_or_ge s freq.length with hs | hs
    · simp [hs]
    · have h0 := not_not.1 (mt (hused s).2 (not_not.2 (List.getD_eq_default _ _ hs)))
      rw [List.getD_eq_default _ _ (by simpa using hs), h0]
  exact {
    length_eq := by simp
    le := fun l hl => by
      obtain ⟨s, -, rfl⟩ := List.mem_map.1 hl
      exact hcount s
    kraft_eq := by
      rw [kraft_eq_sum (k + 1) (symbolsByWeight_nodup freq) fun s => by rw [hget, hmem]]
      simpa only [hget] using hsum
    coded := fun s hs => by rw [hget]; exact (hused s).1 hs
    uncoded := fun _ s hs => by rw [hget]; exact not_not.1 (mt (hused s).2 (not_not.2 hs)) }

theorem specialLengths_getD {n s k : Nat} {used : List Nat} (hs : used.headD 0 = s) (hsn : s < n) (hn : 2 ≤ n) :
    (specialLengths n used).getD k 0 = if k = s ∨ k = (if s = 0 then 1 else 0) then 1 else 0 := by
  rcases Nat.lt_or_ge k n with hk | hk
  · simp only [specialLengths, hs, List.getD_eq_getElem?_getD, List.getElem?_map, List.getElem?_range hk, Option.map_some,
      Option.getD_some]
    by_cases h0 : s = 0 <;> simp [h0]
  · rw [List.getD_eq_default _ _ (by simpa [specialLengths] using hk), if_neg]
    split <;> omega

theorem eq_headD_of_mem {us : List Nat} (h1 : us.length ≤ 1) {t : Nat} (ht : t ∈ us) : t = us.headD 0 := by
  match us, h1 with
  | [u], _ => exact List.mem_singleton.1 ht

/-- The special lengths (R215), for at most one used symbol. -/
theorem builtLengths_special (hn : 2 ≤ freq.length) (hm : 1 ≤ m) (h1 : (symbolsByWeight freq).length ≤ 1) :
    BuiltLengths freq m (specialLengths freq.length (symbolsByWeight freq)) := by
  obtain ⟨s, hs⟩ : ∃ s, (symbolsByWeight freq).headD 0 = s := ⟨_, rfl⟩
  have hused : ∀ t ∈ symbolsByWeight freq, t = s := fun t ht => hs ▸ eq_headD_of_mem h1 ht
  have hsn : s < freq.length := by
    cases hus : symbolsByWeight freq with
    | nil =>
      rw [hus, List.headD_nil] at hs
      omega
    | cons u us =>
      obtain rfl : u = s := by rwa [hus, List.headD_cons] at hs
      exact lt_length_of_getD_ne_zero ((mem_symbolsByWeight freq).1 (hus ▸ List.mem_cons_self))
  have hget := fun k => specialLengths_getD (k := k) hs hsn hn
  obtain ⟨t, ht⟩ : ∃ t, (if s = 0 then 1 else 0) = t := ⟨_, rfl⟩
  have hts : s ≠ t := by split at ht <;> omega
  simp only [ht] at hget
  exact {
    length_eq := specialLengths_length ..
    le := fun l hl => by
      obtain ⟨k, -, rfl⟩ := List.mem_map.1 hl
      split <;> omega
    kraft_eq := by
      rw [kraft_eq_sum (us := [s, t]) m (by simpa using hts) fun k => by rw [hget]; simp [or_iff_not_imp_left]]
      obtain ⟨k, rfl⟩ : ∃ k, m = k + 1 := ⟨m - 1, by omega⟩
      simp only [List.map_cons, List.map_nil, List.sum_cons, List.sum_nil, hget, true_or, or_true, if_true, Nat.add_sub_cancel]
      rw [Nat.pow_succ]
      omega
    coded := fun k hk => by
      obtain rfl := hused k ((mem_symbolsByWeight freq).2 hk)
      rw [hget, if_pos (.inl rfl)]
      exact Nat.one_ne_zero
    uncoded := fun h2 => by
      rw [← length_symbolsByWeight] at h2
      omega }

/-- The builder's answer (R214). -/
theorem lengthsFromFrequencies_cases (hn : 2 ≤ freq.length) (hm : 1 ≤ m) :
    ((freq.filter (· ≠ 0)).length ≤ 2 ^ m ∧ ∃ len, lengthsFromFrequencies freq m = .ok len ∧ BuiltLengths freq m len) ∨
    (2 ^ m < (freq.filter (· ≠ 0)).length ∧ lengthsFromFrequencies freq m = .error .alphabetTooLarge) := by
  have hlen : (leaves freq).length = (freq.filter (· ≠ 0)).length := by
    rw [leaves_eq, List.length_map, length_symbolsByWeight]
  have hsyms : (leaves freq).flatMap (·.syms) = symbolsByWeight freq := by
    rw [leaves_eq, List.flatMap_map]
    exact List.flatMap_singleton' _
  have hpow : 2 ≤ 2 ^ m := Nat.le_self_pow (by omega) 2
  unfold lengthsFromFrequencies
  simp only [hsyms]
  split
  · next h1 =>
    exact .inl ⟨by omega, _, rfl, builtLengths_special hn hm (by rwa [length_symbolsByWeight, ← hlen])⟩
  · split
    · exact .inr ⟨by omega, rfl⟩
    · exact .inl ⟨by omega, _, rfl, builtLengths_packageMerge hm (by omega) (by omega)⟩

end

/-- Package-merge is a builder as R217 requires. -/
theorem lengthsFromFrequencies_legal : LegalBuilder lengthsFromFrequencies := by
  intro freq m hn hm _
  rcases lengthsFromFrequencies_cases hn hm with ⟨-, len, hok, hlen, hle, hk, hcoded, -⟩ | ⟨hmany, herr⟩
  · refine ⟨fun len' h => ?_, fun e h => ?_⟩
    · obtain rfl : len = len' := by simpa [hok] using h
      exact ⟨hlen, hle, hk, two_le_coded hm hk, fun k _ => hcoded k⟩
    · simp [hok] at h
  · refine ⟨fun len h => ?_, fun e h => ?_⟩
    · simp [herr] at h
    · obtain rfl : ErrCode.alphabetTooLarge = e := by simpa [herr] using h
      exact ⟨rfl, hmany⟩

/-- Settles O37: the builder's account makes the code complete, and in a complete code a symbol's bits decode to it. -/
theorem builtCodesAreCompleteAndDecode : Obligations.BuiltCodesAreCompleteAndDecode := by
  intro freq m hn hm _ hfit
  obtain ⟨-, len, hok, hlen⟩ | ⟨hmany, -⟩ := lengthsFromFrequencies_cases hn hm
  · have hc : complete len m = true := complete_iff.2 ⟨hlen.le, hlen.kraft_eq⟩
    exact ⟨len, hok, hlen.length_eq, hc, fun k hk =>
      ⟨_, decodeSymbol_code (prefixFree_of_complete hc) hk (readerOfBits_holds _), Nat.zero_add _⟩⟩
  · omega

end Sys2Proof.Machine
end

section
/-! Writing a dynamic header (43_huffman.md R218, R219), for any tree builder: the run-length symbols expand to the lengths they were
made from, and the bits are the fields and pairs of a header as the reader knows it. Reading them back is then the account of the
reader. -/

namespace Sys2Proof.Machine

/-! ## Runs -/

/-- The symbols `ps` stand for `n` copies of the length `x` (30_encoding.md R106): they expand to them after any lengths, each is one of
the 19 with an extra value in its field, and the first one does not look back. -/
structure CodesRun (x n : Nat) (ps : List (Nat × Nat)) : Prop where
  expand : ∀ lens, ps.foldl expandPair lens = lens ++ List.replicate n x
  symbol : ∀ p ∈ ps, p.1 ≤ 18 ∧ p.2 < 2 ^ clExtraBits p.1
  head : ∀ p ∈ ps.head?, p.1 ≠ 16

theorem expandPair_of_le {x : Nat} (hx : x ≤ 15) (v : Nat) (lens : List Nat) : expandPair lens (x, v) = lens ++ [x] := by
  rw [expandPair_eq, runOf, if_pos hx]
  rfl

theorem expandPair_repeat (x v : Nat) (lens : List Nat) :
    expandPair (lens ++ [x]) (16, v) = lens ++ [x] ++ List.replicate (3 + v) x := by
  simp [expandPair]

/-- Repeats of the last length. -/
theorem foldl_repeats (x n : Nat) (vs : List Nat) (lens : List Nat) :
    (vs.map fun v => (16, v)).foldl expandPair (lens ++ List.replicate (n + 1) x) =
      lens ++ List.replicate (n + 1 + (vs.map (3 + ·)).sum) x := by
  induction vs generalizing n with
  | nil => rfl
  | cons v vs ih =>
    have hstep : expandPair (lens ++ List.replicate (n + 1) x) (16, v) = lens ++ List.replicate (n + (3 + v) + 1) x := by
      rw [Nat.add_right_comm, ← List.replicate_append_replicate (n := n + 1), List.replicate_succ', ← List.append_assoc lens,
        expandPair_repeat]
      simp
    rw [List.map_cons, List.foldl_cons, hstep, ih, List.map_cons, List.sum_cons]
    congr 2
    omega

theorem codesRun_zeros17 {n : Nat} (h3 : 3 ≤ n) (h : n ≤ 10) : CodesRun 0 n [(17, n - 3)] where
  expand lens := by simp [expandPair, Nat.add_sub_cancel' h3]
  symbol := by simp [clExtraBits]; omega
  head := by simp

theorem codesRun_zeros18 {n : Nat} (h11 : 11 ≤ n) (h : n ≤ 138) : CodesRun 0 n [(18, n - 11)] where
  expand lens := by simp [expandPair, Nat.add_sub_cancel' h11]
  symbol := by simp [clExtraBits]; omega
  head := by simp

/-- A length, and repeats of it. -/
theorem codesRun_repeats {x n : Nat} (hx : x ≤ 15) {vs : List Nat} (hvs : ∀ v ∈ vs, v < 4) (hn : 1 + (vs.map (3 + ·)).sum = n) :
    CodesRun x n ((x, 0) :: vs.map fun v => (16, v)) where
  expand lens := by
    rw [List.foldl_cons, expandPair_of_le hx, ← hn]
    exact foldl_repeats x 0 vs lens
  symbol := by
    have hextra : clExtraBits x = 0 := by simp [clExtraBits, show x ≠ 16 ∧ x ≠ 17 ∧ x ≠ 18 by omega]
    simp only [List.mem_cons, List.mem_map, forall_eq_or_imp, forall_exists_index, and_imp]
    exact ⟨⟨by omega, by simp [hextra]⟩, fun p v hv hp => hp ▸ ⟨Nat.le_add_right 16 2, hvs v hv⟩⟩
  head := by simp; omega

/-- The front of a list is made of copies, as far as they go. -/
theorem eq_replicate_append_drop (x : Nat) (xs : List Nat) {i : Nat} (hi : i ≤ (xs.takeWhile (· == x)).length) :
    xs = List.replicate i x ++ xs.drop i := by
  induction i generalizing xs with
  | zero => rfl
  | succ i ih =>
    cases xs with
    | nil => simp at hi
    | cons y ys =>
      rw [List.takeWhile_cons] at hi
      split at hi
      · next hy =>
        obtain rfl : y = x := by simpa using hy
        simpa [List.replicate_succ] using ih ys (by simpa using hi)
      · simp at hi

/-- One pass of `RleCodeLengths` (R218): some symbols for a run at the front, and what is left. -/
theorem rleLoop_cons (fuel : Nat) {x : Nat} (hx : x ≤ 15) (xs : List Nat) :
    ∃ ps i, rleLoop (fuel + 1) (x :: xs) = ps ++ rleLoop fuel (xs.drop i) ∧ CodesRun x (i + 1) ps ∧
      x :: xs = List.replicate (i + 1) x ++ xs.drop i := by
  obtain ⟨j, hj⟩ : ∃ j, (xs.takeWhile (· == x)).length = j := ⟨_, rfl⟩
  have hfront : ∀ i ≤ j, x :: xs = List.replicate (i + 1) x ++ xs.drop i := fun i hi =>
    congrArg (x :: ·) (eq_replicate_append_drop x xs (hj ▸ hi))
  rw [rleLoop]
  simp only [hj]
  split
  · next h0 =>
    obtain ⟨rfl, h2⟩ := h0
    split
    · exact ⟨_, j, rfl, codesRun_zeros17 (by omega) (by omega), hfront j le_rfl⟩
    · refine ⟨[_], min (j + 1) 138 - 1, rfl, ?_, hfront _ (by omega)⟩
      rw [Nat.sub_add_cancel (by omega)]
      exact codesRun_zeros18 (by omega) (by omega)
  · split
    · have hlt : ∀ v ∈ List.replicate (j / 6) 3, v < 4 := fun v hv => by rw [List.eq_of_mem_replicate hv]; decide
      split
      · refine ⟨(x, 0) :: (List.replicate (j / 6) 3 ++ [j % 6 - 3]).map fun v => (16, v), j, by simp,
          codesRun_repeats hx (fun v hv => ?_) (by simp; omega), hfront j le_rfl⟩
        rcases List.mem_append.1 hv with hv | hv
        · exact hlt v hv
        · rw [List.mem_singleton.1 hv]
          omega
      · exact ⟨(x, 0) :: (List.replicate (j / 6) 3).map fun v => (16, v), j - j % 6, by simp, codesRun_repeats hx hlt (by simp; omega),
          hfront _ (by omega)⟩
    · exact ⟨[(x, 0)], 0, rfl, codesRun_repeats (vs := []) hx (by simp) rfl, rfl⟩

/-- The symbols of `RleCodeLengths` stand for the lengths they were made from (R218). -/
theorem rleLoop_spec {fuel : Nat} {l : List Nat} (hfuel : l.length ≤ fuel) (hl : ∀ x ∈ l, x ≤ 15) :
    (∀ lens, (rleLoop fuel l).foldl expandPair lens = lens ++ l) ∧
      (∀ p ∈ rleLoop fuel l, p.1 ≤ 18 ∧ p.2 < 2 ^ clExtraBits p.1) ∧ ∀ p ∈ (rleLoop fuel l).head?, p.1 ≠ 16 := by
  induction fuel generalizing l with
  | zero =>
    obtain rfl := List.length_eq_zero_iff.1 (Nat.le_zero.1 hfuel)
    simp [rleLoop]
  | succ fuel ih =>
    cases l with
    | nil => simp [rleLoop]
    | cons x xs =>
      obtain ⟨ps, i, heq, hrun, hsplit⟩ := rleLoop_cons fuel (hl x List.mem_cons_self) xs
      obtain ⟨hexpand, hsymbol, -⟩ := ih (l := xs.drop i) (by simp at hfuel ⊢; omega)
        fun y hy => hl y (List.mem_cons_of_mem _ (List.mem_of_mem_drop hy))
      rw [heq]
      refine ⟨fun lens => ?_, fun p hp => (List.mem_append.1 hp).elim (hrun.symbol p) (hsymbol p), fun p hp => ?_⟩
      · rw [List.foldl_append, hrun.expand, hexpand, List.append_assoc, ← hsplit]
      · obtain _ | ⟨q, qs⟩ := ps
        · simpa using hrun.expand []
        · exact hrun.head p hp

/-- Every pair gives at least one length. -/
theorem length_le_expandPairs (ps : List (Nat × Nat)) : ps.length ≤ (expandPairs ps).length := by
  induction ps using List.reverseRecOn with
  | nil => exact le_rfl
  | append_singleton ps p ih =>
    have := expandPair_length_lt (expandPairs ps) p
    rw [expandPairs_append_singleton, List.length_append, List.length_singleton]
    omega

section
variable {l : List Nat} (hl : ∀ x ∈ l, x ≤ 15)
include hl

theorem expandPairs_rleCodeLengths : expandPairs (rleCodeLengths l) = l := (rleLoop_spec le_rfl hl).1 []

/-- The pairs are legal for every code that has their symbols. -/
theorem pairsLegal_rleCodeLengths {cl : List Nat} (hcl : ∀ p ∈ rleCodeLengths l, cl.getD p.1 0 ≠ 0) :
    PairsLegal cl (rleCodeLengths l) := by
  obtain ⟨-, hsymbol, hhead⟩ := rleLoop_spec le_rfl hl
  exact ⟨fun p hp => ⟨hcl p hp, (hsymbol p hp).2⟩, hhead⟩

end

/-! ## The code-length code -/

/-- The 3-bit fields of a code-length code: the lengths in `CL_ORDER`, as many as are transmitted (R219). -/
def clFields (cl : List Nat) : List Nat := (List.range (trimCl cl 19)).map fun i => cl.getD (clOrder.getD i 0) 0

@[simp] theorem clFields_length (cl : List Nat) : (clFields cl).length = trimCl cl 19 := by simp [clFields]

/-- The lengths that are not transmitted are 0, and 4 are always transmitted (R219). -/
theorem trimCl_spec (cl : List Nat) (n : Nat) : min 4 n ≤ trimCl cl n ∧ trimCl cl n ≤ n ∧
    ∀ i, trimCl cl n ≤ i → i < n → cl.getD (clOrder.getD i 0) 0 = 0 := by
  induction n with
  | zero => exact ⟨by simp, by simp [trimCl], by omega⟩
  | succ n ih =>
    obtain ⟨hmin, hle, hzero⟩ := ih
    rw [trimCl]
    split
    · next h =>
      obtain ⟨h4, h0⟩ := h
      refine ⟨by omega, by omega, fun i hi hin => ?_⟩
      rcases Nat.lt_succ_iff_lt_or_eq.1 hin with hin | rfl
      · exact hzero i hi hin
      · exact h0
    · exact ⟨by omega, le_rfl, by omega⟩

theorem clOrder_getD_idxOf : ∀ c < 19, clOrder.idxOf c < 19 ∧ clOrder.getD (clOrder.idxOf c) 0 = c := by decide

section
variable {cl : List Nat}

/-- The fields give the code-length code back (30_encoding.md R105). -/
theorem clLengths_clFields (hlen : cl.length = 19) : clLengths (clFields cl) = cl := by
  obtain ⟨-, -, hzero⟩ := trimCl_spec cl 19
  refine List.ext_getElem (by simp [hlen]) fun c hc hc' => ?_
  rw [clLengths_length] at hc
  obtain ⟨hidx, horder⟩ := clOrder_getD_idxOf c hc
  rw [← List.getD_eq_getElem _ 0, ← List.getD_eq_getElem _ 0, clLengths_getD hc]
  rcases Nat.lt_or_ge (clOrder.idxOf c) (trimCl cl 19) with h | h
  · rw [List.getD_eq_getElem _ _ (by simpa using h)]
    simp only [clFields, List.getElem_map, List.getElem_range, horder]
  · rw [List.getD_eq_default _ _ (by simpa using h)]
    have := hzero _ h hidx
    rwa [horder, eq_comm] at this

theorem fieldsLegal_clFields {hlit hdist : Nat} (h257 : 257 ≤ hlit) (h288 : hlit ≤ 288) (h1 : 1 ≤ hdist) (h32 : hdist ≤ 32)
    (hle : ∀ l ∈ cl, l ≤ 7) : FieldsLegal hlit hdist (clFields cl) := by
  obtain ⟨h4, h19, -⟩ := trimCl_spec cl 19
  refine ⟨h257, h288, h1, h32, by simpa using h4, by simpa using h19, fun x hx => ?_⟩
  obtain ⟨i, -, rfl⟩ := List.mem_map.1 hx
  rcases Nat.lt_or_ge (clOrder.getD i 0) cl.length with h | h
  · rw [List.getD_eq_getElem _ _ h]
    exact Nat.lt_succ_of_le (hle _ (List.getElem_mem h))
  · rw [List.getD_eq_default _ _ h]
    decide

end

/-! ## The written header -/

/-- What a header written for two tables is: legal fields with a complete code-length code, and legal pairs that expand to the
tables. -/
structure WrittenHeader (ll dl fields : List Nat) (ps : List (Nat × Nat)) : Prop where
  legal : FieldsLegal ll.length dl.length fields
  ok : kraftSum (clLengths fields) 7 = 2 ^ 7
  pairs : PairsLegal (clLengths fields) ps
  expand : expandPairs ps = ll ++ dl

/-- The bits of a header. -/
def headerStream (hlit hdist : Nat) (fields : List Nat) (ps : List (Nat × Nat)) : List Bool :=
  headerFields hlit hdist fields ++ pairBits (clLengths fields) ps

/-- The builder's answer for the 19 code-length symbols (R217). -/
theorem LegalBuilder.clCode {build : TreeBuilder} (hb : LegalBuilder build) (syms : List Nat) (hs : ∀ c ∈ syms, c ≤ 18) :
    ∃ cl, build ((List.range 19).map syms.count) Config.clMaxBits = .ok cl ∧ cl.length = 19 ∧ (∀ l ∈ cl, l ≤ 7) ∧
      kraftSum cl 7 = 2 ^ 7 ∧ ∀ c ∈ syms, cl.getD c 0 ≠ 0 := by
  obtain ⟨hok, herr⟩ := hb ((List.range 19).map syms.count) 7 (by simp) (by decide) (by decide)
  cases hbuild : build ((List.range 19).map syms.count) Config.clMaxBits with
  | error e =>
    have hfew := List.length_filter_le (· ≠ 0) ((List.range 19).map syms.count)
    have hmany := (herr e hbuild).2
    rw [List.length_map, List.length_range] at hfew
    omega
  | ok cl =>
    obtain ⟨hlen, hle, hk, -, hcoded⟩ := hok cl hbuild
    refine ⟨cl, rfl, by simpa using hlen, hle, hk, fun c hc => ?_⟩
    have h19 : c < 19 := Nat.lt_succ_of_le (hs c hc)
    exact hcoded c (by simpa using h19) (by simpa [h19, List.count_eq_zero] using hc)

/-- `WriteDynamicHeader` (R219) writes a header for any two tables of the right sizes, with any builder. -/
theorem dynamicHeaderWith_written {build : TreeBuilder} (hb : LegalBuilder build) {ll dl : List Nat} (h257 : 257 ≤ ll.length)
    (h288 : ll.length ≤ 288) (h1 : 1 ≤ dl.length) (h32 : dl.length ≤ 32) (hle : ∀ l ∈ ll ++ dl, l ≤ 15) :
    ∃ fields ps, dynamicHeaderWith build ll dl = .ok (headerStream ll.length dl.length fields ps, fields.length) ∧
      WrittenHeader ll dl fields ps := by
  obtain ⟨-, hsymbol, -⟩ := rleLoop_spec le_rfl hle
  obtain ⟨cl, hbuild, hlen, hcl, hk, hcoded⟩ := hb.clCode ((rleCodeLengths (ll ++ dl)).map (·.1)) fun c hc => by
    obtain ⟨p, hp, rfl⟩ := List.mem_map.1 hc
    exact (hsymbol p hp).1
  have hback := clLengths_clFields hlen
  refine ⟨clFields cl, rleCodeLengths (ll ++ dl), ?_, ⟨fieldsLegal_clFields h257 h288 h1 h32 hcl, by rwa [hback], ?_,
    expandPairs_rleCodeLengths hle⟩⟩
  · simp only [dynamicHeaderWith, buildFromFrequencies, hbuild, ok_bind, headerStream, headerFields, hback, clFields_length]
    simp only [clFields, List.flatMap_map, pairBits, codeBits_eq]
  · rw [hback]
    exact pairsLegal_rleCodeLengths hle fun p hp => hcoded _ (List.mem_map_of_mem hp)

/-! ## The size of a header -/

theorem headerFields_length (hlit hdist : Nat) (fields : List Nat) :
    (headerFields hlit hdist fields).length = 14 + 3 * fields.length := by
  simp only [headerFields, List.length_append, lsbBits_length, List.length_flatMap, List.map_const', List.sum_replicate_nat]
  omega

/-- A code-length symbol takes at most 7 bits, and so do its extra bits. -/
theorem pairBits_length_le {cl : List Nat} (hcl : ∀ l ∈ cl, l ≤ 7) (ps : List (Nat × Nat)) :
    (pairBits cl ps).length ≤ 14 * ps.length := by
  have hextra : ∀ c, clExtraBits c ≤ 7 := fun c => by
    rw [clExtraBits]
    repeat' split
    all_goals decide
  induction ps with
  | nil => exact Nat.zero_le _
  | cons p ps ih =>
    have hcode : cl.getD p.1 0 ≤ 7 := by
      rcases Nat.lt_or_ge p.1 cl.length with h | h
      · rw [List.getD_eq_getElem _ _ h]
        exact hcl _ (List.getElem_mem h)
      · rw [List.getD_eq_default _ _ h]
        decide
    have := hextra p.1
    simp only [pairBits_cons, List.length_append, codeBits_length, lsbBits_length, List.length_cons]
    omega

/-- The first fields of a header (R219). -/
theorem headerStream_take_counts (hlit hdist : Nat) (fields : List Nat) (ps : List (Nat × Nat)) :
    (headerStream hlit hdist fields ps).take 14 =
      lsbBits (hlit - 257) 5 ++ lsbBits (hdist - 1) 5 ++ lsbBits (fields.length - 4) 4 := by
  rw [headerStream, headerFields, List.append_assoc]
  exact List.take_left' (by simp)

section
variable {ll dl fields : List Nat} {ps : List (Nat × Nat)} (h : WrittenHeader ll dl fields ps)
include h

/-- A header is at most 4551 bits (R225). -/
theorem WrittenHeader.length_le : (headerStream ll.length dl.length fields ps).length ≤ 4551 := by
  obtain ⟨legal, ok, -, hexpand⟩ := h
  have hbits := pairBits_length_le (complete_iff.1 ((complete_clLengths_iff legal).2 ok)).1 ps
  obtain ⟨-, h288, -, h32, -, h19, -⟩ := legal
  have hps := length_le_expandPairs ps
  rw [hexpand, List.length_append] at hps
  rw [headerStream, List.length_append, headerFields_length]
  omega

/-! ## Reading it back -/

/-- Reading a written header comes down to the checks on the two tables (R228). -/
theorem WrittenHeader.read (degenerateOk : Bool) {r : Reader} (hr : r.Holds (headerStream ll.length dl.length fields ps)) :
    readDynamicHeader degenerateOk r = headerTables degenerateOk ll.length dl.length
      (ll ++ dl, r.skip (headerStream ll.length dl.length fields ps).length) := by
  obtain ⟨legal, ok, pairs, hexpand⟩ := h
  have hread := readDynamicHeader_tables legal ok degenerateOk pairs (by rw [hexpand, List.length_append]) hr
  rwa [hexpand] at hread

/-- A header written for two complete tables is one that passes the checks of R220. -/
theorem WrittenHeader.isHeader (heob : ll.getD 256 0 ≠ 0) (hll : kraftSum ll 15 = 2 ^ 15) (hdl : kraftSum dl 15 = 2 ^ 15) :
    HeaderBits (headerStream ll.length dl.length fields ps) ll dl := by
  obtain ⟨legal, ok, pairs, hexpand⟩ := h
  have h257 := legal.1
  have htake : (expandPairs ps).take ll.length = ll := by rw [hexpand, List.take_left]
  have hdrop : (expandPairs ps).drop ll.length = dl := by rw [hexpand, List.drop_left]
  have heob' : (expandPairs ps).getD 256 0 ≠ 0 := by rwa [hexpand, List.getD_append _ _ _ _ (by omega)]
  have := HeaderBits.mk legal ok pairs (by rw [hexpand, List.length_append]) heob' (htake.symm ▸ hll) (hdrop.symm ▸ hdl)
  rwa [htake, hdrop] at this

end

/-- The checks on the two tables of a header (R220): they pass on complete tables with an end-of-block code, and on no others. -/
theorem headerTables_append {ll dl : List Nat} (h257 : 257 ≤ ll.length) (hle : ∀ l ∈ ll ++ dl, l ≤ 15) (r : Reader) :
    let good := ll.getD 256 0 ≠ 0 ∧ kraftSum ll 15 = 2 ^ 15 ∧ kraftSum dl 15 = 2 ^ 15
    (good ∧ headerTables Config.degenerateDistOk ll.length dl.length (ll ++ dl, r) =
      .ok (⟨ll.length, dl.length, padTo 288 ll, padTo 32 dl⟩, r)) ∨
    (¬ good ∧ ∃ e, headerTables Config.degenerateDistOk ll.length dl.length (ll ++ dl, r) = .error e) := by
  have htake : (ll ++ dl).take ll.length = ll := List.take_left
  have hdrop : (ll ++ dl).drop ll.length = dl := List.drop_left
  have heob : (ll ++ dl).getD 256 0 = ll.getD 256 0 := List.getD_append _ _ _ _ (by omega)
  by_cases h0 : ll.getD 256 0 = 0
  · exact .inr ⟨fun h => h.1 h0, _, headerTables_noEob h257 _ (heob.trans h0)⟩
  · by_cases hk : kraftSum ll 15 = 2 ^ 15 ∧ kraftSum dl 15 = 2 ^ 15
    · have hok := headerTables_ok (hdist := dl.length) (r := r) h257 hle Config.degenerateDistOk (heob.trans_ne h0) (htake.symm ▸ hk.1)
        (hdrop.symm ▸ hk.2)
      rw [htake, hdrop] at hok
      exact .inl ⟨⟨h0, hk⟩, hok⟩
    · refine .inr ⟨fun h => hk h.2, _, headerTables_incomplete h257 hle (heob.trans_ne h0) ?_⟩
      rw [htake, hdrop]
      exact not_and_or.1 hk

/-- Settles O43: the reader comes down to its checks on the tables, and they pass exactly on complete tables with an end-of-block
code. -/
theorem dynamicHeaderRoundTrip : Obligations.DynamicHeaderRoundTrip := by
  intro ll dl h257 h288 h1 h32 hle
  obtain ⟨fields, ps, hdyn, hw⟩ := dynamicHeaderWith_written lengthsFromFrequencies_legal h257 h288 h1 h32 hle
  refine ⟨_, _, hdyn, ?_⟩
  rw [hw.read Config.degenerateDistOk (readerOfBits_holds _)]
  obtain ⟨hgood, hread⟩ | ⟨hbad, e, hread⟩ := headerTables_append h257 hle
    ((readerOfBits (headerStream ll.length dl.length fields ps)).skip (headerStream ll.length dl.length fields ps).length)
  · rw [hread]
    refine ⟨fun h rd heq => ?_, iff_of_true ⟨_, rfl⟩ hgood⟩
    cases heq
    exact ⟨rfl, rfl, rfl, rfl, Nat.zero_add _⟩
  · rw [hread]
    exact ⟨by simp, iff_of_false (by simp) hbad⟩

end Sys2Proof.Machine
end

section
/-! The commands `HUFF.*` and `TREE.*` (43_huffman.md R221 to R226): each is its argument checks, the region checks, and an execution
that answers once what the coder answers. -/

namespace Sys2Proof.Machine

/-! ## Commands whose own checks fail with `ERR_BAD_ARG` -/

/-- The checks `x` pass when `C` holds, and fail with `ERR_BAD_ARG` when it does not. -/
structure BadArgUnless (C : Prop) (x : Except ErrCode Unit) : Prop where
  passes : C → x = .ok ()
  fails : ¬ C → x = .error .badArg

theorem BadArgUnless.failIf {c C : Prop} [Decidable c] (h : C ↔ ¬ c) : BadArgUnless C (failIf c .badArg) :=
  ⟨fun hC => failIf_of_false _ (h.1 hC), fun hC => failIf_of_true _ (not_not.1 (mt h.2 hC))⟩

theorem BadArgUnless.bind {C D : Prop} {x : Except ErrCode Unit} {f : Unit → Except ErrCode Unit} (hx : BadArgUnless C x)
    (hf : BadArgUnless D (f ())) : BadArgUnless (C ∧ D) (x >>= f) where
  passes := fun ⟨hC, hD⟩ => by rw [hx.passes hC, ok_bind, hf.passes hD]
  fails h := by
    by_cases hC : C
    · rw [hx.passes hC, ok_bind, hf.fails fun hD => h ⟨hC, hD⟩]
    · rw [hx.fails hC, error_bind]

theorem BadArgUnless.congr {C D : Prop} {x : Except ErrCode Unit} (h : BadArgUnless C x) (hcd : C ↔ D) : BadArgUnless D x :=
  ⟨fun hD => h.passes (hcd.2 hD), fun hD => h.fails (mt hcd.1 hD)⟩

theorem maxBitsCheck_badArg (r : Regs) : BadArgUnless (1 ≤ r.arg2.toNat ∧ r.arg2.toNat ≤ 15) (maxBitsCheck r) := .failIf (by omega)

/-- The outcome `o` of the command `i` is that of its execution `x` once its arguments and its regions are right (40_control.md R143,
R144), and `ERR_BAD_ARG` with no other effect when its arguments are not. -/
structure RunsAs (i : Instr) (s : State) (x : Except ErrCode (Regs × Memory)) (o : Host.Outcome State Fault Refusal) : Prop where
  badArg : ¬ ArgsOk i s.operands → o = .next (s.fail .badArg [] none)
  fails : ArgsOk i s.operands → RegionsOk i s → ∀ e, x = .error e →
    o = .next (s.fail e (writesOf i) (dstRegion i s.operands))
  succeeds : ArgsOk i s.operands → RegionsOk i s → ∀ r m, x = .ok (r, m) → o = .next (s.succeed r m)

theorem runCommand_runsAs {i : Instr} {s : State} {args : Except ErrCode Unit} {body : Unit → Except ErrCode (Regs × Memory)}
    (ha : BadArgUnless (ArgsOk i s.operands) args) : RunsAs i s (body ()) (runCommand i s args body) where
  badArg h := runCommand_argError (ha.fails h)
  fails h hok _ hx := runCommand_failure (ha.passes h) ((regionChecks_ok_iff i s).2 hok) hx
  succeeds h hok _ _ hx := runCommand_success (ha.passes h) ((regionChecks_ok_iff i s).2 hok) hx

/-! ## What the commands write -/

section
variable {i : Instr} {s : State}

/-- The DST region lies inside the address space (20_memory.md R63). -/
theorem RegionsOk.dst_fits (hok : RegionsOk i s) (hi : usesDst i = true) :
    s.operands.dstCap.toNat = 0 ∨ s.operands.dstAddr.toNat + s.operands.dstCap.toNat ≤ Config.addrSpace :=
  hok.noWrap s.operands.dst (by simp [usedRegions, dstRegion, hi])

/-- Bits that fit are written at the cursor, and nothing else changes (20_memory.md R68, 41_bitstream.md R168). -/
theorem RegionsOk.putBits (hok : RegionsOk i s) (hi : usesDst i = true) {bits : List Bool}
    (hfit : s.operands.dstBitpos.toNat + bits.length ≤ s.operands.limitW) :
    let base := s.operands.dstAddr.toNat
    let bp := s.operands.dstBitpos.toNat
    let m := s.mem.putBitsRMW base bp bits
    bitsStandAt m base bp bits ∧ (∀ k, k < bp ∨ bp + bits.length ≤ k → memBit m base k = memBit s.mem base k) ∧
      ∀ a < base, m.read a = s.mem.read a := by
  have hdst := hok.dst_fits hi
  rw [Regs.limitW] at hfit
  have hspace : s.operands.dstAddr.toNat + (s.operands.dstBitpos.toNat + bits.length + 7) / 8 ≤ Config.addrSpace ∨ bits = [] := by
    rw [← List.length_eq_zero_iff]
    omega
  refine ⟨Memory.putBitsRMW_stands hspace, fun k hk => ?_, fun a ha => ?_⟩
  · rw [memBit_putBitsRMW _ _ _ _ _ hspace, if_neg (by omega)]
  · exact Memory.read_putBitsRMW_outside _ _ _ _ _ (.inl (by omega))

end

/-- The cursor and `DST_LEN` after `n` bits (R168). -/
theorem putAtCursor_eq (r regs : Regs) (m : Memory) {bits : List Bool} {n : Nat} (h : bits.length = n) : putAtCursor r regs m bits =
    ({ regs with dstBitpos := word (r.dstBitpos.toNat + n), dstLen := word ((r.dstBitpos.toNat + n + 7) / 8) },
      m.putBitsRMW r.dstAddr.toNat r.dstBitpos.toNat bits) := by
  rw [putAtCursor, h]

/-- A table of small numbers written as bytes reads back entry by entry (20_memory.md R76). -/
theorem Memory.read_writeBytes_byteTable (m : Memory) (base : Nat) {l : List Nat} (hl : ∀ v ∈ l, v < 256)
    (hfit : base + l.length ≤ Config.addrSpace) {k : Nat} (hk : k < l.length) :
    (Memory.read (m.writeBytes base (l.map byte)) (base + k)).toNat = l.getD k 0 := by
  rw [Memory.read_writeBytes_inside _ _ _ _ (by simpa using hk) (by omega), List.getElem_map, List.getD_eq_getElem _ _ hk,
    BitVec.toNat_ofNat, Nat.mod_eq_of_lt (hl _ (List.getElem_mem hk))]

/-- A table of bytes as numbers (R76). -/
def tableAt (m : Memory) (base n : Nat) : List Nat := (bytesAt m base n).map (·.toNat)

theorem byteTable_eq_tableAt (m : Memory) (base n : Nat) : m.byteTable base n = tableAt m base n := by
  rw [Memory.byteTable, Memory.bytes_eq, tableAt, bytesAt]

@[simp] theorem tableAt_length (m : Memory) (base n : Nat) : (tableAt m base n).length = n := by simp [tableAt]

/-- The canonical code of a symbol, from the closed form (30_encoding.md R117). -/
theorem canonicalCodes_getD (len : List Nat) (s : Nat) : (canonicalCodes len).getD s 0 = codeOf len s := by
  rw [← codes_eq_canonicalCodes]
  by_cases hs : s < len.length
  · simp [codes, hs]
  · rw [List.getD_eq_default _ _ (by simpa using hs), codeOf, List.getD_eq_default len _ (by omega)]
    rfl

/-! ## HUFF.BUILD_FREQ -/

/-- `numcodes` covers the symbols with a code, and no more (R216). -/
theorem usedLength_spec (len : List Nat) : usedLength len ≤ len.length ∧ (∀ k, usedLength len ≤ k → len.getD k 0 = 0) ∧
    (usedLength len ≠ 0 → len.getD (usedLength len - 1) 0 ≠ 0) := by
  induction len using List.reverseRecOn with
  | nil => exact ⟨le_rfl, by simp, by simp [usedLength]⟩
  | append_singleton len l ih =>
    obtain ⟨hle, hzero, hlast⟩ := ih
    by_cases h0 : l = 0
    · have hused : usedLength (len ++ [l]) = usedLength len := by simp [usedLength, h0]
      have hpad : len ++ [l] = padTo (len.length + 1) len := by simp [padTo, h0]
      have hget : ∀ k, (len ++ [l]).getD k 0 = len.getD k 0 := fun k => by rw [hpad, padTo_getD]
      rw [hused]
      simp only [hget]
      exact ⟨hle.trans (by simp), hzero, hlast⟩
    · have hused : usedLength (len ++ [l]) = len.length + 1 := by simp [usedLength, h0]
      rw [hused]
      exact ⟨by simp, fun k hk => List.getD_eq_default _ _ (by simpa using hk), fun _ => by simpa using h0⟩

theorem execHuffBuildFreq_runsAs (s : State) : RunsAs .huffBuildFreq s (do
      failIf (s.operands.srcLen.toNat < 4 * s.operands.arg1.toNat) .trunc
      failIf (s.operands.dstCap.toNat < s.operands.arg1.toNat) .dstFull
      let p ← buildFromFrequencies lengthsFromFrequencies (s.mem.wordTable s.operands.srcAddr.toNat s.operands.arg1.toNat)
        s.operands.arg0.toNat s.operands.arg2.toNat
      .ok ({ s.regs with result0 := word p.2, dstLen := word s.operands.arg1.toNat },
        s.mem.writeBytes s.operands.dstAddr.toNat (p.1.map byte))) (exec .huffBuildFreq s) := by
  refine runCommand_runsAs (body := fun _ => _) (((BadArgUnless.failIf Iff.rfl).bind
    ((maxBitsCheck_badArg _).bind (.failIf Iff.rfl))).congr ?_)
  simp only [ArgsOk]
  omega

/-- Settles O36: the checks in their order, and package-merge as `lengthsFromFrequencies_cases` says. -/
theorem buildFreqWritesACompleteCode : Obligations.BuildFreqWritesACompleteCode := by
  intro s r n m freq used legal failed
  have hrun := execHuffBuildFreq_runsAs s
  refine ⟨hrun.badArg, fun hlegal hok => ?_⟩
  have hfreq : s.mem.wordTable r.srcAddr.toNat n = (List.range n).map freq := rfl
  have hused : (((List.range n).map freq).filter (· ≠ 0)).length = used := by
    rw [List.filter_map, List.length_map]
    rfl
  have hget : ∀ k < n, ((List.range n).map freq).getD k 0 = freq k := fun k hk => by simp [hk]
  have ⟨h2, _, h1, h15, harg⟩ := hlegal
  have hbuild := lengthsFromFrequencies_cases (freq := (List.range n).map freq) (by simpa using h2) h1
  rw [hused] at hbuild
  refine ⟨fun h => hrun.fails hlegal hok _ (check_then_eq_error.2 (.inl ⟨h, rfl⟩)),
    fun hsrc h => hrun.fails hlegal hok _ (check_then_eq_error.2 (.inr ⟨Nat.not_lt.2 hsrc, check_then_eq_error.2 (.inl ⟨h, rfl⟩)⟩)),
    fun hsrc hdst hfit => ?_, fun hsrc hdst hmany => ?_⟩
  · obtain ⟨-, len, hlen, hlength, hle, hkraft, hcoded, huncoded⟩ := hbuild.resolve_right fun h => Nat.not_lt.2 hfit h.1
    rw [List.length_map, List.length_range] at hlength
    obtain ⟨hnum, hzero, hlast⟩ := usedLength_spec len
    have hspace : r.dstCap.toNat = 0 ∨ r.dstAddr.toNat + r.dstCap.toNat ≤ Config.addrSpace := hok.dst_fits rfl
    have hexec := hrun.succeeds hlegal hok _ _ (check_then_eq_ok.2 ⟨Nat.not_lt.2 hsrc, check_then_eq_ok.2 ⟨Nat.not_lt.2 hdst,
      bind_eq_ok.2 ⟨(len, max r.arg0.toNat (usedLength len)), bind_eq_ok.2 ⟨len, hlen, rfl⟩, rfl⟩⟩⟩)
    refine ⟨len, _, _, hexec, hlength, fun k hk => ?_, fun a ha => ?_, hkraft, hle, fun k hk hf => hcoded k (by rwa [hget k hk]),
      fun h k hk hf => huncoded (hused ▸ h) k (by rwa [hget k hk]), Nat.le_max_left .., Nat.max_le.2 ⟨harg, hlength ▸ hnum⟩,
      fun k hk => hzero k (le_of_max_le_right hk), ?_⟩
    · exact Memory.read_writeBytes_byteTable (l := len) _ r.dstAddr.toNat (fun v hv => (hle v hv).trans_lt (by omega)) (by omega) (by omega)
    · exact Memory.read_writeBytes_outside _ _ _ _ (by rwa [List.length_map, hlength])
    · rcases Nat.lt_or_ge r.arg0.toNat (usedLength len) with h | h
      · rw [Nat.max_eq_right h.le]
        exact .inr (hlast (Nat.ne_zero_of_lt h))
      · exact .inl (Nat.max_eq_left h)
  · have herr := (hbuild.resolve_left fun h => Nat.not_lt.2 h.1 hmany).2
    exact hrun.fails hlegal hok _ (check_then_eq_error.2 (.inr ⟨Nat.not_lt.2 hsrc, check_then_eq_error.2 (.inr ⟨Nat.not_lt.2 hdst,
      bind_eq_error.2 (.inl (bind_eq_error.2 (.inl herr)))⟩)⟩))

/-! ## HUFF.BUILD_LENGTHS -/

theorem execHuffBuildLengths_runsAs (s : State) :
    let len := tableAt s.mem s.operands.srcAddr.toNat s.operands.srcLen.toNat
    RunsAs .huffBuildLengths s (do
      failIf (s.operands.dstCap.toNat < 2 * s.operands.srcLen.toNat) .dstFull
      failIf (¬ complete len s.operands.arg2.toNat) .codeLengths
      .ok ({ s.regs with
          result0 := word (len.countP (· ≠ 0))
          result1 := word (maxLength len)
          dstLen := word (2 * s.operands.srcLen.toNat) },
        s.mem.writeBytes s.operands.dstAddr.toNat ((codes len).flatMap fun c => bytesLE c 2))) (exec .huffBuildLengths s) := by
  rw [← byteTable_eq_tableAt]
  refine runCommand_runsAs (body := fun _ => _) (((BadArgUnless.failIf Iff.rfl).bind (maxBitsCheck_badArg _)).congr ?_)
  simp only [ArgsOk]
  omega

/-- The codes of a complete code of at most 15 bits are 16-bit values. -/
theorem codes_lt {len : List Nat} {m : Nat} (hc : complete len m = true) (hm : m ≤ 15) : ∀ c ∈ codes len, c < 256 ^ 2 := by
  intro c h
  obtain ⟨s, -, rfl⟩ := List.mem_map.1 h
  by_cases hs : len.getD s 0 = 0
  · rw [codeOf, if_pos hs]
    decide
  · have hlt := codeOf_lt (prefixFree_of_complete hc) hs
    have hle : len.getD s 0 ≤ m := by
      rw [List.getD_eq_getElem _ _ (lt_length_of_getD_ne_zero hs)]
      exact (complete_iff.1 hc).1 _ (List.getElem_mem _)
    exact hlt.trans_le ((Nat.pow_le_pow_right (by decide) (hle.trans hm)).trans (by decide))

/-- Settles O38: the checks in their order, and the codes as a table of 16-bit words. -/
theorem buildLengthsWritesTheCanonicalCode : Obligations.BuildLengthsWritesTheCanonicalCode := by
  intro s r n m len legal failed
  have hrun := execHuffBuildLengths_runsAs s
  refine ⟨hrun.badArg, fun hlegal hok => ⟨fun h => hrun.fails hlegal hok _ (check_then_eq_error.2 (.inl ⟨h, rfl⟩)),
    fun hdst hle hk => ?_, fun hdst hbad => hrun.fails hlegal hok _ (check_then_eq_error.2 (.inr ⟨Nat.not_lt.2 hdst,
      check_then_eq_error.2 (.inl ⟨mt complete_iff.1 hbad, rfl⟩)⟩))⟩⟩
  have hc : complete len m = true := complete_iff.2 ⟨hle, hk⟩
  have hlen : (codes len).length = n := by simp [len]
  have hspace : r.dstCap.toNat = 0 ∨ r.dstAddr.toNat + r.dstCap.toNat ≤ Config.addrSpace := hok.dst_fits rfl
  have ⟨h1, _, _, h15⟩ := hlegal
  refine ⟨_, hrun.succeeds hlegal hok _ _ (check_then_eq_ok.2 ⟨Nat.not_lt.2 hdst, check_then_eq_ok.2 ⟨not_not.2 hc, rfl⟩⟩),
    fun k hk => ?_, fun a ha => Memory.read_writeBytes_outside _ _ _ _ (by
      rw [flatMap_bytesLE_length, codes_length, tableAt_length]
      exact ha)⟩
  rw [← codes_eq_canonicalCodes, List.getD_eq_getElem _ _ (by rwa [hlen])]
  exact Memory.readLE_writeBytes_flatMap s.mem r.dstAddr.toNat 2 (codes len) (codes_lt hc h15) (by omega) k (by rwa [hlen])

/-! ## HUFF.ENCODE_SYM -/

theorem execHuffEncodeSym_runsAs (s : State) :
    let len := tableAt s.mem s.operands.auxAddr.toNat s.operands.arg1.toNat
    let sym := s.operands.arg0.toNat
    let code := (canonicalCodes len).getD sym 0
    RunsAs .huffEncodeSym s (do
      cursorCheck s.operands (len.getD sym 0)
      failIf (¬ prefixFree len s.operands.arg2.toNat) .codeLengths
      failIf (len.getD sym 0 = 0) .invalidCode
      .ok (putAtCursor s.operands { s.regs with result0 := word code, result1 := word (len.getD sym 0) } s.mem
        (msbBits code (len.getD sym 0)))) (exec .huffEncodeSym s) := by
  simp only [← byteTable_eq_tableAt, canonicalCodes_getD]
  refine runCommand_runsAs (body := fun _ => _) (((BadArgUnless.failIf Iff.rfl).bind
    ((maxBitsCheck_badArg _).bind (.failIf Iff.rfl))).congr ?_)
  simp only [ArgsOk]
  omega

/-- Settles O39: the checks in their order, and the code written at the cursor. -/
theorem encodeSymWritesTheCode : Obligations.EncodeSymWritesTheCode := by
  intro s r n m len l c bp base prefixFreeTable failed legal
  have hrun := execHuffEncodeSym_runsAs s
  have hfree : prefixFree len m = true ↔ prefixFreeTable := prefixFree_iff
  refine ⟨hrun.badArg, fun hlegal hok => ⟨fun h => hrun.fails hlegal hok _ (check_then_eq_error.2 (.inl ⟨h, rfl⟩)),
    fun hfit hbad => ?_, fun hfit hgood h0 => ?_, fun hfit hgood h0 => ?_⟩⟩
  · exact hrun.fails hlegal hok _ (check_then_eq_error.2 (.inr ⟨Nat.not_lt.2 hfit,
      check_then_eq_error.2 (.inl ⟨mt hfree.1 hbad, rfl⟩)⟩))
  · exact hrun.fails hlegal hok _ (check_then_eq_error.2 (.inr ⟨Nat.not_lt.2 hfit,
      check_then_eq_error.2 (.inr ⟨not_not.2 (hfree.2 hgood), check_then_eq_error.2 (.inl ⟨h0, rfl⟩)⟩)⟩))
  · have hput := hok.putBits rfl (bits := msbBits c l) (by rwa [msbBits_length])
    rw [msbBits_length] at hput
    refine ⟨_, hrun.succeeds hlegal hok _ _ (check_then_eq_ok.2 ⟨Nat.not_lt.2 hfit,
      check_then_eq_ok.2 ⟨not_not.2 (hfree.2 hgood), check_then_eq_ok.2 ⟨h0, congrArg Except.ok ?_⟩⟩⟩), hput⟩
    exact putAtCursor_eq _ _ _ (msbBits_length ..)

/-! ## HUFF.DECODE_SYM -/

theorem execHuffDecodeSym_runsAs (s : State) :
    let len := tableAt s.mem s.operands.auxAddr.toNat s.operands.arg1.toNat
    RunsAs .huffDecodeSym s (do
      failIf (¬ prefixFree len s.operands.arg2.toNat) .codeLengths
      let p ← decodeSymbol (DecodeTable.ofLengths len) (s.operands.cursorReader s.mem)
      .ok ({ s.regs with result0 := word p.1.1, result1 := word p.1.2, srcBitpos := word p.2.bp }, s.mem))
      (exec .huffDecodeSym s) := by
  rw [← byteTable_eq_tableAt]
  refine runCommand_runsAs (body := fun _ => _) (((BadArgUnless.failIf Iff.rfl).bind (maxBitsCheck_badArg _)).congr ?_)
  simp only [ArgsOk]
  omega

section
variable {len : List Nat} {r : Reader}

/-- A table without codes decodes nothing (R213). -/
theorem decodeSymbol_noCodes (h : ∀ x ∈ len, x = 0) : decodeSymbol (.ofLengths len) r = .error .invalidCode :=
  walkAfter_end (bits := []) (Nat.le_zero.1 (maxLength_le_iff.2 fun l hl => (h l hl).le)).symm

/-- An input that has ended, or a cursor past it (R213). -/
theorem decodeSymbol_atEnd (h : ∃ x ∈ len, x ≠ 0) (hr : r.limit ≤ r.bp) : decodeSymbol (.ofLengths len) r = .error .noEob := by
  obtain ⟨x, hx, h0⟩ := h
  exact walkAfter_cut (bits := []) ((Nat.pos_of_ne_zero h0).trans_le (le_maxLength hx)) hr

end

/-- Settles O40: the code that stands is the one decoded; with none, the longest length is all there, or the input ends. -/
theorem decodeSymReadsTheCode : Obligations.DecodeSymReadsTheCode := by
  intro s r n m len bp limit failed stands legal
  have hrun := execHuffDecodeSym_runsAs s
  have hfree : prefixFree len m = true ↔ _ := prefixFree_iff
  refine ⟨hrun.badArg, fun hlegal hok =>
    ⟨fun hbad => hrun.fails hlegal hok _ (check_then_eq_error.2 (.inl ⟨mt hfree.1 hbad, rfl⟩)), fun hle hk => ?_⟩⟩
  have hpf := hfree.2 ⟨hle, hk⟩
  have hbefore : ∀ bits, bitsStandAt s.mem r.srcAddr.toNat bp bits → bp + bits.length ≤ limit → (r.cursorReader s.mem).Holds bits :=
    fun bits hbits hlim => region_holds hbits hlim (Nat.min_le_left ..)
  have hfails : ∀ e, decodeSymbol (.ofLengths len) (r.cursorReader s.mem) = .error e → failed e := fun e he =>
    hrun.fails hlegal hok e (check_then_eq_error.2 (.inr ⟨not_not.2 hpf, bind_eq_error.2 (.inl he)⟩))
  have hnoCode : (∀ k, ¬ stands k) → ∀ bits, bitsStandAt s.mem r.srcAddr.toNat bp bits → bp + bits.length ≤ limit →
      NoCode len bits := by
    intro hnone bits hbits hlim k hk hpre
    have hlen := hpre.length_le
    rw [codeBits_length] at hlen
    refine hnone k ⟨hk, by omega, fun j hj => ?_⟩
    rw [hbits j (hj.trans_le hpre.length_le)]
    exact (hpre.getElem hj).symm
  refine ⟨fun k hk => ?_, fun h0 => hfails _ (decodeSymbol_noCodes h0), fun hnone hall => hfails _ ?_, fun hnone hcut => hfails _ ?_⟩
  · obtain ⟨h0, hlim, hbits⟩ := hk
    have hdecode := decodeSymbol_code hpf h0 (hbefore (codeBits len k) hbits (by rwa [codeBits_length]))
    exact hrun.succeeds hlegal hok _ _ (check_then_eq_ok.2 ⟨not_not.2 hpf, bind_eq_ok.2 ⟨_, hdecode, rfl⟩⟩)
  · obtain ⟨bits, hlen, hbits⟩ := exists_bitsStandAt s.mem r.srcAddr.toNat bp (maxLength len)
    have ⟨h1, _⟩ := hlegal
    obtain ⟨x, hx⟩ := List.exists_mem_of_length_pos (l := len) (by simp only [len, List.length_map, bytesAt_length]; omega)
    have hmax : maxLength len ≤ limit - bp := maxLength_le_iff.2 fun l hl => by have := hall l hl; omega
    have hlim : bp + bits.length ≤ limit := by have := hall x hx; omega
    exact decodeSymbol_invalid (hnoCode hnone bits hbits hlim) (fun l hl => hlen ▸ le_maxLength hl) (hbefore bits hbits hlim)
  · obtain ⟨x, hx, h0, hcut⟩ := hcut
    rcases Nat.lt_or_ge limit bp with hend | hend
    · exact decodeSymbol_atEnd ⟨x, hx, h0⟩ hend.le
    · obtain ⟨bits, hlen, hbits⟩ := exists_bitsStandAt s.mem r.srcAddr.toNat bp (limit - bp)
      have hlim : bp + bits.length = limit := by omega
      have hmax := le_maxLength hx
      exact decodeSymbol_cut (hnoCode hnone bits hbits hlim.le) (by omega) (hbefore bits hbits hlim.le) hlim

/-! ## TREE.WRITE -/

theorem execTreeWrite_runsAs (s : State) :
    let nll := s.operands.arg0.toNat
    let lens := tableAt s.mem s.operands.auxAddr.toNat (nll + s.operands.arg1.toNat)
    RunsAs .treeWrite s (do
      cursorCheck s.operands (headerSize (lens.take nll) (lens.drop nll))
      failIf (¬ lens.all (· ≤ 15)) .codeLengths
      let p ← dynamicHeader (lens.take nll) (lens.drop nll)
      .ok (putAtCursor s.operands { s.regs with result0 := word p.1.length, result1 := word p.2 } s.mem p.1))
      (exec .treeWrite s) := by
  simp only [← byteTable_eq_tableAt]
  refine runCommand_runsAs (body := fun _ => _) (((BadArgUnless.failIf Iff.rfl).bind (.failIf Iff.rfl)).congr ?_)
  simp only [ArgsOk]
  omega

/-- Settles O41: the checks in their order, the header of `dynamicHeaderWith_written`, and its size. -/
theorem treeWriteWritesAHeader : Obligations.TreeWriteWritesAHeader := by
  intro s r nll nd lens bp base limit failed legal
  have hrun := execTreeWrite_runsAs s
  have hsplit : lens.take nll ++ lens.drop nll = lens := List.take_append_drop ..
  have hlen : lens.length = nll + nd := by simp [lens]
  refine ⟨hrun.badArg, fun hlegal hok => ⟨fun h => ?_, fun hfit hbad => ?_, fun hle => ?_⟩⟩
  · exact hrun.fails hlegal hok _ (check_then_eq_error.2 (.inl ⟨Nat.lt_add_right _ h, rfl⟩))
  · have hsize : headerSize (lens.take nll) (lens.drop nll) = 0 := headerSize_of_gt (by rwa [hsplit])
    have hall : ¬ lens.all (· ≤ 15) = true := by simpa using hbad
    refine hrun.fails hlegal hok _ (check_then_eq_error.2 (.inr ⟨?_, check_then_eq_error.2 (.inl ⟨hall, rfl⟩)⟩))
    exact Nat.not_lt.2 (hsize.symm ▸ hfit)
  · have ⟨h257, h288, h1, h32⟩ := hlegal
    have htake : (lens.take nll).length = nll := by rw [List.length_take, hlen, Nat.min_eq_left (Nat.le_add_right ..)]
    have hdrop : (lens.drop nll).length = nd := by rw [List.length_drop, hlen, Nat.add_sub_cancel_left]
    obtain ⟨fields, ps, hdyn, hw⟩ := dynamicHeaderWith_written lengthsFromFrequencies_legal (ll := lens.take nll) (dl := lens.drop nll)
      (by rwa [htake]) (by rwa [htake]) (by rwa [hdrop]) (by rwa [hdrop]) (by rwa [hsplit])
    have hbits := hw.length_le
    have htake14 := headerStream_take_counts (lens.take nll).length (lens.drop nll).length fields ps
    have hsize := headerSize_of_le (hsplit.symm ▸ hle) hdyn
    obtain ⟨-, -, -, -, h4, h19, -⟩ := hw.legal
    rw [htake, hdrop] at hdyn hbits htake14 hsize
    have hall : lens.all (· ≤ 15) = true := by simpa using hle
    refine ⟨_, _, hdyn, hbits, h4, h19, htake14, fun h => ?_, fun hfit => ?_⟩
    · refine hrun.fails hlegal hok _ (check_then_eq_error.2 (.inl ⟨?_, rfl⟩))
      exact hsize.symm ▸ h
    · refine ⟨_, hrun.succeeds hlegal hok _ _ (check_then_eq_ok.2 ⟨Nat.not_lt.2 ?_, check_then_eq_ok.2 ⟨not_not.2 hall,
        bind_eq_ok.2 ⟨_, hdyn, congrArg Except.ok (putAtCursor_eq _ _ _ rfl)⟩⟩⟩), hok.putBits rfl hfit⟩
      exact hsize.symm ▸ hfit

/-! ## TREE.READ -/

theorem execTreeRead_runsAs (s : State) : RunsAs .treeRead s (do
      failIf (s.operands.dstCap.toNat < 320) .dstFull
      let p ← readDynamicHeader Config.degenerateDistOk (s.operands.cursorReader s.mem)
      .ok ({ s.regs with
          result0 := word p.1.hlit
          result1 := word p.1.hdist
          srcBitpos := word p.2.bp
          dstLen := word 320 },
        s.mem.writeBytes s.operands.dstAddr.toNat ((p.1.ll ++ p.1.dl).map byte))) (exec .treeRead s) :=
  runCommand_runsAs (body := fun _ => _) ⟨fun _ => rfl, fun h => absurd trivial h⟩

/-- The sizes of the tables that a header transmits, and their lengths (R220). -/
theorem HeaderBits.bounds {bits : List Bool} {ll dl : List Nat} (h : HeaderBits bits ll dl) :
    ll.length ≤ 288 ∧ dl.length ≤ 32 ∧ ∀ l ∈ ll ++ dl, l ≤ 15 := by
  obtain ⟨⟨-, h288, -, h32, -⟩, -, -, all, -⟩ := h
  refine ⟨(List.length_take_le ..).trans h288, ?_, ?_⟩
  · rw [List.length_drop, all]
    omega
  · rw [List.take_append_drop]
    exact expandPairs_le _

section
variable {ll dl : List Nat} (hll : ll.length ≤ 288)

/-! The 320 bytes that `TREE.READ` writes: the two tables, padded with zeros. -/

theorem headerTable_lt (hle : ∀ l ∈ ll ++ dl, l ≤ 15) : ∀ l ∈ padTo 288 ll ++ padTo 32 dl, l < 256 := by
  intro l hl
  have hmem : l ∈ ll ++ dl ∨ l = 0 := by
    simp only [padTo, List.mem_append, List.mem_replicate] at hl ⊢
    tauto
  rcases hmem with hmem | rfl
  · exact (hle l hmem).trans_lt (by decide)
  · decide

include hll

theorem headerTable_length (hdl : dl.length ≤ 32) : (padTo 288 ll ++ padTo 32 dl).length = 320 := by
  rw [List.length_append, padTo_length hll, padTo_length hdl]

theorem headerTable_ll {k : Nat} (hk : k < 288) : (padTo 288 ll ++ padTo 32 dl).getD k 0 = ll.getD k 0 := by
  rw [List.getD_append _ _ _ _ (by rwa [padTo_length hll]), padTo_getD]

theorem headerTable_dl (k : Nat) : (padTo 288 ll ++ padTo 32 dl).getD (288 + k) 0 = dl.getD k 0 := by
  rw [List.getD_append_right _ _ _ _ (by rw [padTo_length hll]; exact Nat.le_add_right ..), padTo_length hll, Nat.add_sub_cancel_left,
    padTo_getD]

end

section
variable {s : State} (hok : RegionsOk .treeRead s) (hdst : 320 ≤ s.operands.dstCap.toNat) {bits : List Bool}
  (hbits : bitsStandAt s.mem s.operands.srcAddr.toNat s.operands.srcBitpos.toNat bits)
  (hlim : s.operands.srcBitpos.toNat + bits.length ≤ min (8 * s.operands.srcLen.toNat) (2 ^ 32 - 1))
include hok hdst hbits hlim

/-- A header that stands at the cursor is read, and its two tables are written, padded with zeros (R226). -/
theorem execTreeRead_header {ll dl : List Nat} (h : HeaderBits bits ll dl) :
    ∃ mem, exec .treeRead s = .next (s.succeed { s.regs with
        result0 := word ll.length
        result1 := word dl.length
        srcBitpos := word (s.operands.srcBitpos.toNat + bits.length)
        dstLen := word 320 } mem) ∧
      (∀ k < 288, (mem.read (s.operands.dstAddr.toNat + k)).toNat = ll.getD k 0) ∧
      (∀ k < 32, (mem.read (s.operands.dstAddr.toNat + 288 + k)).toNat = dl.getD k 0) ∧
      ∀ a, a < s.operands.dstAddr.toNat ∨ s.operands.dstAddr.toNat + 320 ≤ a → mem.read a = s.mem.read a := by
  have hread := readDynamicHeader_ok (r := s.operands.cursorReader s.mem) h (region_holds hbits hlim (Nat.min_le_left ..))
    Config.degenerateDistOk
  have hspace := hok.dst_fits rfl
  obtain ⟨hll, hdl, hle⟩ := h.bounds
  have hlen := headerTable_length hll hdl
  have hexec := (execTreeRead_runsAs s).succeeds trivial hok _ _ (check_then_eq_ok.2 ⟨Nat.not_lt.2 hdst, bind_eq_ok.2 ⟨_, hread, rfl⟩⟩)
  have hbyte : ∀ k < 320, (Memory.read (s.mem.writeBytes s.operands.dstAddr.toNat ((padTo 288 ll ++ padTo 32 dl).map byte))
      (s.operands.dstAddr.toNat + k)).toNat = (padTo 288 ll ++ padTo 32 dl).getD k 0 := fun k hk =>
    Memory.read_writeBytes_byteTable _ _ (headerTable_lt hle) (by omega) (by omega)
  refine ⟨_, hexec, fun k hk => ?_, fun k hk => ?_, fun a ha => Memory.read_writeBytes_outside _ _ _ _ ?_⟩
  · exact (hbyte k (by omega)).trans (headerTable_ll hll hk)
  · rw [Nat.add_assoc]
    exact (hbyte (288 + k) (by omega)).trans (headerTable_dl hll k)
  · rw [List.length_map]
    exact hlen.symm ▸ ha

/-- A malformed or cut header at the cursor fails the command with its error (R226). -/
theorem execTreeRead_headerError {ends : Bool} {e : ErrCode} (h : HeaderError ends bits e)
    (hend : ends = true → s.operands.srcBitpos.toNat + bits.length = min (8 * s.operands.srcLen.toNat) (2 ^ 32 - 1)) :
    exec .treeRead s = .next (s.fail e [.result0, .result1, .srcBitpos, .dstLen] (some s.operands.dst)) :=
  (execTreeRead_runsAs s).fails trivial hok e (check_then_eq_error.2 (.inr ⟨Nat.not_lt.2 hdst,
    bind_eq_error.2 (.inl (readDynamicHeader_error h (region_holds hbits hlim (Nat.min_le_left ..)) hend))⟩))

end

/-- Settles O42: a written header of two complete tables is one that passes the checks of R220. -/
theorem treeReadReadsAWrittenHeader : Obligations.TreeReadReadsAWrittenHeader := by
  refine ⟨fun s ll dl bits ncl h257 h288 h1 h32 hle heob hll hdl hdyn hbits hlim hok hdst => ?_,
    fun s hok => ⟨fun h => ?_, fun bits ll dl h hdst hbits hlim => execTreeRead_header hok hdst hbits hlim h,
      fun ends bits e h hdst hbits hlim hend => execTreeRead_headerError hok hdst hbits hlim h hend⟩⟩
  · obtain ⟨fields, ps, hdyn', hw⟩ := dynamicHeaderWith_written lengthsFromFrequencies_legal h257 h288 h1 h32 hle
    cases hdyn.symm.trans hdyn'
    exact execTreeRead_header hok hdst hbits hlim (hw.isHeader heob hll hdl)
  · exact (execTreeRead_runsAs s).fails trivial hok _ (check_then_eq_error.2 (.inl ⟨h, rfl⟩))

end Sys2Proof.Machine
end

section
/-! The back-reference copy (44_deflate.md R262, 70_reset_and_hazards.md R373): the bytes it appends, each read after the ones before
it were written. -/

namespace Sys2Proof.Machine

/-- A copy keeps the output it started from. -/
theorem take_replayCopy (dist n : Nat) (out : List Byte) : (replayCopy dist n out).take out.length = out := by
  induction n generalizing out with
  | zero => exact List.take_length
  | succ n ih =>
    have h := congrArg (List.take out.length) (ih (out ++ [out.getD (out.length - dist) 0]))
    rwa [List.take_take, List.length_append, Nat.min_eq_left (Nat.le_add_right ..), List.take_left] at h

/-- A byte of the output so far is still there after a copy. -/
theorem getD_replayCopy_of_lt (dist n : Nat) {out : List Byte} {k : Nat} (h : k < out.length) :
    (replayCopy dist n out).getD k 0 = out.getD k 0 := by
  conv_rhs => rw [← take_replayCopy dist n out]
  simp [h]

/-- Each appended byte is the one `dist` before it, also when it was itself appended. -/
theorem getD_replayCopy {dist : Nat} (h1 : 1 ≤ dist) (n : Nat) {out : List Byte} (hd : dist ≤ out.length) :
    ∀ k < n, (replayCopy dist n out).getD (out.length + k) 0 = (replayCopy dist n out).getD (out.length + k - dist) 0 := by
  induction n generalizing out with
  | zero => exact fun k hk => absurd hk (Nat.not_lt_zero k)
  | succ n ih =>
    intro k hk
    rw [replayCopy]
    have hlen : (out ++ [out.getD (out.length - dist) 0]).length = out.length + 1 := by simp
    cases k with
    | zero =>
      have hback : out.length - dist < out.length := by omega
      rw [Nat.add_zero, getD_replayCopy_of_lt dist n (hlen ▸ Nat.lt_succ_self _),
        getD_replayCopy_of_lt dist n (hlen ▸ hback.trans (Nat.lt_succ_self _)), List.getD_append _ _ _ _ hback,
        List.getD_append_right _ _ _ _ le_rfl, Nat.sub_self, List.getD_cons_zero]
    | succ k =>
      have := ih (out := out ++ [out.getD (out.length - dist) 0]) (by omega) k (by omega)
      rwa [hlen, Nat.add_right_comm] at this

/-- Settles O49: the copy is `replayCopy` where the output has room, by `copyMatch_eq`. -/
theorem backReferenceCopiesByteByByte : Obligations.BackReferenceCopiesByteByByte := by
  intro length dist o h1 hlen
  obtain ⟨out, cap, rfl⟩ : ∃ out cap, o = ⟨out.reverse, cap⟩ := ⟨o.rev.reverse, o.cap, by rw [List.reverse_reverse]⟩
  simp only [List.length_reverse, Out.bytes, List.reverse_reverse]
  refine ⟨copyMatch_tooFar, fun hd hle hfull => ?_, fun hd hfit => ⟨⟨(replayCopy dist length out).reverse, cap⟩, ?_, rfl, ?_⟩⟩
  · rw [copyMatch_eq h1 hd hle, if_neg (by omega)]
  · rw [copyMatch_eq h1 hd (by omega), if_pos hfit]
  · simp only [List.reverse_reverse, List.length_reverse]
    exact ⟨replayCopy_length .., take_replayCopy .., getD_replayCopy h1 length hd⟩

end Sys2Proof.Machine
end

section
/-! Decoding well-formed streams (44_deflate.md R257 to R263): a whole stored block, a whole Huffman block, and the blocks of a
stream, each read off known bits from any position and onto any output. -/

namespace Sys2Proof.Machine

/-! ## Stored blocks -/

/-- Bytes as bits, each LSB-first (00_scope.md R15). -/
def byteBits (bytes : List Byte) : List Bool := bytes.flatMap fun b => lsbBits b.toNat 8

@[simp] theorem byteBits_nil : byteBits [] = [] := rfl

@[simp] theorem byteBits_cons (b : Byte) (bytes : List Byte) : byteBits (b :: bytes) = lsbBits b.toNat 8 ++ byteBits bytes := rfl

@[simp] theorem byteBits_append (as bs : List Byte) : byteBits (as ++ bs) = byteBits as ++ byteBits bs := List.flatMap_append

@[simp] theorem byteBits_length (bytes : List Byte) : (byteBits bytes).length = 8 * bytes.length := by
  induction bytes with
  | nil => rfl
  | cons b bytes ih => rw [byteBits_cons, List.length_append, lsbBits_length, ih, List.length_cons]; omega

section
variable {r : Reader} {cap : Nat} {out : List Byte}

/-- The data of a stored block are appended as they stand (R259). -/
theorem copyStored_eq {data : List Byte} (hr : r.Holds (byteBits data)) (hcap : out.length + data.length ≤ cap) :
    copyStored data.length r ⟨out.reverse, cap⟩ = .ok (r.skip (byteBits data).length, ⟨(out ++ data).reverse, cap⟩) := by
  induction data generalizing r out with
  | nil => simp [copyStored]
  | cons b data ih =>
    rw [List.length_cons] at hcap
    rw [byteBits_cons] at hr ⊢
    obtain ⟨hb, hrest⟩ := Reader.holds_append.1 hr
    rw [lsbBits_length] at hrest
    rw [List.length_cons, copyStored, hb.getBits_lsbBits b.isLt, ok_bind]
    simp only [BitVec.ofNat_toNat, BitVec.setWidth_eq]
    rw [Out.append_ok _ (by omega), ok_bind, ih hrest (by simp; omega), Reader.skip_skip, List.length_append, lsbBits_length,
      List.append_assoc, List.singleton_append]

/-- The padding of a stored block ends where its reader is aligned (30_encoding.md R115, 41_bitstream.md R164). -/
theorem alignReader_eq_skip {n : Nat} (h : n = (8 - r.bp % 8) % 8) : alignReader r = r.skip n := by
  rw [alignReader, Reader.skip]
  congr 1
  omega

/-- A whole stored block is its padding, its length twice, and its data (R259). -/
theorem storedDecode_whole {pad : List Bool} {data : List Byte} (padded : pad.length = (8 - r.bp % 8) % 8)
    (size : data.length < 65536)
    (hr : r.Holds (pad ++ lsbBits data.length 16 ++ lsbBits (65535 - data.length) 16 ++ byteBits data))
    (hcap : out.length + data.length ≤ cap) : storedDecode r ⟨out.reverse, cap⟩ =
      .ok (r.skip (pad ++ lsbBits data.length 16 ++ lsbBits (65535 - data.length) 16 ++ byteBits data).length,
        ⟨(out ++ data).reverse, cap⟩) := by
  obtain ⟨hr, hdata⟩ := Reader.holds_append.1 hr
  obtain ⟨hr, hnlen⟩ := Reader.holds_append.1 hr
  obtain ⟨-, hlen⟩ := Reader.holds_append.1 hr
  have hroom := hdata.within
  simp only [List.length_append, lsbBits_length, byteBits_length, Reader.skip_bp, Reader.skip_limit] at hnlen hdata hroom ⊢
  rw [storedDecode]
  simp only [alignReader_eq_skip padded, hlen.getBits_lsbBits size, ok_bind, Reader.skip_skip,
    hnlen.getBits_lsbBits (show 65535 - data.length < 2 ^ 16 by omega), xor_ones size]
  rw [failIf_of_false _ (not_not.2 rfl), ok_bind, failIf_of_false _ (by simp only [Reader.skip_bp, Reader.skip_limit]; omega),
    ok_bind, copyStored_eq hdata hcap, Reader.skip_skip, byteBits_length]

end

/-! ## Huffman blocks -/

/-- Symbol 256 has a code in the tables of a Huffman block (R260, 43_huffman.md R220). -/
theorem BlockStart.eob {final : Bool} {bits : List Bool} {ll dl : List Nat} (h : BlockStart final bits ll dl) :
    ll.getD 256 0 ≠ 0 := by
  cases h with
  | fixed => decide +kernel
  | dynamic header =>
    obtain ⟨legal, -, -, -, eob, -, -⟩ := header
    rwa [getD_take_256 legal.1]

/-- The end-of-block symbol ends the block (R260). -/
theorem huffmanDecode_eob {ll : List Nat} {m fuel : Nat} {t : DecodeTable} {r : Reader} {o : Out} (hll : prefixFree ll m = true)
    (used : ll.getD 256 0 ≠ 0) (hr : r.Holds (codeBits ll 256)) :
    huffmanDecode (.ofLengths ll) t (fuel + 1) r o = .ok (r.skip (codeBits ll 256).length, o) := by
  rw [huffmanDecode, decodeSymbol_code hll used hr, ok_bind, codeBits_length]
  rfl

/-! ## Blocks and streams -/

section
variable {cap : Nat} {out out' : List Byte} {bits : List Bool}

/-- A whole block is decoded, and `BFINAL` says whether more blocks follow (R257). -/
theorem decodeBlocks_block {final : Bool} {fuel nb : Nat} {r : Reader} (h : BlockBits final r.bp out bits out')
    (hr : r.Holds bits) (hcap : out'.length ≤ cap) : decodeBlocks (fuel + 1) nb r ⟨out.reverse, cap⟩ =
      if final then .ok (nb + 1, r.skip bits.length, ⟨out'.reverse, cap⟩)
      else decodeBlocks fuel (nb + 1) (r.skip bits.length) ⟨out'.reverse, cap⟩ := by
  cases h with
  | @stored pad data padded size =>
    have hsplit : [final, false, false] ++ pad ++ lsbBits data.length 16 ++ lsbBits (65535 - data.length) 16 ++
          (data.flatMap fun b => lsbBits b.toNat 8) =
        [final, false, false] ++ (pad ++ lsbBits data.length 16 ++ lsbBits (65535 - data.length) 16 ++ byteBits data) := by
      simp only [List.append_assoc, byteBits]
    rw [hsplit] at hr ⊢
    obtain ⟨hhead, hbody⟩ := Reader.holds_append.1 hr
    rw [List.length_append] at hcap
    rw [decodeBlocks_header hhead, show lsbValue [false, false] = 0 from rfl, decodeBlock_stored,
      storedDecode_whole padded size hbody hcap, ok_bind, Reader.skip_skip, ← List.length_append]
  | @huffman start ll dl toks _ begins coded replay =>
    obtain ⟨hr, heob⟩ := Reader.holds_append.1 hr
    obtain ⟨hstart, htoks⟩ := Reader.holds_append.1 hr
    obtain ⟨hll, hdl⟩ := begins.codes
    obtain ⟨fuel', hfuel', hread⟩ := huffmanDecode_tokens (prefixFree_of_complete hll) hdl coded replay hcap le_rfl htoks
    obtain ⟨k, rfl⟩ := Reader.exists_fuel hfuel'
    rw [List.length_append, ← Reader.skip_skip] at heob
    rw [decodeBlocks_start begins hstart, hread, huffmanDecode_eob (prefixFree_of_complete hll) begins.eob heob, ok_bind,
      List.length_append, List.length_append, ← Reader.skip_skip, ← Reader.skip_skip]

/-- A block has bits. -/
theorem BlockBits.length_ne_zero {final : Bool} {pos : Nat} (h : BlockBits final pos out bits out') : bits.length ≠ 0 := by
  cases h with
  | stored => simp
  | huffman begins => cases begins <;> simp

/-- The output only grows. -/
theorem BlockBits.length_le {final : Bool} {pos : Nat} (h : BlockBits final pos out bits out') : out.length ≤ out'.length := by
  cases h with
  | stored => simp
  | huffman _ _ replay => exact replayTokens_length_le replay

theorem StreamBits.length_le {pos nb : Nat} (h : StreamBits pos out bits nb out') : out.length ≤ out'.length := by
  induction h with
  | last block => exact block.length_le
  | more block _ ih => exact block.length_le.trans ih

/-- The blocks of a stream are decoded one by one (R257). -/
theorem decodeBlocks_stream {pos nb fuel done : Nat} {r : Reader} (h : StreamBits pos out bits nb out') (hpos : r.bp = pos)
    (hr : r.Holds bits) (hcap : out'.length ≤ cap) (hfuel : r.passes ≤ fuel) :
    decodeBlocks fuel done r ⟨out.reverse, cap⟩ = .ok (done + nb, r.skip bits.length, ⟨out'.reverse, cap⟩) := by
  induction h generalizing r fuel done with
  | last block =>
    obtain ⟨fuel, rfl⟩ := Reader.exists_fuel hfuel
    exact decodeBlocks_block (hpos ▸ block) hr hcap
  | more block after ih =>
    obtain ⟨fuel, rfl⟩ := Reader.exists_fuel hfuel
    obtain ⟨hblock, hrest⟩ := Reader.holds_append.1 hr
    rw [decodeBlocks_block (hpos ▸ block) hblock (after.length_le.trans hcap), if_neg Bool.false_ne_true,
      ih (by rw [Reader.skip_bp, hpos]) hrest hcap (Reader.passes_skip block.length_ne_zero hfuel hblock.within),
      Reader.skip_skip, List.length_append, Nat.add_assoc, Nat.add_comm 1]

end

/-- A stream that stands before the reader is decoded whole (R257). -/
theorem decodeStream_eq {bits : List Bool} {nb : Nat} {data : List Byte} {r : Reader} {cap : Nat}
    (h : StreamBits 0 [] bits nb data) (hpos : r.bp = 0) (hr : r.Holds bits) (hcap : data.length ≤ cap) :
    decodeStream r ⟨[], cap⟩ = .ok (nb, r.skip bits.length, ⟨data.reverse, cap⟩) := by
  have hread := decodeBlocks_stream (done := 0) h hpos hr hcap le_rfl
  rwa [Nat.zero_add] at hread

end Sys2Proof.Machine
end

section
/-! What the encoder writes, as bits (44_deflate.md R251 to R256): a block is one run of `PutBit` of bits that do not depend on the
writer, for every value of the parameters. -/

namespace Sys2Proof.Machine

/-! ## Runs of bits -/

/-- Two runs of bits are one (41_bitstream.md R165). -/
theorem putAll_append (w : Writer) (as bs : List Bool) : putAll w (as ++ bs) = (putAll w as >>= fun v => putAll v bs) := by
  induction as generalizing w with
  | nil => rfl
  | cons a as ih => simp only [List.cons_append, putAll, bind_assoc, ih]

/-- A run of bits, and then another step, where the step may rely on how far the writer has come. -/
theorem putAll_bind_congr {α : Type} {w : Writer} {bits : List Bool} {f g : Writer → Except ErrCode α}
    (h : ∀ v, v.bp = w.bp + bits.length → f v = g v) : (putAll w bits >>= f) = (putAll w bits >>= g) := by
  cases hv : putAll w bits with
  | error e => rfl
  | ok v => exact h v (putAll_yields w bits v hv).2

/-- A run of bits is written where the writer has room for it, and else fails with `ERR_DST_FULL` (R165). -/
theorem putAll_eq {w : Writer} (hw : w.bp ≤ 8 * w.cap) (bits : List Bool) : putAll w bits =
    if w.bp + bits.length ≤ 8 * w.cap then .ok { w with rev := bits.reverse ++ w.rev, bp := w.bp + bits.length }
    else .error .dstFull := by
  induction bits generalizing w with
  | nil => exact (if_pos hw).symm
  | cons b bits ih =>
    rw [putAll, putBit, List.length_cons]
    split
    · rw [if_neg (by omega), error_bind]
    · rw [ok_bind, ih (by simp only; omega)]
      simp only [List.reverse_cons, List.append_assoc, List.singleton_append, Nat.add_assoc, Nat.add_comm 1]

/-! ## Stored blocks -/

/-- The bytes of a stored block at a byte boundary (R252). -/
def storedBytes (final : Bool) (bytes : List Byte) : List Byte :=
  byte final.toNat :: (bytesLE bytes.length 2 ++ bytesLE (65535 - bytes.length) 2 ++ bytes)

@[simp] theorem storedBytes_length (final : Bool) (bytes : List Byte) : (storedBytes final bytes).length = bytes.length + 5 := by
  simp only [storedBytes, List.length_cons, List.length_append, Memory.writeBytes_length_bytesLE]
  omega

theorem lsbBits_add (v m n : Nat) : lsbBits v (m + n) = lsbBits v m ++ lsbBits (v / 2 ^ m) n := by
  simp [lsbBits, List.range_add, Nat.testBit_div_two_pow, Nat.add_comm]

theorem lsbBits_mod (v n : Nat) : lsbBits (v % 2 ^ n) n = lsbBits v n := by
  refine List.map_congr_left fun i hi => ?_
  simp [Nat.testBit_mod_two_pow, List.mem_range.1 hi]

/-- The bytes of a little-endian number hold its bits (20_memory.md R61). -/
theorem byteBits_bytesLE (v n : Nat) : byteBits (bytesLE v n) = lsbBits v (8 * n) := by
  induction n generalizing v with
  | zero => rfl
  | succ n ih =>
    rw [bytesLE, byteBits_cons, ih, Nat.mul_succ, Nat.add_comm, lsbBits_add, BitVec.toNat_ofNat, lsbBits_mod]
    rfl

/-- The bits of a stored block at a byte boundary, field by field. -/
theorem byteBits_storedBytes (final : Bool) (bytes : List Byte) : byteBits (storedBytes final bytes) =
    [final, false, false] ++ List.replicate 5 false ++ lsbBits bytes.length 16 ++ lsbBits (65535 - bytes.length) 16 ++
      byteBits bytes := by
  have hhead : lsbBits (byte final.toNat).toNat 8 = [final, false, false] ++ List.replicate 5 false := by
    cases final <;> decide
  rw [storedBytes, byteBits_cons, byteBits_append, byteBits_append, byteBits_bytesLE, byteBits_bytesLE, hhead]
  simp only [List.append_assoc]

/-- A stored block at a byte boundary is one run of bits (R252). -/
theorem storedBlock_eq {w : Writer} (hw : w.bp % 8 = 0) {bytes : List Byte} (size : bytes.length < 65536) (final : Bool) :
    storedBlock w bytes final = putAll w (byteBits (storedBytes final bytes)) := by
  have hbit : lsbBits final.toNat 1 = [final] := by cases final <;> rfl
  have htype : [final, false, false] = lsbBits final.toNat 1 ++ lsbBits 0 2 := by rw [hbit]; rfl
  rw [byteBits_storedBytes, htype, ← xor_ones size]
  simp only [putAll_append, bind_assoc]
  refine putAll_bind_congr fun v hv => putAll_bind_congr fun u hu => ?_
  rw [lsbBits_length] at hv hu
  rw [alignWriter, show (8 - u.bp % 8) % 8 = 5 by omega]
  rfl

theorem storedBlock_blockBits {pos : Nat} (hpos : pos % 8 = 0) {bytes : List Byte} (size : bytes.length < 65536) (final : Bool)
    (out : List Byte) : BlockBits final pos out (byteBits (storedBytes final bytes)) (out ++ bytes) := by
  rw [byteBits_storedBytes]
  exact .stored (by rw [List.length_replicate]; omega) size

/-! ## Huffman blocks -/

section
variable {final : Bool} {toks : List Nat} {maxDist : Nat} {out out' : List Byte}

/-- The bits of a Huffman block: its start, its tokens, and the end of the block. -/
def huffmanBits (start : List Bool) (ll dl toks : List Nat) : List Bool :=
  start ++ tokenBits (codeTable ll) (codeTable dl) toks ++ codeBits ll 256

/-- A replay that keeps to a bound on its distances keeps to a larger one. -/
theorem replayTokens_mono {bound : Nat} (hle : maxDist ≤ bound) (h : replayTokens maxDist toks out = some out') :
    replayTokens bound toks out = some out' := by
  fun_induction replayTokens maxDist toks out with
  | case1 => exact h
  | case2 c rest out hc ih =>
    rw [replayTokens.eq_def]
    simp only [if_pos hc]
    exact ih h
  | case3 c out hc el d ed rest dist hok ih =>
    obtain ⟨hlo, hhi, hd, hel, hed, hdist, hback⟩ := hok
    rw [replayTokens.eq_def]
    simp only [if_neg hc]
    rw [if_pos ⟨hlo, hhi, hd, hel, hed, hdist.trans hle, hback⟩]
    exact ih h
  | case4 | case5 => cases h

/-- The symbols of a token stream that replays are those of 30_encoding.md R113. -/
theorem replayTokens_symbols (h : replayTokens maxDist toks out = some out') :
    (∀ c ∈ (tokenSymbols toks).1, c < 286) ∧ ∀ d ∈ (tokenSymbols toks).2, d < 30 := by
  fun_induction replayTokens maxDist toks out with
  | case1 => simp [tokenSymbols]
  | case2 c rest out hc ih =>
    rw [tokenSymbols.eq_def]
    simp only [if_pos (show c < 257 by omega), List.forall_mem_cons]
    exact ⟨⟨by omega, (ih h).1⟩, (ih h).2⟩
  | case3 c out hc el d ed rest dist hok ih =>
    obtain ⟨hlo, hhi, hd, -⟩ := hok
    rw [tokenSymbols.eq_def]
    simp only [if_neg (show ¬ c < 257 by omega), List.forall_mem_cons]
    exact ⟨⟨by omega, (ih h).1⟩, by omega, (ih h).2⟩
  | case4 | case5 => cases h

theorem putAll_huffmanBits (w : Writer) (start : List Bool) (ll dl toks : List Nat) :
    putAll w (huffmanBits start ll dl toks) = (do
      let w ← putAll w start
      let w ← putAll w (tokenBits (codeTable ll) (codeTable dl) toks)
      putAll w (symbolBits (codeTable ll) 256)) := by
  rw [huffmanBits, symbolBits_codeTable]
  simp only [putAll_append, bind_assoc]

/-- A fixed block is one run of bits (R253). -/
theorem fixedBlock_eq (w : Writer) : fixedBlock w toks final = putAll w (huffmanBits [final, true, false] fixedLL fixedD toks) := by
  have hhead : [final, true, false] = lsbBits final.toNat 1 ++ lsbBits 1 2 := by cases final <;> rfl
  rw [putAll_huffmanBits, hhead, putAll_append]
  simp only [bind_assoc]
  rfl

theorem getD_ne_zero_of_forall {len : List Nat} (h : ∀ l ∈ len, l ≠ 0) {s : Nat} (hs : s < len.length) : len.getD s 0 ≠ 0 := by
  rw [List.getD_eq_getElem _ _ hs]
  exact h _ (List.getElem_mem hs)

theorem fixedBlock_blockBits (h : replayTokens maxDist toks out = some out') (hmax : maxDist ≤ 32768) (pos : Nat) :
    BlockBits final pos out (huffmanBits [final, true, false] fixedLL fixedD toks) out' := by
  have hll : ∀ l ∈ fixedLL, l ≠ 0 := by decide +kernel
  have hdl : ∀ l ∈ fixedD, l ≠ 0 := by decide +kernel
  obtain ⟨hc, hd⟩ := replayTokens_symbols h
  refine .huffman (.fixed final) ⟨fun c hmem => getD_ne_zero_of_forall hll ?_, fun d hmem => getD_ne_zero_of_forall hdl ?_⟩
    (replayTokens_mono hmax h)
  · rw [fixedLL_length]
    exact (hc c hmem).trans (by decide)
  · exact hd d hmem

end

end Sys2Proof.Machine
end

section
/-! Dynamic blocks of the encoder (44_deflate.md R254, R256), for any tree builder: the tables that the header transmits are the
built ones without their trailing zeros, and they code the tokens alike. -/

namespace Sys2Proof.Machine

/-! ## Tables padded with zeros code alike -/

section
variable (len : List Nat) (n : Nat)

theorem firstCode_padTo (b : Nat) : firstCode (padTo n len) b = firstCode len b := by
  have hcount : ∀ b, blCount (padTo n len) b = blCount len b := fun b => by
    by_cases hb : b = 0
    · simp [blCount, hb]
    · simp [blCount, hb, count_padTo len n hb]
  induction b with
  | zero => rfl
  | succ b ih => rw [firstCode_succ, firstCode_succ, ih, hcount]

theorem codeOf_padTo (s : Nat) : codeOf (padTo n len) s = codeOf len s := by
  by_cases hs : len.getD s 0 = 0
  · simp only [codeOf, padTo_getD, hs, if_true]
  · have hlt := lt_length_of_getD_ne_zero hs
    rw [codeOf_eq hs, codeOf_eq (by rwa [padTo_getD]), padTo_getD, firstCode_padTo, padTo, List.take_append_of_le_length hlt.le]

theorem codeBits_padTo (s : Nat) : codeBits (padTo n len) s = codeBits len s := by
  rw [codeBits_eq, codeBits_eq, codeOf_padTo, padTo_getD]

theorem symbolBits_padTo (s : Nat) : symbolBits (codeTable (padTo n len)) s = symbolBits (codeTable len) s := by
  rw [symbolBits_codeTable, symbolBits_codeTable, codeBits_padTo]

end

/-- Padded tables write tokens alike. -/
theorem tokenBits_padTo (ll dl : List Nat) (m n : Nat) (toks : List Nat) :
    tokenBits (codeTable (padTo m ll)) (codeTable (padTo n dl)) toks = tokenBits (codeTable ll) (codeTable dl) toks := by
  fun_induction tokenBits (codeTable ll) (codeTable dl) toks with
  | case1 => rfl
  | case2 c rest hc ih =>
    rw [tokenBits.eq_def]
    simp only [if_pos hc, symbolBits_padTo, ih]
  | case3 c hc el d ed rest ih =>
    rw [tokenBits.eq_def]
    simp only [if_neg hc, symbolBits_padTo, ih]
  | case4 c rest hc hrest =>
    rw [tokenBits.eq_def]
    simp only [if_neg hc]

/-! ## Built tables -/

theorem take_padTo (n : Nat) (len : List Nat) : (padTo n len).take len.length = len := List.take_left

/-- A table is its part that covers the coded symbols, padded with zeros (43_huffman.md R216). -/
theorem padTo_take {len : List Nat} {k : Nat} (hk : usedLength len ≤ k) : padTo len.length (len.take k) = len := by
  have hdrop : len.drop k = List.replicate (len.length - k) 0 := by
    refine List.eq_replicate_iff.2 ⟨List.length_drop, fun b hb => ?_⟩
    obtain ⟨j, hj, rfl⟩ := List.getElem_of_mem hb
    rw [List.getElem_drop, ← List.getD_eq_getElem _ 0]
    exact (usedLength_spec len).2.1 _ (by omega)
  conv_rhs => rw [← List.take_append_drop k len, hdrop]
  rw [padTo, List.length_take]
  congr 2
  omega

/-- `tab` is what a header transmits of a code for the frequencies `freq`: complete, and with a code for each used symbol
(43_huffman.md R216, R217). -/
structure TransmittedCode (freq : List Nat) (minCodes : Nat) (tab : List Nat) : Prop where
  min_le : minCodes ≤ tab.length
  length_le : tab.length ≤ freq.length
  le : ∀ l ∈ tab, l ≤ 15
  kraft_eq : kraftSum tab 15 = 2 ^ 15
  coded : ∀ k < freq.length, freq.getD k 0 ≠ 0 → tab.getD k 0 ≠ 0

/-- Any builder gives a code for an alphabet of the sizes of a block (R217). -/
theorem LegalBuilder.transmitted {build : TreeBuilder} (hb : LegalBuilder build) {freq : List Nat} {minCodes : Nat}
    (h2 : 2 ≤ freq.length) (hfew : freq.length ≤ 2 ^ 15) (hmin : minCodes ≤ freq.length) :
    ∃ tab, buildFromFrequencies build freq minCodes 15 = .ok (padTo freq.length tab, tab.length) ∧
      TransmittedCode freq minCodes tab := by
  obtain ⟨hok, herr⟩ := hb freq 15 h2 (by decide) (by decide)
  cases hbuild : build freq 15 with
  | error e =>
    have := (herr e hbuild).2
    have := List.length_filter_le (· ≠ 0) freq
    omega
  | ok len =>
    obtain ⟨hlen, hle, hk, -, hcoded⟩ := hok len hbuild
    have hused := (usedLength_spec len).1
    have hpad : padTo freq.length (len.take (max minCodes (usedLength len))) = len := hlen ▸ padTo_take (Nat.le_max_right ..)
    have htab : (len.take (max minCodes (usedLength len))).length = max minCodes (usedLength len) := by
      rw [List.length_take]
      omega
    refine ⟨len.take (max minCodes (usedLength len)), ?_, ⟨by omega, by omega, fun l hl => hle l (List.mem_of_mem_take hl), ?_,
      fun k hlt hne => ?_⟩⟩
    · rw [buildFromFrequencies, hbuild, ok_bind, htab, hpad]
    · have := kraft_padTo (len.take (max minCodes (usedLength len))) freq.length 15
      rw [hpad] at this
      exact this.symm.trans hk
    · have := hcoded k hlt hne
      rwa [← hpad, padTo_getD] at this

/-! ## The block -/

/-- The literal/length frequencies of a block (R254). -/
def llFreq (toks : List Nat) : List Nat := ((List.range 286).map (tokenSymbols toks).1.count).set 256 1

/-- The distance frequencies of a block (R254). -/
def distFreq (toks : List Nat) : List Nat := (List.range 30).map (tokenSymbols toks).2.count

@[simp] theorem llFreq_length (toks : List Nat) : (llFreq toks).length = 286 := by simp [llFreq]

@[simp] theorem distFreq_length (toks : List Nat) : (distFreq toks).length = 30 := by simp [distFreq]

theorem llFreq_ne_zero {toks : List Nat} {c : Nat} (hc : c < 286) (h : c ∈ (tokenSymbols toks).1 ∨ c = 256) :
    (llFreq toks).getD c 0 ≠ 0 := by
  rw [llFreq, List.getD_eq_getElem _ _ (by simpa using hc), List.getElem_set]
  split
  · exact Nat.one_ne_zero
  · next h256 => simpa [List.count_eq_zero] using h.resolve_right (Ne.symm h256)

theorem distFreq_ne_zero {toks : List Nat} {d : Nat} (hd : d < 30) (h : d ∈ (tokenSymbols toks).2) :
    (distFreq toks).getD d 0 ≠ 0 := by
  rw [distFreq, List.getD_eq_getElem _ _ (by simpa using hd)]
  simpa [List.count_eq_zero] using h

/-- A dynamic block is a header that passes every check of R220, and the tokens in its codes: one run of bits (R254, R256). -/
theorem dynamicBlock_eq {build : TreeBuilder} (hb : LegalBuilder build) {toks : List Nat} {maxDist : Nat} {out out' : List Byte}
    (h : replayTokens maxDist toks out = some out') (final : Bool) :
    ∃ header ll dl, HeaderBits header ll dl ∧ header.length ≤ 4551 ∧ TokensCoded ll dl toks ∧
      ∀ w, dynamicBlock build w toks final = putAll w (huffmanBits ([final, false, true] ++ header) ll dl toks) := by
  obtain ⟨hc, hd⟩ := replayTokens_symbols h
  obtain ⟨ll, hll, hllCode⟩ := hb.transmitted (freq := llFreq toks) (minCodes := 257) (by simp) (by simp) (by simp)
  obtain ⟨dl, hdl, hdlCode⟩ := hb.transmitted (freq := distFreq toks) (minCodes := 2) (by simp) (by simp) (by simp)
  have heob : ll.getD 256 0 ≠ 0 := hllCode.coded 256 (by simp) (llFreq_ne_zero (by decide) (.inr rfl))
  have hllLen := hllCode.length_le
  have hdlLen := hdlCode.length_le
  have hdlMin := hdlCode.min_le
  rw [llFreq_length] at hllLen
  rw [distFreq_length] at hdlLen
  obtain ⟨fields, ps, hdyn, hw⟩ := dynamicHeaderWith_written hb (ll := ll) (dl := dl) hllCode.min_le (by omega) (by omega) (by omega)
    fun l hl => (List.mem_append.1 hl).elim (hllCode.le l) (hdlCode.le l)
  refine ⟨_, ll, dl, hw.isHeader heob hllCode.kraft_eq hdlCode.kraft_eq, hw.length_le,
    ⟨fun c hmem => hllCode.coded c (by simpa using hc c hmem) (llFreq_ne_zero (hc c hmem) (.inl hmem)),
      fun d hmem => hdlCode.coded d (by simpa using hd d hmem) (distFreq_ne_zero (hd d hmem) hmem)⟩, fun w => ?_⟩
  have hhead : [final, false, true] = lsbBits final.toNat 1 ++ lsbBits 2 2 := by cases final <;> rfl
  rw [putAll_huffmanBits, putAll_append, hhead, putAll_append]
  rw [llFreq] at hll
  rw [distFreq] at hdl
  simp only [dynamicBlock, Config.llMaxBits, Config.dMaxBits, hll, hdl, ok_bind, padTo_getD, failIf_of_false _ heob, take_padTo, hdyn,
    tokenBits_padTo, symbolBits_padTo, bind_assoc]
  rfl

end Sys2Proof.Machine
end

section
/-! The stream of the encoder (44_deflate.md R251): one run of bits that are a well-formed stream of the input, for every value of the
parameters, and how many bits they are. -/

namespace Sys2Proof.Machine

/-! ## The size of a Huffman block -/

theorem codeBits_length_le {len : List Nat} (h : ∀ l ∈ len, l ≤ 15) (s : Nat) : (codeBits len s).length ≤ 15 := by
  rw [codeBits_length]
  rcases Nat.lt_or_ge s len.length with hs | hs
  · rw [List.getD_eq_getElem _ _ hs]
    exact h _ (List.getElem_mem hs)
  · rw [List.getD_eq_default _ _ hs]
    exact Nat.zero_le _

/-- With codes of at most 15 bits a block takes at most 16 bits for each byte it gives: 15 for a literal, and for a pair, which gives
3 bytes or more, `15 + 5 + 15 + 13` (30_encoding.md R109, R110). -/
theorem tokenBits_length_le {ll dl toks : List Nat} {maxDist : Nat} {out out' : List Byte} (hll : ∀ l ∈ ll, l ≤ 15)
    (hdl : ∀ l ∈ dl, l ≤ 15) (h : replayTokens maxDist toks out = some out') :
    (tokenBits (codeTable ll) (codeTable dl) toks).length + 16 * out.length ≤ 16 * out'.length := by
  have hlenExtra : ∀ i ≤ 28, lenExtra.getD i 0 ≤ 5 ∧ 3 ≤ lenBase.getD i 0 := by decide
  have hdistExtra : ∀ d ≤ 29, distExtra.getD d 0 ≤ 13 := by decide
  fun_induction replayTokens maxDist toks out with
  | case1 =>
    cases h
    simp [tokenBits]
  | case2 c rest out hc ih =>
    have hcode := codeBits_length_le hll c
    have hrest := ih h
    rw [tokenBits_literal ll dl (by omega), List.length_append]
    rw [List.length_append, List.length_singleton] at hrest
    omega
  | case3 c out hc el d ed rest dist hok ih =>
    obtain ⟨hlo, hhi, hd, -⟩ := hok
    have hcode := codeBits_length_le hll c
    have hdist := codeBits_length_le hdl d
    have hextra := hdistExtra d hd
    obtain ⟨hel, hbase⟩ := hlenExtra (c - 257) (by omega)
    have hrest := ih h
    rw [tokenBits_pair ll dl hlo, pairTokenBits, lengthBits]
    simp only [List.length_append, lsbBits_length, replayCopy_length] at hrest ⊢
    omega
  | case4 | case5 => cases h

/-- A Huffman block of the encoder, of the type `MODE` selects (R251). -/
def huffmanBlock (p : EncoderParams) (r : Regs) (toks : List Nat) (final : Bool) (w : Writer) : Except ErrCode Writer :=
  if r.btype = 1 then fixedBlock w toks final else dynamicBlock p.build w toks final

/-- A Huffman block of the encoder: one run of bits, a whole block at any position, with at most 16 bits a byte and 4800 more. -/
structure WritesBlock (final : Bool) (out out' : List Byte) (block : Writer → Except ErrCode Writer) (bits : List Bool) : Prop where
  writes : ∀ w, block w = putAll w bits
  isBlock : ∀ pos, BlockBits final pos out bits out'
  length_le : bits.length + 16 * out.length ≤ 16 * out'.length + 4800

theorem huffmanBits_length_le {start : List Bool} {ll dl toks : List Nat} {maxDist : Nat} {out out' : List Byte}
    (hstart : start.length ≤ 4600) (hll : ∀ l ∈ ll, l ≤ 15) (hdl : ∀ l ∈ dl, l ≤ 15)
    (h : replayTokens maxDist toks out = some out') :
    (huffmanBits start ll dl toks).length + 16 * out.length ≤ 16 * out'.length + 4800 := by
  have htoks := tokenBits_length_le hll hdl h
  have heob := codeBits_length_le hll 256
  simp only [huffmanBits, List.length_append]
  omega

section
variable {toks : List Nat} {maxDist : Nat} {out out' : List Byte} (h : replayTokens maxDist toks out = some out')
  (hmax : maxDist ≤ 32768) (final : Bool)
include h hmax

/-- A block of tokens that replay to its bytes (R253 to R256). -/
theorem huffmanBlock_writes {p : EncoderParams} (hb : LegalBuilder p.build) (r : Regs) :
    ∃ bits, WritesBlock final out out' (huffmanBlock p r toks final) bits := by
  unfold huffmanBlock
  split
  · exact ⟨_, fixedBlock_eq, fixedBlock_blockBits h hmax,
      huffmanBits_length_le (by simp) (by decide +kernel) (by decide +kernel) h⟩
  · obtain ⟨header, ll, dl, hheader, hlen, coded, hwrites⟩ := dynamicBlock_eq hb h final
    obtain ⟨-, -, hle⟩ := hheader.bounds
    obtain ⟨hll, hdl⟩ := List.forall_mem_append.1 hle
    have hstart : ([final, false, true] ++ header).length ≤ 4600 := by
      rw [List.length_append]
      exact (Nat.add_le_add_left hlen 3).trans (by decide)
    exact ⟨_, hwrites, fun pos => .huffman (.dynamic final hheader) coded (replayTokens_mono hmax h),
      huffmanBits_length_le hstart hll hdl h⟩

end

/-! ## The blocks from one on -/

/-- The blocks from number `i` on, of `nb` in all: none, or the rest of a stream. -/
def StreamFrom (nb i pos : Nat) (out : List Byte) (bits : List Bool) (out' : List Byte) : Prop :=
  if i = nb then bits = [] ∧ out' = out else StreamBits pos out bits (nb - i) out'

theorem StreamFrom.nil (nb pos : Nat) (out : List Byte) : StreamFrom nb nb pos out [] out := by simp [StreamFrom]

/-- Only the last block is final (R251). -/
theorem StreamFrom.cons {nb i pos : Nat} {out mid out' : List Byte} {bits rest : List Bool} (hi : i < nb)
    (block : BlockBits (i + 1 == nb) pos out bits mid) (after : StreamFrom nb (i + 1) (pos + bits.length) mid rest out') :
    StreamFrom nb i pos out (bits ++ rest) out' := by
  rw [StreamFrom, if_neg hi.ne]
  by_cases hlast : i + 1 = nb
  · rw [StreamFrom, if_pos hlast] at after
    obtain ⟨rfl, rfl⟩ := after
    rw [List.append_nil, show nb - i = 1 by omega]
    rw [beq_iff_eq.2 hlast] at block
    exact .last block
  · rw [StreamFrom, if_neg hlast] at after
    rw [show nb - i = nb - (i + 1) + 1 by omega]
    rw [beq_eq_false_iff_ne.2 hlast] at block
    exact .more block after

theorem StreamFrom.stream {nb pos : Nat} {out out' : List Byte} {bits : List Bool} (hnb : nb ≠ 0)
    (h : StreamFrom nb 0 pos out bits out') : StreamBits pos out bits nb out' := by
  rwa [StreamFrom, if_neg hnb.symm] at h

/-! ## Stored blocks -/

/-- The input of block `i` of size `bs` (R251). -/
def blockInput (data : Buf) (n bs i : Nat) : List Byte :=
  (List.range' (bs * i) (min n (bs * (i + 1)) - bs * i)).map (Buf.byte data)

/-- Stored block `i` of `nb`, as bytes (R251, R252). -/
def storedChunk (data : Buf) (n nb i : Nat) : List Byte := storedBytes (i + 1 == nb) (blockInput data n Config.storedMax i)

theorem firstBytes_append_blockInput (data : Buf) {n bs i : Nat} (hi : bs * i ≤ n) :
    Buf.firstBytes data (min n (bs * i)) ++ blockInput data n bs i = Buf.firstBytes data (min n (bs * (i + 1))) := by
  have hle : bs * i ≤ bs * (i + 1) := Nat.mul_le_mul_left bs i.le_succ
  have hsplit := List.range'_append_1 (s := 0) (m := bs * i) (n := min n (bs * (i + 1)) - bs * i)
  rw [Nat.zero_add, Nat.add_sub_of_le (by omega)] at hsplit
  rw [Nat.min_eq_right hi, Buf.firstBytes, Buf.firstBytes, blockInput, ← List.map_append, List.range_eq_range', hsplit,
    List.range_eq_range']

theorem blockInput_length_lt (data : Buf) (n i : Nat) : (blockInput data n Config.storedMax i).length < 65536 := by
  rw [blockInput, List.length_map, List.length_range', Config.storedMax]
  omega

/-- The stored blocks are one run of whole bytes. -/
theorem storedBlocks_eq (data : Buf) (n nb : Nat) (is : List Nat) {w : Writer} (hw : w.bp % 8 = 0) :
    storedBlocks data n nb is w = putAll w (byteBits (is.flatMap (storedChunk data n nb))) := by
  induction is generalizing w with
  | nil => rfl
  | cons i is ih =>
    have hblock := storedBlock_eq hw (blockInput_length_lt data n i) (i + 1 == nb)
    rw [List.flatMap_cons, byteBits_append, putAll_append]
    refine (congrArg (· >>= storedBlocks data n nb is) hblock).trans (putAll_bind_congr fun v hv => ih ?_)
    rw [hv, byteBits_length]
    omega

theorem huffmanBlocks_cons (p : EncoderParams) (r : Regs) (data : Buf) (n bs nb i : Nat) (is : List Nat) (t : MatchTables)
    (w : Writer) : huffmanBlocks p r data n bs nb (i :: is) t w =
      (huffmanBlock p r (tokenizeWith p.finder r data t (bs * i) (min n (bs * (i + 1)))).1 (i + 1 == nb) w >>=
        huffmanBlocks p r data n bs nb is (tokenizeWith p.finder r data t (bs * i) (min n (bs * (i + 1)))).2) := by
  by_cases h1 : r.btype = 1
  · simp only [huffmanBlocks, huffmanBlock, if_pos h1]
  · simp only [huffmanBlocks, huffmanBlock, if_neg h1]

section
variable (data : Buf) {n bs nb : Nat} (hstart : ∀ i < nb, bs * i ≤ n)
include hstart

theorem storedBlocks_stream (hbs : bs = Config.storedMax) (k : Nat) {i pos : Nat} (hk : i + k = nb) (hpos : pos % 8 = 0) :
    StreamFrom nb i pos (Buf.firstBytes data (min n (bs * i))) (byteBits ((List.range' i k).flatMap (storedChunk data n nb)))
      (Buf.firstBytes data (min n (bs * nb))) := by
  induction k generalizing i pos with
  | zero =>
    obtain rfl : i = nb := hk
    exact .nil ..
  | succ k ih =>
    have hi : i < nb := by omega
    rw [List.range'_succ, List.flatMap_cons, byteBits_append]
    refine .cons hi (storedBlock_blockBits hpos (blockInput_length_lt data n i) _ _) ?_
    rw [← hbs, firstBytes_append_blockInput data (hstart i hi)]
    exact ih (by omega) (by rw [byteBits_length]; omega)

/-- The Huffman blocks are one run of bits, and the match finder's tables serve them all (42_match_finder.md R180). -/
theorem huffmanBlocks_stream {p : EncoderParams} (hb : LegalBuilder p.build) {r : Regs} (hw : WindowLegal r) (k : Nat) {i : Nat}
    {t : MatchTables} (hk : i + k = nb) (ht : r.useLz77 = true → t.ReadyAt data r.window.toNat (min n (bs * i))) :
    ∃ bits, (∀ w, huffmanBlocks p r data n bs nb (List.range' i k) t w = putAll w bits) ∧
      (∀ pos, StreamFrom nb i pos (Buf.firstBytes data (min n (bs * i))) bits (Buf.firstBytes data (min n (bs * nb)))) ∧
      bits.length + 16 * min n (bs * i) ≤ 16 * min n (bs * nb) + 4800 * k := by
  induction k generalizing i t with
  | zero =>
    obtain rfl : i = nb := hk
    exact ⟨[], fun w => rfl, fun pos => .nil .., by simp⟩
  | succ k ih =>
    have hi : i < nb := by omega
    have hle : bs * i ≤ bs * (i + 1) := Nat.mul_le_mul_left bs i.le_succ
    have hmax : r.window.toNat - 1 ≤ 32768 := (Nat.sub_le ..).trans hw.bounds.2
    rw [Nat.min_eq_right (hstart i hi)] at ht ⊢
    obtain ⟨hready, hreplay, -⟩ := tokenizeWith_spec hw p.finder data ht (Nat.le_min.2 ⟨hstart i hi, hle⟩)
    obtain ⟨block, hblock⟩ := huffmanBlock_writes hreplay hmax (i + 1 == nb) hb r
    obtain ⟨rest, hrest, hstream, hsize⟩ := ih (show i + 1 + k = nb by omega) hready
    have hblockSize := hblock.length_le
    rw [Buf.firstBytes_length, Buf.firstBytes_length] at hblockSize
    refine ⟨block ++ rest, fun w => ?_, fun pos => .cons hi (hblock.isBlock pos) (hstream _), ?_⟩
    · rw [List.range'_succ, huffmanBlocks_cons, putAll_append, hblock.writes]
      exact congrArg (putAll w block >>= ·) (funext hrest)
    · rw [List.length_append, Nat.mul_succ]
      omega

end

/-! ## The stream -/

/-- `EncodeStream` of the first `n` bytes, from a byte boundary on, is one run of bits (R251). -/
def EncodesTo (p : EncoderParams) (r : Regs) (data : Buf) (n : Nat) (bits : List Bool) : Prop :=
  ∀ w, w.bp % 8 = 0 → encodeStreamWith p r data n w = (putAll w bits >>= fun v => .ok (v, blockCount r.btype n))

/-- A fresh writer takes the stream, or is too small for it (41_bitstream.md R165). -/
theorem EncodesTo.fresh {p : EncoderParams} {r : Regs} {data : Buf} {n : Nat} {bits : List Bool} (h : EncodesTo p r data n bits)
    (cap : Nat) : encodeStreamWith p r data n ⟨[], 0, cap⟩ =
      if bits.length ≤ 8 * cap then .ok (⟨bits.reverse, bits.length, cap⟩, blockCount r.btype n) else .error .dstFull := by
  rw [h _ rfl, putAll_eq (Nat.zero_le _), Nat.zero_add, List.append_nil]
  split <;> rfl

theorem ceilDiv_spec {k : Nat} (hk : 0 < k) (n : Nat) : n ≤ k * ceilDiv n k ∧ k * ceilDiv n k < n + k := by
  have hle := Nat.mul_div_le (n + k - 1) k
  have hlt := Nat.lt_mul_div_succ (n + k - 1) hk
  rw [Nat.mul_succ] at hlt
  rw [ceilDiv]
  omega

theorem blockCount_pos (btype n : Nat) : 0 < blockCount btype n := by
  rw [blockCount]
  split <;> omega

/-- The blocks cover the input, and none starts past it (R251). -/
theorem blockSize_mul_blockCount (btype n : Nat) :
    n ≤ blockSize btype n * blockCount btype n ∧ ∀ i < blockCount btype n, blockSize btype n * i ≤ n := by
  by_cases h1 : btype = 1
  · subst h1
    simp [blockSize, blockCount]
  · have hbs : 0 < blockSize btype n := by
      rw [blockSize, if_neg h1, Config.dynBlock]
      split
      · decide
      · omega
    obtain ⟨hge, hlt⟩ := ceilDiv_spec hbs n
    rw [blockCount, if_neg h1]
    refine ⟨hge.trans (Nat.mul_le_mul_left _ (Nat.le_max_right ..)), fun i hi => ?_⟩
    rcases Nat.eq_zero_or_pos i with rfl | hpos
    · simp
    · have := Nat.mul_le_mul_left (blockSize btype n) (show i + 1 ≤ ceilDiv n (blockSize btype n) by omega)
      rw [Nat.mul_succ] at this
      omega

theorem blockCount_le (btype n : Nat) : blockCount btype n ≤ n / 65535 + 1 := by
  by_cases h1 : btype = 1
  · simp [blockCount, h1]
  · have hlast := (blockSize_mul_blockCount btype n).2 (blockCount btype n - 1) (Nat.sub_one_lt (blockCount_pos btype n).ne')
    have hsize : 65535 ≤ blockSize btype n := by
      rw [blockSize, if_neg h1, Config.dynBlock, Config.storedMax]
      split <;> omega
    have hle := Nat.mul_le_mul_right (blockCount btype n - 1) hsize
    omega

/-- The stream of stored blocks, as bytes (R251, R252). -/
def storedStream (data : Buf) (n : Nat) : List Byte :=
  (List.range (blockCount 0 n)).flatMap (storedChunk data n (blockCount 0 n))

theorem encodesTo_stored (p : EncoderParams) {r : Regs} (h0 : r.btype = 0) (data : Buf) (n : Nat) :
    EncodesTo p r data n (byteBits (storedStream data n)) := by
  intro w hw
  rw [encodeStreamWith, if_pos h0, storedBlocks_eq data n _ _ hw, h0]
  rfl

/-- How many bytes the first `i` stored blocks are. -/
theorem storedChunks_length (data : Buf) (n nb : Nat) {i : Nat} (hstart : ∀ j < i, 65535 * j ≤ n) :
    ((List.range i).flatMap (storedChunk data n nb)).length = min n (65535 * i) + 5 * i := by
  induction i with
  | zero => simp
  | succ i ih =>
    have hi := hstart i i.lt_succ_self
    rw [List.range_succ, List.flatMap_append, List.length_append, ih fun j hj => hstart j (by omega), List.flatMap_singleton,
      storedChunk, storedBytes_length, blockInput, List.length_map, List.length_range', Config.storedMax]
    omega

theorem storedStream_length (data : Buf) (n : Nat) : (storedStream data n).length = n + 5 * blockCount 0 n := by
  obtain ⟨hcover, hstart⟩ : n ≤ 65535 * blockCount 0 n ∧ ∀ i < blockCount 0 n, 65535 * i ≤ n := blockSize_mul_blockCount 0 n
  rw [storedStream, storedChunks_length data n _ hstart, Nat.min_eq_left hcover]

/-- The encoder writes a well-formed stream of the input, of at most 16 bits a byte and 4800 a block, whatever its parameters
(R251, R266). -/
theorem exists_stream {p : EncoderParams} (hb : LegalBuilder p.build) {r : Regs} (hw : WindowLegal r) (data : Buf) (n : Nat) :
    ∃ bits, EncodesTo p r data n bits ∧ StreamBits 0 [] bits (blockCount r.btype n) (Buf.firstBytes data n) ∧
      bits.length ≤ 8 * (2 * n + 600 * (n / 65535 + 1)) := by
  obtain ⟨hcover, hstart⟩ := blockSize_mul_blockCount r.btype n
  have hcount := blockCount_le r.btype n
  have hne := (blockCount_pos r.btype n).ne'
  by_cases h0 : r.btype = 0
  · have hstream := storedBlocks_stream data hstart (by rw [blockSize, if_pos h0]) (blockCount r.btype n) (pos := 0) (Nat.zero_add _) rfl
    rw [Nat.mul_zero, Nat.min_zero, Nat.min_eq_left hcover, ← List.range_eq_range', h0] at hstream
    refine ⟨_, encodesTo_stored p h0 data n, ?_, ?_⟩
    · rw [h0]
      exact StreamFrom.stream (h0 ▸ hne) hstream
    · rw [byteBits_length, storedStream_length, ← h0]
      omega
  · obtain ⟨bits, hwrites, hstream, hsize⟩ := huffmanBlocks_stream data hstart hb hw (t := .init) (blockCount r.btype n) (Nat.zero_add _)
      fun _ => by
        rw [Nat.mul_zero, Nat.min_zero]
        exact MatchTables.readyAt_init data _
    rw [Nat.mul_zero, Nat.min_zero, Nat.min_eq_left hcover] at hsize hstream
    refine ⟨bits, fun w _ => ?_, StreamFrom.stream hne (hstream 0), by omega⟩
    rw [encodeStreamWith, if_neg h0, List.range_eq_range', hwrites]

end Sys2Proof.Machine
end

section
/-! The commands `DEFLATE.RAW` and `INFLATE.RAW` (44_deflate.md R264 to R267): what each does with a run of bits, and the round trip. -/

namespace Sys2Proof.Machine

/-! ## Packed bits in memory -/

/-- Whole bytes pack to themselves (41_bitstream.md R165). -/
theorem packBits_byteBits (bytes : List Byte) : packBits (byteBits bytes) = bytes := by
  induction bytes with
  | nil => rfl
  | cons b bytes ih =>
    have hbyte : byte (lsbValue (lsbBits b.toNat 8)) = b := by
      rw [lsbValue_lsbBits, Nat.mod_eq_of_lt b.isLt]
      simp
    conv_rhs => rw [← hbyte, ← ih]
    rfl

/-- Written bytes stand where they were written (20_memory.md R67). -/
theorem bytesAt_writeBytes (m : Memory) {base : Nat} {bs : List Byte} (h : bs.length = 0 ∨ base + bs.length ≤ Config.addrSpace) :
    bytesAt (m.writeBytes base bs) base bs.length = bs := by
  refine List.ext_getElem (by simp) fun k _ hk => ?_
  simp only [bytesAt, List.getElem_map, List.getElem_range]
  exact Memory.read_writeBytes_inside m base k bs hk (by omega)

/-- Packed bits in memory stand there. -/
theorem bitsStandAt_of_bytesAt {m : Memory} {base : Nat} {bits : List Bool}
    (h : bytesAt m base (packBits bits).length = packBits bits) : bitsStandAt m base 0 bits := by
  intro k hk
  have hbyte : k / 8 < (packBits bits).length := by
    rw [packBits_length]
    omega
  have hread : m.read (base + k / 8) = (packBits bits).getD (k / 8) 0 := by
    conv_rhs => rw [← h]
    rw [List.getD_eq_getElem _ _ (by simpa using hbyte)]
    simp [bytesAt]
  rw [Nat.zero_add, memBit, hread, packBits_bit, List.getD_eq_getElem _ _ hk]

theorem firstBytes_region (m : Memory) (base n : Nat) : Buf.firstBytes (m.region base n) n = bytesAt m base n :=
  List.map_congr_left fun _ hk => Memory.byte_region m base n _ (List.mem_range.1 hk)

/-! ## `INFLATE.RAW` -/

/-- A well-formed stream in SRC is decoded whole (R265). -/
theorem execInflateRaw_stream {s : State} {bits : List Bool} {nb : Nat} {data : List Byte} (h : StreamBits 0 [] bits nb data)
    (hbits : bitsStandAt s.mem s.operands.srcAddr.toNat 0 bits) (hlen : bits.length ≤ 8 * s.operands.srcLen.toNat)
    (hcap : data.length ≤ s.operands.dstCap.toNat) (hok : RegionsOk .inflateRaw s) :
    ∃ m : Memory, exec .inflateRaw s = .next (s.succeed { s.regs with
        result0 := storeCount bits.length, result1 := word nb, dstLen := word data.length } m) ∧
      bytesAt m s.operands.dstAddr.toNat data.length = data ∧
      ∀ a, a < s.operands.dstAddr.toNat ∨ s.operands.dstAddr.toNat + data.length ≤ a → m.read a = s.mem.read a := by
  have hread := decodeStream_eq h (r := s.operands.srcReader s.mem) rfl
    (region_holds hbits ((Nat.zero_add _).trans_le hlen) le_rfl) hcap
  have hspace := hok.dst_fits rfl
  refine ⟨s.mem.writeBytes s.operands.dstAddr.toNat data, ?_, bytesAt_writeBytes _ (by omega), fun a ha =>
    Memory.read_writeBytes_outside _ _ _ _ ha⟩
  rw [exec, execInflateRaw]
  refine runCommand_success rfl ((regionChecks_ok_iff _ s).2 hok) (bind_eq_ok.2 ⟨_, hread, ?_⟩)
  simp [Regs.srcReader, Out.bytes]

/-! ## `DEFLATE.RAW` -/

/-- The input of a compressing command. -/
def State.srcBuf (s : State) : Buf := s.mem.region s.operands.srcAddr.toNat s.operands.srcLen.toNat

/-- The command writes the encoder's bits where they fit, and fails with `ERR_DST_FULL` where they do not (R264). -/
theorem execDeflateRaw_eq {s : State} {bits : List Bool} (hw : WindowLegal s.operands) (hbtype : s.operands.mode.toNat % 4 ≠ 3)
    (hok : RegionsOk .deflateRaw s) (he : EncodesTo specEncoder s.operands s.srcBuf s.operands.srcLen.toNat bits) :
    exec .deflateRaw s =
      if bits.length ≤ 8 * s.operands.dstCap.toNat then
        .next (s.succeed { s.regs with
          result0 := storeCount bits.length
          result1 := word (blockCount s.operands.btype s.operands.srcLen.toNat)
          dstLen := word (packBits bits).length } (s.mem.writeBytes s.operands.dstAddr.toNat (packBits bits)))
      else .next (s.fail .dstFull [.result0, .result1, .dstLen] (some s.operands.dst)) := by
  have hargs := compressChecks_ok hw hbtype
  have hregions := (regionChecks_ok_iff .deflateRaw s).2 hok
  have hencode := he.fresh s.operands.dstCap.toNat
  rw [exec, execDeflateRaw]
  split
  · next hfit =>
    rw [if_pos hfit] at hencode
    refine runCommand_success hargs hregions (bind_eq_ok.2 ⟨_, hencode, ?_⟩)
    simp [Writer.bytes, ceilDiv]
  · next hfull =>
    rw [if_neg hfull] at hencode
    exact runCommand_failure hargs hregions (bind_eq_error.2 (.inl hencode))

/-- A command that reports no error had legal settings and regions. -/
theorem execDeflateRaw_noError {s t : State} (h : exec .deflateRaw s = .next t) (ht : t.status.error = false) :
    WindowLegal s.operands ∧ s.operands.mode.toNat % 4 ≠ 3 ∧ RegionsOk .deflateRaw s := by
  rw [exec, execDeflateRaw] at h
  obtain ⟨hargs, hok, -⟩ := runCommand_noError h ht
  obtain ⟨hw, hbtype⟩ := (compressChecks_checks _).eq_ok_iff.1 hargs
  exact ⟨hw, hbtype, hok⟩

end Sys2Proof.Machine
end

section
/-! The statements about `DEFLATE.RAW` and `INFLATE.RAW` (44_deflate.md R251 to R267): streams decode to their input, the layout of
stored blocks, and the room that is always enough. -/

namespace Sys2Proof.Machine

/-! ## Streams of the encoder -/

/-- What the encoder gives for an input, on a fresh writer: a well-formed stream of it, or `ERR_DST_FULL` (R251, R266). -/
theorem encodeStreamWith_cases {p : EncoderParams} (hb : LegalBuilder p.build) {r : Regs} (hw : WindowLegal r) (data : List Byte)
    (cap : Nat) :
    (∃ bits nb, StreamBits 0 [] bits nb data ∧
      encodeStreamWith p r (bufOfBytes data) data.length ⟨[], 0, cap⟩ = .ok (⟨bits.reverse, bits.length, cap⟩, nb)) ∨
    encodeStreamWith p r (bufOfBytes data) data.length ⟨[], 0, cap⟩ = .error .dstFull := by
  obtain ⟨bits, he, hstream, -⟩ := exists_stream hb hw (bufOfBytes data) data.length
  rw [firstBytes_bufOfBytes] at hstream
  rw [he.fresh]
  split
  · exact .inl ⟨_, _, hstream, rfl⟩
  · exact .inr rfl

theorem Writer.bytes_reverse (bits : List Bool) (bp cap : Nat) : Writer.bytes ⟨bits.reverse, bp, cap⟩ = packBits bits := by
  rw [Writer.bytes, List.reverse_reverse]

/-- Settles O46: a stream of the encoder is a well-formed stream, and `execInflateRaw_stream` decodes those. -/
theorem inflateDecodesEncodedStreams : Obligations.InflateDecodesEncodedStreams := by
  refine ⟨fun s r cap data w nb hw hbtype he hlen hbytes hcap hok => ?_, fun s bits nb data hstream hbits hlen hcap hok => ?_⟩
  · obtain ⟨bits, nb', hstream, hok'⟩ | herr := encodeStreamWith_cases lengthsFromFrequencies_legal (p := specEncoder) hw data cap
    · cases he.symm.trans hok'
      rw [Writer.bytes_reverse] at hlen hbytes
      have hpack := packBits_length bits
      obtain ⟨m, hexec, hdata, hframe⟩ := execInflateRaw_stream hstream (bitsStandAt_of_bytesAt hbytes) (by omega) hcap hok
      refine ⟨_, m, hexec, fun hlt => ?_, hdata, hframe⟩
      rw [storeCount_of_lt hlt, BitVec.toNat_ofNat, Nat.mod_eq_of_lt hlt]
    · cases he.symm.trans herr
  · obtain ⟨m, hexec, hdata, hframe⟩ := execInflateRaw_stream hstream hbits hlen hcap hok
    exact ⟨m, hexec, storeCount_of_lt, hdata, hframe⟩

/-- Packed bits are before a reader of the whole bytes. -/
theorem packBits_holds (bits : List Bool) :
    Reader.Holds ⟨bufOfBytes (packBits bits), 8 * (packBits bits).length, 0⟩ bits :=
  ⟨by simp only [packBits_length]; omega, (readerOfBits_holds bits).bit⟩

/-- What `DEFLATE.RAW` wrote, `INFLATE.RAW` decodes (R266). -/
theorem deflate_then_inflate {s t u : State} (ht : exec .deflateRaw s = .next t) (herr : t.status.error = false)
    (hlen : u.operands.srcLen = t.regs.dstLen) (hcap : s.operands.srcLen.toNat ≤ u.operands.dstCap.toNat)
    (hok : RegionsOk .inflateRaw u)
    (hcopy : bytesAt u.mem u.operands.srcAddr.toNat t.regs.dstLen.toNat =
      bytesAt t.mem s.operands.dstAddr.toNat t.regs.dstLen.toNat) :
    ∃ m : Memory, exec .inflateRaw u = .next (u.succeed { u.regs with
        result0 := t.regs.result0, result1 := t.regs.result1, dstLen := s.operands.srcLen } m) ∧
      bytesAt m u.operands.dstAddr.toNat s.operands.srcLen.toNat =
        bytesAt s.mem s.operands.srcAddr.toNat s.operands.srcLen.toNat := by
  obtain ⟨hw, hbtype, hregions⟩ := execDeflateRaw_noError ht herr
  obtain ⟨bits, he, hstream, -⟩ := exists_stream (p := specEncoder) lengthsFromFrequencies_legal hw s.srcBuf s.operands.srcLen.toNat
  have hexec := execDeflateRaw_eq hw hbtype hregions he
  split at hexec
  · next hfit =>
    cases ht.symm.trans hexec
    have hpack := packBits_length bits
    have hcapLt := s.operands.dstCap.isLt
    have hspace := hregions.dst_fits rfl
    have hdstLen : (word (packBits bits).length).toNat = (packBits bits).length := by
      rw [BitVec.toNat_ofNat, Nat.mod_eq_of_lt (by omega)]
    simp only [State.succeed_regs, State.succeed_mem] at hlen hcopy ⊢
    rw [hdstLen, bytesAt_writeBytes _ (by omega)] at hcopy
    rw [State.srcBuf, firstBytes_region] at hstream
    obtain ⟨m, hinflate, hdata, -⟩ := execInflateRaw_stream hstream (bitsStandAt_of_bytesAt hcopy) (by rw [hlen, hdstLen]; omega)
      (by rwa [bytesAt_length]) hok
    rw [bytesAt_length] at hinflate hdata
    rw [show word s.operands.srcLen.toNat = s.operands.srcLen by simp] at hinflate
    exact ⟨m, hinflate, hdata⟩
  · cases ht.symm.trans hexec
    cases herr

/-- Settles O47: `deflate_then_inflate` for the commands, `decodeStream_eq` for the functions at any values of the parameters. -/
theorem deflateInflateRoundTrip : Obligations.DeflateInflateRoundTrip := by
  refine ⟨fun s t u ht herr hlen hcap hok hcopy => deflate_then_inflate ht herr hlen hcap hok hcopy,
    fun p r cap data hb hw hbtype => ?_⟩
  obtain ⟨bits, nb', hstream, hok⟩ | herr := encodeStreamWith_cases hb hw data cap
  · refine ⟨fun w nb he => ?_, fun e he => nomatch he.symm.trans hok⟩
    cases he.symm.trans hok
    rw [Writer.bytes_reverse]
    exact ⟨_, _, decodeStream_eq hstream rfl (packBits_holds bits) le_rfl, Nat.zero_add _, List.reverse_reverse data⟩
  · refine ⟨fun w nb he => (nomatch he.symm.trans herr), fun e he => ?_⟩
    cases he.symm.trans herr
    rfl

/-! ## Stored blocks -/

/-- Where a byte of part `i` stands in a sequence of parts. -/
theorem getElem?_flatMap_range (f : Nat → List Byte) {i nb j : Nat} (hi : i < nb) (hj : j < (f i).length) :
    ((List.range nb).flatMap f)[((List.range i).flatMap f).length + j]? = some (f i)[j] := by
  obtain ⟨k, rfl⟩ : ∃ k, nb = i + 1 + k := ⟨nb - (i + 1), by omega⟩
  rw [List.range_add, List.flatMap_append, List.range_succ, List.flatMap_append, List.flatMap_singleton, List.append_assoc,
    List.getElem?_append_right (Nat.le_add_right ..), Nat.add_sub_cancel_left, List.getElem?_append_left hj,
    List.getElem?_eq_getElem hj]

/-- Every stored block but the last is full, so block `i` starts at byte `65540 * i` (R251). -/
theorem getElem?_storedStream (data : Buf) {n i j : Nat} (hi : i < blockCount 0 n)
    (hj : j < (storedChunk data n (blockCount 0 n) i).length) :
    (storedStream data n)[65540 * i + j]? = some (storedChunk data n (blockCount 0 n) i)[j] := by
  obtain ⟨-, hstart⟩ : _ ∧ ∀ i < blockCount 0 n, 65535 * i ≤ n := blockSize_mul_blockCount 0 n
  have hlen := storedChunks_length data n (blockCount 0 n) (i := i) fun j hj => hstart j (by omega)
  have := hstart i hi
  rw [storedStream, ← getElem?_flatMap_range _ hi hj, hlen]
  congr 1
  omega

/-- The bytes of block `i` in memory, once the stream is written. -/
theorem read_storedStream (m : Memory) {base : Nat} (data : Buf) {n i j : Nat}
    (hspace : base + (storedStream data n).length ≤ Config.addrSpace) (hi : i < blockCount 0 n)
    (hj : j < (storedChunk data n (blockCount 0 n) i).length) :
    Memory.read (m.writeBytes base (storedStream data n)) (base + 65540 * i + j) =
      (storedChunk data n (blockCount 0 n) i).getD j 0 := by
  obtain ⟨hlt, hget⟩ := List.getElem?_eq_some_iff.1 (getElem?_storedStream data hi hj)
  rw [Nat.add_assoc, Memory.read_writeBytes_inside _ _ _ _ hlt (by omega), hget, List.getD_eq_getElem _ _ hj]

/-- The fields of a stored block that stands at a byte (R252). -/
theorem storedBytes_fields {m : Memory} {base : Nat} {final : Bool} {bytes : List Byte} (size : bytes.length < 65536)
    (h : ∀ j < bytes.length + 5, m.read (base + j) = (storedBytes final bytes).getD j 0) :
    (m.read base).toNat = final.toNat ∧ m.readLE (base + 1) 2 = bytes.length ∧ m.readLE (base + 3) 2 = 65535 - bytes.length ∧
      ∀ k < bytes.length, m.read (base + 5 + k) = bytes.getD k 0 := by
  have hnum : ∀ (v d : Nat), (∀ j < 2, m.read (base + (d + j)) = (bytesLE v 2).getD j 0) → v < 65536 → m.readLE (base + d) 2 = v :=
    fun v d hv hlt => Memory.readLE_eq_of_bytesLE (fun j hj => by rw [Nat.add_assoc]; exact hv j hj) hlt
  refine ⟨?_, hnum _ 1 (fun j hj => ?_) size, hnum _ 3 (fun j hj => ?_) (by omega), fun k hk => ?_⟩
  · rw [← Nat.add_zero base, h 0 (by omega)]
    cases final <;> rfl
  · rw [h _ (by omega)]
    match j, hj with
    | 0, _ | 1, _ => rfl
  · rw [h _ (by omega)]
    match j, hj with
    | 0, _ | 1, _ => rfl
  · rw [Nat.add_assoc, h _ (by omega), Nat.add_comm 5]
    rfl

/-- The input of a block, byte by byte. -/
theorem blockInput_getD (data : Buf) {n bs i k : Nat} (hk : k < min n (bs * (i + 1)) - bs * i) :
    (blockInput data n bs i).getD k 0 = Buf.byte data (bs * i + k) := by
  rw [blockInput, List.getD_eq_getElem _ _ (by simpa using hk), List.getElem_map, List.getElem_range', Nat.one_mul]

/-- The fields of block `i` in memory, once the stream is written (R251, R252). -/
theorem storedStream_fields (m : Memory) {base : Nat} (data : Buf) {n i : Nat}
    (hspace : base + (storedStream data n).length ≤ Config.addrSpace) (hi : i < blockCount 0 n) :
    let w := m.writeBytes base (storedStream data n)
    let l := min n (65535 * (i + 1)) - 65535 * i
    (w.read (base + 65540 * i)).toNat = (if i + 1 = blockCount 0 n then 1 else 0) ∧
      w.readLE (base + 65540 * i + 1) 2 = l ∧ w.readLE (base + 65540 * i + 3) 2 = 65535 - l ∧
      ∀ k < l, w.read (base + 65540 * i + 5 + k) = Buf.byte data (65535 * i + k) := by
  intro w l
  have hlen : (blockInput data n Config.storedMax i).length = l := by
    rw [blockInput, List.length_map, List.length_range']
    rfl
  obtain ⟨hfinal, hLen, hNlen, hdata⟩ := storedBytes_fields (m := w) (base := base + 65540 * i) (final := i + 1 == blockCount 0 n)
    (blockInput_length_lt data n i) fun j hj => read_storedStream m data hspace hi (by rwa [storedChunk, storedBytes_length])
  rw [hlen] at hLen hNlen hdata
  refine ⟨hfinal.trans ?_, hLen, hNlen, fun k hk => (hdata k hk).trans (blockInput_getD data hk)⟩
  by_cases h : i + 1 = blockCount 0 n
  · rw [if_pos h, beq_iff_eq.2 h]
    rfl
  · rw [if_neg h, beq_eq_false_iff_ne.2 h]
    rfl

theorem blockCount_stored (n : Nat) : blockCount 0 n = max 1 ((n + 65534) / 65535) := by
  rw [blockCount, if_neg (by decide), ceilDiv, blockSize, if_pos rfl, Config.storedMax, Nat.add_sub_assoc (by decide)]

/-- Settles O44: the bits are those of `storedStream`, whose parts are the blocks. -/
theorem storedStreamLayout : Obligations.StoredStreamLayout := by
  intro s r n base nb hw hbtype hok
  have h0 : r.btype = 0 := r.btype_eq.trans hbtype
  have hnb : blockCount 0 n = nb := blockCount_stored n
  have hlen : (storedStream s.srcBuf n).length = n + 5 * nb := by rw [storedStream_length, hnb]
  have hexec := execDeflateRaw_eq hw (by rw [hbtype]; decide) hok (encodesTo_stored specEncoder h0 s.srcBuf n)
  rw [packBits_byteBits, byteBits_length, hlen, h0, hnb] at hexec
  refine ⟨fun hfit => ?_, fun hfull => ?_⟩
  · rw [if_pos (Nat.mul_le_mul_left 8 hfit)] at hexec
    refine ⟨_, _, hexec, fun hlt => ?_, fun i hi => ?_, fun a ha => Memory.read_writeBytes_outside _ _ _ _ (by rwa [hlen])⟩
    · rw [storeCount_of_lt hlt, BitVec.toNat_ofNat, Nat.mod_eq_of_lt hlt]
    · have hspace : base + (storedStream s.srcBuf n).length ≤ Config.addrSpace := by
        have hcap : r.dstCap.toNat = 0 ∨ base + r.dstCap.toNat ≤ Config.addrSpace := hok.dst_fits rfl
        rw [hlen]
        omega
      obtain ⟨hfinal, hLen, hNlen, hdata⟩ := storedStream_fields s.mem s.srcBuf hspace (hnb.symm ▸ hi)
      rw [hnb] at hfinal
      refine ⟨hfinal, hLen, hNlen, fun k hk => (hdata k hk).trans ?_⟩
      rw [State.srcBuf, Memory.byte_region _ _ _ _ (show 65535 * i + k < n by omega), ← Nat.add_assoc]
  · rw [if_neg (show ¬ 8 * (n + 5 * nb) ≤ 8 * r.dstCap.toNat by omega)] at hexec
    exact hexec

/-! ## Room enough -/

/-- Settles O45: `exists_stream` bounds the bits, and the command fails only where they do not fit. -/
theorem deflateCompletesGivenRoom : Obligations.DeflateCompletesGivenRoom := by
  intro s r n btype nb hw hbtype hok
  obtain ⟨bits, he, -, hsize⟩ := exists_stream (p := specEncoder) lengthsFromFrequencies_legal hw s.srcBuf n
  have hnb : blockCount r.btype n = nb := by
    show blockCount r.btype n = if r.mode.toNat % 4 = 0 then _ else if r.mode.toNat % 4 = 1 then _ else _
    rw [← r.btype_eq]
    split
    · next h0 => rw [h0, blockCount_stored]
    · next h0 =>
      split
      · next h1 => rw [blockCount, if_pos h1]
      · next h1 => rw [blockCount, if_neg h1, blockSize, if_neg h0, if_neg h1, ceilDiv, Config.dynBlock]
  have hexec := execDeflateRaw_eq hw hbtype hok he
  rw [hnb] at hexec
  refine ⟨?_, fun hroom => ?_⟩
  · split at hexec
    · exact .inl ⟨_, _, _, hexec⟩
    · exact .inr hexec
  · have hpack := packBits_length bits
    have hcap := r.dstCap.isLt
    have hlen : (word (packBits bits).length).toNat = (packBits bits).length := by
      rw [BitVec.toNat_ofNat, Nat.mod_eq_of_lt (by omega)]
    rw [if_pos (hsize.trans (Nat.mul_le_mul_left 8 hroom))] at hexec
    refine ⟨_, _, _, hexec, by omega, fun hlt => ?_, fun a ha => Memory.read_writeBytes_outside _ _ _ _ (by rwa [hlen] at ha)⟩
    have hbits : bits.length < 2 ^ 32 := by omega
    rw [hlen, hpack, storeCount_of_lt hbits, BitVec.toNat_ofNat, Nat.mod_eq_of_lt hbits]

end Sys2Proof.Machine
end

section
/-! Adler-32 (45_zlib_adler.md R280) and the command `ADLER32` (R288). The two halves of a checksum stay below 2^16, so packing them
into one register loses nothing, and a checksum can be continued from the register. -/

namespace Sys2Proof.Machine

/-! ## The halves of a checksum -/

/-- The halves `(s1, s2)` of a checksum (R280). -/
def adlerHalves (a : Word) : Nat × Nat := (a.toNat % 2 ^ 16, a.toNat / 2 ^ 16)

/-- The register with these halves. -/
def adlerWord (h : Nat × Nat) : Word := word (h.2 * 2 ^ 16 + h.1)

/-- Both halves fit 16 bits. -/
def AdlerFits (h : Nat × Nat) : Prop := h.1 < 2 ^ 16 ∧ h.2 < 2 ^ 16

theorem adlerUpdate_eq (a : Word) (data : List Byte) : adlerUpdate a data = adlerWord (data.foldl adlerByte (adlerHalves a)) := rfl

theorem adlerHalves_fits (a : Word) : AdlerFits (adlerHalves a) := by
  have := a.isLt
  exact ⟨Nat.mod_lt _ (by decide), by simp only [adlerHalves]; omega⟩

theorem adlerHalves_adlerWord {h : Nat × Nat} (hh : AdlerFits h) : adlerHalves (adlerWord h) = h := by
  obtain ⟨h1, h2⟩ := hh
  simp only [adlerHalves, adlerWord, BitVec.toNat_ofNat]
  exact Prod.ext (by simp only; omega) (by simp only; omega)

theorem adlerWord_adlerHalves (a : Word) : adlerWord (adlerHalves a) = a := by
  refine BitVec.eq_of_toNat_eq ?_
  have := a.isLt
  simp only [adlerHalves, adlerWord, BitVec.toNat_ofNat]
  omega

/-- Both halves are reduced at every byte (R280). -/
theorem adlerByte_fits (h : Nat × Nat) (b : Byte) : AdlerFits (adlerByte h b) :=
  ⟨(Nat.mod_lt _ (by decide)).trans (by decide), (Nat.mod_lt _ (by decide)).trans (by decide)⟩

theorem foldl_adlerByte_fits {h : Nat × Nat} (hh : AdlerFits h) (data : List Byte) : AdlerFits (data.foldl adlerByte h) := by
  induction data generalizing h with
  | nil => exact hh
  | cons b data ih => exact ih (adlerByte_fits h b)

@[simp] theorem adlerUpdate_nil (a : Word) : adlerUpdate a [] = a := adlerWord_adlerHalves a

/-- A checksum is continued from the register (R280). -/
theorem adlerUpdate_append (a : Word) (x y : List Byte) : adlerUpdate (adlerUpdate a x) y = adlerUpdate a (x ++ y) := by
  rw [adlerUpdate_eq a x, adlerUpdate_eq, adlerHalves_adlerWord (foldl_adlerByte_fits (adlerHalves_fits a) x), adlerUpdate_eq,
    List.foldl_append]

/-- Settles O53: the first byte's step is a checksum of one byte, continued by `adlerUpdate_append`. -/
theorem adlerUpdateByteByByte : Obligations.AdlerUpdateByteByByte :=
  ⟨adlerUpdate_nil, fun a b data => (adlerUpdate_append a [b] data).symm, fun _ => rfl, adlerUpdate_append⟩

/-! ## `ADLER32` -/

section
variable {s : State}

/-- The command continues the checksum in `ADLER` (R288). -/
theorem execAdler32_eq (hok : RegionsOk .adler32 s) : exec .adler32 s = .next (s.succeed { s.regs with
    adler := adlerUpdate s.operands.adler (bytesAt s.mem s.operands.srcAddr.toNat s.operands.srcLen.toNat) } s.mem) := by
  rw [exec, execAdler32, bytesAt, ← Memory.bytes_eq]
  exact runCommand_success rfl ((regionChecks_ok_iff _ s).2 hok) rfl

/-- No region check fails on an empty source. -/
theorem regionsOk_adler32_empty (h : s.operands.srcLen = 0) : RegionsOk .adler32 s := by
  have hlen : s.operands.src.len = 0 := congrArg BitVec.toNat h
  refine ⟨fun r hr => ?_, fun r hr a ha => ?_, fun d hd => nomatch hd⟩ <;> obtain rfl := List.mem_singleton.1 hr
  · exact .inl hlen
  · have := Region.covers_iff.1 ha
    omega

end

/-- Settles O54: the checks are those of the one region SRC, which pass on an empty one. -/
theorem adlerCommandContinuesTheChecksum : Obligations.AdlerCommandContinuesTheChecksum := by
  refine ⟨decode_encode .adler32, fun s => ⟨execAdler32_eq, fun hpos hwrap => ?_, fun hle hhole => ?_, fun h0 => ?_⟩⟩
  · exact exec_of_regionChecks_error trivial (regionChecks_addr_iff.2 ⟨_, List.mem_singleton.2 rfl, hpos, hwrap⟩)
  · refine exec_of_regionChecks_error trivial (regionChecks_bus_iff.2 ⟨?_, _, List.mem_singleton.2 rfl, hhole⟩)
    rintro ⟨q, hq, -, hwrap⟩
    obtain rfl := List.mem_singleton.1 hq
    exact absurd hwrap (Nat.not_lt.2 hle)
  · rw [execAdler32_eq (regionsOk_adler32_empty h0), h0]
    simp [bytesAt]

end Sys2Proof.Machine
end

section
/-! What `ZLIB.COMPRESS` writes (45_zlib_adler.md R281, R282, R286): the header, the encoder's stream filled up to a byte, and the
checksum, as bytes. -/

namespace Sys2Proof.Machine

/-! ## The encoder sees a buffer through its bytes -/

section
variable {a b : Buf} (h : ∀ k, Buf.byte a k = Buf.byte b k) (p : EncoderParams) (r : Regs) (n : Nat)
include h

theorem storedBlocks_congr (nb : Nat) (is : List Nat) (w : Writer) : storedBlocks a n nb is w = storedBlocks b n nb is w := by
  induction is generalizing w with
  | nil => rfl
  | cons i is ih => simp only [storedBlocks, funext h, ih]

theorem huffmanBlocks_congr (bs nb : Nat) (is : List Nat) (t : MatchTables) (w : Writer) :
    huffmanBlocks p r a n bs nb is t w = huffmanBlocks p r b n bs nb is t w := by
  induction is generalizing t w with
  | nil => rfl
  | cons i is ih => simp only [huffmanBlocks_cons, tokenizeWith_congr h, funext (ih _)]

theorem encodeStreamWith_congr (w : Writer) : encodeStreamWith p r a n w = encodeStreamWith p r b n w := by
  simp only [encodeStreamWith, storedBlocks_congr h, huffmanBlocks_congr h]

theorem EncodesTo.congr {bits : List Bool} (he : EncodesTo p r a n bits) : EncodesTo p r b n bits :=
  fun w hw => (encodeStreamWith_congr h p r n w).symm.trans (he w hw)

end

/-! ## The stream as bytes -/

theorem lsbBits_byte_lsbValue {bs : List Bool} (h : bs.length ≤ 8) :
    lsbBits (byte (lsbValue bs)).toNat 8 = bs ++ List.replicate (8 - bs.length) false := by
  refine List.ext_getElem (by simp; omega) fun i hi _ => ?_
  have hbit := byte_lsbValue_getLsbD bs i (by simpa using hi)
  simp only [lsbBits, List.getElem_map, List.getElem_range, BitVec.testBit_toNat, hbit, List.getElem_append,
    List.getElem_replicate]
  split
  · next hlt => exact List.getD_eq_getElem _ _ hlt
  · next hge => exact List.getD_eq_default _ _ (Nat.le_of_not_lt hge)

/-- Packed bits are the bits, filled with 0 bits up to a whole byte (41_bitstream.md R165, R167). -/
theorem byteBits_packBits (bits : List Bool) :
    byteBits (packBits bits) = bits ++ List.replicate ((8 - bits.length % 8) % 8) false := by
  fun_induction packBits bits with
  | case1 => rfl
  | case2 b0 b1 b2 b3 b4 b5 b6 b7 rest ih =>
    rw [byteBits_cons, ih, lsbBits_byte_lsbValue (by simp)]
    simp only [List.length_cons, Nat.add_assoc, Nat.reduceAdd, Nat.add_mod_right]
    rfl
  | case3 bits hne hshort =>
    have hlt := length_lt_eight bits hshort
    have hpos := List.length_pos_iff.2 hne
    rw [byteBits_cons, byteBits_nil, List.append_nil, lsbBits_byte_lsbValue hlt.le]
    congr 2
    omega

/-- A checksum as the trailer holds it, most significant byte first (R282). -/
def adlerTrailer (a : Word) : List Byte := [a.extractLsb' 24 8, a.extractLsb' 16 8, a.extractLsb' 8 8, a.extractLsb' 0 8]

/-- A zlib stream of the encoder (R282). -/
def zlibBytes (bits : List Bool) (a : Word) : List Byte := [0x78, 0x01] ++ packBits bits ++ adlerTrailer a

theorem zlibBytes_length (bits : List Bool) (a : Word) : (zlibBytes bits a).length = 2 + (packBits bits).length + 4 := by
  rw [zlibBytes, List.length_append, List.length_append]
  rfl

theorem putAll_adlerTrailer (w : Writer) (a : Word) : putAll w (byteBits (adlerTrailer a)) = (do
    let w ← putBits w (a.toNat / 2 ^ 24 % 256) 8
    let w ← putBits w (a.toNat / 2 ^ 16 % 256) 8
    let w ← putBits w (a.toNat / 2 ^ 8 % 256) 8
    putBits w (a.toNat % 256) 8) := by
  simp only [adlerTrailer, byteBits_cons, byteBits_nil, List.append_nil, putAll_append, putBits, BitVec.extractLsb'_toNat,
    Nat.shiftRight_eq_div_pow, Nat.pow_zero, Nat.div_one]

section
variable {r : Regs} {data : Buf} {n : Nat} {bits : List Bool} (he : EncodesTo specEncoder r data n bits)
include he

/-- `ZlibEncode` writes its bytes where they fit, and fails with `ERR_DST_FULL` where they do not (R282). -/
theorem zlibEncode_eq {a : Word} (ha : adler32 (Buf.firstBytes data n) = a) (cap : Nat) : zlibEncode r data n ⟨[], 0, cap⟩ =
    if (zlibBytes bits a).length ≤ cap then
      .ok (⟨(byteBits (zlibBytes bits a)).reverse, 8 * (zlibBytes bits a).length, cap⟩, bits.length, blockCount r.btype n, a)
    else .error .dstFull := by
  have hrun : zlibEncode r data n ⟨[], 0, cap⟩ = (putAll ⟨[], 0, cap⟩ (byteBits (zlibBytes bits a)) >>= fun v =>
      .ok (v, bits.length, blockCount r.btype n, a)) := by
    subst ha
    simp only [zlibBytes, byteBits_append, byteBits_cons, byteBits_nil, List.append_nil, byteBits_packBits, putAll_append,
      bind_assoc]
    refine putAll_bind_congr fun v hv => putAll_bind_congr fun u hu => ?_
    have hstart : u.bp = 16 := by rw [hu, hv, lsbBits_length, lsbBits_length]
    rw [encodeStream_eq, he u (by rw [hstart]), bind_assoc]
    refine putAll_bind_congr fun x hx => ?_
    have hend : x.bp - 16 = bits.length := by omega
    have halign : alignWriter x = putAll x (List.replicate ((8 - bits.length % 8) % 8) false) := by
      rw [alignWriter, show x.bp % 8 = bits.length % 8 by omega]
    simp only [ok_bind, hend, halign, putAll_adlerTrailer, bind_assoc]
    rfl
  rw [hrun, putAll_eq (Nat.zero_le _), byteBits_length, Nat.zero_add, List.append_nil]
  by_cases hfit : (zlibBytes bits a).length ≤ cap
  · rw [if_pos hfit, if_pos (Nat.mul_le_mul_left 8 hfit), ok_bind]
  · rw [if_neg hfit, if_neg (by simpa using hfit), error_bind]

end

/-- The command writes the bytes of the stream where they fit, and fails with `ERR_DST_FULL` where they do not (R286). -/
theorem execZlibCompress_eq {s : State} {bits : List Bool} (hw : WindowLegal s.operands) (hbtype : s.operands.mode.toNat % 4 ≠ 3)
    (hok : RegionsOk .zlibCompress s) (he : EncodesTo specEncoder s.operands s.srcBuf s.operands.srcLen.toNat bits)
    {a : Word} (ha : adler32 (bytesAt s.mem s.operands.srcAddr.toNat s.operands.srcLen.toNat) = a) :
    exec .zlibCompress s =
      if (zlibBytes bits a).length ≤ s.operands.dstCap.toNat then
        .next (s.succeed { s.regs with
          result0 := storeCount bits.length
          result1 := word (blockCount s.operands.btype s.operands.srcLen.toNat)
          adler := a
          dstLen := word (zlibBytes bits a).length } (s.mem.writeBytes s.operands.dstAddr.toNat (zlibBytes bits a)))
      else .next (s.fail .dstFull [.result0, .result1, .adler, .dstLen] (some s.operands.dst)) := by
  have hargs := compressChecks_ok hw hbtype
  have hregions := (regionChecks_ok_iff .zlibCompress s).2 hok
  have hencode := zlibEncode_eq he (a := a) (by rw [State.srcBuf, firstBytes_region, ha]) s.operands.dstCap.toNat
  rw [exec, execZlibCompress]
  split
  · next hfit =>
    rw [if_pos hfit] at hencode
    refine runCommand_success hargs hregions (bind_eq_ok.2 ⟨_, hencode, ?_⟩)
    simp only [Writer.bytes_reverse, packBits_byteBits, zlibBytes_length, packBits_length, ceilDiv, Nat.add_sub_assoc,
      Nat.one_le_ofNat, Nat.reduceSub]
  · next hfull =>
    rw [if_neg hfull] at hencode
    exact runCommand_failure hargs hregions (bind_eq_error.2 (.inl hencode))

/-- Settles O50: both encoders write the bits of `exists_stream`, and `zlibEncode_eq` says when they fit. -/
theorem zlibCompressWrapsTheStream : Obligations.ZlibCompressWrapsTheStream := by
  intro s r n base data a trailer completes fails hw hbtype hok
  obtain ⟨bits, he, -, hsize⟩ := exists_stream (p := specEncoder) lengthsFromFrequencies_legal hw (bufOfBytes data) n
  have hpack := packBits_length bits
  have hlen := zlibBytes_length bits a
  have hexec := execZlibCompress_eq hw hbtype hok (he.congr (byte_bufOfBytes_bytesAt s.mem r.srcAddr.toNat n)) (a := a) rfl
  have hdata : Buf.firstBytes (bufOfBytes data) n = data := by
    have hfirst := firstBytes_bufOfBytes data
    rwa [bytesAt_length] at hfirst
  have hencode := zlibEncode_eq he (a := a) (congrArg adler32 hdata) r.dstCap.toNat
  have hcompletes (hfit : 2 + (packBits bits).length + 4 ≤ r.dstCap.toNat) : completes := by
    have hfit' : (zlibBytes bits a).length ≤ r.dstCap.toNat := hlen.trans_le hfit
    have hspace : r.dstCap.toNat = 0 ∨ base + r.dstCap.toNat ≤ Config.addrSpace := hok.dst_fits rfl
    have hbody := he.fresh (r.dstCap.toNat - 6)
    rw [if_pos (by omega)] at hbody
    rw [if_pos hfit'] at hexec hencode
    refine ⟨_, ⟨bits.reverse, bits.length, r.dstCap.toNat - 6⟩, _, s.mem.writeBytes base (zlibBytes bits a), hencode, hbody, ?_⟩
    rw [Writer.bytes_reverse, Writer.bytes_reverse, packBits_byteBits]
    exact ⟨rfl, hfit', hexec, storeCount_of_lt, bytesAt_writeBytes _ (by omega),
      fun x hx => Memory.read_writeBytes_outside _ _ _ _ hx⟩
  have hfails (hfull : r.dstCap.toNat < 2 + (packBits bits).length + 4) : fails := by
    have hfull' : ¬ (zlibBytes bits a).length ≤ r.dstCap.toNat := by omega
    exact ⟨hencode.trans (if_neg hfull'), hexec.trans (if_neg hfull')⟩
  refine ⟨fun hroom => hcompletes (by omega), ?_, fun cap body nb hbody => ?_⟩
  · rcases Nat.lt_or_ge r.dstCap.toNat (2 + (packBits bits).length + 4) with hfull | hfit
    · exact .inr (hfails hfull)
    · exact .inl (hcompletes hfit)
  · have hfresh := hbody.symm.trans (he.fresh cap)
    split at hfresh
    · cases hfresh
      rw [Writer.bytes_reverse]
      exact ⟨hcompletes, hfails⟩
    · cases hfresh

end Sys2Proof.Machine
end

section
/-! The decoder sees a buffer only through its bytes, and none of its errors is one of the zlib header's (44_deflate.md R257 to R265,
45_zlib_adler.md R283): runs of `DecodeStream` over two buffers with the same bytes go alike. -/

namespace Sys2Proof.Machine

/-! ## Runs that go alike -/

/-- The errors of the zlib header checks (R283). -/
def ErrCode.isZlibHeader : ErrCode → Bool
  | .zlibFcheck | .zlibMethod | .zlibFdict => true
  | _ => false

/-- The two runs answer related values, or fail with the same error, which is none of the zlib header's. -/
inductive Alike {α : Type} (R : α → α → Prop) : Except ErrCode α → Except ErrCode α → Prop
  | ok {a b : α} (h : R a b) : Alike R (.ok a) (.ok b)
  | error {e : ErrCode} (h : e.isZlibHeader = false) : Alike R (.error e) (.error e)

section
variable {α β : Type} {R : α → α → Prop} {S : β → β → Prop}

theorem Alike.ite {c : Prop} [Decidable c] {x x' y y' : Except ErrCode α} (hx : Alike R x x') (hy : Alike R y y') :
    Alike R (if c then x else y) (if c then x' else y') := by
  split
  · exact hx
  · exact hy

theorem Alike.step {x x' : Except ErrCode α} {f f' : α → Except ErrCode β} (hx : Alike R x x')
    (hf : ∀ a b, R a b → Alike S (f a) (f' b)) : Alike S (x >>= f) (x' >>= f') := by
  cases hx with
  | ok h => exact hf _ _ h
  | error h => exact .error h

theorem Alike.check {c : Prop} [Decidable c] {e : ErrCode} {f f' : Unit → Except ErrCode β} (h : e.isZlibHeader = false)
    (hf : Alike S (f ()) (f' ())) : Alike S (failIf c e >>= f) (failIf c e >>= f') := by
  rw [failIf_bind, failIf_bind]
  exact .ite (.error h) hf

/-- Related runs fail with the same errors. -/
theorem Alike.error_iff {x x' : Except ErrCode α} (h : Alike R x x') {e : ErrCode} : x = .error e ↔ x' = .error e := by
  cases h with
  | ok => exact ⟨nofun, nofun⟩
  | error => exact .rfl

theorem Alike.not_zlibHeader {x x' : Except ErrCode α} (h : Alike R x x') {e : ErrCode} (he : x = .error e) :
    e.isZlibHeader = false := by
  cases h with
  | ok => cases he
  | error h =>
    cases he
    exact h

end

/-! ## Reading -/

/-- Two readers at the same place of buffers with the same bytes. -/
inductive Reader.Same : Reader → Reader → Prop
  | mk {b b' : Buf} (bytes : ∀ k, Buf.byte b k = Buf.byte b' k) (limit bp : Nat) : Same ⟨b, limit, bp⟩ ⟨b', limit, bp⟩

/-- The same value, and readers at the same place after it. -/
def Reader.SameAfter {α : Type} (p q : α × Reader) : Prop := p.1 = q.1 ∧ p.2.Same q.2

/-- The same output, and readers at the same place before it. -/
def Reader.SameWith {α : Type} (p q : Reader × α) : Prop := p.1.Same q.1 ∧ p.2 = q.2

section
variable {α β : Type} {S : β → β → Prop}

/-- The steps after a read may rely on its value and go on from readers at the same place. -/
theorem Alike.read {x x' : Except ErrCode (α × Reader)} {f f' : α × Reader → Except ErrCode β} (hx : Alike Reader.SameAfter x x')
    (hf : ∀ v r r', r.Same r' → Alike S (f (v, r)) (f' (v, r'))) : Alike S (x >>= f) (x' >>= f') := by
  refine hx.step ?_
  rintro ⟨v, r⟩ ⟨_, r'⟩ ⟨rfl, h⟩
  exact hf v r r' h

/-- The steps after a computation that reads nothing go on from the same value. -/
theorem Alike.value {x x' : Except ErrCode α} {f f' : α → Except ErrCode β} (hx : Alike Eq x x')
    (hf : ∀ v, Alike S (f v) (f' v)) : Alike S (x >>= f) (x' >>= f') :=
  hx.step fun v _ hv => hv ▸ hf v

end

section
variable {r r' : Reader} (h : r.Same r')
include h

theorem getBit_alike : Alike Reader.SameAfter (getBit r) (getBit r') := by
  obtain ⟨bytes, limit, bp⟩ := h
  refine .ite (.error rfl) (.ok ⟨?_, .mk bytes ..⟩)
  simp only [Buf.bit, bytes]

theorem takeBits_alike (n : Nat) : Alike Reader.SameAfter (takeBits n r) (takeBits n r') := by
  induction n generalizing r r' with
  | zero => exact .ok ⟨rfl, h⟩
  | succ n ih => exact (getBit_alike h).read fun _ _ _ h => (ih h).read fun _ _ _ h => .ok ⟨rfl, h⟩

theorem fieldBits_alike (n : Nat) : Alike Reader.SameAfter (fieldBits r n) (fieldBits r' n) := by
  have hbits := takeBits_alike h n
  obtain ⟨bytes, limit, bp⟩ := h
  exact .check rfl hbits

theorem getBits_alike (n : Nat) : Alike Reader.SameAfter (getBits r n) (getBits r' n) :=
  (fieldBits_alike h n).read fun _ _ _ h => .ok ⟨rfl, h⟩

theorem alignReader_same : (alignReader r).Same (alignReader r') := by
  obtain ⟨bytes, limit, bp⟩ := h
  exact .mk bytes ..

theorem decodeWalk_alike (t : DecodeTable) (left b code first index : Nat) :
    Alike Reader.SameAfter (decodeWalk t left b code first index r) (decodeWalk t left b code first index r') := by
  induction left generalizing b code first index r r' with
  | zero => exact .error rfl
  | succ left ih =>
    have hbit := getBit_alike h
    obtain ⟨bytes, limit, bp⟩ := h
    exact .ite (.error rfl) (hbit.read fun _ _ _ h => .ite (.ok ⟨rfl, h⟩) (ih h ..))

theorem decodeSymbol_alike (t : DecodeTable) : Alike Reader.SameAfter (decodeSymbol t r) (decodeSymbol t r') :=
  decodeWalk_alike h ..

/-! ## Length tables -/

theorem readClLengths_alike (n : Nat) (order cl : List Nat) :
    Alike Reader.SameAfter (readClLengths n order cl r) (readClLengths n order cl r') := by
  induction n generalizing order cl r r' with
  | zero => exact .ok ⟨rfl, h⟩
  | succ n ih =>
    cases order with
    | nil => exact .ok ⟨rfl, h⟩
    | cons c order => exact (getBits_alike h 3).read fun _ _ _ h => ih h ..

omit h in
theorem appendRun_alike (total v n : Nat) (lens : List Nat) : Alike Eq (appendRun total v n lens) (appendRun total v n lens) := by
  induction n generalizing lens with
  | zero => exact .ok rfl
  | succ n ih => exact .ite (.error rfl) (ih _)

theorem readLengths_alike (t : DecodeTable) (total fuel : Nat) (lens : List Nat) :
    Alike Reader.SameAfter (readLengths t total fuel lens r) (readLengths t total fuel lens r') := by
  induction fuel generalizing lens r r' with
  | zero => exact .ok ⟨rfl, h⟩
  | succ fuel ih =>
    exact .ite (.ok ⟨rfl, h⟩) <| (decodeSymbol_alike h t).read fun _ _ _ h => .ite (ih h _) <|
      .ite (.check rfl ((getBits_alike h 2).read fun _ _ _ h => (appendRun_alike ..).value (ih h))) <|
      .ite ((getBits_alike h 3).read fun _ _ _ h => (appendRun_alike ..).value (ih h))
        ((getBits_alike h 7).read fun _ _ _ h => (appendRun_alike ..).value (ih h))

theorem readDynamicHeader_alike (degenerateOk : Bool) :
    Alike Reader.SameAfter (readDynamicHeader degenerateOk r) (readDynamicHeader degenerateOk r') :=
  (getBits_alike h 5).read fun _ _ _ h => (getBits_alike h 5).read fun _ _ _ h => (getBits_alike h 4).read fun _ _ _ h =>
    (readClLengths_alike h ..).read fun _ _ _ h => .check rfl <| (readLengths_alike h ..).read fun _ _ _ h =>
      .check rfl (.check rfl (.check rfl (.ok ⟨rfl, h⟩)))

/-! ## Blocks -/

omit h in
theorem Out.append_alike (o : Out) (b : Byte) : Alike Eq (o.append b) (o.append b) := .ite (.error rfl) (.ok rfl)

omit h in
theorem copyBytes_alike (dist n : Nat) (o : Out) : Alike Eq (copyBytes dist n o) (copyBytes dist n o) := by
  induction n generalizing o with
  | zero => exact .ok rfl
  | succ n ih => exact (Out.append_alike o _).value ih

omit h in
theorem copyMatch_alike (length dist : Nat) (o : Out) : Alike Eq (copyMatch length dist o) (copyMatch length dist o) :=
  .check rfl (copyBytes_alike dist length o)

theorem copyStored_alike (n : Nat) (o : Out) : Alike Reader.SameWith (copyStored n r o) (copyStored n r' o) := by
  induction n generalizing r r' o with
  | zero => exact .ok ⟨h, rfl⟩
  | succ n ih => exact (getBits_alike h 8).read fun _ _ _ h => (Out.append_alike o _).value fun o => ih h o

theorem storedDecode_alike (o : Out) : Alike Reader.SameWith (storedDecode r o) (storedDecode r' o) :=
  (getBits_alike (alignReader_same h) 16).read fun l _ _ h => (getBits_alike h 16).read fun _ _ _ h => by
    have hcopy := copyStored_alike h l o
    obtain ⟨bytes, limit, bp⟩ := h
    exact .check rfl (.check rfl hcopy)

theorem readPair_alike (dl : DecodeTable) (s : Nat) : Alike Reader.SameAfter (readPair dl s r) (readPair dl s r') :=
  (getBits_alike h _).read fun _ _ _ h => (decodeSymbol_alike h dl).read fun _ _ _ h => .check rfl <|
    (getBits_alike h _).read fun _ _ _ h => .ok ⟨rfl, h⟩

theorem huffmanDecode_alike (ll dl : DecodeTable) (fuel : Nat) (o : Out) :
    Alike Reader.SameWith (huffmanDecode ll dl fuel r o) (huffmanDecode ll dl fuel r' o) := by
  induction fuel generalizing r r' o with
  | zero => exact .error rfl
  | succ fuel ih =>
    exact (decodeSymbol_alike h ll).read fun _ _ _ h => .ite ((Out.append_alike o _).value fun o => ih h o) <|
      .ite (.ok ⟨h, rfl⟩) <| .ite ((readPair_alike h dl _).read fun _ _ _ h => (copyMatch_alike ..).value fun o => ih h o) (.error rfl)

/-- The passes allowed to a Huffman block are those of the bits left. -/
theorem huffmanDecode_passes_alike (ll dl : DecodeTable) (o : Out) :
    Alike Reader.SameWith (huffmanDecode ll dl r.passes r o) (huffmanDecode ll dl r'.passes r' o) := by
  have hpasses : r.passes = r'.passes := by
    obtain ⟨bytes, limit, bp⟩ := h
    rfl
  rw [hpasses]
  exact huffmanDecode_alike h ll dl _ o

theorem decodeBlock_alike (btype : Nat) (o : Out) : Alike Reader.SameWith (decodeBlock btype r o) (decodeBlock btype r' o) :=
  .check rfl <| .ite (storedDecode_alike h o) <| .ite (huffmanDecode_passes_alike h _ _ o) <|
    (readDynamicHeader_alike h _).read fun _ _ _ h => huffmanDecode_passes_alike h _ _ o

theorem decodeBlocks_alike (fuel nb : Nat) (o : Out) :
    Alike (fun p q => p.1 = q.1 ∧ Reader.SameWith p.2 q.2) (decodeBlocks fuel nb r o) (decodeBlocks fuel nb r' o) := by
  induction fuel generalizing nb r r' o with
  | zero => exact .error rfl
  | succ fuel ih =>
    refine (getBits_alike h 1).read fun _ _ _ h => (getBits_alike h 2).read fun _ _ _ h => (decodeBlock_alike h _ o).step ?_
    rintro ⟨r, o⟩ ⟨r', _⟩ ⟨h, rfl⟩
    exact .ite (.ok ⟨rfl, h, rfl⟩) (ih h ..)

/-- Runs of the decoder over the same bytes go alike (R257). -/
theorem decodeStream_alike (o : Out) :
    Alike (fun p q => p.1 = q.1 ∧ Reader.SameWith p.2 q.2) (decodeStream r o) (decodeStream r' o) := by
  have hblocks := decodeBlocks_alike h r.passes 0 o
  obtain ⟨bytes, limit, bp⟩ := h
  exact hblocks

end

end Sys2Proof.Machine
end

section
/-! `ZLIB.DECOMPRESS` (45_zlib_adler.md R283 to R287): the header checks in their order, then the decoder on the body, and last the
checksum against the trailer. -/

namespace Sys2Proof.Machine

/-! ## The command, step by step -/

namespace State
variable (s : State)

/-- `CMF`, the first byte of SRC (R283). -/
def zlibCmf : Nat := (s.mem.read s.operands.srcAddr.toNat).toNat

/-- `FLG`, the second byte of SRC (R283). -/
def zlibFlg : Nat := (s.mem.read (s.operands.srcAddr.toNat + 1)).toNat

/-- The value of the last four bytes of SRC (R284). -/
def zlibTail : Nat :=
  let stop := s.operands.srcAddr.toNat + s.operands.srcLen.toNat
  (s.mem.read (stop - 4)).toNat * 2 ^ 24 + (s.mem.read (stop - 3)).toNat * 2 ^ 16 + (s.mem.read (stop - 2)).toNat * 2 ^ 8 +
    (s.mem.read (stop - 1)).toNat

/-- The reader of the body (R284). -/
def zlibBody : Reader :=
  ⟨s.mem.region (s.operands.srcAddr.toNat + 2) (s.operands.srcLen.toNat - 6), 8 * (s.operands.srcLen.toNat - 6), 0⟩

/-- What the command does with a decoded body: the checksum check and the results (R285, R287). -/
def zlibFinish (ignoreAdler : Bool) (p : Nat × Reader × Out) : Except ErrCode (Regs × Memory) := do
  failIf (ignoreAdler = false ∧ adler32 p.2.2.bytes ≠ word s.zlibTail) .adlerMismatch
  .ok ({ s.regs with
      result0 := word s.zlibTail
      result1 := storeCount p.2.1.bp
      adler := adler32 p.2.2.bytes
      dstLen := word p.2.2.rev.length },
    s.mem.writeBytes s.operands.dstAddr.toNat p.2.2.bytes)

/-- The execution of the command, on the bytes of memory (R284, R287). -/
def zlibUnwrap (ignoreAdler : Bool) : Except ErrCode (Regs × Memory) := do
  failIf (s.operands.srcLen.toNat < 6) .trunc
  zlibHeaderChecks s.zlibCmf s.zlibFlg
  decodeStream s.zlibBody ⟨[], s.operands.dstCap.toNat⟩ >>= s.zlibFinish ignoreAdler

end State

section
variable {s : State} {ignoreAdler : Bool}

theorem zlibTrailer_region (h : 6 ≤ s.operands.srcLen.toNat) :
    zlibTrailer (s.mem.region s.operands.srcAddr.toNat s.operands.srcLen.toNat) s.operands.srcLen.toNat = word s.zlibTail := by
  have hbyte (k : Nat) (hk : 0 < k ∧ k ≤ 4) :
      Buf.byte (s.mem.region s.operands.srcAddr.toNat s.operands.srcLen.toNat) (s.operands.srcLen.toNat - k) =
        s.mem.read (s.operands.srcAddr.toNat + s.operands.srcLen.toNat - k) := by
    rw [Memory.byte_region _ _ _ _ (by omega), Nat.add_sub_assoc (by omega)]
  rw [zlibTrailer, hbyte 4 (by decide), hbyte 3 (by decide), hbyte 2 (by decide), hbyte 1 (by decide)]
  rfl

theorem execZlibDecompress_eq (ignoreAdler : Bool) (s : State) : exec (.zlibDecompress ignoreAdler) s =
    runCommand (.zlibDecompress ignoreAdler) s (.ok ()) fun _ => s.zlibUnwrap ignoreAdler := by
  rw [exec, execZlibDecompress]
  refine congrArg (runCommand _ s _) (funext fun _ => ?_)
  by_cases h : s.operands.srcLen.toNat < 6
  · simp only [State.zlibUnwrap, failIf_of_true _ h, error_bind]
  · simp only [State.zlibUnwrap, failIf_of_false _ h, ok_bind, zlibTrailer_region (Nat.le_of_not_lt h),
      Memory.byte_region _ _ _ 0 (show 0 < s.operands.srcLen.toNat by omega),
      Memory.byte_region _ _ _ 1 (show 1 < s.operands.srcLen.toNat by omega)]
    rfl

variable (hok : RegionsOk (.zlibDecompress ignoreAdler) s)
include hok

theorem execZlibDecompress_failure {e : ErrCode} (h : s.zlibUnwrap ignoreAdler = .error e) : exec (.zlibDecompress ignoreAdler) s =
    .next (s.fail e [.result0, .result1, .adler, .dstLen] (some s.operands.dst)) :=
  (execZlibDecompress_eq ignoreAdler s).trans (runCommand_failure rfl ((regionChecks_ok_iff _ s).2 hok) h)

theorem execZlibDecompress_success {r : Regs} {m : Memory} (h : s.zlibUnwrap ignoreAdler = .ok (r, m)) :
    exec (.zlibDecompress ignoreAdler) s = .next (s.succeed r m) :=
  (execZlibDecompress_eq ignoreAdler s).trans (runCommand_success rfl ((regionChecks_ok_iff _ s).2 hok) h)

end

/-! ## The header checks -/

section
variable {cmf flg : Nat}

/-- The header checks pass (R283). -/
theorem zlibHeaderChecks_ok (hmod : (cmf * 256 + flg) % 31 = 0) (hmethod : cmf % 16 = 8) (hinfo : cmf / 16 ≤ 7)
    (hdict : flg / 32 % 2 = 0) : zlibHeaderChecks cmf flg = .ok () := by
  refine check_then_eq_ok.2 ⟨not_not.2 hmod, check_then_eq_ok.2 ⟨by omega, failIf_of_false _ ?_⟩⟩
  simpa [Nat.testBit_eq_decide_div_mod_eq] using hdict

theorem zlibHeaderChecks_fcheck (hmod : (cmf * 256 + flg) % 31 ≠ 0) : zlibHeaderChecks cmf flg = .error .zlibFcheck :=
  check_then_eq_error.2 (.inl ⟨hmod, rfl⟩)

theorem zlibHeaderChecks_method (hmod : (cmf * 256 + flg) % 31 = 0) (hmethod : cmf % 16 ≠ 8 ∨ 7 < cmf / 16) :
    zlibHeaderChecks cmf flg = .error .zlibMethod :=
  check_then_eq_error.2 (.inr ⟨not_not.2 hmod, check_then_eq_error.2 (.inl ⟨hmethod, rfl⟩)⟩)

theorem zlibHeaderChecks_fdict (hmod : (cmf * 256 + flg) % 31 = 0) (hmethod : cmf % 16 = 8) (hinfo : cmf / 16 ≤ 7)
    (hdict : flg / 32 % 2 = 1) : zlibHeaderChecks cmf flg = .error .zlibFdict := by
  refine check_then_eq_error.2 (.inr ⟨not_not.2 hmod, check_then_eq_error.2 (.inr ⟨by omega, failIf_of_true _ ?_⟩)⟩)
  simpa [Nat.testBit_eq_decide_div_mod_eq] using hdict

end

section
variable {s : State} {ignoreAdler : Bool} (h6 : 6 ≤ s.operands.srcLen.toNat)
include h6

theorem State.zlibUnwrap_headerError {e : ErrCode} (h : zlibHeaderChecks s.zlibCmf s.zlibFlg = .error e) :
    s.zlibUnwrap ignoreAdler = .error e := by
  rw [zlibUnwrap, failIf_of_false _ (Nat.not_lt.2 h6), ok_bind, h, error_bind]

theorem State.zlibUnwrap_headerOk (h : zlibHeaderChecks s.zlibCmf s.zlibFlg = .ok ()) : s.zlibUnwrap ignoreAdler =
    (decodeStream s.zlibBody ⟨[], s.operands.dstCap.toNat⟩ >>= s.zlibFinish ignoreAdler) := by
  rw [zlibUnwrap, failIf_of_false _ (Nat.not_lt.2 h6), ok_bind, h, ok_bind]

/-- After its header checks the command raises none of their errors. -/
theorem State.zlibUnwrap_late {e : ErrCode} (h : zlibHeaderChecks s.zlibCmf s.zlibFlg = .ok ())
    (he : s.zlibUnwrap ignoreAdler = .error e) : e.isZlibHeader = false := by
  rw [zlibUnwrap_headerOk h6 h] at he
  obtain hdecode | ⟨p, -, hfinish⟩ := bind_eq_error.1 he
  · exact (decodeStream_alike (.mk (fun _ => rfl) ..) _).not_zlibHeader hdecode
  · obtain ⟨-, rfl⟩ | ⟨-, hsuccess⟩ := check_then_eq_error.1 hfinish
    · rfl
    · cases hsuccess

end

/-- Settles O52: the length check and the header checks in their order, and `State.zlibUnwrap_late` for what follows. -/
theorem zlibHeaderChecksInOrder : Obligations.ZlibHeaderChecksInOrder := by
  intro ignoreAdler s cmf flg n failed hok
  have hfail {e : ErrCode} (h : s.zlibUnwrap ignoreAdler = .error e) : failed e := execZlibDecompress_failure hok h
  refine ⟨fun hshort => ?_, fun h6 hmod => ?_, fun h6 hmod hmethod => ?_, fun h6 hmod hmethod hinfo hdict => ?_,
    fun h6 hmod hmethod hinfo hdict => ?_⟩
  · exact hfail (check_then_eq_error.2 (.inl ⟨hshort, rfl⟩))
  · exact hfail (State.zlibUnwrap_headerError h6 (zlibHeaderChecks_fcheck hmod))
  · exact hfail (State.zlibUnwrap_headerError h6 (zlibHeaderChecks_method hmod hmethod))
  · exact hfail (State.zlibUnwrap_headerError h6 (zlibHeaderChecks_fdict hmod hmethod hinfo hdict))
  · have hheader : zlibHeaderChecks s.zlibCmf s.zlibFlg = .ok () := zlibHeaderChecks_ok hmod hmethod hinfo hdict
    cases hx : s.zlibUnwrap ignoreAdler with
    | error e =>
      have hlate := State.zlibUnwrap_late h6 hheader hx
      have hne {f : ErrCode} (hf : f.isZlibHeader = true) : some e ≠ some f := by
        rintro ⟨⟩
        exact nomatch hlate.symm.trans hf
      exact ⟨_, hfail hx, hne rfl, hne rfl, hne rfl⟩
    | ok p => exact ⟨_, execZlibDecompress_success hok hx, by simp⟩

/-! ## The trailer -/

section
variable {s : State} {ignoreAdler : Bool}

theorem State.zlibTail_lt (s : State) : s.zlibTail < 2 ^ 32 := by
  have hbyte (a : Nat) : (s.mem.read a).toNat < 256 := (s.mem.read a).isLt
  have h4 := hbyte (s.operands.srcAddr.toNat + s.operands.srcLen.toNat - 4)
  have h3 := hbyte (s.operands.srcAddr.toNat + s.operands.srcLen.toNat - 3)
  have h2 := hbyte (s.operands.srcAddr.toNat + s.operands.srcLen.toNat - 2)
  have h1 := hbyte (s.operands.srcAddr.toNat + s.operands.srcLen.toNat - 1)
  rw [zlibTail]
  omega

theorem State.eq_zlibTail_iff (s : State) (a : Word) : a = word s.zlibTail ↔ s.zlibTail = a.toNat := by
  rw [← BitVec.toNat_inj, BitVec.toNat_ofNat, Nat.mod_eq_of_lt s.zlibTail_lt, eq_comm]

variable (hok : RegionsOk (.zlibDecompress ignoreAdler) s) (h6 : 6 ≤ s.operands.srcLen.toNat)
  (hheader : zlibHeaderChecks s.zlibCmf s.zlibFlg = .ok ())
include hok h6 hheader

/-- A body that does not decode fails the command with the decoder's error (R287). -/
theorem execZlibDecompress_bodyError {e : ErrCode} (h : decodeStream s.zlibBody ⟨[], s.operands.dstCap.toNat⟩ = .error e) :
    exec (.zlibDecompress ignoreAdler) s =
      .next (s.fail e [.result0, .result1, .adler, .dstLen] (some s.operands.dst)) :=
  execZlibDecompress_failure hok ((State.zlibUnwrap_headerOk h6 hheader).trans (bind_eq_error.2 (.inl h)))

section
variable {bits : List Bool} {nb : Nat} {data : List Byte} (hstream : StreamBits 0 [] bits nb data)
  (hbits : bitsStandAt s.mem (s.operands.srcAddr.toNat + 2) 0 bits) (hlen : bits.length + 48 ≤ 8 * s.operands.srcLen.toNat)
  (hcap : data.length ≤ s.operands.dstCap.toNat)
include hstream hbits hlen hcap

omit hok in
/-- A well-formed stream in the body is decoded whole, and the trailer decides (R284, R285). -/
theorem State.zlibUnwrap_stream : s.zlibUnwrap ignoreAdler =
    s.zlibFinish ignoreAdler (nb, s.zlibBody.skip bits.length, ⟨data.reverse, s.operands.dstCap.toNat⟩) := by
  have hread : s.zlibBody.Holds bits := region_holds hbits (by omega) le_rfl
  rw [zlibUnwrap_headerOk h6 hheader, decodeStream_eq hstream rfl hread hcap, ok_bind]

theorem execZlibDecompress_stream (htail : ignoreAdler = true ∨ s.zlibTail = (adler32 data).toNat) :
    ∃ m : Memory, exec (.zlibDecompress ignoreAdler) s = .next (s.succeed { s.regs with
        result0 := word s.zlibTail
        result1 := storeCount bits.length
        adler := adler32 data
        dstLen := word data.length } m) ∧
      bytesAt m s.operands.dstAddr.toNat data.length = data ∧
      ∀ x, x < s.operands.dstAddr.toNat ∨ s.operands.dstAddr.toNat + data.length ≤ x → m.read x = s.mem.read x := by
  have hspace := hok.dst_fits rfl
  refine ⟨s.mem.writeBytes s.operands.dstAddr.toNat data, execZlibDecompress_success hok ?_, bytesAt_writeBytes _ (by omega),
    fun x hx => Memory.read_writeBytes_outside _ _ _ _ hx⟩
  have hmatch : ¬ (ignoreAdler = false ∧ adler32 data ≠ word s.zlibTail) := by
    rintro ⟨hcheck, hne⟩
    exact htail.elim (by simp [hcheck]) (mt (s.eq_zlibTail_iff _).2 hne)
  rw [State.zlibUnwrap_stream h6 hheader hstream hbits hlen hcap, State.zlibFinish]
  refine check_then_eq_ok.2 ⟨by simpa only [Out.bytes, List.reverse_reverse] using hmatch, ?_⟩
  simp [Out.bytes, State.zlibBody]

theorem execZlibDecompress_mismatch (hcheck : ignoreAdler = false) (hne : s.zlibTail ≠ (adler32 data).toNat) :
    exec (.zlibDecompress ignoreAdler) s =
      .next (s.fail .adlerMismatch [.result0, .result1, .adler, .dstLen] (some s.operands.dst)) := by
  refine execZlibDecompress_failure hok ?_
  rw [State.zlibUnwrap_stream h6 hheader hstream hbits hlen hcap, State.zlibFinish]
  refine check_then_eq_error.2 (.inl ⟨⟨hcheck, ?_⟩, rfl⟩)
  rw [Out.bytes, List.reverse_reverse]
  exact mt (s.eq_zlibTail_iff _).1 hne

end

end

/-! ## The encoder's streams -/

theorem bytesAt_add (m : Memory) (base n k : Nat) : bytesAt m base (n + k) = bytesAt m base n ++ bytesAt m (base + n) k := by
  simp [bytesAt, List.range_add, Nat.add_assoc]

/-- What stands in SRC when all but the trailer is a stream of the encoder (R282). -/
theorem zlibBytes_inMemory {m : Memory} {src : Nat} {bits : List Bool} {a : Word}
    (h : bytesAt m src ((zlibBytes bits a).length - 4) = (zlibBytes bits a).take ((zlibBytes bits a).length - 4)) :
    m.read src = 0x78 ∧ m.read (src + 1) = 0x01 ∧ bitsStandAt m (src + 2) 0 bits := by
  rw [zlibBytes_length, Nat.add_sub_cancel, zlibBytes, List.take_left' (by simp; omega), bytesAt_add] at h
  obtain ⟨hheader, hbody⟩ := List.append_inj h (by simp)
  obtain ⟨h0, h1⟩ : m.read src = 0x78 ∧ m.read (src + 1) = 0x01 := by simpa [bytesAt, List.range_succ] using hheader
  exact ⟨h0, h1, bitsStandAt_of_bytesAt hbody⟩

/-- A stream of `ZlibEncode` is the bytes of a well-formed stream of its input (R282, R266). -/
theorem zlibEncode_ok {r : Regs} (hw : WindowLegal r) {cap : Nat} {data : List Byte} {w : Writer} {count nb : Nat} {a : Word}
    (h : zlibEncode r (bufOfBytes data) data.length ⟨[], 0, cap⟩ = .ok (w, count, nb, a)) :
    ∃ bits, StreamBits 0 [] bits nb data ∧ w.bytes = zlibBytes bits a ∧ count = bits.length := by
  obtain ⟨bits, he, hstream, -⟩ := exists_stream (p := specEncoder) lengthsFromFrequencies_legal hw (bufOfBytes data) data.length
  rw [firstBytes_bufOfBytes] at hstream
  rw [zlibEncode_eq he (congrArg adler32 (firstBytes_bufOfBytes data))] at h
  split at h
  · cases h
    exact ⟨bits, hstream, by rw [Writer.bytes_reverse, packBits_byteBits], rfl⟩
  · cases h

/-! ## Errors of the body -/

/-- A failure of `INFLATE.RAW` is one of the decoder (44_deflate.md R265). -/
theorem decodeStream_error_of_inflateRaw {u : State} {e : ErrCode} {ws : List WReg} {dst : Option Region}
    (hok : RegionsOk .inflateRaw u) (h : exec .inflateRaw u = .next (u.fail e ws dst)) :
    decodeStream (u.operands.srcReader u.mem) ⟨[], u.operands.dstCap.toNat⟩ = .error e := by
  have hregions := (regionChecks_ok_iff _ u).2 hok
  rw [exec, execInflateRaw] at h
  cases hd : decodeStream (u.operands.srcReader u.mem) ⟨[], u.operands.dstCap.toNat⟩ with
  | error f =>
    have hsame := Host.Outcome.next.inj (h.symm.trans (runCommand_failure rfl hregions (bind_eq_error.2 (.inl hd))))
    have hcode : some e = some f := congrArg (·.status.errCode) hsame
    rw [Option.some_inj.1 hcode]
  | ok p =>
    have hsame := Host.Outcome.next.inj (h.symm.trans (runCommand_success rfl hregions (bind_eq_ok.2 ⟨p, hd, rfl⟩)))
    exact nomatch congrArg (·.status.error) hsame

/-- Settles O51: an encoder's stream is a well-formed one after the header `78 01`; those decode by `execZlibDecompress_stream`; and a
body fails as the same bytes do for `INFLATE.RAW`, by `decodeStream_alike`. -/
theorem zlibDecompressChecksTheTrailer : Obligations.ZlibDecompressChecksTheTrailer := by
  refine ⟨fun ignoreAdler s r cap data w count nb a hw _ hencode hsrcLen hbytes hcap hok => ?_,
    fun ignoreAdler s bits nb data hok hmod hmethod hinfo hdict hstream hbits hlen hcap => ?_,
    fun ignoreAdler s u e hok hmod hmethod hinfo hdict hsrcLen hdstCap hbytes hoku hinflate => ?_⟩
  · obtain ⟨bits, hstream, hw', rfl⟩ := zlibEncode_ok hw hencode
    have hpack := packBits_length bits
    have hlength : w.bytes.length = 2 + (packBits bits).length + 4 := by rw [← zlibBytes_length bits a, ← hw']
    obtain ⟨hcmf, hflg, hbits⟩ := zlibBytes_inMemory (hw' ▸ hbytes)
    have hheader : zlibHeaderChecks s.zlibCmf s.zlibFlg = .ok () := by
      rw [State.zlibCmf, State.zlibFlg, hcmf, hflg]
      exact zlibHeaderChecks_ok rfl rfl (by decide) rfl
    have h6 : 6 ≤ s.operands.srcLen.toNat := by omega
    have hroom : bits.length + 48 ≤ 8 * s.operands.srcLen.toNat := by omega
    rw [← hsrcLen]
    refine ⟨fun h => ?_, execZlibDecompress_mismatch hok h6 hheader hstream hbits hroom hcap⟩
    obtain ⟨m, hexec, hdata, hframe⟩ := execZlibDecompress_stream hok h6 hheader hstream hbits hroom hcap h
    exact ⟨_, m, hexec, fun hlt => by rw [storeCount_of_lt hlt, BitVec.toNat_ofNat, Nat.mod_eq_of_lt hlt], hdata, hframe⟩
  · have hheader : zlibHeaderChecks s.zlibCmf s.zlibFlg = .ok () := zlibHeaderChecks_ok hmod hmethod hinfo hdict
    have h6 : 6 ≤ s.operands.srcLen.toNat := by omega
    refine ⟨fun h => ?_, execZlibDecompress_mismatch hok h6 hheader hstream hbits hlen hcap⟩
    obtain ⟨m, hexec, hdata, hframe⟩ := execZlibDecompress_stream hok h6 hheader hstream hbits hlen hcap h
    exact ⟨m, hexec, storeCount_of_lt, hdata, hframe⟩
  · have hheader : zlibHeaderChecks s.zlibCmf s.zlibFlg = .ok () := zlibHeaderChecks_ok hmod hmethod hinfo hdict
    have hbody : (u.operands.srcReader u.mem).Same s.zlibBody := by
      rw [State.zlibBody, hsrcLen, Nat.add_sub_cancel]
      refine .mk (fun k => ?_) ..
      rw [← byte_bufOfBytes_bytesAt, ← byte_bufOfBytes_bytesAt, ← hbytes]
    refine execZlibDecompress_bodyError hok (by omega) hheader ((decodeStream_alike hbody _).error_iff.1 ?_)
    rw [← hdstCap]
    exact decodeStream_error_of_inflateRaw hoku hinflate

end Sys2Proof.Machine
end

section
/-! Which pixels of an image each Adam7 pass has (46_adam7.md R300, R301, R310). -/

namespace Sys2Proof.Machine

/-! ## Division with remainder -/

/-- `m` stands in row `a`, at place `k` of a row of `n` places, exactly when `a` and `k` are its quotient and its remainder. -/
theorem eq_mul_add_iff {m a n k : Nat} (h : k < n) : m = a * n + k ↔ m / n = a ∧ m % n = k := by
  rw [Nat.div_mod_unique (Nat.zero_lt_of_lt h), Nat.mul_comm n a, Nat.add_comm k, eq_comm]
  exact (and_iff_left h).symm

theorem mul_add_inj {a a' n k k' : Nat} (hk : k < n) (hk' : k' < n) (h : a * n + k = a' * n + k') : a = a' ∧ k = k' := by
  obtain ⟨hdiv, hmod⟩ := (eq_mul_add_iff hk).1 rfl
  obtain ⟨hdiv', hmod'⟩ := (eq_mul_add_iff hk').1 h
  exact ⟨hdiv.symm.trans hdiv', hmod.symm.trans hmod'⟩

theorem mul_add_lt_mul {a m k n : Nat} (ha : a < m) (hk : k < n) : a * n + k < m * n := by
  calc a * n + k < (a + 1) * n := by rw [Nat.succ_mul]; omega
    _ ≤ m * n := Nat.mul_le_mul_right n ha

/-! ## The pixels of a pass -/

theorem passOf_start_lt (p : Fin 7) : (passOf p).sx < (passOf p).dx ∧ (passOf p).sy < (passOf p).dy := by
  revert p
  decide

theorem passOf_stride_dvd (p : Fin 7) : (passOf p).dx ∣ 8 ∧ (passOf p).dy ∣ 8 := by
  revert p
  decide

/-- The rounded quotient of R301 counts the coordinates below `n` of a progression. -/
theorem lt_progressionCount_iff {n d s i : Nat} (h : s < d) : i < (n + d - s - 1) / d ↔ s + i * d < n := by
  rw [← Nat.succ_le_iff, Nat.le_div_iff_mul_le (Nat.zero_lt_of_lt h), Nat.succ_mul]
  omega

/-- A pass has exactly the pixels of its two progressions that lie in the image: the rule that zeroes both sizes only empties a
pass that has none. -/
theorem passSize_covers_iff {w h : Nat} {p : Fin 7} {i j : Nat} :
    i < (passSize w h p).1 ∧ j < (passSize w h p).2 ↔
      (passOf p).sx + i * (passOf p).dx < w ∧ (passOf p).sy + j * (passOf p).dy < h := by
  obtain ⟨hx, hy⟩ := passOf_start_lt p
  rw [← lt_progressionCount_iff hx, ← lt_progressionCount_iff hy, passSize, Pass.size]
  split
  · simp only
    omega
  · exact Iff.rfl

/-- The low three bits of the two coordinates select one pass. -/
theorem existsUnique_pass (x y : Nat) :
    ∃! p : Fin 7, x % (passOf p).dx = (passOf p).sx ∧ y % (passOf p).dy = (passOf p).sy := by
  have residues : ∀ a b : Fin 8, ∃! p : Fin 7,
      a.val % (passOf p).dx = (passOf p).sx ∧ b.val % (passOf p).dy = (passOf p).sy := by
    unfold ExistsUnique
    decide
  have h := residues ⟨x % 8, Nat.mod_lt _ (by decide)⟩ ⟨y % 8, Nat.mod_lt _ (by decide)⟩
  simpa only [Nat.mod_mod_of_dvd _ (passOf_stride_dvd _).1, Nat.mod_mod_of_dvd _ (passOf_stride_dvd _).2] using h

/-- Where pixel `(x, y)` of the image stands: in the pass its residues select, at its two quotients. -/
theorem pixel_place_iff {w h x y : Nat} (hx : x < w) (hy : y < h) {p : Fin 7} {i j : Nat} :
    (i < (passSize w h p).1 ∧ j < (passSize w h p).2 ∧
      x = (passOf p).sx + i * (passOf p).dx ∧ y = (passOf p).sy + j * (passOf p).dy) ↔
    (x % (passOf p).dx = (passOf p).sx ∧ y % (passOf p).dy = (passOf p).sy) ∧
      i = x / (passOf p).dx ∧ j = y / (passOf p).dy := by
  obtain ⟨hsx, hsy⟩ := passOf_start_lt p
  have hxi : x = (passOf p).sx + i * (passOf p).dx ↔ x / (passOf p).dx = i ∧ x % (passOf p).dx = (passOf p).sx := by
    rw [Nat.add_comm, eq_mul_add_iff hsx]
  have hyj : y = (passOf p).sy + j * (passOf p).dy ↔ y / (passOf p).dy = j ∧ y % (passOf p).dy = (passOf p).sy := by
    rw [Nat.add_comm, eq_mul_add_iff hsy]
  constructor
  · rintro ⟨-, -, hx, hy⟩
    obtain ⟨hi, hxs⟩ := hxi.1 hx
    obtain ⟨hj, hys⟩ := hyj.1 hy
    exact ⟨⟨hxs, hys⟩, hi.symm, hj.symm⟩
  · rintro ⟨⟨hxs, hys⟩, hi, hj⟩
    have hx' := hxi.2 ⟨hi.symm, hxs⟩
    have hy' := hyj.2 ⟨hj.symm, hys⟩
    obtain ⟨h1, h2⟩ := passSize_covers_iff.2 ⟨hx' ▸ hx, hy' ▸ hy⟩
    exact ⟨h1, h2, hx', hy'⟩

/-- Settles O56: the residues mod 8 select the pass, the quotients the place in it. -/
theorem passesPartitionTheImage : Obligations.PassesPartitionTheImage := by
  refine fun w h => ⟨fun x y hx hy => ?_, fun p i j hi hj => passSize_covers_iff.1 ⟨hi, hj⟩⟩
  obtain ⟨p, hp, hunique⟩ := existsUnique_pass x y
  refine ⟨(p, x / (passOf p).dx, y / (passOf p).dy), (pixel_place_iff hx hy).2 ⟨hp, rfl, rfl⟩, ?_⟩
  rintro ⟨q, i, j⟩ hq
  obtain ⟨hres, hi, hj⟩ := (pixel_place_iff hx hy).1 hq
  obtain rfl : q = p := hunique q hres
  exact Prod.ext rfl (Prod.ext hi hj)

end Sys2Proof.Machine
end

section
/-! The running offsets of the reduced images (46_adam7.md R302), and the two places of every bit of every pixel: in the full image
and in the reduced images (R303 to R305). -/

namespace Sys2Proof.Machine

/-! ## Running offsets -/

/-- The offsets of a layout in which a pass takes `size` bytes by its two sizes. -/
def layout (w h : Nat) (size : Nat × Nat → Nat) : List Nat := offsets 0 ((adam7Passes.map fun p => p.size w h).map size)

section
variable (w h b : Nat) {size size' : Nat × Nat → Nat}

theorem geometry_fstart : (geometry w h b).fstart = layout w h (filteredBytes b) := rfl
theorem geometry_pstart : (geometry w h b).pstart = layout w h (paddedBytes b) := rfl
theorem geometry_ustart : (geometry w h b).ustart = layout w h (unpaddedBytes b) := rfl

theorem geometry_sizes (p : Fin 7) : (geometry w h b).sizes.getD p.val (0, 0) = passSize w h p := by
  fin_cases p <;> rfl

theorem layout_succ (p : Fin 7) : (layout w h size).getD (p.val + 1) 0 = (layout w h size).getD p.val 0 + size (passSize w h p) := by
  fin_cases p <;> rfl

theorem layout_mono {j k : Nat} (hjk : j ≤ k) (hk : k ≤ 7) : (layout w h size).getD j 0 ≤ (layout w h size).getD k 0 := by
  induction k, hjk using Nat.le_induction with
  | base => exact le_rfl
  | succ k hjk ih => exact (ih (by omega)).trans (layout_succ w h ⟨k, hk⟩ ▸ Nat.le_add_right _ _)

/-- Taking no fewer bytes for any pass makes no offset smaller. -/
theorem layout_le (hsize : ∀ sz, size sz ≤ size' sz) {k : Nat} (hk : k ≤ 7) :
    (layout w h size).getD k 0 ≤ (layout w h size').getD k 0 := by
  induction k with
  | zero => exact le_rfl
  | succ k ih =>
    rw [layout_succ w h ⟨k, hk⟩, layout_succ w h ⟨k, hk⟩]
    exact Nat.add_le_add (ih (by omega)) (hsize _)

end

theorem unpaddedBytes_le_paddedBytes (b : Nat) (sz : Nat × Nat) : unpaddedBytes b sz ≤ paddedBytes b sz := by
  have hrow : sz.1 * b ≤ bytesOfBits (sz.1 * b) * 8 := by
    rw [bytesOfBits]
    omega
  have hpass := Nat.mul_le_mul_left sz.2 hrow
  rw [← Nat.mul_assoc, ← Nat.mul_assoc, Nat.mul_comm sz.2] at hpass
  rw [unpaddedBytes, paddedBytes, bytesOfBits]
  omega

theorem paddedBytes_le_filteredBytes (b : Nat) (sz : Nat × Nat) : paddedBytes b sz ≤ filteredBytes b sz := by
  rw [paddedBytes, filteredBytes]
  split
  · exact Nat.mul_le_mul_left _ (Nat.le_add_left ..)
  · next hempty =>
    obtain h | h : sz.2 = 0 ∨ sz.1 = 0 := by omega
    · simp [h]
    · simp [h, bytesOfBits]

/-! ## The bits of the pixels -/

/-- Bit `k` of pixel `(i, j)` of a pass of a `w × h` image of `b` bits per pixel (R305). -/
structure PixelBit (w h b : Nat) where
  pass : Fin 7
  i : Nat
  j : Nat
  k : Nat
  i_lt : i < (passSize w h pass).1
  j_lt : j < (passSize w h pass).2
  k_lt : k < b

namespace PixelBit
variable {w h b : Nat}

/-- Its image bit in the full image (R303). -/
def full (c : PixelBit w h b) : Nat := fullBit w b c.pass c.i c.j c.k

/-- Its image bit in the reduced images (R304). -/
def reduced (c : PixelBit w h b) : Nat := reducedBit w h b c.pass c.i c.j c.k

/-- The coordinates of its pixel lie in the image. -/
theorem xy_lt (c : PixelBit w h b) :
    (passOf c.pass).sx + c.i * (passOf c.pass).dx < w ∧ (passOf c.pass).sy + c.j * (passOf c.pass).dy < h :=
  passSize_covers_iff.1 ⟨c.i_lt, c.j_lt⟩

theorem full_lt (c : PixelBit w h b) : c.full < w * h * b := by
  obtain ⟨hx, hy⟩ := c.xy_lt
  exact Nat.mul_comm w h ▸ mul_add_lt_mul (mul_add_lt_mul hy hx) c.k_lt

theorem full_lt_fullBytes (c : PixelBit w h b) : c.full < 8 * fullBytes w h b := by
  have hlt := c.full_lt
  rw [fullBytes, bytesOfBits]
  omega

/-- Every bit of the full image is a bit of a pixel (R310). -/
theorem exists_full {n : Nat} (hn : n < w * h * b) : ∃ c : PixelBit w h b, c.full = n := by
  have hb : 0 < b := Nat.pos_of_ne_zero fun h0 => by simp [h0] at hn
  have hw : 0 < w := Nat.pos_of_ne_zero fun h0 => by simp [h0] at hn
  have hk := Nat.mod_lt n hb
  have hx := Nat.mod_lt (n / b) hw
  have hy : n / b / w < h := Nat.div_lt_of_lt_mul (Nat.div_lt_of_lt_mul (Nat.mul_comm _ b ▸ hn))
  obtain ⟨⟨p, i, j⟩, ⟨hi, hj, hxi, hyj⟩, -⟩ := (passesPartitionTheImage w h).1 _ _ hx hy
  refine ⟨⟨p, i, j, n % b, hi, hj, hk⟩, ?_⟩
  rw [full, fullBit, ← hxi, ← hyj, Nat.div_add_mod', Nat.div_add_mod']

theorem full_injective : Function.Injective (full : PixelBit w h b → Nat) := by
  intro c d hcd
  obtain ⟨hx, hy⟩ := c.xy_lt
  obtain ⟨hpixel, hk⟩ := mul_add_inj c.k_lt d.k_lt hcd
  obtain ⟨hrow, hcol⟩ := mul_add_inj hx d.xy_lt.1 hpixel
  have hplace : (c.pass, c.i, c.j) = (d.pass, d.i, d.j) :=
    ((passesPartitionTheImage w h).1 _ _ hx hy).unique ⟨c.i_lt, c.j_lt, rfl, rfl⟩ ⟨d.i_lt, d.j_lt, hcol, hrow⟩
  cases c
  cases d
  simp_all

/-- The bits of a pass stand between its offset and the next one. -/
theorem reduced_bounds (c : PixelBit w h b) :
    8 * (geometry w h b).ustart.getD c.pass.val 0 ≤ c.reduced ∧
      c.reduced < 8 * (geometry w h b).ustart.getD (c.pass.val + 1) 0 := by
  have hlt := mul_add_lt_mul (mul_add_lt_mul c.j_lt c.i_lt) c.k_lt
  rw [Nat.mul_comm (passSize w h c.pass).2] at hlt
  rw [geometry_ustart, layout_succ, unpaddedBytes, bytesOfBits, reduced, reducedBit, geometry_ustart]
  omega

theorem reduced_lt (c : PixelBit w h b) : c.reduced < 8 * (geometry w h b).ustart.getD 7 0 :=
  c.reduced_bounds.2.trans_le (Nat.mul_le_mul_left 8 (layout_mono w h c.pass.isLt le_rfl))

theorem reduced_lt_of_pass_lt {c d : PixelBit w h b} (hp : c.pass < d.pass) : c.reduced < d.reduced :=
  calc c.reduced < 8 * (geometry w h b).ustart.getD (c.pass.val + 1) 0 := c.reduced_bounds.2
    _ ≤ 8 * (geometry w h b).ustart.getD d.pass.val 0 := Nat.mul_le_mul_left 8 (layout_mono w h hp d.pass.isLt.le)
    _ ≤ d.reduced := d.reduced_bounds.1

theorem reduced_injective : Function.Injective (reduced : PixelBit w h b → Nat) := by
  intro c d hcd
  have hpass : c.pass = d.pass := by
    rcases lt_trichotomy c.pass d.pass with hlt | heq | hgt
    · exact absurd hcd (reduced_lt_of_pass_lt hlt).ne
    · exact heq
    · exact absurd hcd (reduced_lt_of_pass_lt hgt).ne'
  obtain ⟨p, i, j, k, hi, hj, hk⟩ := c
  obtain ⟨q, i', j', k', hi', hj', hk'⟩ := d
  obtain rfl : p = q := hpass
  have hinner : (j * (passSize w h p).1 + i) * b + k = (j' * (passSize w h p).1 + i') * b + k' := by
    simp only [reduced, reducedBit] at hcd
    omega
  obtain ⟨hpixel, rfl⟩ := mul_add_inj hk hk' hinner
  obtain ⟨rfl, rfl⟩ := mul_add_inj hi hi' hpixel
  rfl

theorem covered_iff {n : Nat} : reducedBitCovered w h b n ↔ ∃ c : PixelBit w h b, n = c.reduced :=
  ⟨fun ⟨p, i, j, k, hi, hj, hk, hn⟩ => ⟨⟨p, i, j, k, hi, hj, hk⟩, hn⟩,
    fun ⟨c, hn⟩ => ⟨c.pass, c.i, c.j, c.k, c.i_lt, c.j_lt, c.k_lt, hn⟩⟩

/-- The pairs that the commands copy are the two places of the bits of the pixels. -/
theorem mem_pixelPairs {q : Nat × Nat} : q ∈ pixelPairs w h b ↔ ∃ c : PixelBit w h b, q = (c.full, c.reduced) := by
  simp only [pixelPairs, passPairs, List.mem_flatMap, List.mem_map, List.mem_range]
  constructor
  · rintro ⟨p, hp, j, hj, i, hi, k, hk, rfl⟩
    have hsize := geometry_sizes w h b ⟨p, hp⟩
    simp only at hsize
    rw [hsize] at hi hj ⊢
    exact ⟨⟨⟨p, hp⟩, i, j, k, hi, hj, hk⟩, rfl⟩
  · rintro ⟨⟨p, i, j, k, hi, hj, hk⟩, rfl⟩
    rw [← geometry_sizes w h b] at hi hj
    refine ⟨p, p.isLt, j, hj, i, hi, k, hk, ?_⟩
    rw [geometry_sizes]
    rfl

/-- As every bit of the full image has its own place in the reduced images, these are no shorter (R312). -/
theorem fullBits_le (w h b : Nat) : w * h * b ≤ 8 * (geometry w h b).ustart.getD 7 0 := by
  choose c hc using fun n : Fin (w * h * b) => exists_full n.isLt
  have hinj : Function.Injective fun n => (⟨(c n).reduced, (c n).reduced_lt⟩ : Fin (8 * (geometry w h b).ustart.getD 7 0)) := by
    intro n m hnm
    have hcnm : c n = c m := reduced_injective (Fin.mk.inj hnm)
    exact Fin.ext ((hc n).symm.trans (hcnm ▸ hc m))
  simpa using Fintype.card_le_of_injective _ hinj

end PixelBit
end Sys2Proof.Machine
end

section
/-! Copying image bits from one buffer to another (46_adam7.md R306): what the copied image holds bit by bit, in a table and in
memory. -/

namespace Sys2Proof.Machine

/-! ## The image as a table of bits -/

theorem BitTab.bit_set (t : BitTab) (n k : Nat) (v : Bool) :
    BitTab.bit (Tab.set t n (some v)) k = if k = n then v else BitTab.bit t k := by
  rw [BitTab.bit, Tab.get_set]
  split <;> rfl

section
variable {src : Buf} {ps : List (Nat × Nat)}

/-- A bit that no pair copies to keeps its value. -/
theorem copyImage_bit_other {n : Nat} (h : ∀ q ∈ ps, q.2 ≠ n) (t : BitTab) :
    BitTab.bit (copyImage src t ps) n = BitTab.bit t n := by
  induction ps generalizing t with
  | nil => rfl
  | cons p ps ih =>
    obtain ⟨hp, hps⟩ := List.forall_mem_cons.1 h
    rw [copyImage, ih hps, BitTab.bit_set, if_neg (Ne.symm hp)]

/-- A bit that only copies of one source bit go to holds that bit. -/
theorem copyImage_bit {p : Nat × Nat} (hp : p ∈ ps) (h : ∀ q ∈ ps, q.2 = p.2 → q.1 = p.1) (t : BitTab) :
    BitTab.bit (copyImage src t ps) p.2 = imageBit src p.1 := by
  induction ps generalizing t with
  | nil => cases hp
  | cons q ps ih =>
    obtain ⟨hq, hps⟩ := List.forall_mem_cons.1 h
    by_cases hlater : ∃ q' ∈ ps, q'.2 = p.2
    · obtain ⟨q', hq', heq⟩ := hlater
      have hmem : p ∈ ps := Prod.ext (hps q' hq' heq) heq ▸ hq'
      exact ih hmem hps _
    · obtain rfl : p = q := (List.mem_cons.1 hp).resolve_right fun hmem => hlater ⟨p, hmem, rfl⟩
      rw [copyImage, copyImage_bit_other (fun q' hq' heq => hlater ⟨q', hq', heq⟩), BitTab.bit_set, if_pos rfl]

end

/-- Byte `n` of an image holds its bits `8n` to `8n + 7`, the first one on top (R306). -/
theorem imageByte_eq (t : BitTab) (n : Nat) :
    imageByte t n = byte (lsbValue ((List.range 8).map fun i => BitTab.bit t (8 * n + (7 - i)))) := by
  have hindex : ∀ k, imageBitIndex (8 * n + k) = 7 - k % 8 := fun k => by
    simp only [imageBitIndex, Config.adam7MsbFirst, if_true, Nat.mul_add_mod]
  have hbit : ∀ (b : Bool) (v : Nat), (if b then v else 0) = v * b.toNat := fun b v => by cases b <;> simp
  rw [imageByte]
  refine congrArg byte ?_
  simp only [List.range_succ, List.range_zero, List.nil_append, List.cons_append, List.map_cons, List.map_nil, List.sum_cons,
    List.sum_nil, lsbValue, hindex, hbit,
    Nat.reduceMod, Nat.reduceSub, Nat.reducePow]
  omega

theorem imageByte_getLsbD (t : BitTab) (k : Nat) : (imageByte t (k / 8)).getLsbD (7 - k % 8) = BitTab.bit t k := by
  rw [imageByte_eq, byte_lsbValue_getLsbD _ _ (by omega), List.getD_eq_getElem _ _ (by simp; omega)]
  simp only [List.getElem_map, List.getElem_range]
  exact congrArg (BitTab.bit t) (by omega)

/-! ## The image in memory -/

theorem imageBit_region (m : Memory) (base : Nat) {len k : Nat} (h : k < 8 * len) :
    imageBit (m.region base len) k = memImageBit m base k := by
  rw [imageBit, Memory.byte_region _ _ _ _ (by omega)]
  rfl

theorem memImageBit_imageBytes (m : Memory) {base n : Nat} (t : BitTab) (hspace : n = 0 ∨ base + n ≤ Config.addrSpace) {k : Nat}
    (h : k < 8 * n) : memImageBit (m.writeBytes base (imageBytes t n)) base k = BitTab.bit t k := by
  have hread := Memory.read_writeBytes_inside m base (k / 8) (imageBytes t n) (by simp; omega) (by omega)
  rw [memImageBit, hread, ← imageByte_getLsbD t k]
  simp [imageBytes]

theorem memImageBit_of_bytesAt {m m' : Memory} {base base' n k : Nat} (h : bytesAt m base n = bytesAt m' base' n) (hk : k < 8 * n) :
    memImageBit m base k = memImageBit m' base' k := by
  have hbyte := congrArg (fun l : List Byte => l.getD (k / 8) 0) h
  have hlt : k / 8 < n := by omega
  simp only [bytesAt, List.getD_eq_getElem?_getD, List.getElem?_map, List.getElem?_range hlt, Option.map_some,
    Option.getD_some] at hbyte
  rw [memImageBit, hbyte, memImageBit]

/-- `m'` is `m` with each bit of a pixel copied from its place `f` in the buffer at `src` to its place `g` in the `n` bytes at `dst`;
the other bits of those bytes are 0, and no other byte is changed (R306). -/
structure ImageCopied {ι : Type} (f g : ι → Nat) (m m' : Memory) (src dst n : Nat) : Prop where
  copied : ∀ c, memImageBit m' dst (g c) = memImageBit m src (f c)
  cleared : ∀ k < 8 * n, (∀ c, g c ≠ k) → memImageBit m' dst k = false
  frame : ∀ a, a < dst ∨ dst + n ≤ a → m'.read a = m.read a

section
variable {ι : Type} {f g : ι → Nat}

/-- Copying pairs of places, no two of them to one place, into the buffer at `dst`. -/
theorem imageCopied_writeBytes {ps : List (Nat × Nat)} (hps : ∀ q, q ∈ ps ↔ ∃ c, q = (f c, g c)) (hinj : Function.Injective g)
    (m : Memory) {src len dst n : Nat} (hf : ∀ c, f c < 8 * len) (hg : ∀ c, g c < 8 * n)
    (hspace : n = 0 ∨ dst + n ≤ Config.addrSpace) :
    ImageCopied f g m (m.writeBytes dst (imageBytes (copyImage (m.region src len) .nil ps) n)) src dst n where
  copied c := by
    rw [memImageBit_imageBytes m _ hspace (hg c), ← imageBit_region m src (hf c)]
    refine copyImage_bit ((hps _).2 ⟨c, rfl⟩) (fun q hq hqc => ?_) _
    obtain ⟨d, rfl⟩ := (hps q).1 hq
    exact congrArg f (hinj hqc)
  cleared k hk hnone := by
    rw [memImageBit_imageBytes m _ hspace hk, copyImage_bit_other fun q hq => ?_]
    · rfl
    · obtain ⟨c, rfl⟩ := (hps q).1 hq
      exact hnone c
  frame a ha := Memory.read_writeBytes_outside _ _ _ _ (by simpa using ha)

/-- Copying the bits to their places and, from there, back again. -/
theorem ImageCopied.back {m m' u u' : Memory} {src dst n src' dst' n' : Nat} (h : ImageCopied f g m m' src dst n)
    (h' : ImageCopied g f u u' src' dst' n') (hu : bytesAt u src' n = bytesAt m' dst n) (hg : ∀ c, g c < 8 * n) (c : ι) :
    memImageBit u' dst' (f c) = memImageBit m src (f c) :=
  calc memImageBit u' dst' (f c) = memImageBit u src' (g c) := h'.copied c
    _ = memImageBit m' dst (g c) := memImageBit_of_bytesAt hu (hg c)
    _ = memImageBit m src (f c) := h.copied c

end

end Sys2Proof.Machine
end

section
/-! The commands `ADAM7.GEOMETRY`, `ADAM7.INTERLACE` and `ADAM7.DEINTERLACE` (46_adam7.md R307 to R312): what each leaves behind, the
two round trips, and the argument checks. -/

namespace Sys2Proof.Machine

/-! ## The argument checks -/

/-- The three commands make the argument checks of R312. -/
theorem exec_adam7 {i : Instr} (hi : i ∈ [Instr.adam7Geometry, .adam7Interlace, .adam7Deinterlace]) (s : State) :
    ∃ body, exec i s = runCommand i s (adam7Checks s.operands) body := by
  fin_cases hi
  · unfold exec execAdam7Geometry
    exact ⟨_, rfl⟩
  · unfold exec execAdam7Interlace
    exact ⟨_, rfl⟩
  · unfold exec execAdam7Deinterlace
    exact ⟨_, rfl⟩

theorem adam7Legal_argsOk {i : Instr} (hi : i ∈ [Instr.adam7Geometry, .adam7Interlace, .adam7Deinterlace]) {r : Regs}
    (h : Adam7Legal r) : ArgsOk i r := by
  fin_cases hi <;> exact h

/-- Once its own checks pass, a command reports no pre-check error but those of the region checks. -/
theorem exec_argsOk {i : Instr} {s : State} (h : ArgsOk i s.operands) : ∃ t, exec i s = .next t ∧
    ∀ e, t.status.errCode = some e → e.isPreCheck = true → e = .addr ∨ e = .bus ∨ e = .overlap := by
  obtain ⟨args, body, hx, hargs, hbody⟩ := exec_runsByRule i s
  exact hx ▸ runCommand_argsOk (hargs.eq_ok_iff.2 h) hbody.failsLate

theorem fullBytes_le_reducedBytes (w h b : Nat) : fullBytes w h b ≤ reducedBytes w h b := by
  have hbits := PixelBit.fullBits_le w h b
  rw [fullBytes, bytesOfBits, reducedBytes]
  omega

/-- Settles O60: the checks raise their errors in turn, and each layout is no shorter than the one before it because no pass is. -/
theorem adamSevenArgumentChecks : Obligations.AdamSevenArgumentChecks := by
  refine ⟨fun i s hi => ?_, fun w h b => ⟨?_, ?_, ?_, geometry_fstart_last w h b, fun k hk => ?_⟩⟩
  · obtain ⟨body, hx⟩ := exec_adam7 hi s
    refine ⟨fun hbpp => ?_, fun hbpp hlarge => ?_, fun hlegal => ?_⟩
    · exact hx.trans (runCommand_argError (check_then_eq_error.2 (.inl ⟨hbpp, rfl⟩)))
    · exact hx.trans (runCommand_argError (check_then_eq_error.2 (.inr ⟨not_not.2 hbpp, failIf_of_true _ hlarge⟩)))
    · obtain ⟨t, ht, hpre⟩ := exec_argsOk (adam7Legal_argsOk hi hlegal)
      refine ⟨t, ht, fun he => ?_, fun he => ?_⟩ <;> simpa using hpre _ he rfl
  · exact fullBytes_le_reducedBytes w h b
  · exact layout_le w h (unpaddedBytes_le_paddedBytes b) le_rfl
  · exact layout_le w h (paddedBytes_le_filteredBytes b) le_rfl
  · have h7 : k ≤ 7 := by omega
    exact ⟨layout_mono w h h7 le_rfl, layout_mono w h h7 le_rfl, layout_mono w h h7 le_rfl⟩

/-! ## `ADAM7.GEOMETRY` -/

theorem progressionCount_le {n d s : Nat} (h : s < d) : (n + d - s - 1) / d ≤ n := by
  refine Nat.not_lt.1 fun hlt => ?_
  have hlast := (lt_progressionCount_iff h).1 hlt
  have hle := Nat.le_mul_of_pos_right n (Nat.zero_lt_of_lt h)
  omega

theorem passSize_le (w h : Nat) (p : Fin 7) : (passSize w h p).1 ≤ w ∧ (passSize w h p).2 ≤ h := by
  obtain ⟨hx, hy⟩ := passOf_start_lt p
  rw [passSize, Pass.size]
  split
  · exact ⟨Nat.zero_le _, Nat.zero_le _⟩
  · exact ⟨progressionCount_le hx, progressionCount_le hy⟩

theorem word_toNat {n : Nat} (h : n < 2 ^ 32) : (word n).toNat = n := Nat.mod_eq_of_lt h

/-- No offset of a legal image needs more than 32 bits (R312). -/
theorem layout_fits {w h b : Nat} (hfits : filteredTotal w h b < 2 ^ 32) {k : Nat} (hk : k ≤ 7) :
    (geometry w h b).fstart.getD k 0 < 2 ^ 32 ∧ (geometry w h b).pstart.getD k 0 < 2 ^ 32 ∧
      (geometry w h b).ustart.getD k 0 < 2 ^ 32 := by
  have hf : (geometry w h b).fstart.getD k 0 < 2 ^ 32 :=
    (layout_mono w h hk le_rfl).trans_lt (geometry_fstart_last w h b ▸ hfits)
  have hp := (layout_le w h (paddedBytes_le_filteredBytes b) hk).trans_lt hf
  exact ⟨hf, hp, (layout_le w h (unpaddedBytes_le_paddedBytes b) hk).trans_lt hp⟩

/-- The bank of a state holds the geometry of an image (10_state.md R40). -/
structure HoldsGeometry (t : State) (w h b : Nat) : Prop where
  passW (p : Fin 7) : (t.readReg (.passW p)).toNat = (passSize w h p).1
  passH (p : Fin 7) : (t.readReg (.passH p)).toNat = (passSize w h p).2
  fstart (k : Fin 8) : (t.readReg (.fstart k)).toNat = (geometry w h b).fstart.getD k.val 0
  pstart (k : Fin 8) : (t.readReg (.pstart k)).toNat = (geometry w h b).pstart.getD k.val 0
  ustart (k : Fin 8) : (t.readReg (.ustart k)).toNat = (geometry w h b).ustart.getD k.val 0

theorem holdsGeometry {t : State} {r : Regs} {w h b : Nat} {v0 v1 : Word} (hw : w < 2 ^ 32) (hh : h < 2 ^ 32)
    (hfits : filteredTotal w h b < 2 ^ 32)
    (ht : t.regs = { r.withGeometry (geometry w h b) with result0 := v0, result1 := v1, errInfo := 0 }) :
    HoldsGeometry t w h b := by
  constructor <;> intro k <;>
    simp only [State.readReg, ht, Regs.withGeometry_passW, Regs.withGeometry_passH, Regs.withGeometry_fstart,
      Regs.withGeometry_pstart, Regs.withGeometry_ustart, Fin.getElem_fin, Vector.getElem_ofFn, geometry_sizes]
  case passW => exact word_toNat ((passSize_le w h k).1.trans_lt hw)
  case passH => exact word_toNat ((passSize_le w h k).2.trans_lt hh)
  case fstart => exact word_toNat (layout_fits hfits (Nat.le_of_lt_succ k.isLt)).1
  case pstart => exact word_toNat (layout_fits hfits (Nat.le_of_lt_succ k.isLt)).2.1
  case ustart => exact word_toNat (layout_fits hfits (Nat.le_of_lt_succ k.isLt)).2.2

/-- The pass table as R300 writes it. -/
theorem passTable_eq (p : Fin 7) :
    [(0, 0, 8, 8), (4, 0, 8, 8), (0, 4, 4, 8), (2, 0, 4, 4), (0, 2, 2, 4), (1, 0, 2, 2), (0, 1, 1, 2)].getD p.val (0, 0, 1, 1) =
      ((passOf p).sx, (passOf p).sy, (passOf p).dx, (passOf p).dy) := by
  revert p
  decide

theorem passSize_eq (w h : Nat) (p : Fin 7) :
    let w' := (w + (passOf p).dx - (passOf p).sx - 1) / (passOf p).dx
    let h' := (h + (passOf p).dy - (passOf p).sy - 1) / (passOf p).dy
    (passSize w h p).1 = (if w' = 0 ∨ h' = 0 then 0 else w') ∧ (passSize w h p).2 = (if w' = 0 ∨ h' = 0 then 0 else h') :=
  ⟨apply_ite Prod.fst .., apply_ite Prod.snd ..⟩

/-- `ADAM7.GEOMETRY` uses no region, so legal arguments are all it needs (R307). -/
theorem execAdam7Geometry_completes {s : State} (hlegal : Adam7Legal s.operands) :
    let w := s.operands.imgW.toNat
    let h := s.operands.imgH.toNat
    let b := s.operands.bpp
    ∃ t, exec .adam7Geometry s = .next t ∧ t.status = s.status.succeeded ∧ t.mem = s.mem ∧
      t.regs = { s.regs.withGeometry (geometry w h b) with
        result0 := word (reducedBytes w h b), result1 := word (fullBytes w h b), errInfo := 0 } := by
  unfold exec execAdam7Geometry
  exact ⟨_, runCommand_success ((adam7Checks_checks _).eq_ok_iff.2 hlegal) rfl rfl, rfl, rfl, rfl⟩

/-- Settles O55: the bank holds the geometry, whose offsets are running sums. -/
theorem geometryFillsTheBank : Obligations.GeometryFillsTheBank := by
  intro s r w h b hlegal
  have hfits : filteredTotal w h b < 2 ^ 32 := hlegal.2
  obtain ⟨t, hexec, hstatus, hmem, hregs⟩ := execAdam7Geometry_completes hlegal
  have hbank : HoldsGeometry t w h b := holdsGeometry r.imgW.isLt r.imgH.isLt hfits hregs
  have hreduced : reducedBytes w h b < 2 ^ 32 := (layout_fits hfits le_rfl).2.2
  have hresult0 : (t.readReg .result0).toNat = reducedBytes w h b := by
    rw [State.readReg, hregs]
    exact word_toNat hreduced
  have hresult1 : (t.readReg .result1).toNat = fullBytes w h b := by
    rw [State.readReg, hregs]
    exact word_toNat ((fullBytes_le_reducedBytes w h b).trans_lt hreduced)
  refine ⟨t, hexec, hstatus, hmem, fun p => ?_, BitVec.eq_of_toNat_eq (hbank.fstart 0), BitVec.eq_of_toNat_eq (hbank.pstart 0),
    BitVec.eq_of_toNat_eq (hbank.ustart 0), BitVec.eq_of_toNat_eq (hresult0.trans (hbank.ustart 7).symm), hresult1⟩
  obtain ⟨hw, hh⟩ := passSize_eq w h p
  simp only [passTable_eq, hbank.passW, hbank.passH, hbank.fstart, hbank.pstart, hbank.ustart, Fin.val_succ, Fin.val_castSucc,
    geometry_fstart, geometry_pstart, geometry_ustart, layout_succ]
  exact ⟨hw, hh, rfl, rfl, rfl⟩

/-! ## `ADAM7.INTERLACE` and `ADAM7.DEINTERLACE` -/

/-- The execution the two commands share (R308, R309): the checks of the two buffers, of `need` and `made` bytes, and the copy of
the pairs of image bits. -/
def State.copyPixels (s : State) (need made : Nat) (ps : List (Nat × Nat)) : Except ErrCode (Regs × Memory) := do
  let r := s.operands
  failIf (r.srcLen.toNat < need) .trunc
  failIf (r.dstCap.toNat < made) .dstFull
  .ok ({ s.regs.withGeometry (geometry r.imgW.toNat r.imgH.toNat r.bpp) with dstLen := word made },
    s.mem.writeBytes r.dstAddr.toNat
      (imageBytes (copyImage (s.mem.region r.srcAddr.toNat r.srcLen.toNat) .nil ps) made))

/-- The command `i` copies the bits of the pixels of the image from their places `f` in the `need` bytes of SRC to their places `g`
in the `made` bytes of DST, when both buffers are long enough. -/
structure CopiesPixels {ι : Type} (i : Instr) (s : State) (f g : ι → Nat) (need made : Nat) : Prop where
  trunc : s.operands.srcLen.toNat < need → exec i s = .next (s.fail .trunc [.adam7, .dstLen] (some s.operands.dst))
  dstFull : need ≤ s.operands.srcLen.toNat → s.operands.dstCap.toNat < made →
    exec i s = .next (s.fail .dstFull [.adam7, .dstLen] (some s.operands.dst))
  completes : need ≤ s.operands.srcLen.toNat → made ≤ s.operands.dstCap.toNat → ∃ m,
    exec i s = .next (s.succeed { s.regs.withGeometry
      (geometry s.operands.imgW.toNat s.operands.imgH.toNat s.operands.bpp) with dstLen := word made } m) ∧
    ImageCopied f g s.mem m s.operands.srcAddr.toNat s.operands.dstAddr.toNat made

section
variable {i : Instr} {s : State} {need made : Nat} {ps : List (Nat × Nat)}
  (hi : i = .adam7Interlace ∨ i = .adam7Deinterlace)
  (hx : exec i s = runCommand i s (adam7Checks s.operands) fun _ => s.copyPixels need made ps)
include hx

theorem copyPixels_noError {t : State} (ht : exec i s = .next t) (herr : t.status.error = false) :
    Adam7Legal s.operands ∧ RegionsOk i s ∧ need ≤ s.operands.srcLen.toNat ∧ made ≤ s.operands.dstCap.toNat := by
  obtain ⟨hargs, hok, p, hp⟩ := runCommand_noError (hx.symm.trans ht) herr
  obtain ⟨hsrc, hp⟩ := check_then_eq_ok.1 hp
  obtain ⟨hdst, -⟩ := check_then_eq_ok.1 hp
  exact ⟨(adam7Checks_checks _).eq_ok_iff.1 hargs, hok, Nat.not_lt.1 hsrc, Nat.not_lt.1 hdst⟩

include hi

theorem copyPixels_copies {ι : Type} {f g : ι → Nat} (hps : ∀ q, q ∈ ps ↔ ∃ c, q = (f c, g c)) (hinj : Function.Injective g)
    (hf : ∀ c, f c < 8 * need) (hg : ∀ c, g c < 8 * made) (hlegal : Adam7Legal s.operands) (hok : RegionsOk i s) :
    CopiesPixels i s f g need made := by
  have hargs := (adam7Checks_checks s.operands).eq_ok_iff.2 hlegal
  have hregions := (regionChecks_ok_iff i s).2 hok
  have hdst : usesDst i = true := by rcases hi with rfl | rfl <;> rfl
  have hfail {e : ErrCode} (he : s.copyPixels need made ps = .error e) :
      exec i s = .next (s.fail e [.adam7, .dstLen] (some s.operands.dst)) := by
    have hfailed := hx.trans (runCommand_failure hargs hregions he)
    rcases hi with rfl | rfl <;> exact hfailed
  refine ⟨fun h => hfail (check_then_eq_error.2 (.inl ⟨h, rfl⟩)),
    fun hsrc h => hfail (check_then_eq_error.2 (.inr ⟨Nat.not_lt.2 hsrc, check_then_eq_error.2 (.inl ⟨h, rfl⟩)⟩)),
    fun hsrc hcap => ⟨_, hx.trans (runCommand_success hargs hregions (check_then_eq_ok.2 ⟨Nat.not_lt.2 hsrc,
      check_then_eq_ok.2 ⟨Nat.not_lt.2 hcap, rfl⟩⟩)), ?_⟩⟩
  have hspace := hok.dst_fits hdst
  exact imageCopied_writeBytes hps hinj s.mem (fun c => (hf c).trans_le (Nat.mul_le_mul_left 8 hsrc)) hg (by omega)

end

section
variable {s : State}

theorem exec_adam7Interlace : exec .adam7Interlace s = runCommand .adam7Interlace s (adam7Checks s.operands) fun _ =>
    s.copyPixels (fullBytes s.operands.imgW.toNat s.operands.imgH.toNat s.operands.bpp)
      (reducedBytes s.operands.imgW.toNat s.operands.imgH.toNat s.operands.bpp)
      (pixelPairs s.operands.imgW.toNat s.operands.imgH.toNat s.operands.bpp) := rfl

theorem exec_adam7Deinterlace : exec .adam7Deinterlace s = runCommand .adam7Deinterlace s (adam7Checks s.operands) fun _ =>
    s.copyPixels (reducedBytes s.operands.imgW.toNat s.operands.imgH.toNat s.operands.bpp)
      (fullBytes s.operands.imgW.toNat s.operands.imgH.toNat s.operands.bpp)
      ((pixelPairs s.operands.imgW.toNat s.operands.imgH.toNat s.operands.bpp).map fun p => (p.2, p.1)) := rfl

variable {w h b : Nat} (hw : s.operands.imgW.toNat = w) (hh : s.operands.imgH.toNat = h) (hb : s.operands.bpp = b)
  (hlegal : Adam7Legal s.operands)
include hw hh hb hlegal

theorem adam7Interlace_copies (hok : RegionsOk .adam7Interlace s) : CopiesPixels .adam7Interlace s
    (PixelBit.full (w := w) (h := h) (b := b)) PixelBit.reduced (fullBytes w h b) (reducedBytes w h b) := by
  subst hw hh hb
  exact copyPixels_copies (.inl rfl) exec_adam7Interlace (fun _ => PixelBit.mem_pixelPairs) PixelBit.reduced_injective
    PixelBit.full_lt_fullBytes PixelBit.reduced_lt hlegal hok

theorem adam7Deinterlace_copies (hok : RegionsOk .adam7Deinterlace s) : CopiesPixels .adam7Deinterlace s
    (PixelBit.reduced (w := w) (h := h) (b := b)) PixelBit.full (reducedBytes w h b) (fullBytes w h b) := by
  subst hw hh hb
  refine copyPixels_copies (.inr rfl) exec_adam7Deinterlace (fun q => ?_) PixelBit.full_injective PixelBit.reduced_lt
    PixelBit.full_lt_fullBytes hlegal hok
  constructor
  · intro hq
    obtain ⟨q', hq', rfl⟩ := List.mem_map.1 hq
    obtain ⟨c, rfl⟩ := PixelBit.mem_pixelPairs.1 hq'
    exact ⟨c, rfl⟩
  · rintro ⟨c, rfl⟩
    exact List.mem_map.2 ⟨_, PixelBit.mem_pixelPairs.2 ⟨c, rfl⟩, rfl⟩

end

/-- Settles O57: the copy goes from the place of each bit in the full image to its place in the reduced images. -/
theorem interlaceGathersEveryPixel : Obligations.InterlaceGathersEveryPixel := by
  intro s r w h b base reduced full failed hlegal hok
  have hcopies := adam7Interlace_copies rfl rfl rfl hlegal hok
  refine ⟨hcopies.trunc, hcopies.dstFull, fun hsrc hdst => ?_⟩
  obtain ⟨m, hexec, himage⟩ := hcopies.completes hsrc hdst
  exact ⟨m, hexec, fun p i j k hi hj hk => himage.copied ⟨p, i, j, k, hi, hj, hk⟩,
    fun n hn hnone => himage.cleared n hn fun c hc => hnone (PixelBit.covered_iff.2 ⟨c, hc.symm⟩), himage.frame⟩

/-- Settles O58: the copy goes back, and no pixel covers a bit above the last pixel. -/
theorem deinterlaceScattersEveryPixel : Obligations.DeinterlaceScattersEveryPixel := by
  intro s r w h b base reduced full failed hlegal hok
  have hcopies := adam7Deinterlace_copies rfl rfl rfl hlegal hok
  refine ⟨hcopies.trunc, hcopies.dstFull, fun hsrc hdst => ?_⟩
  obtain ⟨m, hexec, himage⟩ := hcopies.completes hsrc hdst
  exact ⟨m, hexec, fun p i j k hi hj hk => himage.copied ⟨p, i, j, k, hi, hj, hk⟩,
    fun n hle hn => himage.cleared n hn fun c hc => Nat.not_lt.2 hle (hc ▸ c.full_lt), himage.frame⟩

/-- Settles O59: each bit of a pixel returns to the place it came from; every bit of the full image is one of a pixel, and a bit of
the reduced images that is not is 0 before and after. -/
theorem interlaceRoundTrips : Obligations.InterlaceRoundTrips := by
  intro s t u r w h b reduced full src out hw hh hb herr
  have hlegal (hs : Adam7Legal r) : Adam7Legal u.operands := by rwa [Adam7Legal, hw, hh, hb]
  refine ⟨fun ht hsrc hdst hok hbytes => ?_, fun ht hpad hsrc hdst hok hbytes => ?_⟩
  · obtain ⟨hs, hoks, hsrcs, hdsts⟩ := copyPixels_noError exec_adam7Interlace ht herr
    obtain ⟨m, hm, himage⟩ := (adam7Interlace_copies rfl rfl rfl hs hoks).completes hsrcs hdsts
    obtain rfl : t = _ := Host.Outcome.next.inj (ht.symm.trans hm)
    obtain ⟨m', hx, himage'⟩ := (adam7Deinterlace_copies (congrArg _ hw) (congrArg _ hh) hb (hlegal hs) hok).completes hsrc hdst
    refine ⟨_, hx, rfl, fun k hk => ?_, fun k hle hk => himage'.cleared k hk fun c hc => Nat.not_lt.2 hle (hc ▸ c.full_lt)⟩
    obtain ⟨c, rfl⟩ := PixelBit.exists_full hk
    exact himage.back himage' hbytes PixelBit.reduced_lt c
  · obtain ⟨hs, hoks, hsrcs, hdsts⟩ := copyPixels_noError exec_adam7Deinterlace ht herr
    obtain ⟨m, hm, himage⟩ := (adam7Deinterlace_copies rfl rfl rfl hs hoks).completes hsrcs hdsts
    obtain rfl : t = _ := Host.Outcome.next.inj (ht.symm.trans hm)
    obtain ⟨m', hx, himage'⟩ := (adam7Interlace_copies (congrArg _ hw) (congrArg _ hh) hb (hlegal hs) hok).completes hsrc hdst
    refine ⟨_, hx, rfl, fun k hk => ?_⟩
    by_cases hc : ∃ c : PixelBit w h b, c.reduced = k
    · obtain ⟨c, rfl⟩ := hc
      exact himage.back himage' hbytes PixelBit.full_lt_fullBytes c
    · have hnone := not_exists.1 hc
      rw [hpad k hk fun hcov => hc ((PixelBit.covered_iff.1 hcov).imp fun _ => Eq.symm)]
      exact himage'.cleared k hk hnone

end Sys2Proof.Machine
end

section
/-! Exceptions (60_exceptions.md): what sets and clears `OVERRUN`, what a pre-check failure leaves unchanged, and the interrupt
output. -/

namespace Sys2Proof.Machine

/-! ## The interrupt output -/

/-- Settles O11: the four bits are `DONE` and `OVERRUN` of `STATUS` and the two enables of `IRQ_EN`. -/
theorem interruptFollowsItsFourBits : Obligations.InterruptFollowsItsFourBits := by
  intro s
  obtain ⟨-, hdone, -, hoverrun⟩ := s.status.toWord_flags
  simp only [State.readReg, State.irq, Regs.doneIe, Regs.overrunIe, hdone, hoverrun]

/-! ## Pre-check failures -/

/-- Settles O22: a command that ends with a pre-check error failed its argument checks or its region checks, and there it frees
nothing. -/
theorem preCheckFailuresArePrecise : Obligations.PreCheckFailuresArePrecise := by
  intro i s
  rcases exec_cases i s with ⟨e, -, -, ht⟩ | ⟨-, e, -, ht⟩ | ⟨-, -, ⟨e, hlate, ht⟩ | ⟨p, -, ht⟩⟩ <;>
    refine ⟨_, ht, fun f hf hpre => ?_⟩
  · exact ⟨rfl, fun _ => s.readReg_fail_nil e none⟩
  · exact ⟨rfl, fun _ => s.readReg_fail_nil e none⟩
  · obtain rfl : e = f := by simpa using hf
    rw [hlate] at hpre
    cases hpre
  · simp at hf

/-! ## `OVERRUN` -/

/-- While busy, a write of `CMD` or of a setting sets `OVERRUN` and does nothing else (10_state.md R42). -/
theorem State.hostWriteReg_busy {s : State} {reg : Reg} (hb : s.status.busy = true) (h : reg = .cmd ∨ reg.isSetting = true)
    (v : Word) : s.hostWriteReg (some reg) v = { s with status := s.status.overran } := by
  rcases h with rfl | hset
  · rw [State.hostWriteReg_cmd, if_pos hb]
  · rw [State.hostWriteReg_setting s v hset, if_pos hb]

/-- No completion touches `OVERRUN` (R327). -/
theorem exec_overrun (i : Instr) (s : State) : ∃ t, exec i s = .next t ∧ t.status.overrun = s.status.overrun := by
  rcases exec_completions i s with ⟨e, ws, dst, -, ht⟩ | ⟨p, -, ht⟩ <;> exact ⟨_, ht, rfl⟩

theorem engineTurn_overrun {s t : State} (h : engineTurn s = .next t) : t.status.overrun = s.status.overrun := by
  cases hb : s.status.busy with
  | false =>
    obtain rfl := Host.Outcome.next.inj ((engineTurn_idle hb).symm.trans h)
    rfl
  | true =>
    cases hd : decode s.operands.cmd with
    | error e =>
      obtain rfl := Host.Outcome.next.inj ((engineTurn_illegal hb hd).symm.trans h)
      rfl
    | ok i =>
      obtain ⟨u, hu, hover⟩ := exec_overrun i s
      obtain rfl := Host.Outcome.next.inj (hu.symm.trans ((engineTurn_legal hb hd).symm.trans h))
      exact hover

/-- A register write clears `OVERRUN` only as a W1C write of bit 3 of `STATUS` (R327). -/
theorem State.hostWriteReg_clears_overrun {s : State} {reg : Option Reg} {v : Word} (hs : s.status.overrun = true)
    (h : (s.hostWriteReg reg v).status.overrun = false) : reg = some .status ∧ v.getLsbD 3 = true := by
  have hkept : (s.hostWriteReg reg v).status.overrun ≠ s.status.overrun := by simp [h, hs]
  cases reg with
  | none => exact absurd rfl hkept
  | some reg =>
    rcases reg.kinds with rfl | rfl | rfl | hset | hro
    · exact ⟨rfl, by simpa [hs] using h⟩
    · exact absurd rfl hkept
    · rw [State.hostWriteReg_cmd] at h
      split at h
      · cases h
      · exact absurd hs (by simpa using h)
    · rw [State.hostWriteReg_setting s v hset] at h
      split at h
      · cases h
      · exact absurd hs (by simpa using h)
    · exact absurd (by rw [State.hostWriteReg_readOnly s v hro]) hkept

/-- The bank's map the other way: an aligned offset that holds `STATUS` is its offset (10_state.md R20). -/
theorem eq_offset_of_regAt_status {off : Nat} (hal : off % 4 = 0) (h : regAt off = some .status) : off = 0x00C := by
  have hlow : off / 4 < 26 := by
    by_contra hge
    simp only [regAt, if_neg hge] at h
    repeat' split at h
    all_goals cases h
  have hname : bankNames[off / 4]? = some .status := by simpa only [regAt, if_pos hlow] using h
  have hplace : ∀ n < 26, bankNames[n]? = some .status → n = 3 := by decide
  have hindex : off / 4 = 3 := hplace _ hlow hname
  omega

/-- A host write that changes `STATUS` is an aligned 32-bit write to a place of the bank. -/
theorem hostWrite_register {s t : State} {addr v : Word} {size : Nat} (h : hostWrite s addr size v = .next t)
    (hs : t.status ≠ s.status) : ∃ off, s.bankOffset addr = some off ∧ size = 4 ∧ off % 4 = 0 ∧
      t = { s.hostWriteReg (regAt off) v with resp := .written } := by
  unfold hostWrite at h
  split at h
  · cases h
  · next off hoff =>
    split at h <;> cases h
    · next hal =>
      obtain ⟨hsize, hmod⟩ : size = 4 ∧ off % 4 = 0 := by simpa [alignedWordAccess] using hal
      exact ⟨off, hoff, hsize, hmod, rfl⟩
    · exact absurd rfl hs

/-- Of all events only a W1C write of bit 3 of `STATUS` and reset clear `OVERRUN` (R327). -/
theorem perform_clears_overrun {s t : State} {e : Event} (ht : perform e s = .next t) (hs : s.status.overrun = true)
    (hclear : t.status.overrun = false) :
    e = .reset ∨ ∃ addr v, e = .regWrite addr 4 v ∧ s.bankOffset addr = some 0x00C ∧ v.getLsbD 3 = true := by
  have hdiff : t.status.overrun ≠ s.status.overrun := by simp [hclear, hs]
  have hstatus : t.status ≠ s.status := fun h => hdiff (congrArg Status.overrun h)
  cases e with
  | regRead addr size =>
    rcases hostRead_cases ht with ⟨_ | reg, rfl⟩ | rfl
    · exact absurd rfl hstatus
    · obtain ⟨-, hsame, -⟩ := s.hostReadReg_frame reg
      exact absurd hsame hstatus
    · exact absurd rfl hstatus
  | regWrite addr size v =>
    obtain ⟨off, hoff, rfl, hal, rfl⟩ := hostWrite_register ht hstatus
    obtain ⟨hreg, hbit⟩ := State.hostWriteReg_clears_overrun hs hclear
    exact .inr ⟨addr, v, rfl, eq_offset_of_regAt_status hal hreg ▸ hoff, hbit⟩
  | memRead a => rcases memRead_cases ht with ⟨resp, rfl⟩ | ⟨resp, rfl⟩ <;> exact absurd rfl hstatus
  | memWrite a b =>
    obtain ⟨rfl, -⟩ := memWrite_cases ht
    exact absurd rfl hstatus
  | complete => exact absurd (engineTurn_overrun ht) hdiff
  | reset => exact .inl rfl

/-- Settles O9: a forbidden write is `State.hostWriteReg_busy`, a completion keeps the bit, and no other event clears it. -/
theorem writesWhileBusySetOverrun : Obligations.WritesWhileBusySetOverrun := by
  refine ⟨fun s addr v reg hb hreg ha => ?_, exec_overrun, fun _ _ => rfl, fun s addr v ha => ?_, fun s => ⟨_, rfl, rfl⟩,
    fun s t e ht hs hclear => perform_clears_overrun ht hs hclear⟩
  · have hwrite := hostWrite_reg (v := v) ha
    rw [State.hostWriteReg_busy hb (hreg.imp_right (Reg.isSetting_of_mem_settings reg))] at hwrite
    exact ⟨_, hwrite, rfl, rfl, rfl, rfl⟩
  · exact ⟨_, hostWrite_reg (reg := .status) ha, rfl⟩

end Sys2Proof.Machine
end

section
/-! Reset and hazards (70_reset_and_hazards.md R360 to R373): what reset leaves behind, idle and busy, how every run of events ends,
and the hidden state that no command reads. -/

namespace Sys2Proof.Machine

/-! ## Registers after reset -/

/-- Any state with the reset bank and the reset `STATUS` reads the values of 10_state.md R20. -/
theorem State.readReg_of_reset {s : State} (hr : s.regs = Regs.reset) (hs : s.status = Status.reset) (reg : Reg) :
    s.readReg reg = resetValue reg := by
  cases reg with
  | status => exact congrArg Status.toWord hs
  | passW k | passH k | fstart k | pstart k | ustart k =>
    simp only [State.readReg, hr]
    exact Vector.getElem_replicate k.isLt
  | _ => simp only [State.readReg, hr]; rfl

/-- Settles O15: reset and the state at start have the same bank and the same `STATUS`. -/
theorem resetGivesEveryRegisterItsValue : Obligations.ResetGivesEveryRegisterItsValue :=
  ⟨fun _ reg => ⟨_, rfl, State.readReg_of_reset rfl rfl reg⟩, State.readReg_of_reset rfl rfl⟩

/-! ## Reset while a command is running -/

theorem State.runningDst_none {s : State} (h : s.running = none) : s.runningDst = none := by
  rw [State.runningDst, h, Option.bind_none]

theorem State.runningDst_eq {s : State} {i : Instr} (hb : s.status.busy = true) (hd : decode s.operands.cmd = .ok i) :
    s.runningDst = dstRegion i s.operands := by
  rw [State.runningDst, State.running_eq hb hd, Option.bind_some]

/-- A byte of a region that becomes free holds the draw's byte of its place, up to the top of memory (log 15). -/
theorem Memory.read_free_inside (m : Memory) (d : Region) (draw : Nat) {k : Nat} (hk : k < d.len) (htop : d.base + k < 2 ^ 32) :
    (m.free d draw).read (d.base + k) = Config.freeByte draw k := by
  have hlen : k < ((List.range d.len).map (Config.freeByte draw)).length := by simpa using hk
  rw [Memory.free, Memory.read_writeBytes_inside m d.base k _ hlen htop]
  simp

/-- What reset does to memory: the bytes of `dst` become free. -/
theorem State.read_resetEngine_inside (s : State) {dst : Option Region} {d : Region} (hd : d ∈ dst) {k : Nat} (hk : k < d.len)
    (htop : d.base + k < 2 ^ 32) : (s.resetEngine dst).mem.read (d.base + k) = Config.freeByte s.draws k := by
  obtain rfl : dst = some d := hd
  exact s.mem.read_free_inside d s.draws hk htop

/-- What reset leaves of memory: every byte outside `dst`. -/
theorem State.read_resetEngine_outside (s : State) {dst : Option Region} {a : Nat} (h : ∀ d ∈ dst, d.covers a = false) :
    (s.resetEngine dst).mem.read a = s.mem.read a := by
  cases dst with
  | none => rfl
  | some d => exact s.mem.read_free_outside d s.draws a (h d rfl)

/-- Settles O16: reset frees the DST region of the command that runs, and with none running it leaves memory as it was. -/
theorem resetAbandonsTheCommand : Obligations.ResetAbandonsTheCommand := by
  refine ⟨fun s h => ⟨_, rfl, ?_⟩, fun s i hb hd => ⟨_, rfl, rfl, rfl, rfl, State.readReg_of_reset rfl rfl, ?_⟩⟩
  · rw [State.runningDst_none h]
    rfl
  · rw [State.runningDst_eq hb hd]
    exact ⟨fun d hd k hk htop => s.read_resetEngine_inside hd hk htop, fun a h => s.read_resetEngine_outside h⟩

/-! ## The events to come -/

/-- The engine's transition leaves the engine idle, and leaves what lies outside it and the memory (40_control.md R142 to R144). -/
theorem engineTurn_idles (s : State) :
    ∃ t, engineTurn s = .next t ∧ t.status.busy = false ∧ t.platform = s.platform ∧ t.agenda = s.agenda := by
  cases hb : s.status.busy with
  | false => exact ⟨s, engineTurn_idle hb, hb, rfl, rfl⟩
  | true =>
    cases hd : decode s.operands.cmd with
    | error e => exact ⟨_, engineTurn_illegal hb hd, rfl, rfl, rfl⟩
    | ok i =>
      obtain ⟨t, ht, hidle, -, -, -, -, -, -, hplatform, hagenda, -⟩ := everyCommandCompletes i s
      exact ⟨t, (engineTurn_legal hb hd).trans ht, hidle, hplatform, hagenda⟩

section
variable {s t : State}

/-- Every event that no state refuses answers a next state. -/
theorem perform_next {e : Event} (h : e.neverRefused s) : ∃ t, perform e s = .next t := by
  cases e with
  | regRead addr size =>
    obtain ⟨off, hoff⟩ := Option.isSome_iff_exists.1 h
    simp only [perform, hostRead, hoff]
    split <;> exact ⟨_, rfl⟩
  | regWrite addr size v =>
    obtain ⟨off, hoff⟩ := Option.isSome_iff_exists.1 h
    simp only [perform, hostWrite, hoff]
    split <;> exact ⟨_, rfl⟩
  | memRead a =>
    have ha : ¬ Config.addrSpace ≤ a := Nat.not_le.2 h
    simp only [perform, memRead, if_neg ha]
    split <;> exact ⟨_, rfl⟩
  | memWrite a b => exact h.elim
  | complete => exact engineTurn_next s
  | reset => exact ⟨_, rfl⟩

theorem State.hostReadReg_outside (s : State) (reg : Option Reg) :
    (s.hostReadReg reg).platform = s.platform ∧ (s.hostReadReg reg).agenda = s.agenda := by
  cases reg with
  | none => exact ⟨rfl, rfl⟩
  | some reg =>
    rw [State.hostReadReg_some]
    split <;> exact ⟨rfl, rfl⟩

theorem State.hostWriteReg_outside (s : State) (reg : Option Reg) (v : Word) :
    (s.hostWriteReg reg v).platform = s.platform ∧ (s.hostWriteReg reg v).agenda = s.agenda := by
  cases reg with
  | none => exact ⟨rfl, rfl⟩
  | some reg =>
    rcases reg.kinds with rfl | rfl | rfl | hset | hro
    · exact ⟨rfl, rfl⟩
    · exact ⟨rfl, rfl⟩
    · rw [State.hostWriteReg_cmd]
      split <;> exact ⟨rfl, rfl⟩
    · rw [State.hostWriteReg_setting s v hset]
      split <;> exact ⟨rfl, rfl⟩
    · rw [State.hostWriteReg_readOnly s v hro]
      exact ⟨rfl, rfl⟩

/-- No event changes the platform (00_scope.md R12) or the events after it. -/
theorem perform_outside {e : Event} (ht : perform e s = .next t) : t.platform = s.platform ∧ t.agenda = s.agenda := by
  cases e with
  | regRead addr size =>
    rcases hostRead_cases ht with ⟨reg, rfl⟩ | rfl
    · exact s.hostReadReg_outside reg
    · exact ⟨rfl, rfl⟩
  | regWrite addr size v =>
    rcases hostWrite_cases ht with ⟨reg, rfl⟩ | rfl
    · exact s.hostWriteReg_outside reg v
    · exact ⟨rfl, rfl⟩
  | memRead a => rcases memRead_cases ht with ⟨resp, rfl⟩ | ⟨resp, rfl⟩ <;> exact ⟨rfl, rfl⟩
  | memWrite a b =>
    obtain ⟨rfl, -⟩ := memWrite_cases ht
    exact ⟨rfl, rfl⟩
  | complete =>
    obtain ⟨u, hu, -, hplatform, hagenda⟩ := engineTurn_idles s
    obtain rfl := Host.Outcome.next.inj (hu.symm.trans ht)
    exact ⟨hplatform, hagenda⟩
  | reset =>
    cases ht
    exact ⟨rfl, rfl⟩

/-- Whether an event can be refused depends on the platform alone. -/
theorem Event.neverRefused_congr {e : Event} (hp : t.platform = s.platform) (h : e.neverRefused s) : e.neverRefused t := by
  cases e with
  | regRead addr size | regWrite addr size v =>
    have hoff : t.bankOffset addr = s.bankOffset addr := by simp only [State.bankOffset, hp]
    exact (congrArg Option.isSome hoff).trans h
  | _ => exact h

theorem run_succ (k : Nat) (h : step s = .next t) : Host.Core.run core (k + 1) s = Host.Core.run core k t := by
  have hstep : core.step s = .next t := h
  simp only [Host.Core.run, hstep]

/-- A run over the events to come, and one step more. -/
theorem run_events_ends_idle (events : List Event) (ha : s.agenda = events) (h : ∀ e ∈ events, e.neverRefused s) :
    ∃ t : State, Host.Core.run core (events.length + 1) s = .next t ∧ t.status.busy = false ∧ t.agenda = [] := by
  induction events generalizing s with
  | nil =>
    obtain ⟨t, ht, hidle, -, hagenda⟩ := engineTurn_idles s
    exact ⟨t, run_succ 0 ((step_nil ha).trans ht), hidle, hagenda.trans ha⟩
  | cons e rest ih =>
    obtain ⟨he, hrest⟩ := List.forall_mem_cons.1 h
    obtain ⟨u, hu⟩ := perform_next (s := { s with agenda := rest }) (Event.neverRefused_congr rfl he)
    obtain ⟨hplatform, hagenda⟩ := perform_outside hu
    rw [List.length_cons, run_succ _ ((step_cons ha).trans hu)]
    exact ih hagenda fun e he => Event.neverRefused_congr hplatform (hrest e he)

end

/-- Settles O25, by induction on the events to come. -/
theorem everyRunEndsIdle : Obligations.EveryRunEndsIdle := fun s h => run_events_ends_idle s.agenda rfl h

/-! ## The hidden state -/

/-- With its checks and its execution given, a command reads no hidden state: every completion writes one of its own (R362). -/
theorem runCommand_withHidden (i : Instr) (s : State) (h : Hidden) (args : Except ErrCode Unit)
    (body : Unit → Except ErrCode (Regs × Memory)) : runCommand i { s with hidden := h } args body = runCommand i s args body := rfl

/-- Settles O26: each command takes its checks and its execution from the operands, the bank and memory. -/
theorem hiddenStateNeverReachesAResult : Obligations.HiddenStateNeverReachesAResult := by
  intro i s h
  cases i <;>
    simp only [exec, execNop, execBitsPut, execBitsGet, execLz77Tokenize, execHuffBuildFreq, execHuffBuildLengths,
      execHuffEncodeSym, execHuffDecodeSym, execTreeWrite, execTreeRead, execDeflateRaw, execInflateRaw, execZlibCompress,
      execZlibDecompress, execAdler32, execAdam7Geometry, execAdam7Interlace, execAdam7Deinterlace] <;>
    exact runCommand_withHidden _ s h ..

end Sys2Proof.Machine
end
